-- ==== Sys2Proof/Word.lean ====
section
/-! DEFINITION. The word types of QRCE: 32-bit registers and command words (00_scope R7, R8), bytes of data
memory and elements of the field GF(2^8) (20_memory R62, 43_gf256 R170). -/

namespace Sys2Proof

/-- A 32-bit unsigned word: an x register, a command, the pc (10_state R21, R25; 30_encoding R80). -/
abbrev Word := BitVec 32

/-- A byte: a cell of DM, an element of a p register, an element of GF(2^8) (10_state R23, R43). -/
abbrev Byte := BitVec 8

end Sys2Proof
end

