-- ==== Sys2Proof/Syntax.lean ====
section
/-! DEFINITION. The 66 commands of QRCE (30_encoding R88, R95), one constructor per row of
spec/opcode_table.json, with the control and status registers a command can name (10_state R29). -/

namespace Sys2Proof

/-- An x register field: x0..x15 (30_encoding R82). -/
abbrev XReg := Fin 16

/-- A p register field: p0..p7; the field values 8..15 are illegal and have no term here (30_encoding R93). -/
abbrev PReg := Fin 8

/-- The defined control and status registers (10_state R29). -/
inductive Csr where
  | id | ctrl | status | ie | pc | cause | epc | tval
  | version | ecl | mask | alncnt
  | aln (i : Fin 7)
  | g1cnt | g1tot | g1dat | g2cnt | g2tot | g2dat
  | wbase | wlen | rbase | rpos | rlim
  deriving DecidableEq, Repr

/-- The commands. Operands stand in field order a, b, c, d, e, then the immediate or target (30_encoding R95). -/
inductive Instr where
  -- 40_control
  | nop
  | halt
  | jmp (target : BitVec 10)
  | bz (a : XReg) (target : BitVec 10)
  | bnz (a : XReg) (target : BitVec 10)
  | bltu (a b : XReg) (target : BitVec 10)
  | csrr (a : XReg) (c : Csr)
  | csrw (c : Csr) (a : XReg)
  -- 41_scalar
  | li (a : XReg) (imm : BitVec 16)
  | lih (a : XReg) (imm : BitVec 16)
  | addi (a b : XReg) (imm : BitVec 16)
  | add (a b c : XReg)
  | sub (a b c : XReg)
  | and (a b c : XReg)
  | or (a b c : XReg)
  | xor (a b c : XReg)
  | slli (a b : XReg) (sh : BitVec 5)
  | srli (a b : XReg) (sh : BitVec 5)
  -- 42_loadstore
  | lb (a b : XReg) (imm : BitVec 16)
  | sb (a b : XReg) (imm : BitVec 16)
  | pld (a : PReg) (b c : XReg)
  | pst (a : PReg) (b : XReg)
  | plen (a : XReg) (b : PReg)
  | pmov (a b : PReg)
  -- 43_gf256
  | gfadd (a b c : XReg)
  | gfmul (a b c : XReg)
  | gfinv (a b : XReg)
  | gfexp (a b : XReg)
  | gflog (a b : XReg)
  -- 44_polynomial
  | pnorm (a b : PReg)
  | pdeg (a : XReg) (b : PReg)
  | pcoef (a : XReg) (b : PReg) (c : XReg)
  | peval (a : XReg) (b : PReg) (c : XReg)
  | pmul (a b c : PReg)
  | pmulm (a b : PReg) (c d : XReg)
  | padd (a b c : PReg)
  | pmod (a b c : PReg)
  | pmono (a : PReg) (b c : XReg)
  -- 45_reed_solomon
  | rsgen (a : PReg) (b : XReg)
  | rsenc (a b : PReg) (c : XReg)
  | rssyn (a : XReg) (b c : PReg) (d : XReg)
  | rseuc (a : XReg) (b c d : PReg) (e : XReg)
  | rschn (a : XReg) (b c : PReg)
  | rsfrn (a b c : PReg)
  | rscor (a : XReg) (b c d e : PReg)
  | rsdec (a b : XReg) (c d : PReg) (e : XReg)
  -- 46_bitstream
  | bput (a b : XReg)
  | blen (a : XReg)
  | bpad (a : XReg)
  | bread (a b : XReg)
  | bavl (a : XReg)
  -- 47_codeword_bch
  | cwenc (a b : XReg)
  | bchf (a b : XReg)
  | bchv (a b : XReg)
  -- 48_matrix
  | mxclr
  | mxfnd
  | mxaln
  | mxtim
  | mxfmt (test : Bool)
  | mxver (test : Bool)
  | mxdat (a b : XReg)
  | mxpen (a : XReg)
  | mxbld (a b c d : XReg)
  | mxget (a b c : XReg)
  | mxmsk (a b c d : XReg)
  | mxout (a : XReg)
  deriving DecidableEq, Repr

end Sys2Proof
end

