-- ==== Sys2Proof/WellFormed.lean ====
section
/-! DEFINITION. The static checks of 30_encoding R92 and R93 that relate the parts of a command and are not
already in the types of its operands (a shift below 32, a 10-bit target, a p field below 8 and a test of 0 or 1
are): the access rights of a CSR (10_state R31, R32) and the two distinct destinations of R93. -/

namespace Sys2Proof

/-- CSRR may read every defined CSR except CTRL (10_state R32). -/
def Csr.engineReadable : Csr → Bool
  | .ctrl => false
  | _ => true

/-- CSRW may write only the CSRs 0x10 to 0x2E that are defined (10_state R32, 40_control R118). -/
def Csr.engineWritable : Csr → Bool
  | .id | .ctrl | .status | .ie | .pc | .cause | .epc | .tval => false
  | _ => true

/-- The command passes the static checks of 30_encoding R92 and R93. -/
def Instr.wf : Instr → Bool
  | .csrr _ c => c.engineReadable
  | .csrw c _ => c.engineWritable
  | .rseuc _ b c _ _ => b != c
  | .rsdec a b _ _ _ => a != b
  | .mxbld a b _ _ => a != b
  | _ => true

end Sys2Proof
end

