-- ==== Sys2Proof/Decode.lean ====
section
/-! DEFINITION. Decoding of a 32-bit command word (30_encoding R80 to R95), total, rejecting by name in the order
of R94, and after it the encoder written from the same tables. -/

namespace Sys2Proof

/-- Why a word is no command: the rule it breaks, in the order R94 examines them. Every one of them is the fault
IllegalCommand (60_exceptions R350). -/
inductive Illegal where
  /-- An opcode R88 does not list (R90). -/
  | reservedOpcode
  /-- A set bit where the format or the command's roles say zero (R91). -/
  | reservedBits
  /-- A shift of 32 or more, a target above 10 bits, a test other than 0 or 1, a CSR out of reach (R92). -/
  | badImmediate
  /-- A p field above 7, or two destinations that are one register (R93). -/
  | badRegister
  deriving DecidableEq, Repr

/-- `w[lo+len-1 : lo]` as an unsigned number (00_scope R9). -/
def field (w : Word) (lo len : Nat) : Nat := w.toNat / 2 ^ lo % 2 ^ len

/-- An x register field at bit `lo` (R82). -/
def xField (w : Word) (lo : Nat) : XReg := Fin.ofNat 16 (field w lo 4)

/-- A p register field at bit `lo`; values 8 to 15 are illegal (R82, R93). -/
def pField (w : Word) (lo : Nat) : Except Illegal PReg :=
  if h : field w lo 4 < 8 then .ok ⟨field w lo 4, h⟩ else .error .badRegister

/-- The bits the format or R95 leaves unused are zero (R91). -/
def zeroBits (w : Word) (lo len : Nat) : Except Illegal Unit :=
  if field w lo len = 0 then .ok () else .error .reservedBits

/-- `imm16 = w[15:0]` (R86). -/
def immField (w : Word) : BitVec 16 := BitVec.ofNat 16 (field w 0 16)

/-- The branch target `w[9:0]`, with `w[15:10] = 0` (R87, R92). -/
def targetField (w : Word) : Except Illegal (BitVec 10) :=
  if field w 10 6 = 0 then .ok (BitVec.ofNat 10 (field w 0 10)) else .error .badImmediate

/-- A shift amount below 32 (R86, R92). -/
def shiftField (w : Word) : Except Illegal (BitVec 5) :=
  if field w 0 16 < 32 then .ok (BitVec.ofNat 5 (field w 0 16)) else .error .badImmediate

/-- The test immediate of MXFMT and MXVER in field a, 0 or 1 (R92). -/
def testField (w : Word) : Except Illegal Bool :=
  if field w 20 4 = 0 then .ok false else if field w 20 4 = 1 then .ok true else .error .badImmediate

/-- Two destination fields of one file name different registers (R93). -/
def distinct {n : Nat} (i j : Fin n) : Except Illegal Unit :=
  if i = j then .error .badRegister else .ok ()

/-- The CSR numbers of 10_state R29. -/
def Csr.number : Csr → Nat
  | .id => 0x00
  | .ctrl => 0x01
  | .status => 0x02
  | .ie => 0x03
  | .pc => 0x04
  | .cause => 0x05
  | .epc => 0x06
  | .tval => 0x07
  | .version => 0x10
  | .ecl => 0x11
  | .mask => 0x12
  | .alncnt => 0x13
  | .aln i => 0x14 + i
  | .g1cnt => 0x20
  | .g1tot => 0x21
  | .g1dat => 0x22
  | .g2cnt => 0x23
  | .g2tot => 0x24
  | .g2dat => 0x25
  | .wbase => 0x28
  | .wlen => 0x29
  | .rbase => 0x2C
  | .rpos => 0x2D
  | .rlim => 0x2E

/-- The defined CSR of a number; every other number is reserved or does not exist (10_state R29, R31). -/
def Csr.ofNumber : Nat → Option Csr
  | 0x00 => some .id
  | 0x01 => some .ctrl
  | 0x02 => some .status
  | 0x03 => some .ie
  | 0x04 => some .pc
  | 0x05 => some .cause
  | 0x06 => some .epc
  | 0x07 => some .tval
  | 0x10 => some .version
  | 0x11 => some .ecl
  | 0x12 => some .mask
  | 0x13 => some .alncnt
  | 0x14 => some (.aln 0)
  | 0x15 => some (.aln 1)
  | 0x16 => some (.aln 2)
  | 0x17 => some (.aln 3)
  | 0x18 => some (.aln 4)
  | 0x19 => some (.aln 5)
  | 0x1A => some (.aln 6)
  | 0x20 => some .g1cnt
  | 0x21 => some .g1tot
  | 0x22 => some .g1dat
  | 0x23 => some .g2cnt
  | 0x24 => some .g2tot
  | 0x25 => some .g2dat
  | 0x28 => some .wbase
  | 0x29 => some .wlen
  | 0x2C => some .rbase
  | 0x2D => some .rpos
  | 0x2E => some .rlim
  | _ => none

/-- A CSR number the engine may access in the direction `rights` (R92, 10_state R32). -/
def csrField (w : Word) (rights : Csr → Bool) : Except Illegal Csr :=
  match Csr.ofNumber (field w 0 16) with
  | some c => if rights c then .ok c else .error .badImmediate
  | none => .error .badImmediate

/-- The decoder: the command of a word, or the first of R90 to R93 it breaks (R88, R94, R95). -/
def decode (w : Word) : Except Illegal Instr :=
  match field w 24 8 with
  | 0x01 => do zeroBits w 0 24; return .nop
  | 0x02 => do zeroBits w 0 24; return .halt
  | 0x03 => do zeroBits w 16 8; let t ← targetField w; return .jmp t
  | 0x04 => do zeroBits w 16 4; let t ← targetField w; return .bz (xField w 20) t
  | 0x05 => do zeroBits w 16 4; let t ← targetField w; return .bnz (xField w 20) t
  | 0x06 => do let t ← targetField w; return .bltu (xField w 20) (xField w 16) t
  | 0x08 => do zeroBits w 16 4; let c ← csrField w Csr.engineReadable; return .csrr (xField w 20) c
  | 0x09 => do zeroBits w 16 4; let c ← csrField w Csr.engineWritable; return .csrw c (xField w 20)
  | 0x10 => do zeroBits w 16 4; return .li (xField w 20) (immField w)
  | 0x11 => do zeroBits w 16 4; return .lih (xField w 20) (immField w)
  | 0x12 => return .addi (xField w 20) (xField w 16) (immField w)
  | 0x13 => do zeroBits w 0 12; return .add (xField w 20) (xField w 16) (xField w 12)
  | 0x14 => do zeroBits w 0 12; return .sub (xField w 20) (xField w 16) (xField w 12)
  | 0x15 => do zeroBits w 0 12; return .and (xField w 20) (xField w 16) (xField w 12)
  | 0x16 => do zeroBits w 0 12; return .or (xField w 20) (xField w 16) (xField w 12)
  | 0x17 => do zeroBits w 0 12; return .xor (xField w 20) (xField w 16) (xField w 12)
  | 0x18 => do let sh ← shiftField w; return .slli (xField w 20) (xField w 16) sh
  | 0x19 => do let sh ← shiftField w; return .srli (xField w 20) (xField w 16) sh
  | 0x20 => return .lb (xField w 20) (xField w 16) (immField w)
  | 0x21 => return .sb (xField w 20) (xField w 16) (immField w)
  | 0x22 => do zeroBits w 0 12; let a ← pField w 20; return .pld a (xField w 16) (xField w 12)
  | 0x23 => do zeroBits w 0 16; let a ← pField w 20; return .pst a (xField w 16)
  | 0x24 => do zeroBits w 0 16; let b ← pField w 16; return .plen (xField w 20) b
  | 0x25 => do zeroBits w 0 16; let a ← pField w 20; let b ← pField w 16; return .pmov a b
  | 0x30 => do zeroBits w 0 12; return .gfadd (xField w 20) (xField w 16) (xField w 12)
  | 0x31 => do zeroBits w 0 12; return .gfmul (xField w 20) (xField w 16) (xField w 12)
  | 0x32 => do zeroBits w 0 16; return .gfinv (xField w 20) (xField w 16)
  | 0x33 => do zeroBits w 0 16; return .gfexp (xField w 20) (xField w 16)
  | 0x34 => do zeroBits w 0 16; return .gflog (xField w 20) (xField w 16)
  | 0x40 => do zeroBits w 0 16; let a ← pField w 20; let b ← pField w 16; return .pnorm a b
  | 0x41 => do zeroBits w 0 16; let b ← pField w 16; return .pdeg (xField w 20) b
  | 0x42 => do zeroBits w 0 12; let b ← pField w 16; return .pcoef (xField w 20) b (xField w 12)
  | 0x43 => do zeroBits w 0 12; let b ← pField w 16; return .peval (xField w 20) b (xField w 12)
  | 0x44 => do zeroBits w 0 12; let a ← pField w 20; let b ← pField w 16; let c ← pField w 12; return .pmul a b c
  | 0x45 => do zeroBits w 0 8; let a ← pField w 20; let b ← pField w 16; return .pmulm a b (xField w 12) (xField w 8)
  | 0x46 => do zeroBits w 0 12; let a ← pField w 20; let b ← pField w 16; let c ← pField w 12; return .padd a b c
  | 0x47 => do zeroBits w 0 12; let a ← pField w 20; let b ← pField w 16; let c ← pField w 12; return .pmod a b c
  | 0x48 => do zeroBits w 0 12; let a ← pField w 20; return .pmono a (xField w 16) (xField w 12)
  | 0x50 => do zeroBits w 0 16; let a ← pField w 20; return .rsgen a (xField w 16)
  | 0x51 => do zeroBits w 0 12; let a ← pField w 20; let b ← pField w 16; return .rsenc a b (xField w 12)
  | 0x52 => do zeroBits w 0 8; let b ← pField w 16; let c ← pField w 12; return .rssyn (xField w 20) b c (xField w 8)
  | 0x53 => do zeroBits w 0 4; let b ← pField w 16; let c ← pField w 12; let d ← pField w 8; distinct b c; return .rseuc (xField w 20) b c d (xField w 4)
  | 0x54 => do zeroBits w 0 12; let b ← pField w 16; let c ← pField w 12; return .rschn (xField w 20) b c
  | 0x55 => do zeroBits w 0 12; let a ← pField w 20; let b ← pField w 16; let c ← pField w 12; return .rsfrn a b c
  | 0x56 => do zeroBits w 0 4; let b ← pField w 16; let c ← pField w 12; let d ← pField w 8; let e ← pField w 4; return .rscor (xField w 20) b c d e
  | 0x57 => do zeroBits w 0 4; let c ← pField w 12; let d ← pField w 8; distinct (xField w 20) (xField w 16); return .rsdec (xField w 20) (xField w 16) c d (xField w 4)
  | 0x60 => do zeroBits w 0 16; return .bput (xField w 20) (xField w 16)
  | 0x61 => do zeroBits w 0 20; return .blen (xField w 20)
  | 0x62 => do zeroBits w 0 20; return .bpad (xField w 20)
  | 0x63 => do zeroBits w 0 16; return .bread (xField w 20) (xField w 16)
  | 0x64 => do zeroBits w 0 20; return .bavl (xField w 20)
  | 0x68 => do zeroBits w 0 16; return .cwenc (xField w 20) (xField w 16)
  | 0x70 => do zeroBits w 0 16; return .bchf (xField w 20) (xField w 16)
  | 0x71 => do zeroBits w 0 16; return .bchv (xField w 20) (xField w 16)
  | 0x80 => do zeroBits w 0 24; return .mxclr
  | 0x81 => do zeroBits w 0 24; return .mxfnd
  | 0x82 => do zeroBits w 0 24; return .mxaln
  | 0x83 => do zeroBits w 0 24; return .mxtim
  | 0x84 => do zeroBits w 0 20; let t ← testField w; return .mxfmt t
  | 0x85 => do zeroBits w 0 20; let t ← testField w; return .mxver t
  | 0x86 => do zeroBits w 0 16; return .mxdat (xField w 20) (xField w 16)
  | 0x87 => do zeroBits w 0 20; return .mxpen (xField w 20)
  | 0x88 => do zeroBits w 0 8; distinct (xField w 20) (xField w 16); return .mxbld (xField w 20) (xField w 16) (xField w 12) (xField w 8)
  | 0x89 => do zeroBits w 0 12; return .mxget (xField w 20) (xField w 16) (xField w 12)
  | 0x8A => do zeroBits w 0 8; return .mxmsk (xField w 20) (xField w 16) (xField w 12) (xField w 8)
  | 0x8B => do zeroBits w 0 20; return .mxout (xField w 20)
  | _ => .error .reservedOpcode

/-- Format R, and with no operands format N (R83, R84). -/
def formatR (op a b c d e : Nat) : Word :=
  BitVec.ofNat 32 (op * 2 ^ 24 + a * 2 ^ 20 + b * 2 ^ 16 + c * 2 ^ 12 + d * 2 ^ 8 + e * 2 ^ 4)

/-- Format I, and format B with a target in the immediate's place (R85, R87). -/
def formatI (op a b imm : Nat) : Word :=
  BitVec.ofNat 32 (op * 2 ^ 24 + a * 2 ^ 20 + b * 2 ^ 16 + imm)

/-- The word of a command (R83 to R88, R95). -/
def encode : Instr → Word
  | .nop => formatR 0x01 0 0 0 0 0
  | .halt => formatR 0x02 0 0 0 0 0
  | .jmp t => formatI 0x03 0 0 t.toNat
  | .bz a t => formatI 0x04 a 0 t.toNat
  | .bnz a t => formatI 0x05 a 0 t.toNat
  | .bltu a b t => formatI 0x06 a b t.toNat
  | .csrr a c => formatI 0x08 a 0 c.number
  | .csrw c a => formatI 0x09 a 0 c.number
  | .li a imm => formatI 0x10 a 0 imm.toNat
  | .lih a imm => formatI 0x11 a 0 imm.toNat
  | .addi a b imm => formatI 0x12 a b imm.toNat
  | .add a b c => formatR 0x13 a b c 0 0
  | .sub a b c => formatR 0x14 a b c 0 0
  | .and a b c => formatR 0x15 a b c 0 0
  | .or a b c => formatR 0x16 a b c 0 0
  | .xor a b c => formatR 0x17 a b c 0 0
  | .slli a b sh => formatI 0x18 a b sh.toNat
  | .srli a b sh => formatI 0x19 a b sh.toNat
  | .lb a b imm => formatI 0x20 a b imm.toNat
  | .sb a b imm => formatI 0x21 a b imm.toNat
  | .pld a b c => formatR 0x22 a b c 0 0
  | .pst a b => formatR 0x23 a b 0 0 0
  | .plen a b => formatR 0x24 a b 0 0 0
  | .pmov a b => formatR 0x25 a b 0 0 0
  | .gfadd a b c => formatR 0x30 a b c 0 0
  | .gfmul a b c => formatR 0x31 a b c 0 0
  | .gfinv a b => formatR 0x32 a b 0 0 0
  | .gfexp a b => formatR 0x33 a b 0 0 0
  | .gflog a b => formatR 0x34 a b 0 0 0
  | .pnorm a b => formatR 0x40 a b 0 0 0
  | .pdeg a b => formatR 0x41 a b 0 0 0
  | .pcoef a b c => formatR 0x42 a b c 0 0
  | .peval a b c => formatR 0x43 a b c 0 0
  | .pmul a b c => formatR 0x44 a b c 0 0
  | .pmulm a b c d => formatR 0x45 a b c d 0
  | .padd a b c => formatR 0x46 a b c 0 0
  | .pmod a b c => formatR 0x47 a b c 0 0
  | .pmono a b c => formatR 0x48 a b c 0 0
  | .rsgen a b => formatR 0x50 a b 0 0 0
  | .rsenc a b c => formatR 0x51 a b c 0 0
  | .rssyn a b c d => formatR 0x52 a b c d 0
  | .rseuc a b c d e => formatR 0x53 a b c d e
  | .rschn a b c => formatR 0x54 a b c 0 0
  | .rsfrn a b c => formatR 0x55 a b c 0 0
  | .rscor a b c d e => formatR 0x56 a b c d e
  | .rsdec a b c d e => formatR 0x57 a b c d e
  | .bput a b => formatR 0x60 a b 0 0 0
  | .blen a => formatR 0x61 a 0 0 0 0
  | .bpad a => formatR 0x62 a 0 0 0 0
  | .bread a b => formatR 0x63 a b 0 0 0
  | .bavl a => formatR 0x64 a 0 0 0 0
  | .cwenc a b => formatR 0x68 a b 0 0 0
  | .bchf a b => formatR 0x70 a b 0 0 0
  | .bchv a b => formatR 0x71 a b 0 0 0
  | .mxclr => formatR 0x80 0 0 0 0 0
  | .mxfnd => formatR 0x81 0 0 0 0 0
  | .mxaln => formatR 0x82 0 0 0 0 0
  | .mxtim => formatR 0x83 0 0 0 0 0
  | .mxfmt t => formatR 0x84 t.toNat 0 0 0 0
  | .mxver t => formatR 0x85 t.toNat 0 0 0 0
  | .mxdat a b => formatR 0x86 a b 0 0 0
  | .mxpen a => formatR 0x87 a 0 0 0 0
  | .mxbld a b c d => formatR 0x88 a b c d 0
  | .mxget a b c => formatR 0x89 a b c 0 0
  | .mxmsk a b c d => formatR 0x8A a b c d 0
  | .mxout a => formatR 0x8B a 0 0 0 0

/-- The opcode map of R88. -/
def Instr.opcode : Instr → Nat
  | .nop => 0x01
  | .halt => 0x02
  | .jmp _ => 0x03
  | .bz _ _ => 0x04
  | .bnz _ _ => 0x05
  | .bltu _ _ _ => 0x06
  | .csrr _ _ => 0x08
  | .csrw _ _ => 0x09
  | .li _ _ => 0x10
  | .lih _ _ => 0x11
  | .addi _ _ _ => 0x12
  | .add _ _ _ => 0x13
  | .sub _ _ _ => 0x14
  | .and _ _ _ => 0x15
  | .or _ _ _ => 0x16
  | .xor _ _ _ => 0x17
  | .slli _ _ _ => 0x18
  | .srli _ _ _ => 0x19
  | .lb _ _ _ => 0x20
  | .sb _ _ _ => 0x21
  | .pld _ _ _ => 0x22
  | .pst _ _ => 0x23
  | .plen _ _ => 0x24
  | .pmov _ _ => 0x25
  | .gfadd _ _ _ => 0x30
  | .gfmul _ _ _ => 0x31
  | .gfinv _ _ => 0x32
  | .gfexp _ _ => 0x33
  | .gflog _ _ => 0x34
  | .pnorm _ _ => 0x40
  | .pdeg _ _ => 0x41
  | .pcoef _ _ _ => 0x42
  | .peval _ _ _ => 0x43
  | .pmul _ _ _ => 0x44
  | .pmulm _ _ _ _ => 0x45
  | .padd _ _ _ => 0x46
  | .pmod _ _ _ => 0x47
  | .pmono _ _ _ => 0x48
  | .rsgen _ _ => 0x50
  | .rsenc _ _ _ => 0x51
  | .rssyn _ _ _ _ => 0x52
  | .rseuc _ _ _ _ _ => 0x53
  | .rschn _ _ _ => 0x54
  | .rsfrn _ _ _ => 0x55
  | .rscor _ _ _ _ _ => 0x56
  | .rsdec _ _ _ _ _ => 0x57
  | .bput _ _ => 0x60
  | .blen _ => 0x61
  | .bpad _ => 0x62
  | .bread _ _ => 0x63
  | .bavl _ => 0x64
  | .cwenc _ _ => 0x68
  | .bchf _ _ => 0x70
  | .bchv _ _ => 0x71
  | .mxclr => 0x80
  | .mxfnd => 0x81
  | .mxaln => 0x82
  | .mxtim => 0x83
  | .mxfmt _ => 0x84
  | .mxver _ => 0x85
  | .mxdat _ _ => 0x86
  | .mxpen _ => 0x87
  | .mxbld _ _ _ _ => 0x88
  | .mxget _ _ _ => 0x89
  | .mxmsk _ _ _ _ => 0x8A
  | .mxout _ => 0x8B

/-- The instruction the decoder reads from a row of the opcode table: every command is one 32-bit word (R80), whose
bits the table numbers as the word does. -/
def decodeTableWord (nbits w : Nat) : Option Instr :=
  match decode (BitVec.ofNat 32 (w % 2 ^ nbits)) with
  | .ok i => some i
  | .error _ => none

end Sys2Proof
end

