-- ==== Sys2Proof/Config.lean ====
section
/-! DEFINITION. What is fixed for the machine: the parameters of 00_scope R7 and R8, the constant of
10_state R33, and the one free value of the spec, LOG[0] (10_state R46, 93_implementation_defined U3). -/

namespace Sys2Proof.Config

/-- CM_WORDS, the words of command memory (00_scope R8, 10_state R42). -/
def cmWords : Nat := 1024

/-- DM_BYTES, the bytes of data memory (00_scope R8, 10_state R43). -/
def dmBytes : Nat := 16384

/-- MM_DIM: module memory is MM_DIM x MM_DIM cells (00_scope R8, 10_state R44). -/
def mmDim : Nat := 177

/-- PMAX, the most bytes a p register holds (00_scope R8, 10_state R23). -/
def pMax : Nat := 256

/-- RS_NMAX, the longest Reed-Solomon codeword (00_scope R8). -/
def rsNMax : Nat := 255

/-- VMIN and VMAX, the QR versions (00_scope R7). -/
def vMin : Nat := 1
def vMax : Nat := 40

/-- PRIM, the primitive polynomial of GF(2^8) (00_scope R7, 43_gf256 R170). -/
def prim : Nat := 0x11D

/-- G15 and G15_MASK, the format-information generator and its mask (00_scope R7, 30_encoding R108). -/
def g15 : Nat := 0x537
def g15Mask : Nat := 0x5412

/-- G18, the version-information generator (00_scope R7, 30_encoding R108). -/
def g18 : Nat := 0x1F25

/-- PAD0 and PAD1, the padding bytes (00_scope R7, 30_encoding R107). -/
def pad0 : Word := 0xEC
def pad1 : Word := 0x11

/-- The constant of the ID register, ASCII "QRCE" (10_state R33). -/
def idValue : Word := 0x51524345

/-- LOG[0] is undefined and never read (10_state R46); "a model may store anything there and must never
index it" (93_implementation_defined U3): a constant without a body, so no proof can see a value of it. -/
opaque log0 : Nat

end Sys2Proof.Config
end

