-- ==== Sys2Proof/Machine/State.lean ====
section
/-! DEFINITION. The architectural state of QRCE (10_state R20), its reset values (R50), and the reasons the MODEL
stops. The faults of the hardware itself (60_exceptions R350) are no stop of the model: taking one is a next state. -/

namespace Sys2Proof.Machine

/-- A memory: the locations somebody has written, as (address, contents) pairs with strictly rising addresses.
An unlisted location is one nobody has written since hard reset and reads as no value (10_state R50, 20_memory R79,
93_implementation_defined U1; log 1). Data memory is a `Memory Byte`, that is a list of `Host.Cell`. -/
abbrev Memory (α : Type) := List (Nat × α)

/-- The three values of a module-memory cell (10_state R44). Code 1 has no term: the engine never writes it and
the model refuses the host write that would (93_implementation_defined U7; log 6). -/
inductive ModuleCell where
  /-- code 0, not yet written since MXCLR -/
  | unset
  /-- code 2 -/
  | light
  /-- code 3 -/
  | dark
  deriving DecidableEq, Repr

/-- The four bits of STATUS (10_state R35). -/
structure Status where
  run : Bool
  done : Bool
  fault : Bool
  stopped : Bool
  deriving DecidableEq, Repr

/-- The CSRs a command may write: symbol parameters, block layout and bit-buffer cursors, each of the width
10_state R29 gives it (R38 to R41). -/
structure ParamCsrs where
  version : BitVec 6
  ecl : BitVec 2
  mask : BitVec 3
  alncnt : BitVec 3
  aln : Vector (BitVec 8) 7
  g1cnt : BitVec 8
  g1tot : BitVec 8
  g1dat : BitVec 8
  g2cnt : BitVec 8
  g2tot : BitVec 8
  g2dat : BitVec 8
  wbase : BitVec 14
  wlen : Word
  rbase : BitVec 14
  rpos : Word
  rlim : Word
  deriving DecidableEq, Repr

/-- The complete architectural state (10_state R20). The tables EXP and LOG and the register ID are constants, and
CTRL stores nothing (R34), so they are not here. -/
structure State where
  /-- x0..x15 (R21) -/
  x : Vector Word 16
  /-- p0..p7 (R23) -/
  p : Vector (List Byte) 8
  /-- the program counter, a word index into CM (R25) -/
  pc : Word
  /-- CSR STATUS (R35) -/
  status : Status
  /-- CSR IE: bit 0 DONE_IE, bit 1 FAULT_IE (R36) -/
  ie : BitVec 2
  /-- CSR CAUSE (R37) -/
  cause : BitVec 4
  /-- CSR EPC (R37) -/
  epc : Word
  /-- CSR TVAL (R37) -/
  tval : Word
  /-- the engine-writable CSRs (R38 to R41) -/
  csr : ParamCsrs
  /-- the stop-request latch (R49, 60_exceptions R362) -/
  stopReq : Bool
  /-- command memory, keys below CM_WORDS (R42) -/
  cm : Memory Word
  /-- data memory, keys below DM_BYTES (R43) -/
  dm : Memory Byte
  /-- module memory, the cell of row r and column c at key r * MM_DIM + c (R44) -/
  mm : Memory ModuleCell
  deriving DecidableEq, Repr

/-- The model's own stops: a read of a location nobody has written since hard reset, which "a model should treat
... as a fault of the model (refusal), never as zero" (20_memory R79, 93_implementation_defined U1; log 1). All are
safe: the hardware goes on with some value the spec does not give. -/
inductive Fault where
  /-- The fetch, or a host read, of an unwritten word of CM. Raised by step and hostReadCm. Safe. -/
  | unwrittenCommand (index : Nat)
  /-- A read of an unwritten byte of DM. Raised by LB, PLD, BPUT and BPAD (a partly filled byte), BREAD, CWENC,
  MXDAT, MXBLD and hostReadDm. Safe. -/
  | unwrittenByte (address : Nat)
  /-- A read of an unwritten cell of MM. Raised by MXALN, MXTIM, MXDAT, MXPEN, MXGET, MXOUT and hostReadMm. Safe. -/
  | unwrittenCell (row col : Nat)
  deriving DecidableEq, Repr

/-- The model's refusals. -/
inductive Refusal where
  /-- An instruction with no meaning yet; raised by a refused arm of exec only. Safe. -/
  | notModelled (mnemonic : String)
  /-- A host read during a run of anything but ID and STATUS, which returns an unspecified value (20_memory R71,
  93_implementation_defined U2; log 7). Raised by the hostRead functions of Machine/HostPort.lean, by no command. Safe. -/
  | hostReadDuringRun
  /-- A host write of module code 1 (10_state R44, 93_implementation_defined U7; log 6). Raised by hostWriteMm, by
  no command. Safe. -/
  | moduleCodeOne
  deriving DecidableEq, Repr

/-- STATUS after either reset (10_state R50). -/
def Status.reset : Status := { run := false, done := false, fault := false, stopped := false }

/-- The engine-writable CSRs after either reset: all zero (10_state R50). -/
def ParamCsrs.reset : ParamCsrs :=
  { version := 0, ecl := 0, mask := 0, alncnt := 0, aln := Vector.replicate 7 0
    g1cnt := 0, g1tot := 0, g1dat := 0, g2cnt := 0, g2tot := 0, g2dat := 0
    wbase := 0, wlen := 0, rbase := 0, rpos := 0, rlim := 0 }

/-- The state after hard reset (10_state R50, 70_reset_and_hazards R380): registers zero or empty, the engine not
running, and nothing written in any memory. -/
def State.reset : State :=
  { x := Vector.replicate 16 0, p := Vector.replicate 8 [], pc := 0, status := Status.reset, ie := 0
    cause := 0, epc := 0, tval := 0, csr := ParamCsrs.reset, stopReq := false, cm := [], dm := [], mm := [] }

end Sys2Proof.Machine
end

