-- ==== Sys2Proof/Machine/Ops.lean ====
section
/-! DEFINITION. The named operations over registers, CSRs and memories, and taking a fault as ONE shared operation
(60_exceptions R356) with the host's way back from one beside it (R360). -/

namespace Sys2Proof.Machine

/-! ## Memories -/

/-- The contents of a written location, nothing for an unwritten one (20_memory R79). -/
def Memory.read {α : Type} : Memory α → Nat → Option α
  | [], _ => none
  | (k, v) :: m, a => if k = a then some v else Memory.read m a

/-- Write one location, keeping the addresses strictly rising. -/
def Memory.write {α : Type} : Memory α → Nat → α → Memory α
  | [], a, v => [(a, v)]
  | (k, u) :: m, a, v =>
    if a < k then (a, v) :: (k, u) :: m
    else if a = k then (a, v) :: m
    else (k, u) :: Memory.write m a v

/-- Make the locations of which `p` holds unwritten (70_reset_and_hazards R381). -/
def Memory.forgetWhere {α : Type} (m : Memory α) (p : Nat → Bool) : Memory α := m.filter fun c => !p c.1

/-- The addresses rise strictly and lie in `[lo, hi)`. -/
def Memory.wfFrom {α : Type} (lo hi : Nat) : Memory α → Bool
  | [] => true
  | (k, _) :: m => decide (lo ≤ k) && decide (k < hi) && Memory.wfFrom (k + 1) hi m

/-- The canonical form of a memory of `size` locations. An unlisted location reads as no value, so no entry can
equal what an unlisted one reads as. -/
def Memory.wf {α : Type} (size : Nat) (m : Memory α) : Bool := Memory.wfFrom 0 size m

/-- The key of the cell of row `r` and column `c` (10_state R44). -/
def cellKey (r c : Nat) : Nat := r * Config.mmDim + c

/-! ## Faults -/

/-- The eight fault causes (60_exceptions R350). -/
inductive Cause where
  | illegalCommand | pcRange | domainError | endOfStream | dataOverflow | memRange | badOperand | unsetModule
  deriving DecidableEq, Repr

/-- The code CAUSE receives (60_exceptions R350). -/
def Cause.code : Cause → BitVec 4
  | .illegalCommand => 1
  | .pcRange => 2
  | .domainError => 3
  | .endOfStream => 4
  | .dataOverflow => 5
  | .memRange => 6
  | .badOperand => 7
  | .unsetModule => 8

/-- Why a command does not complete: `raise F(info)` (00_scope R14), or the model's own stop. -/
inductive Stop where
  | raises (c : Cause) (info : Nat)
  | sticks (f : Fault)
  deriving DecidableEq, Repr

/-- `raise F(info)` (00_scope R14). -/
def raise {α : Type} (c : Cause) (info : Nat) : Except Stop α := .error (.raises c info)

/-- Fault entry: exactly CAUSE, EPC, TVAL, STATUS.FAULT and STATUS.RUN; pc and everything else stay
(60_exceptions R356). `info` wider than 32 bits is reduced modulo 2^32. -/
def State.enterFault (s : State) (c : Cause) (info : Nat) : State :=
  { s with
    cause := c.code
    epc := s.pc
    tval := BitVec.ofNat 32 info
    status := { s.status with fault := true, run := false } }

/-- CTRL.CLR: the host's acknowledgement of a fault, ignored while running (10_state R34, 60_exceptions R360). -/
def State.clearFault (s : State) : State :=
  if s.status.run then s
  else { s with
    status := { s.status with done := false, fault := false, stopped := false }
    cause := 0, epc := 0, tval := 0 }

/-- CTRL.START: a run begins at the current pc unless one is running or a fault is recorded (10_state R34). -/
def State.start (s : State) : State :=
  if s.status.run || s.status.fault then s
  else { s with status := { s.status with run := true, done := false, stopped := false } }

/-- CTRL.STOP: a stop request is recorded while running, ignored otherwise (10_state R34, 60_exceptions R362). -/
def State.requestStop (s : State) : State :=
  if s.status.run then { s with stopReq := true } else s

/-- Honouring a stop request before a fetch: pc is left naming the command not fetched (60_exceptions R362). -/
def State.honourStop (s : State) : State :=
  { s with stopReq := false, status := { s.status with stopped := true, run := false } }

/-- A run that has ended leaves no stop request behind (60_exceptions R362, last line of R363). -/
def State.settle (s : State) : State :=
  if s.status.run then s else { s with stopReq := false }

/-- The end of every command: its writes are applied, or its fault is taken with nothing written
(60_exceptions R355, R363). -/
def finish (s : State) (r : Except Stop State) : Host.Outcome State Fault Refusal :=
  match r with
  | .ok t => .next t
  | .error (.raises c info) => .next (s.enterFault c info)
  | .error (.sticks f) => .fault f

/-! ## Registers -/

/-- `x[i]` (00_scope R11). No x register is hardwired (10_state R21). -/
def State.getX (s : State) (i : XReg) : Word := s.x[i.val]

/-- `x[i] <- v` (00_scope R11). -/
def State.setX (s : State) (i : XReg) (v : Word) : State := { s with x := s.x.set i.val v }

/-- `p[i]` (00_scope R11). -/
def State.getP (s : State) (i : PReg) : List Byte := s.p[i.val]

/-- `p[i] <- v`: the whole old value, length included, is replaced (10_state R24). -/
def State.setP (s : State) (i : PReg) (v : List Byte) : State := { s with p := s.p.set i.val v }

/-- `pc <- pc + 1` (00_scope R14, 40_control R110). -/
def State.advance (s : State) : State := { s with pc := s.pc + 1 }

/-- `pc <- target`, an absolute command index (40_control R113). -/
def State.jump (s : State) (target : BitVec 10) : State := { s with pc := target.setWidth 32 }

/-! ## Data memory (00_scope R12) -/

/-- The byte of DM at `a`, which somebody must have written (20_memory R79). -/
def writtenByte (dm : Memory Byte) (a : Nat) : Except Stop Byte :=
  match Memory.read dm a with
  | some v => .ok v
  | none => .error (.sticks (.unwrittenByte a))

/-- `MemRead(a, 1)`. -/
def memRead (dm : Memory Byte) (a : Nat) : Except Stop Byte :=
  if a < Config.dmBytes then writtenByte dm a else raise .memRange a

/-- `MemWrite(a, 1, v)`. -/
def memWrite (dm : Memory Byte) (a : Nat) (v : Byte) : Except Stop (Memory Byte) :=
  if a < Config.dmBytes then .ok (Memory.write dm a v) else raise .memRange a

/-- The range check every multi-byte access makes before touching memory: the exact end may not pass DM_BYTES
(00_scope R12, 20_memory R66). -/
def checkRange (a n : Nat) : Except Stop Unit :=
  if 0 < n ∧ Config.dmBytes < a + n then raise .memRange (a + n - 1) else .ok ()

/-- The `n` bytes from address `a` on, ascending (20_memory R64). -/
def writtenBytes (dm : Memory Byte) : Nat → Nat → Except Stop (List Byte)
  | _, 0 => .ok []
  | a, n + 1 => do
    let v ← writtenByte dm a
    let vs ← writtenBytes dm (a + 1) n
    return v :: vs

/-- `MemReadSeq(a, n)`. -/
def memReadSeq (dm : Memory Byte) (a n : Nat) : Except Stop (List Byte) := do
  checkRange a n
  writtenBytes dm a n

/-- Store a sequence at ascending addresses (20_memory R64). -/
def storeBytes (dm : Memory Byte) (a : Nat) : List Byte → Memory Byte
  | [] => dm
  | v :: vs => storeBytes (Memory.write dm a v) (a + 1) vs

/-- `MemWriteSeq(a, s)`. -/
def memWriteSeq (dm : Memory Byte) (a : Nat) (bytes : List Byte) : Except Stop (Memory Byte) := do
  checkRange a bytes.length
  return storeBytes dm a bytes

/-! ## Module memory -/

/-- The cell of MM at row `r`, column `c`, which somebody must have written (20_memory R79). -/
def writtenCell (mm : Memory ModuleCell) (r c : Nat) : Except Stop ModuleCell :=
  match Memory.read mm (cellKey r c) with
  | some m => .ok m
  | none => .error (.sticks (.unwrittenCell r c))

/-- `set(r, c, dark)` (48_matrix R301). -/
def setCell (mm : Memory ModuleCell) (r c : Nat) (dark : Bool) : Memory ModuleCell :=
  Memory.write mm (cellKey r c) (if dark then .dark else .light)

/-- `is_dark(r, c)`: reading an UNSET module as a colour is a fault (48_matrix R302). -/
def isDark (mm : Memory ModuleCell) (r c : Nat) : Except Stop Bool := do
  match ← writtenCell mm r c with
  | .unset => raise .unsetModule (r * 256 + c)
  | .light => return false
  | .dark => return true

/-! ## Control and status registers -/

/-- STATUS as a word: bit 0 RUN, 1 DONE, 2 FAULT, 3 STOPPED, the rest zero (10_state R28, R35). -/
def Status.word (t : Status) : Word :=
  BitVec.ofNat 32 (t.run.toNat + 2 * t.done.toNat + 4 * t.fault.toNat + 8 * t.stopped.toNat)

/-- The 32-bit word a CSR reads as, unused upper bits zero (10_state R28, R29). CTRL reads as 0 (R34). -/
def State.csrRead (s : State) : Csr → Word
  | .id => Config.idValue
  | .ctrl => 0
  | .status => s.status.word
  | .ie => s.ie.setWidth 32
  | .pc => s.pc
  | .cause => s.cause.setWidth 32
  | .epc => s.epc
  | .tval => s.tval
  | .version => s.csr.version.setWidth 32
  | .ecl => s.csr.ecl.setWidth 32
  | .mask => s.csr.mask.setWidth 32
  | .alncnt => s.csr.alncnt.setWidth 32
  | .aln i => s.csr.aln[i.val].setWidth 32
  | .g1cnt => s.csr.g1cnt.setWidth 32
  | .g1tot => s.csr.g1tot.setWidth 32
  | .g1dat => s.csr.g1dat.setWidth 32
  | .g2cnt => s.csr.g2cnt.setWidth 32
  | .g2tot => s.csr.g2tot.setWidth 32
  | .g2dat => s.csr.g2dat.setWidth 32
  | .wbase => s.csr.wbase.setWidth 32
  | .wlen => s.csr.wlen
  | .rbase => s.csr.rbase.setWidth 32
  | .rpos => s.csr.rpos
  | .rlim => s.csr.rlim

/-- A write to an engine-writable CSR stores the low bits of the word and drops the rest (10_state R30); on any other
CSR nothing is stored here. -/
def ParamCsrs.write (f : ParamCsrs) (c : Csr) (v : Word) : ParamCsrs :=
  match c with
  | .id | .ctrl | .status | .ie | .pc | .cause | .epc | .tval => f
  | .version => { f with version := v.setWidth 6 }
  | .ecl => { f with ecl := v.setWidth 2 }
  | .mask => { f with mask := v.setWidth 3 }
  | .alncnt => { f with alncnt := v.setWidth 3 }
  | .aln i => { f with aln := f.aln.set i.val (v.setWidth 8) }
  | .g1cnt => { f with g1cnt := v.setWidth 8 }
  | .g1tot => { f with g1tot := v.setWidth 8 }
  | .g1dat => { f with g1dat := v.setWidth 8 }
  | .g2cnt => { f with g2cnt := v.setWidth 8 }
  | .g2tot => { f with g2tot := v.setWidth 8 }
  | .g2dat => { f with g2dat := v.setWidth 8 }
  | .wbase => { f with wbase := v.setWidth 14 }
  | .wlen => { f with wlen := v }
  | .rbase => { f with rbase := v.setWidth 14 }
  | .rpos => { f with rpos := v }
  | .rlim => { f with rlim := v }

/-- `csr[c] <- v` for an engine-writable CSR. -/
def State.csrWrite (s : State) (c : Csr) (v : Word) : State := { s with csr := s.csr.write c v }

end Sys2Proof.Machine
end

