-- ==== Sys2Proof/Machine/Operands.lean ====
section
/-! DEFINITION. The operand forms: immediates (30_encoding R86), effective addresses (42_loadstore R150), field
elements in x registers (43_gf256 R176) and numbers bounded by a rule. -/

namespace Sys2Proof.Machine

/-- `zext_32(imm16)` (00_scope R10, 30_encoding R86). -/
def zext32 (imm : BitVec 16) : Word := imm.setWidth 32

/-- `sext_32(imm16)`, used by ADDI, LB and SB only (00_scope R10, 30_encoding R86). -/
def sext32 (imm : BitVec 16) : Word := imm.signExtend 32

/-- Base plus sign-extended offset modulo 2^32 (42_loadstore R150). -/
def effectiveAddress (base : Word) (imm : BitVec 16) : Nat := (base + sext32 imm).toNat

/-- A byte widened to a word (00_scope R10). -/
def ofByte (b : Byte) : Word := b.setWidth 32

/-- The low byte of a word, `v[7:0]`. -/
def lowByte (v : Word) : Byte := v.setWidth 8

/-- A field element in an x register: above 255 raises DomainError(3) (43_gf256 R176). -/
def fieldElement (v : Word) : Except Stop Byte :=
  if 255 < v.toNat then raise .domainError 3 else .ok (lowByte v)

/-- Two field elements; either above 255 raises DomainError(3) (43_gf256 R178, R179). -/
def fieldElements (v w : Word) : Except Stop (Byte × Byte) := do
  let a ← fieldElement v
  let b ← fieldElement w
  return (a, b)

/-- `if bad then raise BadOperand(v)` (60_exceptions R350). -/
def badOperandIf (bad : Bool) (v : Nat) : Except Stop Unit :=
  if bad then raise .badOperand v else .ok ()

end Sys2Proof.Machine
end

