-- ==== Sys2Proof/Machine/BitStream.lean ====
section
/-! DEFINITION. The bit-stream serialiser and deserialiser (46_bitstream): bit `q` of a stream is bit `7 - q mod 8` of
the byte at `base + q div 8` (R260, 20_memory R63). Commands BPUT, BLEN, BPAD, BREAD, BAVL. -/

namespace Sys2Proof.Machine

/-- The byte address of stream position `q` (R260). -/
def streamByte (base q : Nat) : Nat := base + q / 8

/-- The range check of `bb_put` and `bs_read`: the byte of the last bit, with exact sums (R261, R268). -/
def checkStream (base q n : Nat) : Except Stop Unit :=
  if 0 < n ∧ Config.dmBytes ≤ streamByte base (q + n - 1) then raise .memRange (streamByte base (q + n - 1))
  else .ok ()

/-- What a bit at position `q` is OR-ed into: nothing for the first bit of a byte, else the byte begun (R261, R262). -/
def begunByte (dm : Memory Byte) (base q : Nat) : Except Stop Byte :=
  if q % 8 = 0 then .ok 0 else writtenByte dm (streamByte base q)

/-- Append bits `value[n-1] .. value[0]` at position `q`. The first bit of a byte defines the whole byte, later bits
are OR-ed in (R261, R262). -/
def putBits (value : Word) (base : Nat) : Nat → Nat → Memory Byte → Except Stop (Memory Byte)
  | 0, _, dm => .ok dm
  | n + 1, q, dm => do
    let old ← begunByte dm base q
    let bit : Byte := if value.getLsbD n then 1 else 0
    putBits value base n (q + 1) (Memory.write dm (streamByte base q) (old ||| (bit <<< (7 - q % 8))))

/-- `bb_put(value, n)` (R261). -/
def bbPut (value : Word) (n : Nat) (s : State) : Except Stop State := do
  let q := s.csr.wlen.toNat
  let base := s.csr.wbase.toNat
  checkStream base q n
  let dm ← putBits value base n q s.dm
  return { s with dm := dm, csr := { s.csr with wlen := BitVec.ofNat 32 (q + n) } }

/-- `count` pad bytes, 0xEC for even `k` and 0x11 for odd (R265). -/
def padBytes : Nat → Nat → State → Except Stop State
  | 0, _, s => .ok s
  | count + 1, k, s => do
    let t ← bbPut (if k % 2 = 0 then Config.pad0 else Config.pad1) 8 s
    padBytes count (k + 1) t

/-- `bb_pad(M)`: terminator of at most four zero bits, zero bits to the next byte boundary, then pad bytes until
WLEN is M (R265). -/
def bbPad (m : Nat) (s : State) : Except Stop State := do
  let w := s.csr.wlen.toNat
  let base := s.csr.wbase.toNat
  if m < w then raise .dataOverflow w
  if w < m ∧ Config.dmBytes < base + m / 8 then raise .memRange (base + m / 8 - 1)
  let t ← bbPut 0 (min 4 (m - w)) s
  let u ← bbPut 0 ((8 - t.csr.wlen.toNat % 8) % 8) t
  padBytes ((m - u.csr.wlen.toNat) / 8) 0 u

/-- BPUT (R263). -/
def execBput (a b : XReg) (s : State) : Host.Outcome State Fault Refusal := finish s do
  let n := (s.getX b).toNat
  badOperandIf (decide (32 < n)) n
  let t ← bbPut (s.getX a) n s
  return t.advance

/-- BLEN (R264). -/
def execBlen (a : XReg) (s : State) : Host.Outcome State Fault Refusal :=
  .next (s.setX a s.csr.wlen).advance

/-- BPAD (R266). -/
def execBpad (a : XReg) (s : State) : Host.Outcome State Fault Refusal := finish s do
  let m := (s.getX a).toNat
  badOperandIf (decide (m % 8 ≠ 0)) m
  let t ← bbPad m s
  return t.advance

/-- `available()` (R267). -/
def available (s : State) : Nat := s.csr.rlim.toNat - s.csr.rpos.toNat

/-- Read `n` bits from position `q`, the first ending up as the most significant (R268). -/
def readBits (dm : Memory Byte) (base : Nat) : Nat → Nat → Word → Except Stop Word
  | 0, _, v => .ok v
  | n + 1, q, v => do
    let byte ← writtenByte dm (streamByte base q)
    let bit : Word := if byte.getLsbD (7 - q % 8) then 1 else 0
    readBits dm base n (q + 1) ((v <<< 1) ||| bit)

/-- BREAD, with `bs_read` (R268, R269): a read that fails consumes nothing. -/
def execBread (a b : XReg) (s : State) : Host.Outcome State Fault Refusal := finish s do
  let n := (s.getX b).toNat
  let q := s.csr.rpos.toNat
  let base := s.csr.rbase.toNat
  badOperandIf (decide (n = 0 ∨ 32 < n)) n
  if available s < n then raise .endOfStream n
  checkStream base q n
  let v ← readBits s.dm base n q 0
  return (State.setX { s with csr := { s.csr with rpos := BitVec.ofNat 32 (q + n) } } a v).advance

/-- BAVL (R270). -/
def execBavl (a : XReg) (s : State) : Host.Outcome State Fault Refusal :=
  .next (s.setX a (BitVec.ofNat 32 (available s))).advance

end Sys2Proof.Machine
end

