-- ==== Sys2Proof/Machine/Flags.lean ====
section
/-! DEFINITION. QRCE has no flags register and no condition codes (10_state R27): what a program tests is a status
number in an x register. The status numbers of 60_exceptions R353 and the interrupt output of R359 stand here. -/

namespace Sys2Proof.Machine

/-- A soft-failure status number in an x register, 0 for success (60_exceptions R353). -/
def statusWord (st : Nat) : Word := BitVec.ofNat 32 st

/-- A result that is 1 or 0 in an x register: RSSYN's `any`, MXGET and MXMSK. -/
def boolWord (b : Bool) : Word := if b then 1 else 0

/-- The interrupt output: (DONE and DONE_IE) or (FAULT and FAULT_IE) (60_exceptions R359, 10_state R36). -/
def State.irq (s : State) : Bool :=
  (s.status.done && s.ie.getLsbD 0) || (s.status.fault && s.ie.getLsbD 1)

end Sys2Proof.Machine
end

