-- ==== Sys2Proof/Machine/Polynomial.lean ====
section
/-! DEFINITION. The polynomial unit over GF(2^8) (44_polynomial): a polynomial is its coefficient list, highest
degree first, with a non-zero leading coefficient or the single-element list [0] (R190). -/

namespace Sys2Proof.Machine

/-- Remove zeros from the left while more than one element remains (R190). -/
def stripZeros : List Byte → List Byte
  | [] => []
  | [c] => [c]
  | c :: d :: cs => if c = 0 then stripZeros (d :: cs) else c :: d :: cs

/-- `poly(s)`: the normal form, DomainError(4) on the empty sequence (R190). -/
def poly (bytes : List Byte) : Except Stop (List Byte) :=
  if bytes = [] then raise .domainError 4 else .ok (stripZeros bytes)

/-- `degree(f)` (R191). -/
def degree (f : List Byte) : Nat := f.length - 1

/-- `is_zero(f)` (R191). -/
def isZero (f : List Byte) : Bool := f == [0]

/-- `coef_at(f, d)`, 0 beyond the degree (R192). -/
def coefAt (f : List Byte) (d : Nat) : Byte :=
  if d ≤ degree f then f.getD (f.length - 1 - d) 0 else 0

/-- `poly_eval(f, x)` by Horner's rule (R193). -/
def polyEval (f : List Byte) (x : Byte) : Byte :=
  f.foldl (fun r c => gfAdd (gfMul r x) c) 0

/-- Pointwise XOR of two sequences aligned at the right, the first at least as long as the second. -/
def xorAligned (f g : List Byte) : List Byte :=
  f.take (f.length - g.length) ++ List.zipWith gfAdd (f.drop (f.length - g.length)) g

/-- `poly_add(f, g)`: pointwise XOR after length align, then the normal form (R194). -/
def polyAdd (f g : List Byte) : List Byte :=
  stripZeros (if g.length ≤ f.length then xorAligned f g else xorAligned g f)

/-- The product of two coefficient lists: the row of each coefficient of `f`, shifted to its place, summed. -/
def mulRows : List Byte → List Byte → List Byte
  | [], _ => []
  | [c], g => g.map (gfMul c)
  | c :: d :: cs, g =>
    let high := g.map (gfMul c) ++ List.replicate (cs.length + 1) 0
    xorAligned high (mulRows (d :: cs) g)

/-- `poly_mul(f, g)`, DomainError(5) past 256 coefficients (R195). -/
def polyMul (f g : List Byte) : Except Stop (List Byte) :=
  if isZero f || isZero g then .ok [0]
  else if Config.pMax < f.length + g.length - 1 then raise .domainError 5
  else .ok (mulRows f g)

/-- `poly_mulm(f, d, c)`, the product with `c * X^d` (R196). -/
def polyMulm (f : List Byte) (d : Nat) (c : Byte) : Except Stop (List Byte) :=
  if c = 0 || isZero f then .ok [0]
  else if Config.pMax < f.length + d then raise .domainError 5
  else .ok (f.map (fun u => gfMul u c) ++ List.replicate d 0)

/-- `poly_mono(d, c)`, the polynomial `c * X^d` (R197). -/
def polyMono (d : Nat) (c : Byte) : Except Stop (List Byte) :=
  if c = 0 then .ok [0]
  else if Config.pMax < d + 1 then raise .domainError 5
  else .ok (c :: List.replicate d 0)

/-- The loop of `poly_divmod` (R198), at most `fuel` turns. -/
def divLoop (g : List Byte) (li : Byte) : Nat → List Byte → List Byte → Except Stop (List Byte × List Byte)
  | 0, q, r => .ok (q, r)
  | fuel + 1, q, r =>
    if degree g ≤ degree r ∧ isZero r = false then do
      let dd := degree r - degree g
      let sc := gfMul (r.headD 0) li
      let m ← polyMono dd sc
      let gm ← polyMulm g dd sc
      divLoop g li fuel (polyAdd q m) (polyAdd r gm)
    else .ok (q, r)

/-- `poly_divmod(f, g)`, DomainError(2) for the zero divisor (R198). The degree falls every turn, so the loop ends
within `len f` turns. -/
def polyDivmod (f g : List Byte) : Except Stop (List Byte × List Byte) := do
  let li ← gfInv (g.headD 0)
  divLoop g li f.length [0] f

/-- `poly_mod(f, g)` (R198). -/
def polyMod (f g : List Byte) : Except Stop (List Byte) := do
  let (_, r) ← polyDivmod f g
  return r

/-- PNORM (R200). -/
def execPnorm (a b : PReg) (s : State) : Host.Outcome State Fault Refusal := finish s do
  let f ← poly (s.getP b)
  return (s.setP a f).advance

/-- PDEG (R201). -/
def execPdeg (a : XReg) (b : PReg) (s : State) : Host.Outcome State Fault Refusal := finish s do
  let f ← poly (s.getP b)
  return (s.setX a (BitVec.ofNat 32 (degree f))).advance

/-- PCOEF (R202). -/
def execPcoef (a : XReg) (b : PReg) (c : XReg) (s : State) : Host.Outcome State Fault Refusal := finish s do
  let f ← poly (s.getP b)
  return (s.setX a (ofByte (coefAt f (s.getX c).toNat))).advance

/-- PEVAL (R203). -/
def execPeval (a : XReg) (b : PReg) (c : XReg) (s : State) : Host.Outcome State Fault Refusal := finish s do
  let x ← fieldElement (s.getX c)
  let f ← poly (s.getP b)
  return (s.setX a (ofByte (polyEval f x))).advance

/-- PMUL (R204). -/
def execPmul (a b c : PReg) (s : State) : Host.Outcome State Fault Refusal := finish s do
  let f ← poly (s.getP b)
  let g ← poly (s.getP c)
  let r ← polyMul f g
  return (s.setP a r).advance

/-- PMULM (R205). -/
def execPmulm (a b : PReg) (c d : XReg) (s : State) : Host.Outcome State Fault Refusal := finish s do
  let k ← fieldElement (s.getX d)
  let f ← poly (s.getP b)
  let r ← polyMulm f (s.getX c).toNat k
  return (s.setP a r).advance

/-- PADD (R206). -/
def execPadd (a b c : PReg) (s : State) : Host.Outcome State Fault Refusal := finish s do
  let f ← poly (s.getP b)
  let g ← poly (s.getP c)
  return (s.setP a (polyAdd f g)).advance

/-- PMOD (R207). -/
def execPmod (a b c : PReg) (s : State) : Host.Outcome State Fault Refusal := finish s do
  let f ← poly (s.getP b)
  let g ← poly (s.getP c)
  let r ← polyMod f g
  return (s.setP a r).advance

/-- PMONO (R208). -/
def execPmono (a : PReg) (b c : XReg) (s : State) : Host.Outcome State Fault Refusal := finish s do
  let k ← fieldElement (s.getX c)
  let r ← polyMono (s.getX b).toNat k
  return (s.setP a r).advance

end Sys2Proof.Machine
end

