-- ==== Sys2Proof/Machine/ReedSolomon.lean ====
section
/-! DEFINITION. The Reed-Solomon encoder and decoder (45_reed_solomon): the functions of R220 to R230 and the
commands RSGEN, RSENC, RSSYN, RSEUC, RSCHN, RSFRN, RSCOR, RSDEC (R232 to R239). -/

namespace Sys2Proof.Machine

/-- The product of `g` and the factors `(x - α^i)` for the `n` exponents from `i` on (R220). -/
def rsGenFrom (g : List Byte) (i : Nat) : Nat → Except Stop (List Byte)
  | 0 => .ok g
  | n + 1 => do
    let h ← polyMul g [1, gfExp i]
    rsGenFrom h (i + 1) n

/-- `rs_gen(t)`, the generator polynomial with roots α^0 .. α^(t-1) (R220). -/
def rsGen (t : Nat) : Except Stop (List Byte) := rsGenFrom [1] 0 t

/-- `rs_ecc(d, t)`: the remainder of `d(x) * x^t` by the generator, left-padded to `t` bytes (R222). -/
def rsEcc (d : List Byte) (t : Nat) : Except Stop (List Byte) := do
  let f ← poly (d ++ List.replicate t 0)
  let g ← rsGen t
  let rem ← polyMod f g
  return if isZero rem then List.replicate t 0 else List.replicate (t - rem.length) 0 ++ rem

/-- `rs_encode(d, t)`: the raw data followed by the ECC (R222). -/
def rsEncode (d : List Byte) (t : Nat) : Except Stop (List Byte) := do
  let ecc ← rsEcc d t
  return d ++ ecc

/-- `S_i = c(α^i)` for `i < t`, in the order S_(t-1), ..., S_0 of the syndrome polynomial (R224). -/
def syndromesDown (f : List Byte) : Nat → List Byte
  | 0 => []
  | i + 1 => polyEval f (gfExp i) :: syndromesDown f i

/-- `rs_syndromes(c, t)`: the syndrome polynomial and whether some syndrome is non-zero (R224). -/
def rsSyndromes (c : List Byte) (t : Nat) : Except Stop (List Byte × Bool) := do
  let f ← poly c
  let ss := syndromesDown f t
  let sx ← poly ss
  return (sx, ss.any (fun v => v != 0))

/-- The result of a Reed-Solomon stage that can fail softly: a value, or the status number of the failure
(60_exceptions R353). -/
abbrev Soft (α : Type) := Except Nat α

/-- The loop of `rs_euclid` (R225), at most `fuel` turns, and the normalisation after it. Status 1 is the stall,
2 a zero constant term. -/
def euclidLoop (t : Nat) : Nat → List Byte → List Byte → List Byte → List Byte →
    Except Stop (Soft (List Byte × List Byte))
  | fuel, rLast, r, tLast, tt =>
    if t ≤ 2 * degree r then
      match fuel with
      | 0 => .ok (.error 1)
      | fuel + 1 => do
        if isZero r then return .error 1
        let (q, r') ← polyDivmod rLast r
        let m ← polyMul q tt
        euclidLoop t fuel r r' tt (polyAdd m tLast)
    else do
      let s0 := coefAt tt 0
      if s0 = 0 then return .error 2
      let inv0 ← gfInv s0
      let sigma ← polyMulm tt 0 inv0
      let omega ← polyMulm r 0 inv0
      return .ok (sigma, omega)

/-- `rs_euclid(Sx, t)` (R225, R226). The degree of the remainder falls every turn from below `t`, so `t` turns are
enough. -/
def rsEuclid (sx : List Byte) (t : Nat) : Except Stop (Soft (List Byte × List Byte)) := do
  let xt ← polyMono t 1
  euclidLoop t t xt sx [0] [1]

/-- The locations of the roots among the exponents from `j` on (R227). -/
def chienFrom (sigma : List Byte) (j : Nat) : Nat → Except Stop (List Byte)
  | 0 => .ok []
  | n + 1 => do
    if polyEval sigma (expAt j) = 0 then
      let loc ← gfInv (expAt j)
      let rest ← chienFrom sigma (j + 1) n
      return loc :: rest
    else chienFrom sigma (j + 1) n

/-- `rs_chien(sigma)`: all 255 non-zero elements in ascending exponent; status 1 when their number is not the
degree (R227). -/
def rsChien (sigma : List Byte) : Except Stop (Soft (List Byte)) := do
  let locs ← chienFrom sigma 0 255
  return if locs.length ≠ degree sigma then .error 1 else .ok locs

/-- `∏_{j≠i} (1 + x_j * xin)` (R228). -/
def forneyDenominator (locs : List Byte) (i : Nat) (xin : Byte) : Byte :=
  (locs.eraseIdx i).foldl (fun den xj => gfMul den (gfAdd 1 (gfMul xj xin))) 1

/-- The magnitudes of the `n` locations from index `i` on (R228). -/
def forneyFrom (omega locs : List Byte) (i : Nat) : Nat → Except Stop (List Byte)
  | 0 => .ok []
  | n + 1 => do
    let xin ← gfInv (locs.getD i 0)
    let deninv ← gfInv (forneyDenominator locs i xin)
    let rest ← forneyFrom omega locs (i + 1) n
    return gfMul (polyEval omega xin) deninv :: rest

/-- `rs_forney(omega, locs)` (R228; 90_conflicts C1). -/
def rsForney (omega locs : List Byte) : Except Stop (List Byte) := forneyFrom omega locs 0 locs.length

/-- The positions of the locations in a word of `n` bytes; nothing when one falls outside (R229). -/
def positions (n : Nat) : List Byte → Except Stop (Option (List Nat))
  | [] => .ok (some [])
  | loc :: locs => do
    let l ← gfLog loc
    if n < 1 + l then return none
    match ← positions n locs with
    | none => return none
    | some ps => return some ((n - 1 - l) :: ps)

/-- XOR each magnitude into its position (R229). -/
def xorAt (out : List Byte) : List (Nat × Byte) → List Byte
  | [] => out
  | (i, m) :: rest => xorAt (out.modify i (fun v => gfAdd v m)) rest

/-- `rs_correct(c, locs, mags)`: every position is checked before any byte changes; status 1 for a position
outside the word (R229). -/
def rsCorrect (c locs mags : List Byte) : Except Stop (Soft (List Byte)) := do
  match ← positions c.length locs with
  | none => return .error 1
  | some ps => return .ok (xorAt c (ps.zip mags))

/-- `rs_decode(c, t)`: the count and the corrected word, or status 1 to 4 (R230). -/
def rsDecode (c : List Byte) (t : Nat) : Except Stop (Soft (Nat × List Byte)) := do
  let (sx, any) ← rsSyndromes c t
  if any = false then return .ok (0, c)
  match ← rsEuclid sx t with
  | .error st => return .error st
  | .ok (sigma, omega) =>
    match ← rsChien sigma with
    | .error _ => return .error 3
    | .ok locs =>
      let mags ← rsForney omega locs
      match ← rsCorrect c locs mags with
      | .error _ => return .error 4
      | .ok out => return .ok (locs.length, out)

/-- RSGEN (R232). -/
def execRsgen (a : PReg) (b : XReg) (s : State) : Host.Outcome State Fault Refusal := finish s do
  let t := (s.getX b).toNat
  badOperandIf (decide (255 < t)) t
  let g ← rsGen t
  return (s.setP a g).advance

/-- RSENC (R233). -/
def execRsenc (a b : PReg) (c : XReg) (s : State) : Host.Outcome State Fault Refusal := finish s do
  let t := (s.getX c).toNat
  let k := (s.getP b).length
  badOperandIf (decide (t = 0 ∨ 254 < t)) t
  badOperandIf (decide (k = 0)) 0
  badOperandIf (decide (Config.rsNMax < k + t)) (k + t)
  let word ← rsEncode (s.getP b) t
  return (s.setP a word).advance

/-- RSSYN (R234). -/
def execRssyn (a : XReg) (b c : PReg) (d : XReg) (s : State) : Host.Outcome State Fault Refusal := finish s do
  let t := (s.getX d).toNat
  let n := (s.getP c).length
  badOperandIf (decide (t = 0 ∨ 255 < t)) t
  badOperandIf (decide (n = 0 ∨ Config.rsNMax < n)) n
  let (sx, any) ← rsSyndromes (s.getP c) t
  return ((s.setP b sx).setX a (boolWord any)).advance

/-- RSEUC (R235): on a non-zero status the p registers keep their values. Equal destinations are IllegalCommand with
the command's own word (R93); the decoder lets no such command through (log 8). -/
def execRseuc (a : XReg) (b c d : PReg) (e : XReg) (s : State) : Host.Outcome State Fault Refusal := finish s do
  if b = c then raise .illegalCommand (encode (.rseuc a b c d e)).toNat
  let t := (s.getX e).toNat
  let sx ← poly (s.getP d)
  badOperandIf (decide (t = 0 ∨ 255 < t)) t
  badOperandIf (decide (t ≤ degree sx)) (degree sx)
  match ← rsEuclid sx t with
  | .error st => return (s.setX a (statusWord st)).advance
  | .ok (sigma, omega) => return (((s.setP b sigma).setP c omega).setX a (statusWord 0)).advance

/-- RSCHN (R236): on a non-zero status the p register keeps its value. -/
def execRschn (a : XReg) (b c : PReg) (s : State) : Host.Outcome State Fault Refusal := finish s do
  let sigma ← poly (s.getP c)
  match ← rsChien sigma with
  | .error st => return (s.setX a (statusWord st)).advance
  | .ok locs => return ((s.setP b locs).setX a (statusWord 0)).advance

/-- RSFRN (R237). -/
def execRsfrn (a b c : PReg) (s : State) : Host.Outcome State Fault Refusal := finish s do
  let omega ← poly (s.getP b)
  let mags ← rsForney omega (s.getP c)
  return (s.setP a mags).advance

/-- RSCOR (R238): on a non-zero status the p register keeps its value. -/
def execRscor (a : XReg) (b c d e : PReg) (s : State) : Host.Outcome State Fault Refusal := finish s do
  let locs := s.getP d
  let mags := s.getP e
  badOperandIf (decide (locs.length ≠ mags.length)) mags.length
  match ← rsCorrect (s.getP c) locs mags with
  | .error st => return (s.setX a (statusWord st)).advance
  | .ok out => return ((s.setP b out).setX a (statusWord 0)).advance

/-- RSDEC (R239): the count is 0 and the p register keeps its value on a non-zero status. Equal destinations are
IllegalCommand with the command's own word (R93; log 8). -/
def execRsdec (a b : XReg) (c d : PReg) (e : XReg) (s : State) : Host.Outcome State Fault Refusal := finish s do
  if a = b then raise .illegalCommand (encode (.rsdec a b c d e)).toNat
  let t := (s.getX e).toNat
  let n := (s.getP d).length
  badOperandIf (decide (t = 0 ∨ 255 < t)) t
  badOperandIf (decide (n = 0 ∨ Config.rsNMax < n)) n
  match ← rsDecode (s.getP d) t with
  | .error st => return ((s.setX a (statusWord st)).setX b 0).advance
  | .ok (count, out) =>
    return (((s.setP c out).setX a (statusWord 0)).setX b (BitVec.ofNat 32 count)).advance

end Sys2Proof.Machine
end

