-- ==== Sys2Proof/Machine/CodewordBch.lean ====
section
/-! DEFINITION. The codeword sequencer and the BCH information encoders (47_codeword_bch): CWENC, BCHF, BCHV. -/

namespace Sys2Proof.Machine

/-- The layout of the CSRs: the triple of group 1, and of group 2 if G2CNT > 0 (R280). -/
def layout (f : ParamCsrs) : List (Nat × Nat × Nat) :=
  (f.g1cnt.toNat, f.g1tot.toNat, f.g1dat.toNat) ::
    if 0 < f.g2cnt.toNat then [(f.g2cnt.toNat, f.g2tot.toNat, f.g2dat.toNat)] else []

/-- `(n, k)` of every block, group 1 before group 2 (R280). -/
def blockShapes (groups : List (Nat × Nat × Nat)) : List (Nat × Nat) :=
  groups.flatMap fun t => List.replicate t.1 (t.2.1, t.2.2)

/-- Split the data over the blocks and compute each block's ECC (R280). -/
def splitBlocks : List (Nat × Nat) → List Byte → Except Stop (List (List Byte × List Byte))
  | [], _ => .ok []
  | (n, k) :: shapes, data => do
    let d := data.take k
    let e ← rsEcc d (n - k)
    let rest ← splitBlocks shapes (data.drop k)
    return (d, e) :: rest

/-- Column-major order over sequences of unequal length; a sequence without an element in a column is skipped
(R280). -/
def interleave (seqs : List (List Byte)) : List Byte :=
  (List.range (seqs.foldl (fun m q => max m q.length) 0)).flatMap fun i => seqs.filterMap fun q => q[i]?

/-- `cw_sequence(data, layout)`: data columns, then ECC columns (R280). -/
def cwSequence (data : List Byte) (groups : List (Nat × Nat × Nat)) : Except Stop (List Byte) := do
  let blocks ← splitBlocks (blockShapes groups) data
  return interleave (blocks.map Prod.fst) ++ interleave (blocks.map Prod.snd)

/-- `Σ g*k`, the bytes CWENC reads (R281). -/
def sourceLength (f : ParamCsrs) : Nat := f.g1cnt.toNat * f.g1dat.toNat + f.g2cnt.toNat * f.g2dat.toNat

/-- `Σ g*n`, the bytes CWENC writes (R281). -/
def streamLength (f : ParamCsrs) : Nat := f.g1cnt.toNat * f.g1tot.toNat + f.g2cnt.toNat * f.g2tot.toNat

/-- The checks of the layout CSRs, in the order of R281. -/
def checkLayout (f : ParamCsrs) : Except Stop Unit := do
  badOperandIf (decide (f.g1cnt.toNat = 0)) f.g1cnt.toNat
  badOperandIf (decide (f.g1dat.toNat = 0)) f.g1dat.toNat
  badOperandIf (decide (f.g1tot.toNat ≤ f.g1dat.toNat)) f.g1tot.toNat
  badOperandIf (decide (0 < f.g2cnt.toNat ∧ f.g2dat.toNat = 0)) f.g2dat.toNat
  badOperandIf (decide (0 < f.g2cnt.toNat ∧ f.g2tot.toNat ≤ f.g2dat.toNat)) f.g2tot.toNat

/-- CWENC (R281). -/
def execCwenc (a b : XReg) (s : State) : Host.Outcome State Fault Refusal := finish s do
  let src := (s.getX b).toNat
  let dst := (s.getX a).toNat
  let slen := sourceLength s.csr
  let dlen := streamLength s.csr
  checkLayout s.csr
  checkRange src slen
  checkRange dst dlen
  badOperandIf (decide (src < dst + dlen ∧ dst < src + slen)) dst
  let data ← memReadSeq s.dm src slen
  let out ← cwSequence data (layout s.csr)
  let dm ← memWriteSeq s.dm dst out
  return State.advance { s with dm := dm }

/-- `bch_rem(v, G, m)`: binary polynomial division (R283). Every turn clears the highest set bit, so a 32-bit `v`
needs at most 32 turns. -/
def bchRem (v g m : Nat) : Nat → Nat
  | 0 => v
  | fuel + 1 => if v < 2 ^ m then v else bchRem (v ^^^ (g <<< (v.log2 - m))) g m fuel

/-- `fd = (ECL << 3) OR MASK` (R284). -/
def formatData (f : ParamCsrs) : Nat := (f.ecl.toNat <<< 3) ||| f.mask.toNat

/-- `bch_format(fd)`, a 15-bit word (R285). -/
def bchFormat (fd : Nat) : Nat :=
  ((fd <<< 10) ||| bchRem (fd <<< 10) Config.g15 10 32) ^^^ Config.g15Mask

/-- `bch_version(v)`, an 18-bit word (R287). -/
def bchVersion (v : Nat) : Nat := (v <<< 12) ||| bchRem (v <<< 12) Config.g18 12 32

/-- BCHF (R286). -/
def execBchf (a b : XReg) (s : State) : Host.Outcome State Fault Refusal := finish s do
  let fd := (s.getX b).toNat
  badOperandIf (decide (31 < fd)) fd
  return (s.setX a (BitVec.ofNat 32 (bchFormat fd))).advance

/-- BCHV (R288). -/
def execBchv (a b : XReg) (s : State) : Host.Outcome State Fault Refusal := finish s do
  let v := (s.getX b).toNat
  badOperandIf (decide (63 < v)) v
  return (s.setX a (BitVec.ofNat 32 (bchVersion v))).advance

end Sys2Proof.Machine
end

