-- ==== Sys2Proof/Machine/Control.lean ====
section
/-! DEFINITION. The control, branch and CSR commands (40_control R111 to R118). -/

namespace Sys2Proof.Machine

/-- NOP (R111). -/
def execNop (s : State) : Host.Outcome State Fault Refusal := .next s.advance

/-- HALT: the run ends with DONE and pc stays at the HALT (R112). -/
def execHalt (s : State) : Host.Outcome State Fault Refusal :=
  .next { s with status := { s.status with run := false, done := true } }

/-- JMP (R113). -/
def execJmp (target : BitVec 10) (s : State) : Host.Outcome State Fault Refusal := .next (s.jump target)

/-- The two ends of a conditional branch (R114 to R116). -/
def State.branch (s : State) (taken : Bool) (target : BitVec 10) : State :=
  if taken then s.jump target else s.advance

/-- BZ: the whole 32-bit value is tested (R114). -/
def execBz (a : XReg) (target : BitVec 10) (s : State) : Host.Outcome State Fault Refusal :=
  .next (s.branch (s.getX a == 0) target)

/-- BNZ (R115). -/
def execBnz (a : XReg) (target : BitVec 10) (s : State) : Host.Outcome State Fault Refusal :=
  .next (s.branch (s.getX a != 0) target)

/-- BLTU: an unsigned 32-bit compare (R116). -/
def execBltu (a b : XReg) (target : BitVec 10) (s : State) : Host.Outcome State Fault Refusal :=
  .next (s.branch (decide ((s.getX a).toNat < (s.getX b).toNat)) target)

/-- CSRR (R117). A CSR the engine may not read is IllegalCommand with the command's own word; the decoder lets no
such command through (log 8). -/
def execCsrr (a : XReg) (c : Csr) (s : State) : Host.Outcome State Fault Refusal := finish s do
  if c.engineReadable then return (s.setX a (s.csrRead c)).advance
  else raise .illegalCommand (encode (.csrr a c)).toNat

/-- CSRW (R118). A CSR the engine may not write is IllegalCommand with the command's own word (log 8). -/
def execCsrw (c : Csr) (a : XReg) (s : State) : Host.Outcome State Fault Refusal := finish s do
  if c.engineWritable then return (s.csrWrite c (s.getX a)).advance
  else raise .illegalCommand (encode (.csrw c a)).toNat

end Sys2Proof.Machine
end

