-- ==== Sys2Proof/Machine/LoadStore.lean ====
section
/-! DEFINITION. The load, store and vector-move commands (42_loadstore R150 to R156). -/

namespace Sys2Proof.Machine

/-- LB (R151). -/
def execLb (a b : XReg) (imm : BitVec 16) (s : State) : Host.Outcome State Fault Refusal := finish s do
  let v ← memRead s.dm (effectiveAddress (s.getX b) imm)
  return (s.setX a (ofByte v)).advance

/-- SB: bits 31:8 of the value are ignored (R152). -/
def execSb (a b : XReg) (imm : BitVec 16) (s : State) : Host.Outcome State Fault Refusal := finish s do
  let dm ← memWrite s.dm (effectiveAddress (s.getX b) imm) (lowByte (s.getX a))
  return State.advance { s with dm := dm }

/-- PLD: raw bytes, no leading zero removed (R153). -/
def execPld (a : PReg) (b c : XReg) (s : State) : Host.Outcome State Fault Refusal := finish s do
  let n := (s.getX c).toNat
  badOperandIf (decide (Config.pMax < n)) n
  let bytes ← memReadSeq s.dm (s.getX b).toNat n
  return (s.setP a bytes).advance

/-- PST (R154). -/
def execPst (a : PReg) (b : XReg) (s : State) : Host.Outcome State Fault Refusal := finish s do
  let dm ← memWriteSeq s.dm (s.getX b).toNat (s.getP a)
  return State.advance { s with dm := dm }

/-- PLEN (R155). -/
def execPlen (a : XReg) (b : PReg) (s : State) : Host.Outcome State Fault Refusal :=
  .next (s.setX a (BitVec.ofNat 32 (s.getP b).length)).advance

/-- PMOV (R156). -/
def execPmov (a b : PReg) (s : State) : Host.Outcome State Fault Refusal :=
  .next (s.setP a (s.getP b)).advance

end Sys2Proof.Machine
end

