-- ==== Sys2Proof/Machine/Penalty.lean ====
section
/-! DEFINITION. The penalty score of a matrix of colours (48_matrix R330 to R334). A matrix is its list of rows, each
a list of colours from left to right, `true` for dark. -/

namespace Sys2Proof.Machine

/-- What a finished run of length `len` adds: `len - 2` from 5 on (R331). -/
def runScore (len : Nat) : Nat := if 5 ≤ len then len - 2 else 0

/-- Rule 1 on the rest of a line, inside a run of `len` modules of colour `colour` (R331). -/
def runsFrom (colour : Bool) (len : Nat) : List Bool → Nat
  | [] => runScore len
  | g :: gs => if g = colour then runsFrom colour (len + 1) gs else runScore len + runsFrom g 1 gs

/-- Rule 1 on one line: each maximal run of length `L ≥ 5` adds `L - 2` (R331). -/
def lineRuns : List Bool → Nat
  | [] => 0
  | g :: gs => runsFrom g 1 gs

/-- The solid 2x2 blocks of two neighbouring rows, 3 each (R332). -/
def rowPairBlocks : List Bool → List Bool → Nat
  | a :: b :: as, c :: d :: cs =>
    (if a = b ∧ b = c ∧ c = d then 3 else 0) + rowPairBlocks (b :: as) (d :: cs)
  | _, _ => 0

/-- Rule 2 (R332). -/
def blockScore : List (List Bool) → Nat
  | r :: r' :: rs => rowPairBlocks r r' + blockScore (r' :: rs)
  | _ => 0

/-- The 1:1:3:1:1 pattern, `1011101` (R333). -/
def finderRatio : List Bool := [true, false, true, true, true, false, true]

/-- Rule 3 on one line: every start whose seven modules match adds 40 (R333). -/
def lineFinders : List Bool → Nat
  | [] => 0
  | g :: gs => (if (g :: gs).take 7 = finderRatio then 40 else 0) + lineFinders gs

/-- The columns of a matrix with `d` columns, from left to right. -/
def columns (d : Nat) (rows : List (List Bool)) : List (List Bool) :=
  (List.range d).map fun c => rows.map fun r => r.getD c false

/-- Rule 4 with `n` dark modules among `d * d` (R334). -/
def balanceScore (d n : Nat) : Nat :=
  10 * ((if 50 * (d * d) ≤ 100 * n then 100 * n - 50 * (d * d) else 50 * (d * d) - 100 * n) / (5 * (d * d)))

/-- The dark modules of a matrix. -/
def darkCount (rows : List (List Bool)) : Nat := (rows.map fun r => r.count true).sum

/-- `N1 + N2 + N3 + N4` of a `d x d` matrix (R330 to R334). -/
def penalty (d : Nat) (rows : List (List Bool)) : Nat :=
  let lines := rows ++ columns d rows
  (lines.map lineRuns).sum + blockScore rows + (lines.map lineFinders).sum + balanceScore d (darkCount rows)

end Sys2Proof.Machine
end

