-- ==== Sys2Proof/Machine/Matrix.lean ====
section
/-! DEFINITION. The matrix builder (48_matrix): geometry, masks, function patterns, data placement, and the commands
MXCLR, MXFND, MXALN, MXTIM, MXFMT, MXVER, MXDAT, MXPEN, MXBLD, MXGET, MXMSK, MXOUT. A pattern is the list of the
cells it sets, each with its colour, in the order the rule sets them. -/

namespace Sys2Proof.Machine

/-- `dim()`: 4v + 17 for a version of 1 to 40 (R300). -/
def dim (f : ParamCsrs) : Except Stop Nat :=
  let v := f.version.toNat
  if v = 0 ∨ Config.vMax < v then raise .badOperand v else .ok (4 * v + 17)

/-- `mask_pred(m, r, c)` (R304). -/
def maskPred (m r c : Nat) : Bool :=
  match m with
  | 0 => (r + c) % 2 == 0
  | 1 => r % 2 == 0
  | 2 => c % 3 == 0
  | 3 => (r + c) % 3 == 0
  | 4 => (r / 2 + c / 3) % 2 == 0
  | 5 => (r * c) % 2 + (r * c) % 3 == 0
  | 6 => ((r * c) % 2 + (r * c) % 3) % 2 == 0
  | _ => ((r * c) % 3 + (r + c) % 2) % 2 == 0

/-! ## Cells and patterns -/

/-- A cell and the colour a pattern gives it: row, column, dark. -/
abbrev Stamp := Nat × Nat × Bool

/-- Set every cell of a pattern, whatever it held (R301). -/
def setAll (mm : Memory ModuleCell) : List Stamp → Memory ModuleCell
  | [] => mm
  | (r, c, dark) :: rest => setAll (setCell mm r c dark) rest

/-- Set the cells of a pattern that are UNSET (R315). -/
def setWhereUnset (mm : Memory ModuleCell) : List Stamp → Except Stop (Memory ModuleCell)
  | [] => .ok mm
  | (r, c, dark) :: rest => do
    let m ← writtenCell mm r c
    setWhereUnset (if m = .unset then setCell mm r c dark else mm) rest

/-- The cells of the `d x d` symbol in row-major order. -/
def cells (d : Nat) : List (Nat × Nat) :=
  (List.range d).flatMap fun r => (List.range d).map fun c => (r, c)

/-- Write UNSET to the listed cells. -/
def unsetAll (mm : Memory ModuleCell) : List (Nat × Nat) → Memory ModuleCell
  | [] => mm
  | (r, c) :: rest => unsetAll (Memory.write mm (cellKey r c) .unset) rest

/-- The clearing step: every cell of the symbol becomes UNSET (R306). -/
def clearMatrix (d : Nat) (mm : Memory ModuleCell) : Memory ModuleCell := unsetAll mm (cells d)

/-- The colour of the finder stamp at offset `(dr, dc)` from its top-left dark corner (R310). -/
def finderDark (dr dc : Int) : Bool :=
  (decide (0 ≤ dr ∧ dr ≤ 6) && (dc == 0 || dc == 6)) ||
  (decide (0 ≤ dc ∧ dc ≤ 6) && (dr == 0 || dr == 6)) ||
  decide (2 ≤ dr ∧ dr ≤ 4 ∧ 2 ≤ dc ∧ dc ≤ 4)

/-- The offsets of the finder stamp with its separator, -1 to 7 (R310). -/
def finderOffsets : List Int := [-1, 0, 1, 2, 3, 4, 5, 6, 7]

/-- `stamp_finder(r0, c0)`, cells outside the symbol skipped (R310, R311). -/
def finderStamps (d r0 c0 : Nat) : List Stamp :=
  finderOffsets.flatMap fun dr => finderOffsets.filterMap fun dc =>
    let r : Int := r0 + dr
    let c : Int := c0 + dc
    if r < 0 ∨ (d : Int) ≤ r ∨ c < 0 ∨ (d : Int) ≤ c then none
    else some (r.toNat, c.toNat, finderDark dr dc)

/-- The three finders: top-left, bottom-left, top-right (R312). -/
def finderPattern (d : Nat) : List Stamp :=
  finderStamps d 0 0 ++ finderStamps d (d - 7) 0 ++ finderStamps d 0 (d - 7)

/-- MXFND's step (R312). -/
def placeFinders (d : Nat) (mm : Memory ModuleCell) : Memory ModuleCell := setAll mm (finderPattern d)

/-- The colour of the alignment stamp at `(i, j)` of its 5x5 square, the centre at `(2, 2)` (R313). -/
def alignDark (i j : Nat) : Bool :=
  i == 0 || i == 4 || j == 0 || j == 4 || (i == 2 && j == 2)

/-- `stamp_align(r0, c0)` for a centre at least 2 from the edge (R313, R314). -/
def alignStamps (r0 c0 : Nat) : List Stamp :=
  (List.range 5).flatMap fun i => (List.range 5).map fun j => (r0 + i - 2, c0 + j - 2, alignDark i j)

/-- The centre coordinates in use: ALN0 .. ALN(n-1) with n = ALNCNT (R314). -/
def alignCentres (f : ParamCsrs) : List Nat :=
  (f.aln.toList.take f.alncnt.toNat).map BitVec.toNat

/-- A centre whose 5x5 pattern would leave the matrix is BadOperand (R314). -/
def checkCentres (d : Nat) : List Nat → Except Stop Unit
  | [] => .ok ()
  | a :: rest => do
    badOperandIf (decide (a < 2 ∨ d - 3 < a)) a
    checkCentres d rest

/-- A pattern is stamped at each listed centre whose cell is UNSET (R313, R314). -/
def placeAlignAt (mm : Memory ModuleCell) : List (Nat × Nat) → Except Stop (Memory ModuleCell)
  | [] => .ok mm
  | (r, c) :: rest => do
    let m ← writtenCell mm r c
    placeAlignAt (if m = .unset then setAll mm (alignStamps r c) else mm) rest

/-- The centres of the patterns, rows outer and columns inner (R314). -/
def centrePairs (f : ParamCsrs) : List (Nat × Nat) :=
  (alignCentres f).flatMap fun r => (alignCentres f).map fun c => (r, c)

/-- The stamping step of MXALN (R314). -/
def placeAlign (f : ParamCsrs) (mm : Memory ModuleCell) : Except Stop (Memory ModuleCell) :=
  placeAlignAt mm (centrePairs f)

/-- The timing cells, column 6 before row 6, dark at even index (R315). -/
def timingStamps (d : Nat) : List Stamp :=
  let line := (List.range (d - 16)).map (fun i => i + 8)
  line.map (fun i => (i, 6, i % 2 == 0)) ++ line.map (fun i => (6, i, i % 2 == 0))

/-- `place_timing()` (R315). -/
def placeTiming (d : Nat) (mm : Memory ModuleCell) : Except Stop (Memory ModuleCell) :=
  setWhereUnset mm (timingStamps d)

/-- The two cells of format bit `i`, column 8 then row 8 (R317). -/
def formatCells (d i : Nat) : (Nat × Nat) × (Nat × Nat) :=
  (if i < 6 then (i, 8) else if i < 8 then (i + 1, 8) else (d - 15 + i, 8),
   if i < 8 then (8, d - 1 - i) else if i = 8 then (8, 7) else (8, 14 - i))

/-- `place_format(test)`: on a test pass every cell, the dark module included, is light (R317; 90_conflicts C2). -/
def formatStamps (d : Nat) (f : ParamCsrs) (test : Bool) : List Stamp :=
  let bits := bchFormat (formatData f)
  ((List.range 15).flatMap fun i =>
    let dark := !test && bits.testBit i
    let (u, v) := formatCells d i
    [(u.1, u.2, dark), (v.1, v.2, dark)]) ++ [(d - 8, 8, !test)]

/-- `place_version(test)`: nothing below version 7 (R317). -/
def versionStamps (d : Nat) (f : ParamCsrs) (test : Bool) : List Stamp :=
  if f.version.toNat < 7 then []
  else
    let bits := bchVersion f.version.toNat
    (List.range 18).flatMap fun i =>
      let dark := !test && bits.testBit i
      [(i / 3, d - 11 + i % 3, dark), (d - 11 + i % 3, i / 3, dark)]

/-! ## Data placement -/

/-- The lanes of `path()` from right column `col` on, at most `fuel` of them, column 6 skipped (R320). -/
def lanes (d : Nat) : Nat → Nat → Bool → List (Nat × Nat)
  | 0, _, _ => []
  | fuel + 1, col, up =>
    if col = 0 then []
    else
      let col := if col = 6 then 5 else col
      let rows := if up then (List.range d).reverse else List.range d
      (rows.flatMap fun r => [(r, col), (r, col - 1)]) ++ lanes d fuel (col - 2) (!up)

/-- `path()`: the first lane upward from the bottom-right corner (R320). -/
def path (d : Nat) : List (Nat × Nat) := lanes d d (d - 1) true

/-- Bit `j` of a byte sequence, most significant first, 0 beyond its end (R321). -/
def dataBit (bytes : List Byte) (j : Nat) : Bool := (bytes.getD (j / 8) 0).getLsbD (7 - j % 8)

/-- Place the bits from `j` on in the UNSET cells of the rest of the path (R322). -/
def placeFrom (bytes : List Byte) (m : Nat) (mm : Memory ModuleCell) (j : Nat) :
    List (Nat × Nat) → Except Stop (Memory ModuleCell)
  | [] => .ok mm
  | (r, c) :: rest => do
    let cell ← writtenCell mm r c
    if cell = .unset then
      placeFrom bytes m (setCell mm r c (dataBit bytes j ^^ maskPred m r c)) (j + 1) rest
    else placeFrom bytes m mm j rest

/-- `place_data(s, m)` (R322). -/
def placeData (d : Nat) (bytes : List Byte) (m : Nat) (mm : Memory ModuleCell) : Except Stop (Memory ModuleCell) :=
  placeFrom bytes m mm 0 (path d)

/-! ## Reading the symbol -/

/-- The colours of the listed cells, in order; the first UNSET one is a fault (R330, R302). -/
def readColours (mm : Memory ModuleCell) : List (Nat × Nat) → Except Stop (List Bool)
  | [] => .ok []
  | (r, c) :: rest => do
    let g ← isDark mm r c
    let gs ← readColours mm rest
    return g :: gs

/-- The colours of the symbol in row-major order, one list of rows `r, r+1, ...` (R330). -/
def readRows (d : Nat) (mm : Memory ModuleCell) : Nat → Nat → Except Stop (List (List Bool))
  | _, 0 => .ok []
  | r, n + 1 => do
    let row ← readColours mm ((List.range d).map fun c => (r, c))
    let rows ← readRows d mm (r + 1) n
    return row :: rows

/-- The matrix of colours, every cell read first (R330). -/
def readMatrix (d : Nat) (mm : Memory ModuleCell) : Except Stop (List (List Bool)) := readRows d mm 0 d

/-- Pack bits into bytes, most significant first, the last byte padded with zeros; `acc` holds the `k` bits of a
byte begun (R338, 20_memory R63). -/
def packBits (acc : Byte) (k : Nat) : List Bool → List Byte
  | [] => if k = 0 then [] else [acc <<< (8 - k)]
  | g :: gs =>
    let acc := (acc <<< 1) ||| (if g then 1 else 0)
    if k = 7 then acc :: packBits 0 0 gs else packBits acc (k + 1) gs

/-- The bytes of the packed symbol: `⌈D*D / 8⌉` (R338). -/
def packedLength (d : Nat) : Nat := (d * d + 7) / 8

/-! ## Building -/

/-- `build_pass(s, m, test)`: one construction of the matrix, leaving MASK at `m` (R336). -/
def buildPass (d : Nat) (f : ParamCsrs) (bytes : List Byte) (m : BitVec 3) (test : Bool) (mm : Memory ModuleCell) :
    Except Stop (Memory ModuleCell) := do
  let f := { f with mask := m }
  let mm := placeFinders d (clearMatrix d mm)
  let mm ← placeAlign f mm
  let mm ← placeTiming d mm
  let mm := setAll (setAll mm (formatStamps d f test)) (versionStamps d f test)
  placeData d bytes m.toNat mm

/-- The trial of the masks `m, m+1, ...`, `n` of them: the best mask so far with its penalty, a later one replacing
it only when strictly better (R337). -/
def trialFrom (d : Nat) (f : ParamCsrs) (bytes : List Byte) :
    Nat → Nat → Option (Nat × Nat) → Memory ModuleCell → Except Stop (Option (Nat × Nat) × Memory ModuleCell)
  | _, 0, best, mm => .ok (best, mm)
  | m, n + 1, best, mm => do
    let mm ← buildPass d f bytes (BitVec.ofNat 3 m) true mm
    let rows ← readMatrix d mm
    let pen := penalty d rows
    let best := match best with
      | none => some (m, pen)
      | some (bm, bp) => if pen < bp then some (m, pen) else some (bm, bp)
    trialFrom d f bytes (m + 1) n best mm

/-! ## Commands -/

/-- MXCLR (R306). -/
def execMxclr (s : State) : Host.Outcome State Fault Refusal := finish s do
  let d ← dim s.csr
  return State.advance { s with mm := clearMatrix d s.mm }

/-- MXFND (R312). -/
def execMxfnd (s : State) : Host.Outcome State Fault Refusal := finish s do
  let d ← dim s.csr
  return State.advance { s with mm := placeFinders d s.mm }

/-- MXALN (R314). -/
def execMxaln (s : State) : Host.Outcome State Fault Refusal := finish s do
  let d ← dim s.csr
  checkCentres d (alignCentres s.csr)
  let mm ← placeAlign s.csr s.mm
  return State.advance { s with mm := mm }

/-- MXTIM (R316). -/
def execMxtim (s : State) : Host.Outcome State Fault Refusal := finish s do
  let d ← dim s.csr
  let mm ← placeTiming d s.mm
  return State.advance { s with mm := mm }

/-- MXFMT (R318). -/
def execMxfmt (test : Bool) (s : State) : Host.Outcome State Fault Refusal := finish s do
  let d ← dim s.csr
  return State.advance { s with mm := setAll s.mm (formatStamps d s.csr test) }

/-- MXVER (R319). -/
def execMxver (test : Bool) (s : State) : Host.Outcome State Fault Refusal := finish s do
  let d ← dim s.csr
  return State.advance { s with mm := setAll s.mm (versionStamps d s.csr test) }

/-- MXDAT (R323). -/
def execMxdat (a b : XReg) (s : State) : Host.Outcome State Fault Refusal := finish s do
  let d ← dim s.csr
  let bytes ← memReadSeq s.dm (s.getX a).toNat (s.getX b).toNat
  let mm ← placeData d bytes s.csr.mask.toNat s.mm
  return State.advance { s with mm := mm }

/-- MXPEN (R335). -/
def execMxpen (a : XReg) (s : State) : Host.Outcome State Fault Refusal := finish s do
  let d ← dim s.csr
  let rows ← readMatrix d s.mm
  return (s.setX a (BitVec.ofNat 32 (penalty d rows))).advance

/-- MXBLD (R337). Equal destinations are IllegalCommand with the command's own word (30_encoding R93; log 8). -/
def execMxbld (a b c e : XReg) (s : State) : Host.Outcome State Fault Refusal := finish s do
  if a = b then raise .illegalCommand (encode (.mxbld a b c e)).toNat
  let d ← dim s.csr
  checkCentres d (alignCentres s.csr)
  let bytes ← memReadSeq s.dm (s.getX c).toNat (s.getX e).toNat
  let (best, mm) ← trialFrom d s.csr bytes 0 8 none s.mm
  let (m, pen) := best.getD (0, 0)
  let mm ← buildPass d s.csr bytes (BitVec.ofNat 3 m) false mm
  let t : State := { s with mm := mm, csr := { s.csr with mask := BitVec.ofNat 3 m } }
  return ((t.setX a (BitVec.ofNat 32 m)).setX b (BitVec.ofNat 32 pen)).advance

/-- MXGET (R307). -/
def execMxget (a b c : XReg) (s : State) : Host.Outcome State Fault Refusal := finish s do
  let d ← dim s.csr
  let r := (s.getX b).toNat
  let col := (s.getX c).toNat
  badOperandIf (decide (d ≤ r)) r
  badOperandIf (decide (d ≤ col)) col
  let g ← isDark s.mm r col
  return (s.setX a (boolWord g)).advance

/-- MXMSK: it reads neither VERSION nor MM (R305). -/
def execMxmsk (a b c e : XReg) (s : State) : Host.Outcome State Fault Refusal := finish s do
  let m := (s.getX b).toNat
  let r := (s.getX c).toNat
  let col := (s.getX e).toNat
  badOperandIf (decide (7 < m)) m
  badOperandIf (decide (176 < r)) r
  badOperandIf (decide (176 < col)) col
  return (s.setX a (boolWord (maskPred m r col))).advance

/-- MXOUT (R338). -/
def execMxout (a : XReg) (s : State) : Host.Outcome State Fault Refusal := finish s do
  let d ← dim s.csr
  let rows ← readMatrix d s.mm
  checkRange (s.getX a).toNat (packedLength d)
  let dm ← memWriteSeq s.dm (s.getX a).toNat (packBits 0 0 rows.flatten)
  return State.advance { s with dm := dm }

end Sys2Proof.Machine
end

