-- ==== Sys2Proof/Machine/Scalar.lean ====
section
/-! DEFINITION. The scalar integer commands (41_scalar R131 to R140): arithmetic modulo 2^32, no flag, no fault
(R130). -/

namespace Sys2Proof.Machine

/-- LI (R131). -/
def execLi (a : XReg) (imm : BitVec 16) (s : State) : Host.Outcome State Fault Refusal :=
  .next (s.setX a (zext32 imm)).advance

/-- LIH: the low half is kept (R132). -/
def execLih (a : XReg) (imm : BitVec 16) (s : State) : Host.Outcome State Fault Refusal :=
  .next (s.setX a (imm ++ (s.getX a).setWidth 16 : BitVec 32)).advance

/-- ADDI (R133). -/
def execAddi (a b : XReg) (imm : BitVec 16) (s : State) : Host.Outcome State Fault Refusal :=
  .next (s.setX a (s.getX b + sext32 imm)).advance

/-- ADD (R134). -/
def execAdd (a b c : XReg) (s : State) : Host.Outcome State Fault Refusal :=
  .next (s.setX a (s.getX b + s.getX c)).advance

/-- SUB (R135). -/
def execSub (a b c : XReg) (s : State) : Host.Outcome State Fault Refusal :=
  .next (s.setX a (s.getX b - s.getX c)).advance

/-- AND (R136). -/
def execAnd (a b c : XReg) (s : State) : Host.Outcome State Fault Refusal :=
  .next (s.setX a (s.getX b &&& s.getX c)).advance

/-- OR (R137). -/
def execOr (a b c : XReg) (s : State) : Host.Outcome State Fault Refusal :=
  .next (s.setX a (s.getX b ||| s.getX c)).advance

/-- XOR, on all 32 bits (R138). -/
def execXor (a b c : XReg) (s : State) : Host.Outcome State Fault Refusal :=
  .next (s.setX a (s.getX b ^^^ s.getX c)).advance

/-- SLLI, a shift of 0 to 31 (R139). -/
def execSlli (a b : XReg) (sh : BitVec 5) (s : State) : Host.Outcome State Fault Refusal :=
  .next (s.setX a (s.getX b <<< sh.toNat)).advance

/-- SRLI, zero fill (R140). -/
def execSrli (a b : XReg) (sh : BitVec 5) (s : State) : Host.Outcome State Fault Refusal :=
  .next (s.setX a (s.getX b >>> sh.toNat)).advance

end Sys2Proof.Machine
end

