-- ==== Sys2Proof/Machine/Dispatch.lean ====
section
/-! DEFINITION. Dispatch: one arm per command, each one call of its meaning. -/

namespace Sys2Proof.Machine

def exec (i : Instr) (s : State) : Host.Outcome State Fault Refusal :=
  match i with
  | .nop => Sys2Proof.Machine.execNop s
  | .halt => Sys2Proof.Machine.execHalt s
  | .jmp target => Sys2Proof.Machine.execJmp target s
  | .bz a target => Sys2Proof.Machine.execBz a target s
  | .bnz a target => Sys2Proof.Machine.execBnz a target s
  | .bltu a b target => Sys2Proof.Machine.execBltu a b target s
  | .csrr a c => Sys2Proof.Machine.execCsrr a c s
  | .csrw c a => Sys2Proof.Machine.execCsrw c a s
  | .li a imm => Sys2Proof.Machine.execLi a imm s
  | .lih a imm => Sys2Proof.Machine.execLih a imm s
  | .addi a b imm => Sys2Proof.Machine.execAddi a b imm s
  | .add a b c => Sys2Proof.Machine.execAdd a b c s
  | .sub a b c => Sys2Proof.Machine.execSub a b c s
  | .and a b c => Sys2Proof.Machine.execAnd a b c s
  | .or a b c => Sys2Proof.Machine.execOr a b c s
  | .xor a b c => Sys2Proof.Machine.execXor a b c s
  | .slli a b sh => Sys2Proof.Machine.execSlli a b sh s
  | .srli a b sh => Sys2Proof.Machine.execSrli a b sh s
  | .lb a b imm => Sys2Proof.Machine.execLb a b imm s
  | .sb a b imm => Sys2Proof.Machine.execSb a b imm s
  | .pld a b c => Sys2Proof.Machine.execPld a b c s
  | .pst a b => Sys2Proof.Machine.execPst a b s
  | .plen a b => Sys2Proof.Machine.execPlen a b s
  | .pmov a b => Sys2Proof.Machine.execPmov a b s
  | .gfadd a b c => Sys2Proof.Machine.execGfadd a b c s
  | .gfmul a b c => Sys2Proof.Machine.execGfmul a b c s
  | .gfinv a b => Sys2Proof.Machine.execGfinv a b s
  | .gfexp a b => Sys2Proof.Machine.execGfexp a b s
  | .gflog a b => Sys2Proof.Machine.execGflog a b s
  | .pnorm a b => Sys2Proof.Machine.execPnorm a b s
  | .pdeg a b => Sys2Proof.Machine.execPdeg a b s
  | .pcoef a b c => Sys2Proof.Machine.execPcoef a b c s
  | .peval a b c => Sys2Proof.Machine.execPeval a b c s
  | .pmul a b c => Sys2Proof.Machine.execPmul a b c s
  | .pmulm a b c d => Sys2Proof.Machine.execPmulm a b c d s
  | .padd a b c => Sys2Proof.Machine.execPadd a b c s
  | .pmod a b c => Sys2Proof.Machine.execPmod a b c s
  | .pmono a b c => Sys2Proof.Machine.execPmono a b c s
  | .rsgen a b => Sys2Proof.Machine.execRsgen a b s
  | .rsenc a b c => Sys2Proof.Machine.execRsenc a b c s
  | .rssyn a b c d => Sys2Proof.Machine.execRssyn a b c d s
  | .rseuc a b c d e => Sys2Proof.Machine.execRseuc a b c d e s
  | .rschn a b c => Sys2Proof.Machine.execRschn a b c s
  | .rsfrn a b c => Sys2Proof.Machine.execRsfrn a b c s
  | .rscor a b c d e => Sys2Proof.Machine.execRscor a b c d e s
  | .rsdec a b c d e => Sys2Proof.Machine.execRsdec a b c d e s
  | .bput a b => Sys2Proof.Machine.execBput a b s
  | .blen a => Sys2Proof.Machine.execBlen a s
  | .bpad a => Sys2Proof.Machine.execBpad a s
  | .bread a b => Sys2Proof.Machine.execBread a b s
  | .bavl a => Sys2Proof.Machine.execBavl a s
  | .cwenc a b => Sys2Proof.Machine.execCwenc a b s
  | .bchf a b => Sys2Proof.Machine.execBchf a b s
  | .bchv a b => Sys2Proof.Machine.execBchv a b s
  | .mxclr => Sys2Proof.Machine.execMxclr s
  | .mxfnd => Sys2Proof.Machine.execMxfnd s
  | .mxaln => Sys2Proof.Machine.execMxaln s
  | .mxtim => Sys2Proof.Machine.execMxtim s
  | .mxfmt test => Sys2Proof.Machine.execMxfmt test s
  | .mxver test => Sys2Proof.Machine.execMxver test s
  | .mxdat a b => Sys2Proof.Machine.execMxdat a b s
  | .mxpen a => Sys2Proof.Machine.execMxpen a s
  | .mxbld a b c d => Sys2Proof.Machine.execMxbld a b c d s
  | .mxget a b c => Sys2Proof.Machine.execMxget a b c s
  | .mxmsk a b c d => Sys2Proof.Machine.execMxmsk a b c d s
  | .mxout a => Sys2Proof.Machine.execMxout a s

end Sys2Proof.Machine
end

