-- ==== Sys2Proof/Machine/Fetch.lean ====
section
/-! DEFINITION. Fetching a command (10_state R26, 60_exceptions R363) and the end of a step. -/

namespace Sys2Proof.Machine

/-- The word `CM[pc]`: PcRange past the last index, and a model fault where nobody has written (10_state R26,
20_memory R79). -/
def fetchWord (s : State) : Except Stop Word :=
  if Config.cmWords ≤ s.pc.toNat then raise .pcRange s.pc.toNat
  else match Memory.read s.cm s.pc.toNat with
    | some w => .ok w
    | none => .error (.sticks (.unwrittenCommand s.pc.toNat))

/-- The command a word stands for; a word that fails a static check is IllegalCommand with the word
(30_encoding R94, 60_exceptions R363). -/
def commandOf (w : Word) : Except Stop Instr :=
  match decode w with
  | .ok i => .ok i
  | .error _ => raise .illegalCommand w.toNat

/-- Fetch and decode, in the priority of 60_exceptions R357. -/
def fetch (s : State) : Except Stop Instr := do
  let w ← fetchWord s
  commandOf w

/-- The last line of `step()`: a run that has ended clears the stop request (60_exceptions R363). -/
def settleOutcome (o : Host.Outcome State Fault Refusal) : Host.Outcome State Fault Refusal :=
  match o with
  | .next t => .next t.settle
  | .fault f => .fault f
  | .refused r => .refused r

end Sys2Proof.Machine
end

