-- ==== Sys2Proof/Machine/Step.lean ====
section
/-! DEFINITION. The step function of the engine (60_exceptions R363), and the placing of a word where the next step
fetches it. -/

namespace Sys2Proof.Machine

/-- One step: with RUN = 0 the engine does nothing; otherwise a stop request, the fetch, the static checks and the
command are examined in the order of 60_exceptions R357. -/
def step (s : State) : Host.Outcome State Fault Refusal :=
  if s.status.run = false then .next s
  else if s.stopReq then .next s.honourStop
  else match fetch s with
    | .error e => settleOutcome (finish s (.error e))
    | .ok i => settleOutcome (exec i s)

/-- `s` with a word stored in CM where the next step fetches it and the engine running, as the host's write of CM
and CTRL.START would leave it (20_memory R70, 10_state R34; log 9). A pc past CM_WORDS is set to the reset vector. -/
def State.withFetchWord (s : State) (nbits w : Nat) : State :=
  let index := if s.pc.toNat < Config.cmWords then s.pc.toNat else 0
  { s with
    pc := BitVec.ofNat 32 index
    status := { s.status with run := true, done := false, stopped := false }
    stopReq := false
    cm := Memory.write s.cm index (BitVec.ofNat 32 (w % 2 ^ nbits)) }

end Sys2Proof.Machine
end

