-- ==== Sys2Proof/Machine/Targets.lean ====
section
/-! DEFINITION. Where each command may write: the destination fields of 30_encoding R95 and the memory and CSR writes of
20_memory R61. The addresses are the expressions the meanings use. -/

namespace Sys2Proof.Machine

/-- The x registers a command writes, the roles `xd` of R95. -/
def xTargets (i : Instr) : List XReg :=
  match i with
  | .csrr a _ | .li a _ | .lih a _ | .addi a _ _ | .add a _ _ | .sub a _ _ | .and a _ _ | .or a _ _
  | .xor a _ _ | .slli a _ _ | .srli a _ _ | .lb a _ _ | .plen a _ | .gfadd a _ _ | .gfmul a _ _ | .gfinv a _
  | .gfexp a _ | .gflog a _ | .pdeg a _ | .pcoef a _ _ | .peval a _ _ | .rssyn a _ _ _ | .rseuc a _ _ _ _
  | .rschn a _ _ | .rscor a _ _ _ _ | .blen a | .bread a _ | .bavl a | .bchf a _ | .bchv a _ | .mxpen a
  | .mxget a _ _ | .mxmsk a _ _ _ => [a]
  | .rsdec a b _ _ _ | .mxbld a b _ _ => [a, b]
  | .nop | .halt | .jmp _ | .bz _ _ | .bnz _ _ | .bltu _ _ _ | .csrw _ _ | .sb _ _ _ | .pld _ _ _ | .pst _ _
  | .pmov _ _ | .pnorm _ _ | .pmul _ _ _ | .pmulm _ _ _ _ | .padd _ _ _ | .pmod _ _ _ | .pmono _ _ _
  | .rsgen _ _ | .rsenc _ _ _ | .rsfrn _ _ _ | .bput _ _ | .bpad _ | .cwenc _ _ | .mxclr | .mxfnd | .mxaln
  | .mxtim | .mxfmt _ | .mxver _ | .mxdat _ _ | .mxout _ => []

/-- The p registers a command writes, the roles `pd` of R95. -/
def pTargets (i : Instr) : List PReg :=
  match i with
  | .pld a _ _ | .pmov a _ | .pnorm a _ | .pmul a _ _ | .pmulm a _ _ _ | .padd a _ _ | .pmod a _ _
  | .pmono a _ _ | .rsgen a _ | .rsenc a _ _ | .rsfrn a _ _ => [a]
  | .rssyn _ b _ _ | .rschn _ b _ | .rscor _ b _ _ _ => [b]
  | .rseuc _ b c _ _ => [b, c]
  | .rsdec _ _ c _ _ => [c]
  | .nop | .halt | .jmp _ | .bz _ _ | .bnz _ _ | .bltu _ _ _ | .csrr _ _ | .csrw _ _ | .li _ _ | .lih _ _
  | .addi _ _ _ | .add _ _ _ | .sub _ _ _ | .and _ _ _ | .or _ _ _ | .xor _ _ _ | .slli _ _ _ | .srli _ _ _
  | .lb _ _ _ | .sb _ _ _ | .pst _ _ | .plen _ _ | .gfadd _ _ _ | .gfmul _ _ _ | .gfinv _ _ | .gfexp _ _
  | .gflog _ _ | .pdeg _ _ | .pcoef _ _ _ | .peval _ _ _ | .bput _ _ | .blen _ | .bpad _ | .bread _ _ | .bavl _
  | .cwenc _ _ | .bchf _ _ | .bchv _ _ | .mxclr | .mxfnd | .mxaln | .mxtim | .mxfmt _ | .mxver _ | .mxdat _ _
  | .mxpen _ | .mxbld _ _ _ _ | .mxget _ _ _ | .mxmsk _ _ _ _ | .mxout _ => []

/-- The engine-writable CSRs a command writes (20_memory R61, "CSR write"). -/
def csrTargets (i : Instr) : List Csr :=
  match i with
  | .csrw c _ => [c]
  | .bput _ _ => [.wlen]
  | .bpad _ => [.wlen]
  | .bread _ _ => [.rpos]
  | .mxbld _ _ _ _ => [.mask]
  | .nop | .halt | .jmp _ | .bz _ _ | .bnz _ _ | .bltu _ _ _ | .csrr _ _ | .li _ _ | .lih _ _ | .addi _ _ _
  | .add _ _ _ | .sub _ _ _ | .and _ _ _ | .or _ _ _ | .xor _ _ _ | .slli _ _ _ | .srli _ _ _ | .lb _ _ _
  | .sb _ _ _ | .pld _ _ _ | .pst _ _ | .plen _ _ | .pmov _ _ | .gfadd _ _ _ | .gfmul _ _ _ | .gfinv _ _
  | .gfexp _ _ | .gflog _ _ | .pnorm _ _ | .pdeg _ _ | .pcoef _ _ _ | .peval _ _ _ | .pmul _ _ _
  | .pmulm _ _ _ _ | .padd _ _ _ | .pmod _ _ _ | .pmono _ _ _ | .rsgen _ _ | .rsenc _ _ _ | .rssyn _ _ _ _
  | .rseuc _ _ _ _ _ | .rschn _ _ _ | .rsfrn _ _ _ | .rscor _ _ _ _ _ | .rsdec _ _ _ _ _ | .blen _ | .bavl _
  | .cwenc _ _ | .bchf _ _ | .bchv _ _ | .mxclr | .mxfnd | .mxaln | .mxtim | .mxfmt _ | .mxver _ | .mxdat _ _
  | .mxpen _ | .mxget _ _ _ | .mxmsk _ _ _ _ | .mxout _ => []

/-- The DM range a command writes, as base and length (20_memory R61, "DM write"). -/
def dmTarget (i : Instr) (s : State) : Nat × Nat :=
  match i with
  | .sb _ b imm => (effectiveAddress (s.getX b) imm, 1)
  | .pst a b => ((s.getX b).toNat, (s.getP a).length)
  | .bput _ b =>
    let q := s.csr.wlen.toNat
    let n := (s.getX b).toNat
    (streamByte s.csr.wbase.toNat q, if n = 0 then 0 else (q + n + 7) / 8 - q / 8)
  | .bpad a =>
    let q := s.csr.wlen.toNat
    (streamByte s.csr.wbase.toNat q, (s.getX a).toNat / 8 - q / 8)
  | .cwenc a _ => ((s.getX a).toNat, streamLength s.csr)
  | .mxout a => ((s.getX a).toNat, packedLength (4 * s.csr.version.toNat + 17))
  | .nop | .halt | .jmp _ | .bz _ _ | .bnz _ _ | .bltu _ _ _ | .csrr _ _ | .csrw _ _ | .li _ _ | .lih _ _
  | .addi _ _ _ | .add _ _ _ | .sub _ _ _ | .and _ _ _ | .or _ _ _ | .xor _ _ _ | .slli _ _ _ | .srli _ _ _
  | .lb _ _ _ | .pld _ _ _ | .plen _ _ | .pmov _ _ | .gfadd _ _ _ | .gfmul _ _ _ | .gfinv _ _ | .gfexp _ _
  | .gflog _ _ | .pnorm _ _ | .pdeg _ _ | .pcoef _ _ _ | .peval _ _ _ | .pmul _ _ _ | .pmulm _ _ _ _
  | .padd _ _ _ | .pmod _ _ _ | .pmono _ _ _ | .rsgen _ _ | .rsenc _ _ _ | .rssyn _ _ _ _ | .rseuc _ _ _ _ _
  | .rschn _ _ _ | .rsfrn _ _ _ | .rscor _ _ _ _ _ | .rsdec _ _ _ _ _ | .blen _ | .bread _ _ | .bavl _
  | .bchf _ _ | .bchv _ _ | .mxclr | .mxfnd | .mxaln | .mxtim | .mxfmt _ | .mxver _ | .mxdat _ _ | .mxpen _
  | .mxbld _ _ _ _ | .mxget _ _ _ | .mxmsk _ _ _ _ => (0, 0)

/-- The commands that write cells of the symbol (20_memory R61, "MM write"). -/
def writesMatrix (i : Instr) : Bool :=
  match i with
  | .mxclr | .mxfnd | .mxaln | .mxtim | .mxfmt _ | .mxver _ | .mxdat _ _ | .mxbld _ _ _ _ => true
  | .nop | .halt | .jmp _ | .bz _ _ | .bnz _ _ | .bltu _ _ _ | .csrr _ _ | .csrw _ _ | .li _ _ | .lih _ _
  | .addi _ _ _ | .add _ _ _ | .sub _ _ _ | .and _ _ _ | .or _ _ _ | .xor _ _ _ | .slli _ _ _ | .srli _ _ _
  | .lb _ _ _ | .sb _ _ _ | .pld _ _ _ | .pst _ _ | .plen _ _ | .pmov _ _ | .gfadd _ _ _ | .gfmul _ _ _
  | .gfinv _ _ | .gfexp _ _ | .gflog _ _ | .pnorm _ _ | .pdeg _ _ | .pcoef _ _ _ | .peval _ _ _ | .pmul _ _ _
  | .pmulm _ _ _ _ | .padd _ _ _ | .pmod _ _ _ | .pmono _ _ _ | .rsgen _ _ | .rsenc _ _ _ | .rssyn _ _ _ _
  | .rseuc _ _ _ _ _ | .rschn _ _ _ | .rsfrn _ _ _ | .rscor _ _ _ _ _ | .rsdec _ _ _ _ _ | .bput _ _ | .blen _
  | .bpad _ | .bread _ _ | .bavl _ | .cwenc _ _ | .bchf _ _ | .bchv _ _ | .mxpen _ | .mxget _ _ _
  | .mxmsk _ _ _ _ | .mxout _ => false

/-- The key is that of a cell of the `d x d` symbol (48_matrix R300). -/
def inSymbol (d k : Nat) : Bool := decide (k / Config.mmDim < d) && decide (k % Config.mmDim < d)

/-- The key is that of a cell of a pattern. -/
def covers (stamps : List Stamp) (k : Nat) : Bool := stamps.any fun t => cellKey t.1 t.2.1 == k

/-- The cell is UNSET, or unwritten and so perhaps UNSET (20_memory R79). -/
def mayBeUnset (mm : Memory ModuleCell) (k : Nat) : Bool :=
  match Memory.read mm k with
  | some .light | some .dark => false
  | some .unset | none => true

/-- The cells MXALN may set: the pattern of each listed centre whose cell is UNSET when its turn comes (48_matrix R314).
An unwritten centre cell may be UNSET or hold a colour, and both are followed; which colour makes no difference. -/
def alignWrites (mm : Memory ModuleCell) : List (Nat × Nat) → List Stamp
  | [] => []
  | (r, c) :: rest =>
    match Memory.read mm (cellKey r c) with
    | some .unset => alignStamps r c ++ alignWrites (setAll mm (alignStamps r c)) rest
    | some .light | some .dark => alignWrites mm rest
    | none =>
      alignStamps r c ++ alignWrites (setAll mm (alignStamps r c)) rest ++ alignWrites (setCell mm r c true) rest

/-- Some cell of the `d x d` symbol is known to be UNSET. -/
def holdsUnset (mm : Memory ModuleCell) (d : Nat) : Bool :=
  (cells d).any fun t => Memory.read mm (cellKey t.1 t.2) == some .unset

/-- The commands that store to DM, one for each choice of the registers that give its range, SB with the one offset that
could reach `a` (20_memory R61, "DM write"). -/
def storingCommands (s : State) (a : Nat) : List Instr :=
  let xs := List.finRange 16
  xs.map (fun b => .sb 0 b ((BitVec.ofNat 32 a - s.getX b).setWidth 16)) ++
  (List.finRange 8).flatMap (fun q => xs.map fun b => .pst q b) ++
  xs.flatMap (fun b => xs.flatMap fun c => [.bput b c, .cwenc b c]) ++
  xs.flatMap (fun b => [.bpad b, .mxout b])

/-- The cells of MM, by key, that a command writes when it completes (20_memory R61, "MM write"). MXDAT writes the UNSET
cells of the path, which is every column but column 6 (48_matrix R320, R322). -/
def mmTarget (i : Instr) (s : State) (k : Nat) : Bool :=
  let d := 4 * s.csr.version.toNat + 17
  match i with
  | .mxclr | .mxbld _ _ _ _ => inSymbol d k
  | .mxfnd => covers (finderPattern d) k
  | .mxaln => covers (alignWrites s.mm (centrePairs s.csr)) k
  | .mxtim => covers (timingStamps d) k && mayBeUnset s.mm k
  | .mxfmt test => covers (formatStamps d s.csr test) k
  | .mxver test => covers (versionStamps d s.csr test) k
  | .mxdat _ _ => inSymbol d k && k % Config.mmDim != 6 && mayBeUnset s.mm k
  | .nop | .halt | .jmp _ | .bz _ _ | .bnz _ _ | .bltu _ _ _ | .csrr _ _ | .csrw _ _ | .li _ _ | .lih _ _
  | .addi _ _ _ | .add _ _ _ | .sub _ _ _ | .and _ _ _ | .or _ _ _ | .xor _ _ _ | .slli _ _ _ | .srli _ _ _
  | .lb _ _ _ | .sb _ _ _ | .pld _ _ _ | .pst _ _ | .plen _ _ | .pmov _ _ | .gfadd _ _ _ | .gfmul _ _ _
  | .gfinv _ _ | .gfexp _ _ | .gflog _ _ | .pnorm _ _ | .pdeg _ _ | .pcoef _ _ _ | .peval _ _ _ | .pmul _ _ _
  | .pmulm _ _ _ _ | .padd _ _ _ | .pmod _ _ _ | .pmono _ _ _ | .rsgen _ _ | .rsenc _ _ _ | .rssyn _ _ _ _
  | .rseuc _ _ _ _ _ | .rschn _ _ _ | .rsfrn _ _ _ | .rscor _ _ _ _ _ | .rsdec _ _ _ _ _ | .bput _ _ | .blen _
  | .bpad _ | .bread _ _ | .bavl _ | .cwenc _ _ | .bchf _ _ | .bchv _ _ | .mxpen _ | .mxget _ _ _
  | .mxmsk _ _ _ _ | .mxout _ => false

end Sys2Proof.Machine
end

