-- ==== Sys2Proof/Machine/HostPort.lean ====
section
/-! DEFINITION. The host's operations (20_memory R70, R71; 10_state R29 to R37; 70_reset_and_hazards R380, R381). Each is
atomic and lands between two steps of the engine (log 9). -/

namespace Sys2Proof.Machine

/-! ## Resets -/

/-- The command is sure to fault although it stops the model first at an unwritten cell: MXOUT of a symbol that holds an
UNSET cell (48_matrix R338). -/
def sureToFault (i : Instr) (s : State) : Bool :=
  match i with
  | .mxout _ => holdsUnset s.mm (4 * s.csr.version.toNat + 17)
  | _ => false

/-- The command may write memory during a run: it does not end the run. One that faults has "written nothing"
(60_exceptions R355) and HALT writes no memory. One that reads an unwritten location completes for some contents of it,
unless it is sure to fault at another. -/
def mayWrite (i : Instr) (s : State) : Bool :=
  match exec i s with
  | .next t => t.status.run
  | .fault _ => !sureToFault i s
  | .refused _ => true

/-- The command could write the byte of DM at `a`. A range past the end of DM is never written (20_memory R66). -/
def couldWriteByte (i : Instr) (s : State) (a : Nat) : Bool :=
  let (base, n) := dmTarget i s
  decide (base ≤ a) && decide (a < base + n) && decide (base + n ≤ Config.dmBytes) && mayWrite i s

/-- The command could write the cell of MM of key `k`. -/
def couldWriteCell (i : Instr) (s : State) (k : Nat) : Bool := mmTarget i s k && mayWrite i s

/-- Some command could write the byte of DM at `a`. -/
def someCouldWriteByte (s : State) (a : Nat) : Bool := (storingCommands s a).any fun i => couldWriteByte i s a

/-- A command in progress is abandoned: what it could write holds unspecified values, that is, reads as unwritten, and
everything else is unchanged (70_reset_and_hazards R381; log 4). A fetch that faults writes nothing; an unwritten word
of CM may be any command, of which MXCLR writes all the cells that any writes (48_matrix R300). -/
def State.abandonCommand (s : State) : State :=
  match fetch s with
  | .ok i =>
    { s with dm := Memory.forgetWhere s.dm (couldWriteByte i s), mm := Memory.forgetWhere s.mm (couldWriteCell i s) }
  | .error (.raises _ _) => s
  | .error (.sticks _) =>
    { s with dm := Memory.forgetWhere s.dm (someCouldWriteByte s), mm := Memory.forgetWhere s.mm (couldWriteCell .mxclr s) }

/-- Soft reset: every register, CSR field and latch as after hard reset, the memories kept (10_state R50,
70_reset_and_hazards R381). -/
def State.softReset (s : State) : State :=
  let t := if s.status.run then s.abandonCommand else s
  { State.reset with cm := t.cm, dm := t.dm, mm := t.mm }

/-- Hard reset, at any time: registers and CSRs as 10_state R50, memories unspecified, that is, unwritten
(70_reset_and_hazards R380); during a run CM is unchanged (93_implementation_defined U6; log 3). -/
def State.hardReset (s : State) : State :=
  if s.status.run then { State.reset with cm := s.cm } else State.reset

/-! ## Writes -/

/-- A host write of CTRL acts on each set bit in the order SRST, CLR, START, STOP; SRST makes the others ignored
(10_state R34). -/
def State.ctrlWrite (s : State) (w : Word) : State :=
  if w.getLsbD 2 then s.softReset
  else
    let s := if w.getLsbD 3 then s.clearFault else s
    let s := if w.getLsbD 0 then s.start else s
    if w.getLsbD 1 then s.requestStop else s

/-- HostWriteCSR: CTRL and IE always; the rest only while the engine is not running, a write during a run being
ignored (20_memory R70, R71; log 7). Reserved numbers and read-only CSRs ignore the write (10_state R31, R33, R35,
R37; log 7). -/
def hostWriteCsr (n : Fin 64) (w : Word) (s : State) : State :=
  match Csr.ofNumber n.val with
  | none => s
  | some .ctrl => s.ctrlWrite w
  | some .ie => { s with ie := w.setWidth 2 }
  | some .pc => if s.status.run then s else { s with pc := w }
  | some c => if s.status.run then s else s.csrWrite c w

/-- HostWriteCM (20_memory R70). -/
def hostWriteCm (i : Fin 1024) (w : Word) (s : State) : State :=
  if s.status.run then s else { s with cm := Memory.write s.cm i.val w }

/-- HostWriteDM (20_memory R70). -/
def hostWriteDm (a : Fin 16384) (b : Byte) (s : State) : State :=
  if s.status.run then s else { s with dm := Memory.write s.dm a.val b }

/-- The cell value of a 2-bit code; code 1 has none (10_state R44). -/
def ModuleCell.ofCode (code : BitVec 2) : Option ModuleCell :=
  if code = 0 then some .unset else if code = 2 then some .light else if code = 3 then some .dark else none

/-- The 2-bit code of a cell value (10_state R44). -/
def ModuleCell.code : ModuleCell → BitVec 2
  | .unset => 0
  | .light => 2
  | .dark => 3

/-- HostWriteMM; the model gives the host no write of code 1 (20_memory R70, 93_implementation_defined U7; log 6). -/
def hostWriteMm (r c : Fin 177) (code : BitVec 2) (s : State) : Host.Outcome State Fault Refusal :=
  match ModuleCell.ofCode code with
  | none => .refused .moduleCodeOne
  | some m => .next (if s.status.run then s else { s with mm := Memory.write s.mm (cellKey r.val c.val) m })

/-- The host operations that change the state (20_memory R70). -/
inductive HostMove where
  | writeCsr (n : Fin 64) (w : Word)
  | writeCm (i : Fin 1024) (w : Word)
  | writeDm (a : Fin 16384) (b : Byte)
  | writeMm (r c : Fin 177) (code : BitVec 2)
  | hardReset
  deriving DecidableEq, Repr

/-- One host operation. -/
def hostMove (m : HostMove) (s : State) : Host.Outcome State Fault Refusal :=
  match m with
  | .writeCsr n w => .next (hostWriteCsr n w s)
  | .writeCm i w => .next (hostWriteCm i w s)
  | .writeDm a b => .next (hostWriteDm a b s)
  | .writeMm r c code => hostWriteMm r c code s
  | .hardReset => .next s.hardReset

/-! ## Reads -/

/-- HostReadCSR: ID and STATUS always, the rest only while the engine is not running; a reserved number reads as 0
(20_memory R70, R71; 10_state R31). -/
def hostReadCsr (n : Fin 64) (s : State) : Host.Outcome Word Fault Refusal :=
  match Csr.ofNumber n.val with
  | some .id => .next (s.csrRead .id)
  | some .status => .next (s.csrRead .status)
  | some c => if s.status.run then .refused .hostReadDuringRun else .next (s.csrRead c)
  | none => if s.status.run then .refused .hostReadDuringRun else .next 0

/-- HostReadCM (20_memory R70, R79). -/
def hostReadCm (i : Fin 1024) (s : State) : Host.Outcome Word Fault Refusal :=
  if s.status.run then .refused .hostReadDuringRun
  else match Memory.read s.cm i.val with
    | some w => .next w
    | none => .fault (.unwrittenCommand i.val)

/-- HostReadDM (20_memory R70, R79). -/
def hostReadDm (a : Fin 16384) (s : State) : Host.Outcome Byte Fault Refusal :=
  if s.status.run then .refused .hostReadDuringRun
  else match Memory.read s.dm a.val with
    | some b => .next b
    | none => .fault (.unwrittenByte a.val)

/-- HostReadMM (20_memory R70, R79). -/
def hostReadMm (r c : Fin 177) (s : State) : Host.Outcome (BitVec 2) Fault Refusal :=
  if s.status.run then .refused .hostReadDuringRun
  else match Memory.read s.mm (cellKey r.val c.val) with
    | some m => .next m.code
    | none => .fault (.unwrittenCell r.val c.val)

/-! ## The open parameter HOST_BUS -/

/-- What a host bus address names. -/
inductive HostLocation where
  | csr (n : Fin 64)
  | cm (i : Fin 1024)
  | dm (a : Fin 16384)
  | mm (r c : Fin 177)
  deriving DecidableEq, Repr

/-- The default binding of HOST_BUS, which a platform may replace; no rule depends on it (92_eei_decisions D11,
93_implementation_defined U8; log 11). -/
def defaultBusAddress : HostLocation → Nat
  | .csr n => 4 * n.val
  | .cm i => 0x1000 + 4 * i.val
  | .dm a => 0x4000 + a.val
  | .mm r c => 0x10000 + 256 * r.val + c.val

end Sys2Proof.Machine
end

