-- ==== Sys2Proof/Safety.lean ====
section
/-! DEFINITION. What claims are stated with: the invariant of the state, what counts as a safe step, and when a
command can read what it reads. -/

namespace Sys2Proof.Machine

/-- The state after a step, if there is one. -/
def nextOf (o : Host.Outcome State Fault Refusal) : Option State :=
  match o with
  | .next t => some t
  | .fault _ => none
  | .refused _ => none

/-- A step is safe when the model neither faults nor refuses: nothing unwritten was read (20_memory R79). A fault of
the hardware is a safe step: its entry is a next state (60_exceptions R356). -/
def SafeStep (s : State) : Prop := ∃ t, step s = .next t

/-- A command completes when it ends by its own effect: a next state that records no new fault
(60_exceptions R363). -/
def Completes (i : Instr) (s : State) : Prop := ∃ t, exec i s = .next t ∧ t.status.fault = s.status.fault

/-- The memories have their canonical form, every key inside its space (20_memory R60). -/
def State.memoriesWf (s : State) : Bool :=
  Memory.wf Config.cmWords s.cm && Memory.wf Config.dmBytes s.dm && Memory.wf (Config.mmDim * Config.mmDim) s.mm

/-- At most one of DONE, FAULT, STOPPED is set, and none while RUN is (10_state R35). -/
def Status.legal (t : Status) : Bool :=
  decide (t.run.toNat + t.done.toNat + t.fault.toNat + t.stopped.toNat ≤ 1)

/-- What reset establishes and every step and every host operation keeps. -/
structure State.Inv (s : State) : Prop where
  /-- the memories are canonical (20_memory R60) -/
  memories : s.memoriesWf = true
  /-- no p register is longer than PMAX (10_state R23) -/
  vectors : ∀ i : PReg, (s.getP i).length ≤ Config.pMax
  /-- the STATUS bits are those of one run (10_state R35) -/
  status : s.status.legal = true
  /-- no fault recorded means CAUSE, EPC and TVAL are 0 (10_state R37, 40_control R117) -/
  noFault : s.status.fault = false → s.cause = 0 ∧ s.epc = 0 ∧ s.tval = 0
  /-- a recorded fault has a code of 1 to 8 (60_exceptions R350) -/
  fault : s.status.fault = true → 1 ≤ s.cause.toNat ∧ s.cause.toNat ≤ 8
  /-- a stop request waits only while a run goes on (60_exceptions R362) -/
  stop : s.stopReq = true → s.status.run = true

/-- The bytes of DM from `a` on, `n` of them, exist and have been written: what a command that reads them needs
(00_scope R12, 20_memory R79). -/
def bytesReady (dm : Memory Byte) (a n : Nat) : Prop :=
  (0 < n → a + n ≤ Config.dmBytes) ∧ ∀ k < n, (Memory.read dm (a + k)).isSome

/-- Every cell of the `d x d` symbol has been written (20_memory R79). -/
def cellsReady (mm : Memory ModuleCell) (d : Nat) : Prop :=
  ∀ r < d, ∀ c < d, (Memory.read mm (cellKey r c)).isSome

/-- Every cell of the `d x d` symbol has a colour (48_matrix R302). -/
def cellsColoured (mm : Memory ModuleCell) (d : Nat) : Prop :=
  ∀ r < d, ∀ c < d, Memory.read mm (cellKey r c) = some .light ∨ Memory.read mm (cellKey r c) = some .dark

/-- VERSION holds a QR version of dimension `d` (48_matrix R300). -/
def versionOk (f : ParamCsrs) (d : Nat) : Prop :=
  1 ≤ f.version.toNat ∧ f.version.toNat ≤ 40 ∧ d = 4 * f.version.toNat + 17

/-- Every alignment centre in use keeps its pattern inside the matrix (48_matrix R314). -/
def centresOk (f : ParamCsrs) (d : Nat) : Prop := ∀ a ∈ alignCentres f, 2 ≤ a ∧ a ≤ d - 3

/-- The block layout CWENC accepts (47_codeword_bch R281). -/
def layoutOk (f : ParamCsrs) : Prop :=
  0 < f.g1cnt.toNat ∧ 0 < f.g1dat.toNat ∧ f.g1dat.toNat < f.g1tot.toNat ∧
  (0 < f.g2cnt.toNat → 0 < f.g2dat.toNat ∧ f.g2dat.toNat < f.g2tot.toNat)

end Sys2Proof.Machine
end

