-- ==== Sys2Proof/Certificates/Slice0/Obligations.lean ====
section
/-! DEFINITION. The statements for the provers, one `def Obligations.<Name> : Prop` each, after the vocabulary they are
written in (`Sys2Proof.Claims`). The vocabulary says again, from the rules alone and in other words than the machine's
own definitions, what a command is to leave behind; a state after a command is written out as a record update, so that
an equation of states is result and frame at once. -/

namespace Sys2Proof.Claims

open Sys2Proof.Machine

/-! ## States after a command -/

/-- `x[a] <- v; pc <- pc + 1`, and nothing else. -/
def afterX (s : State) (a : XReg) (v : Word) : State := { s with x := s.x.set a.val v, pc := s.pc + 1 }

/-- `p[a] <- f; pc <- pc + 1`, and nothing else. -/
def afterP (s : State) (a : PReg) (f : List Byte) : State := { s with p := s.p.set a.val f, pc := s.pc + 1 }

/-- Fault entry written out (60_exceptions R356). -/
def faultState (s : State) (code info : Nat) : State :=
  { s with
    cause := BitVec.ofNat 4 code
    epc := s.pc
    tval := BitVec.ofNat 32 info
    status := { run := false, done := s.status.done, fault := true, stopped := s.status.stopped } }

/-- The pc after a command that completes (40_control R110 to R119). -/
def nextPc (i : Instr) (s : State) : Word :=
  match i with
  | .halt => s.pc
  | .jmp t => BitVec.ofNat 32 t.toNat
  | .bz a t => if (s.getX a).toNat = 0 then BitVec.ofNat 32 t.toNat else s.pc + 1
  | .bnz a t => if (s.getX a).toNat ≠ 0 then BitVec.ofNat 32 t.toNat else s.pc + 1
  | .bltu a b t => if (s.getX a).toNat < (s.getX b).toNat then BitVec.ofNat 32 t.toNat else s.pc + 1
  | _ => s.pc + 1

/-! ## Control and status registers -/

/-- The implemented width of a CSR (10_state R29). -/
def csrWidth : Csr → Nat
  | .id | .pc | .epc | .tval | .wlen | .rpos | .rlim => 32
  | .ctrl | .status | .cause => 4
  | .ie | .ecl => 2
  | .version => 6
  | .mask | .alncnt => 3
  | .aln _ | .g1cnt | .g1tot | .g1dat | .g2cnt | .g2tot | .g2dat => 8
  | .wbase | .rbase => 14

/-- What a CSR holds, as a number (10_state R29, R33 to R41). -/
def csrValue (s : State) : Csr → Nat
  | .id => 0x51524345
  | .ctrl => 0
  | .status =>
    (if s.status.run then 1 else 0) + (if s.status.done then 2 else 0) + (if s.status.fault then 4 else 0) +
      (if s.status.stopped then 8 else 0)
  | .ie => s.ie.toNat
  | .pc => s.pc.toNat
  | .cause => s.cause.toNat
  | .epc => s.epc.toNat
  | .tval => s.tval.toNat
  | .version => s.csr.version.toNat
  | .ecl => s.csr.ecl.toNat
  | .mask => s.csr.mask.toNat
  | .alncnt => s.csr.alncnt.toNat
  | .aln i => s.csr.aln[i.val].toNat
  | .g1cnt => s.csr.g1cnt.toNat
  | .g1tot => s.csr.g1tot.toNat
  | .g1dat => s.csr.g1dat.toNat
  | .g2cnt => s.csr.g2cnt.toNat
  | .g2tot => s.csr.g2tot.toNat
  | .g2dat => s.csr.g2dat.toNat
  | .wbase => s.csr.wbase.toNat
  | .wlen => s.csr.wlen.toNat
  | .rbase => s.csr.rbase.toNat
  | .rpos => s.csr.rpos.toNat
  | .rlim => s.csr.rlim.toNat

/-! ## Faults -/

/-- The causes a command can raise, the column "raised by" of 60_exceptions R350 and the command's own rule. -/
def raisable : Instr → List Cause
  | .lb _ _ _ | .sb _ _ _ | .pst _ _ => [.memRange]
  | .pld _ _ _ | .bput _ _ | .cwenc _ _ | .mxdat _ _ | .mxbld _ _ _ _ => [.badOperand, .memRange]
  | .gfadd _ _ _ | .gfmul _ _ _ | .gfinv _ _ | .gflog _ _ | .pnorm _ _ | .pdeg _ _ | .pcoef _ _ _ | .peval _ _ _
  | .pmul _ _ _ | .pmulm _ _ _ _ | .padd _ _ _ | .pmod _ _ _ | .pmono _ _ _ | .rschn _ _ _ | .rsfrn _ _ _ =>
    [.domainError]
  | .rseuc _ _ _ _ _ | .rscor _ _ _ _ _ => [.domainError, .badOperand]
  | .rsgen _ _ | .rsenc _ _ _ | .rssyn _ _ _ _ | .rsdec _ _ _ _ _ | .bchf _ _ | .bchv _ _ | .mxclr | .mxfnd | .mxaln
  | .mxtim | .mxfmt _ | .mxver _ | .mxmsk _ _ _ _ => [.badOperand]
  | .bpad _ => [.badOperand, .dataOverflow, .memRange]
  | .bread _ _ => [.badOperand, .endOfStream, .memRange]
  | .mxpen _ | .mxget _ _ _ => [.badOperand, .unsetModule]
  | .mxout _ => [.badOperand, .unsetModule, .memRange]
  | .nop | .halt | .jmp _ | .bz _ _ | .bnz _ _ | .bltu _ _ _ | .csrr _ _ | .csrw _ _ | .li _ _ | .lih _ _
  | .addi _ _ _ | .add _ _ _ | .sub _ _ _ | .and _ _ _ | .or _ _ _ | .xor _ _ _ | .slli _ _ _ | .srli _ _ _
  | .plen _ _ | .pmov _ _ | .gfexp _ _ | .blen _ | .bavl _ => []

/-- The DomainError sub-codes a command can raise (60_exceptions R351). -/
def subCodes : Instr → List Nat
  | .gfadd _ _ _ | .gfmul _ _ _ => [3]
  | .gfinv _ _ => [2, 3]
  | .gflog _ _ => [1, 3]
  | .pnorm _ _ | .pdeg _ _ | .pcoef _ _ _ | .padd _ _ _ | .rseuc _ _ _ _ _ | .rschn _ _ _ => [4]
  | .peval _ _ _ => [3, 4]
  | .pmul _ _ _ => [4, 5]
  | .pmulm _ _ _ _ => [3, 4, 5]
  | .pmod _ _ _ | .rsfrn _ _ _ => [2, 4]
  | .pmono _ _ _ => [3, 5]
  | .rscor _ _ _ _ _ => [1]
  | _ => []

/-! ## GF(2^8) and polynomials -/

/-- The carry-less product of two bytes reduced modulo 0x11D (43_gf256 R170, R177). -/
def fieldProduct (a b : Nat) : Nat :=
  let product := (List.range 8).foldl (fun acc i => if b.testBit i then acc ^^^ (a <<< i) else acc) 0
  [14, 13, 12, 11, 10, 9, 8].foldl (fun acc i => if acc.testBit i then acc ^^^ (0x11D <<< (i - 8)) else acc) product

/-- The normal form of a non-empty coefficient list (44_polynomial R190). -/
def normalForm (f : List Byte) : List Byte :=
  if f.all (· == 0) then [0] else f.dropWhile (· == 0)

/-- The list is in normal form (44_polynomial R190). -/
def Normal (f : List Byte) : Prop := f = [0] ∨ ∃ c cs, f = c :: cs ∧ c ≠ 0

/-- The coefficient of `X^d` of a list, highest degree first; leading zeros change nothing (44_polynomial R192). -/
def coef (f : List Byte) (d : Nat) : Byte := f.reverse.getD d 0

/-- The coefficient of `X^d` of the product of two lists (44_polynomial R195). -/
def productCoef (f g : List Byte) (d : Nat) : Byte :=
  (List.range (d + 1)).foldl (fun acc i => acc ^^^ gfMul (coef f i) (coef g (d - i))) 0

/-- The value of a list at a point by Horner's rule, leading zeros and all (44_polynomial R193, R203). -/
def horner (f : List Byte) (x : Byte) : Byte := f.foldl (fun r c => gfMul r x ^^^ c) 0

/-! ## Reed-Solomon -/

/-- Two successive remainders and the auxiliary polynomials beside them that the extended Euclidean algorithm reaches from
`X^t, S` and `0, 1`, dividing only while the second remainder has a degree of at least t/2 (45_reed_solomon R225,
R226). -/
inductive EuclidReaches (t : Nat) (sx : List Byte) : List Byte → List Byte → List Byte → List Byte → Prop
  | start : EuclidReaches t sx (1 :: List.replicate t 0) (normalForm sx) [0] [1]
  | turn {r0 r1 u0 u1 q r2 u2 : List Byte} : EuclidReaches t sx r0 r1 u0 u1 → t ≤ 2 * (r1.length - 1) →
      Normal r2 → r2 = [0] ∨ r2.length < r1.length → (∀ d, coef r0 d = productCoef q r1 d ^^^ coef r2 d) →
      Normal u2 → (∀ d, coef u2 d = productCoef q u1 d ^^^ coef u0 d) → EuclidReaches t sx r1 r2 u1 u2

/-- The locations of the roots of `sigma`, in ascending exponent of the root (45_reed_solomon R227). -/
def rootLocations (sigma : List Byte) : List Byte :=
  ((List.range 255).filter fun j => horner sigma (gfExp j) == 0).map fun j => gfExp (255 - j)

/-- The Forney denominator of location `i` for the inverse `xin` of that location (45_reed_solomon R228). -/
def forneyProduct (locs : List Byte) (i : Nat) (xin : Byte) : Byte :=
  ((locs.eraseIdx i).map fun xj => 1 ^^^ gfMul xj xin).foldl gfMul 1

/-- The word with each magnitude XORed into the position of its location (45_reed_solomon R229). -/
def corrected (word locs mags : List Byte) : List Byte :=
  (List.range word.length).map fun k =>
    ((locs.zip mags).filter fun lm => word.length - 1 - logAt lm.1 == k).foldl (fun v lm => v ^^^ lm.2) (word.getD k 0)

/-- The positions where two words of one length differ. -/
def differences (u v : List Byte) : Nat := ((List.range u.length).filter fun k => u.getD k 0 != v.getD k 0).length

/-! ## Bit streams -/

/-- Bit `q` of the stream at `base` (20_memory R63, 46_bitstream R260); nothing where its byte is unwritten. -/
def streamBit (dm : Memory Byte) (base q : Nat) : Option Bool :=
  (Memory.read dm (base + q / 8)).map fun v => v.getLsbD (7 - q % 8)

/-- Run BPUT on each (value, count), through x0 and x1; nothing if one of them faults. -/
def putAll (items : List (Word × Nat)) (s : State) : Option State :=
  match items with
  | [] => some s
  | (v, n) :: rest =>
    match exec (.bput 0 1) ((s.setX 0 v).setX 1 (BitVec.ofNat 32 n)) with
    | .next t => if t.status.fault then none else putAll rest t
    | _ => none

/-- Run BREAD for each count that is not zero, through x1 and x2; the values read, nothing if one of them faults. -/
def readAll (counts : List Nat) (s : State) : Option (List Word) :=
  match counts with
  | [] => some []
  | 0 :: rest => readAll rest s
  | (n + 1) :: rest =>
    match exec (.bread 2 1) (s.setX 1 (BitVec.ofNat 32 (n + 1))) with
    | .next t => if t.status.fault then none else (readAll rest t).map (t.getX 2 :: ·)
    | _ => none

/-! ## BCH words -/

/-- The remainder of a binary polynomial below degree 32 by a generator of degree `m` (47_codeword_bch R283). -/
def gf2Rem (v g m : Nat) : Nat :=
  (List.range (32 - m)).reverse.foldl (fun acc i => if acc.testBit (i + m) then acc ^^^ (g <<< i) else acc) v

/-- The 32 format words of 47_codeword_bch R286. -/
def formatWords : List Nat :=
  [0x5412, 0x5125, 0x5E7C, 0x5B4B, 0x45F9, 0x40CE, 0x4F97, 0x4AA0,
   0x77C4, 0x72F3, 0x7DAA, 0x789D, 0x662F, 0x6318, 0x6C41, 0x6976,
   0x1689, 0x13BE, 0x1CE7, 0x19D0, 0x0762, 0x0255, 0x0D0C, 0x083B,
   0x355F, 0x3068, 0x3F31, 0x3A06, 0x24B4, 0x2183, 0x2EDA, 0x2BED]

/-- The version words of 47_codeword_bch R288, versions 7 to 40. -/
def versionWords : List Nat :=
  [0x07C94, 0x085BC, 0x09A99, 0x0A4D3, 0x0BBF6, 0x0C762, 0x0D847,
   0x0E60D, 0x0F928, 0x10B78, 0x1145D, 0x12A17, 0x13532, 0x149A6,
   0x15683, 0x168C9, 0x177EC, 0x18EC4, 0x191E1, 0x1AFAB, 0x1B08E,
   0x1CC1A, 0x1D33F, 0x1ED75, 0x1F250, 0x209D5, 0x216F0, 0x228BA,
   0x2379F, 0x24B0B, 0x2542E, 0x26A64, 0x27541, 0x28C69]

/-- The bit positions in which two words differ. -/
def distance (u v : Nat) : Nat := ((List.range 18).filter fun i => u.testBit i != v.testBit i).length

/-! ## The matrix -/

/-- The cell value of a colour (10_state R44). -/
def shade (dark : Bool) : ModuleCell := if dark then .dark else .light

/-- The larger of the distances of `x` and `y` from `m`. -/
def ring (m x y : Nat) : Nat := max (max (x - m) (m - x)) (max (y - m) (m - y))

/-- The colour MXFND gives a cell: the ring of the 9x9 stamp the cell lies on, counted from the centre of its corner's
finder; dark in rings 0, 1 and 3 (48_matrix R310 to R312). -/
def finderColour (d r c : Nat) : Option Bool :=
  let dark (x y : Nat) : Bool := ring 4 x y != 2 && ring 4 x y != 4
  if r ≤ 7 ∧ c ≤ 7 then some (dark (r + 1) (c + 1))
  else if d ≤ r + 8 ∧ r < d ∧ c ≤ 7 then some (dark (r + 8 - d) (c + 1))
  else if r ≤ 7 ∧ d ≤ c + 8 ∧ c < d then some (dark (r + 1) (c + 8 - d))
  else none

/-- Row (or column) `r` is at most 2 from `u`. -/
def near (r u : Nat) : Prop := r ≤ u + 2 ∧ u ≤ r + 2

/-- The cells after a pattern round each listed centre whose cell is UNSET when its turn comes (48_matrix R313, R314). -/
def aligned (centres : List (Nat × Nat)) (g : Nat → Nat → Option ModuleCell) : Nat → Nat → Option ModuleCell :=
  centres.foldl (fun g uv =>
    if g uv.1 uv.2 = some .unset then fun r c =>
      if (r ≤ uv.1 + 2 ∧ uv.1 ≤ r + 2) ∧ c ≤ uv.2 + 2 ∧ uv.2 ≤ c + 2 then
        some (shade (ring 2 (r + 2 - uv.1) (c + 2 - uv.2) != 1))
      else g r c
    else g) g

/-- The bit of the format word a cell carries, if it carries one (48_matrix R317). -/
def formatBit (d r c : Nat) : Option Nat :=
  if c = 8 then
    if r ≤ 5 then some r
    else if r = 7 then some 6
    else if r = 8 then some 7
    else if d ≤ r + 7 ∧ r < d then some (r + 15 - d)
    else none
  else if r = 8 then
    if c ≤ 5 then some (14 - c)
    else if c = 7 then some 8
    else if d ≤ c + 8 ∧ c < d then some (d - 1 - c)
    else none
  else none

/-- The bit of the version word a cell carries, if it carries one (48_matrix R317). -/
def versionBit (d r c : Nat) : Option Nat :=
  if r ≤ 5 ∧ d ≤ c + 11 ∧ c + 8 < d then some (3 * r + (c + 11 - d))
  else if c ≤ 5 ∧ d ≤ r + 11 ∧ r + 8 < d then some (3 * c + (r + 11 - d))
  else none

/-- The symbol's colours as a function of row and column. -/
def colours (s : State) (r c : Nat) : Bool := decide (Memory.read s.mm (cellKey r c) = some .dark)

/-- Rule 1 by windows: five equal modules add 3 where a run begins and 1 where one goes on, so a run of length L of at
least 5 adds 3 + (L - 5) (48_matrix R331). -/
def windowRuns (d : Nat) (f : Nat → Bool) : Nat :=
  ((List.range (d - 4)).map fun i =>
    if f (i + 1) = f i ∧ f (i + 2) = f i ∧ f (i + 3) = f i ∧ f (i + 4) = f i then
      if i = 0 ∨ f (i - 1) ≠ f i then 3 else 1
    else 0).sum

/-- Rule 3 by windows (48_matrix R333). -/
def windowFinders (d : Nat) (f : Nat → Bool) : Nat :=
  ((List.range (d - 6)).map fun i =>
    if f i = true ∧ f (i + 1) = false ∧ f (i + 2) = true ∧ f (i + 3) = true ∧ f (i + 4) = true ∧ f (i + 5) = false ∧
      f (i + 6) = true then 40 else 0).sum

/-- Rule 2 (48_matrix R332). -/
def blocks (d : Nat) (g : Nat → Nat → Bool) : Nat :=
  ((List.range (d - 1)).map fun r => ((List.range (d - 1)).map fun c =>
    if g r c = g r (c + 1) ∧ g r c = g (r + 1) c ∧ g r c = g (r + 1) (c + 1) then 3 else 0).sum).sum

/-- Rule 4 (48_matrix R334). -/
def balance (d : Nat) (g : Nat → Nat → Bool) : Nat :=
  let n : Nat := ((List.range d).map fun r => ((List.range d).filter fun c => g r c).length).sum
  10 * (((100 * n : Int) - 50 * (d * d)).natAbs / (5 * (d * d)))

/-- The penalty of a symbol (48_matrix R330 to R334). -/
def score (d : Nat) (g : Nat → Nat → Bool) : Nat :=
  ((List.range d).map fun r => windowRuns d (g r)).sum + ((List.range d).map fun c => windowRuns d fun r => g r c).sum +
  blocks d g +
  ((List.range d).map fun r => windowFinders d (g r)).sum +
  ((List.range d).map fun c => windowFinders d fun r => g r c).sum +
  balance d g

/-- Run a list of commands, one after another; nothing if one of them faults. -/
def runAll (commands : List Instr) (s : State) : Option State :=
  match commands with
  | [] => some s
  | i :: rest =>
    match exec i s with
    | .next t => if t.status.fault then none else runAll rest t
    | _ => none

/-- The seven commands of one construction pass with MASK at `m` (48_matrix R336), on the stream named by x[c], x[e]. -/
def buildCommands (s : State) (m : Nat) (test : Bool) (c e : XReg) : Option State :=
  runAll [.mxclr, .mxfnd, .mxaln, .mxtim, .mxfmt test, .mxver test, .mxdat c e]
    { s with csr := { s.csr with mask := BitVec.ofNat 3 m } }

end Sys2Proof.Claims

open Sys2Proof Sys2Proof.Machine Sys2Proof.Claims

/-! ## Encoding -/

/-- Decoding the word of a well-formed command gives the command back, every operand at every value (R83 to R88, R95). -/
def Obligations.DecodeOfEncode : Prop := ∀ i : Instr, i.wf = true → decode (encode i) = .ok i

/-- A word that decodes is the word of the command it decodes to, and that command is well formed: no bit of a legal word
is ignored (R90 to R95). -/
def Obligations.EncodeOfDecode : Prop := ∀ (w : Word) (i : Instr), decode w = .ok i → i.wf = true ∧ encode i = w

/-- Words the spec writes out decode to the commands it says they are, one or more of each family. -/
def Obligations.SpecWordsDecode : Prop :=
  decode 0x06120002 = .ok (.bltu 1 2 2) ∧ decode 0x09100011 = .ok (.csrw .ecl 1) ∧
  decode 0x1222FFFF = .ok (.addi 2 2 0xFFFF) ∧ decode 0x21210004 = .ok (.sb 2 1 4) ∧
  decode 0x22012000 = .ok (.pld 0 1 2) ∧ decode 0x30312000 = .ok (.gfadd 3 1 2) ∧
  decode 0x45012300 = .ok (.pmulm 0 1 2 3) ∧ decode 0x53134220 = .ok (.rseuc 1 3 4 2 2) ∧
  decode 0x60120000 = .ok (.bput 1 2) ∧ decode 0x68120000 = .ok (.cwenc 1 2) ∧
  decode 0x84100000 = .ok (.mxfmt true) ∧ decode 0x88123400 = .ok (.mxbld 1 2 3 4)

/-- The words the static checks refuse: an opcode no command has (R90); CSRR of CTRL or of a number without a CSR, CSRW of
a number that is no CSR the engine may write (R92, 10_state R31, R32); a shift of 32 or more, a branch target above 10
bits, a test other than 0 or 1 (R92); a p field of 8 or more in PMOV, and two equal destinations in RSEUC, RSDEC and
MXBLD (R93). -/
def Obligations.IllegalWordsRefused : Prop :=
  ∀ w : Word,
    let op := field w 24 8
    ((∀ i : Instr, i.opcode ≠ op) → decode w = .error .reservedOpcode) ∧
    (op = 0x08 → (∀ c, Csr.ofNumber (field w 0 16) = some c → c = .ctrl) → ∃ e, decode w = .error e) ∧
    (op = 0x09 → (∀ c, Csr.ofNumber (field w 0 16) = some c → c.number < 0x10) → ∃ e, decode w = .error e) ∧
    (op = 0x18 ∨ op = 0x19 → 32 ≤ field w 0 16 → ∃ e, decode w = .error e) ∧
    (3 ≤ op → op ≤ 6 → field w 10 6 ≠ 0 → ∃ e, decode w = .error e) ∧
    (op = 0x84 ∨ op = 0x85 → 1 < field w 20 4 → ∃ e, decode w = .error e) ∧
    (op = 0x25 → 8 ≤ field w 20 4 ∨ 8 ≤ field w 16 4 → ∃ e, decode w = .error e) ∧
    (op = 0x53 → field w 16 4 = field w 12 4 → ∃ e, decode w = .error e) ∧
    (op = 0x57 ∨ op = 0x88 → field w 20 4 = field w 16 4 → ∃ e, decode w = .error e)

/-! ## The step -/

/-- With RUN = 1 and no stop request, a step whose word at pc decodes is exec of that command, and a run that has ended
drops the stop request (60_exceptions R363). -/
def Obligations.StepRunsDecodedCommand : Prop :=
  ∀ (s : State) (w : Word) (i : Instr),
    s.status.run = true → s.stopReq = false → s.pc.toNat < 1024 → Memory.read s.cm s.pc.toNat = some w →
    decode w = .ok i →
    step s = (match exec i s with
      | .next t => .next (if t.status.run = true then t else { t with stopReq := false })
      | .fault f => .fault f
      | .refused r => .refused r)

/-- The other cases of `step()`: nothing with RUN = 0; the stop request before any fetch; PcRange; IllegalCommand
(60_exceptions R357, R362, R363); and the model's own fault at a word of CM nobody has written (log 1). -/
def Obligations.StepWithoutCommand : Prop :=
  ∀ s : State,
    (s.status.run = false → step s = .next s) ∧
    (s.status.run = true → s.stopReq = true →
      step s = .next { s with
        stopReq := false
        status := { run := false, done := s.status.done, fault := s.status.fault, stopped := true } }) ∧
    (s.status.run = true → s.stopReq = false → 1024 ≤ s.pc.toNat → step s = .next (faultState s 2 s.pc.toNat)) ∧
    (∀ w, s.status.run = true → s.stopReq = false → s.pc.toNat < 1024 → Memory.read s.cm s.pc.toNat = some w →
      (∀ i, decode w ≠ .ok i) → step s = .next (faultState s 1 w.toNat)) ∧
    (s.status.run = true → s.stopReq = false → s.pc.toNat < 1024 → Memory.read s.cm s.pc.toNat = none →
      step s = .fault (.unwrittenCommand s.pc.toNat))

/-! ## The whole machine -/

/-- The reset state: the values of 10_state R50, memories that nobody has written, and the invariant. -/
def Obligations.ResetState : Prop :=
  (∀ i, State.reset.getX i = 0) ∧ (∀ i, State.reset.getP i = []) ∧
  (∀ c, csrValue State.reset c = if c = .id then 0x51524345 else 0) ∧ State.reset.stopReq = false ∧
  (∀ a, Memory.read State.reset.cm a = none) ∧ (∀ a, Memory.read State.reset.dm a = none) ∧
  (∀ k, Memory.read State.reset.mm k = none) ∧ State.reset.Inv

/-- Every step keeps the invariant: canonical memories inside their spaces, p registers of at most 256 bytes, STATUS bits
of one run, CAUSE, EPC and TVAL zero while no fault is recorded and a cause of 1 to 8 while one is, a stop request only
during a run. -/
def Obligations.StepKeepsInvariant : Prop := ∀ s t : State, s.Inv → step s = .next t → t.Inv

/-- Every host operation keeps the invariant. -/
def Obligations.HostMovesKeepInvariant : Prop :=
  ∀ (m : HostMove) (s t : State), s.Inv → hostMove m s = .next t → t.Inv

/-- The model never refuses a step, and faults of its own only at a location that nobody has written (20_memory R79;
log 1). -/
def Obligations.StopsOnlyOnUnwritten : Prop :=
  ∀ s : State, (∀ r, step s ≠ .refused r) ∧
    (∀ i, step s = .fault (.unwrittenCommand i) → i = s.pc.toNat ∧ Memory.read s.cm i = none) ∧
    (∀ a, step s = .fault (.unwrittenByte a) → a < 16384 ∧ Memory.read s.dm a = none) ∧
    (∀ r c, step s = .fault (.unwrittenCell r c) → r < 177 ∧ c < 177 ∧ Memory.read s.mm (cellKey r c) = none)

/-- No command writes CM or IE or the stop request, and only fault entry writes CAUSE, EPC and TVAL (20_memory R76,
60_exceptions R362, R364). -/
def Obligations.EngineNeverWritesHostState : Prop :=
  ∀ (i : Instr) (s t : State), exec i s = .next t →
    t.cm = s.cm ∧ t.ie = s.ie ∧ t.stopReq = s.stopReq ∧
    (t.cause = s.cause ∧ t.epc = s.epc ∧ t.tval = s.tval ∨ t.status.fault = true ∧ t.epc = s.pc ∧ t.pc = s.pc)

/-- The register frame of every command: an x register, a p register or an engine-writable CSR that is no destination of
the command (30_encoding R95, 20_memory R61) keeps its value. -/
def Obligations.RegisterFrame : Prop :=
  ∀ (i : Instr) (s t : State), exec i s = .next t →
    (∀ r, r ∉ xTargets i → t.getX r = s.getX r) ∧ (∀ r, r ∉ pTargets i → t.getP r = s.getP r) ∧
    (∀ c, c.engineWritable = true → c ∉ csrTargets i → csrValue t c = csrValue s c)

/-- The DM frame of every command: outside the range the command stores to (`dmTarget`, empty for a command that stores
nothing) every byte reads as before. -/
def Obligations.DataMemoryFrame : Prop :=
  ∀ (i : Instr) (s t : State), exec i s = .next t →
    ∀ a, a < (dmTarget i s).1 ∨ (dmTarget i s).1 + (dmTarget i s).2 ≤ a → Memory.read t.dm a = Memory.read s.dm a

/-- The MM frame of every command: only the matrix commands of `writesMatrix` change a cell, and only a cell of the
D x D symbol (48_matrix R300). -/
def Obligations.ModuleMemoryFrame : Prop :=
  ∀ (i : Instr) (s t : State), exec i s = .next t →
    ∀ k, writesMatrix i = false ∨ inSymbol (4 * s.csr.version.toNat + 17) k = false →
      Memory.read t.mm k = Memory.read s.mm k

/-- A command ends in one of two ways: a fault entry that changes nothing else, or completion with the pc of 40_control
R119 and STATUS as it was, but for HALT, which clears RUN and sets DONE (60_exceptions R355, R356, R363). -/
def Obligations.CommandsEndOneOfTwoWays : Prop :=
  ∀ (i : Instr) (s t : State), exec i s = .next t →
    (∃ code info, 1 ≤ code ∧ code ≤ 8 ∧ t = faultState s code info) ∨
    (t.pc = nextPc i s ∧ t.cause = s.cause ∧ t.epc = s.epc ∧ t.tval = s.tval ∧
      t.status = if i = .halt then { s.status with run := false, done := true } else s.status)

/-- A fault of a well-formed command is one of the causes its row of 60_exceptions R350 allows, and a DomainError carries
one of the sub-codes R351 allows it. -/
def Obligations.FaultCausesAsTabled : Prop :=
  ∀ (i : Instr) (s t : State), i.wf = true → (∀ p, (s.getP p).length ≤ 256) → s.status.fault = false →
    exec i s = .next t → t.status.fault = true →
    (∃ c ∈ raisable i, t.cause = c.code) ∧ (t.cause = 3 → t.tval.toNat ∈ subCodes i)

/-- Fault entry (60_exceptions R356): what `raise F(info)` leaves, the codes of R350, STATUS after it during a run, and the
interrupt output. -/
def Obligations.FaultEntry : Prop :=
  (∀ (s : State) (c : Cause) (info : Nat), finish s (raise c info) = .next (faultState s c.code.toNat info)) ∧
  [Cause.illegalCommand, .pcRange, .domainError, .endOfStream, .dataOverflow, .memRange, .badOperand,
    .unsetModule].map (fun c => c.code.toNat) = [1, 2, 3, 4, 5, 6, 7, 8] ∧
  (∀ (s : State) (code info : Nat), s.status = { run := true, done := false, fault := false, stopped := false } →
    csrValue (faultState s code info) .status = 4 ∧ csrValue (faultState s code info) .pc = s.pc.toNat ∧
    csrValue (faultState s code info) .epc = s.pc.toNat ∧
    (s.ie.getLsbD 1 = true → (faultState s code info).irq = true)) ∧
  (∀ s : State, csrValue (faultState s 2 s.pc.toNat) .epc = s.pc.toNat ∧
    csrValue (faultState s 2 s.pc.toNat) .tval = s.pc.toNat)

/-- The host's write of CTRL (10_state R34): SRST alone, else CLR, START, STOP in this order. SRST resets every register
and keeps CM; with RUN = 0 it keeps DM and MM; with RUN = 1 the command that fetch gives is abandoned: every location of
DM and MM outside `dmTarget` and `mmTarget` of that command is kept, everything is kept if the command or its fetch would
fault, and every location that the whole command would change reads as no value (70_reset_and_hazards R381); where the
word at pc is unwritten, the same of every command that could stand there. That unspecified values read as no value is
the model's choice (log 4). -/
def Obligations.ControlRegisterWrite : Prop :=
  ∀ (s : State) (w : Word),
    let clr (u : State) : State :=
      if w.getLsbD 3 = true ∧ u.status.run = false then
        { u with status := { run := false, done := false, fault := false, stopped := false }, cause := 0, epc := 0,
                 tval := 0 }
      else u
    let start (u : State) : State :=
      if w.getLsbD 0 = true ∧ u.status.run = false ∧ u.status.fault = false then
        { u with status := { run := true, done := false, fault := u.status.fault, stopped := false } }
      else u
    let stop (u : State) : State :=
      if w.getLsbD 1 = true ∧ u.status.run = true then { u with stopReq := true } else u
    (w.getLsbD 2 = false → hostWriteCsr 1 w s = stop (start (clr s))) ∧
    (w.getLsbD 2 = true → s.status.run = false →
      hostWriteCsr 1 w s = { State.reset with cm := s.cm, dm := s.dm, mm := s.mm }) ∧
    (w.getLsbD 2 = true → s.status.run = true →
      ∃ dm mm, hostWriteCsr 1 w s = { State.reset with cm := s.cm, dm := dm, mm := mm } ∧
        (∀ c info, fetch s = .error (.raises c info) → dm = s.dm ∧ mm = s.mm) ∧
        (∀ f, fetch s = .error (.sticks f) →
          (∀ a, (∀ i, mayWrite i s = true → a < (dmTarget i s).1 ∨ (dmTarget i s).1 + (dmTarget i s).2 ≤ a) →
            Memory.read dm a = Memory.read s.dm a) ∧
          (∀ k, inSymbol (4 * s.csr.version.toNat + 17) k = false → Memory.read mm k = Memory.read s.mm k) ∧
          ((∀ d, ¬ versionOk s.csr d) → mm = s.mm) ∧
          ∀ i t, exec i s = .next t → t.status.run = true →
            (∀ a, (dmTarget i s).1 ≤ a → a < (dmTarget i s).1 + (dmTarget i s).2 → Memory.read dm a = none) ∧
            ∀ k, Memory.read t.mm k ≠ Memory.read s.mm k → Memory.read mm k = none) ∧
        ∀ i, fetch s = .ok i →
          (∀ a, a < (dmTarget i s).1 ∨ (dmTarget i s).1 + (dmTarget i s).2 ≤ a → Memory.read dm a = Memory.read s.dm a) ∧
          (∀ k, mmTarget i s k = false → Memory.read mm k = Memory.read s.mm k) ∧
          (∀ k, writesMatrix i = false → Memory.read mm k = Memory.read s.mm k) ∧
          (∀ t, exec i s = .next t → t.status.run = false → dm = s.dm ∧ mm = s.mm) ∧
          ∀ t, exec i s = .next t → t.status.run = true →
            (∀ k, inSymbol (4 * s.csr.version.toNat + 17) k = false → Memory.read mm k = Memory.read s.mm k) ∧
            (∀ a, Memory.read t.dm a ≠ Memory.read s.dm a → Memory.read dm a = none) ∧
            (∀ k, Memory.read t.mm k ≠ Memory.read s.mm k → Memory.read mm k = none) ∧
            (∀ a, (dmTarget i s).1 ≤ a → a < (dmTarget i s).1 + (dmTarget i s).2 → Memory.read dm a = none) ∧
            ∀ k, mmTarget i s k = true → Memory.read mm k = none) ∧
    csrValue s .ctrl = 0 ∧ s.csrRead .ctrl = 0

/-- What the host can do (20_memory R70, R71; 10_state R30 to R37; 60_exceptions R359). While RUN = 1 a write of anything
but CTRL and IE changes nothing and a read of anything but ID and STATUS, of a CSR, a word, a byte or a cell, is refused
(the model's choice, log 7); while RUN = 0 a written CSR, word, byte or cell is read back; a write of ID changes nothing;
the interrupt output is that of R359. -/
def Obligations.HostAccess : Prop :=
  ∀ (s : State) (n : Fin 64) (w : Word) (i : Fin 1024) (a : Fin 16384) (b : Byte) (r c : Fin 177) (m : ModuleCell),
    (s.status.run = true →
      (n ≠ 1 → n ≠ 3 → hostWriteCsr n w s = s) ∧ hostWriteCm i w s = s ∧ hostWriteDm a b s = s ∧
      hostWriteMm r c m.code s = .next s ∧ (n ≠ 0 → n ≠ 2 → hostReadCsr n s = .refused .hostReadDuringRun) ∧
      hostReadCm i s = .refused .hostReadDuringRun ∧ hostReadDm a s = .refused .hostReadDuringRun ∧
      hostReadMm r c s = .refused .hostReadDuringRun) ∧
    (s.status.run = false →
      hostReadCm i (hostWriteCm i w s) = .next w ∧ hostReadDm a (hostWriteDm a b s) = .next b ∧
      (∀ t, hostWriteMm r c m.code s = .next t → hostReadMm r c t = .next m.code) ∧
      (∀ x, Csr.ofNumber n.val = some x → x.engineWritable = true ∨ x = .pc ∨ x = .ie →
        hostReadCsr n (hostWriteCsr n w s) = .next (BitVec.ofNat 32 (w.toNat % 2 ^ csrWidth x))) ∧
      (Csr.ofNumber n.val = none → hostWriteCsr n w s = s ∧ hostReadCsr n s = .next 0)) ∧
    hostReadCsr 0 s = .next 0x51524345 ∧ hostWriteCsr 0 w s = s ∧ hostReadCsr 2 s = .next (BitVec.ofNat 32 (csrValue s .status)) ∧
    hostWriteCsr 3 w s = { s with ie := BitVec.ofNat 2 w.toNat } ∧
    (s.irq = true ↔ (s.status.done = true ∧ s.ie.getLsbD 0 = true) ∨ (s.status.fault = true ∧ s.ie.getLsbD 1 = true))

/-! ## Control and CSR commands -/

/-- NOP, HALT, JMP, BZ, BNZ, BLTU complete from every state, and change nothing but pc and, for HALT, RUN and DONE
(40_control R111 to R116). -/
def Obligations.ControlCommands : Prop :=
  ∀ (s : State) (a b : XReg) (t : BitVec 10),
    exec .nop s = .next { s with pc := s.pc + 1 } ∧
    exec .halt s = .next { s with status := { s.status with run := false, done := true } } ∧
    exec (.jmp t) s = .next { s with pc := BitVec.ofNat 32 t.toNat } ∧
    exec (.bz a t) s =
      .next { s with pc := if (s.getX a).toNat = 0 then BitVec.ofNat 32 t.toNat else s.pc + 1 } ∧
    exec (.bnz a t) s =
      .next { s with pc := if (s.getX a).toNat = 0 then s.pc + 1 else BitVec.ofNat 32 t.toNat } ∧
    exec (.bltu a b t) s =
      .next { s with pc := if (s.getX a).toNat < (s.getX b).toNat then BitVec.ofNat 32 t.toNat else s.pc + 1 }

/-- CSRR completes for every CSR but CTRL with the register's value, zero-extended (40_control R117); during a run STATUS
reads as 1 and CAUSE, EPC, TVAL as 0. -/
def Obligations.CsrReads : Prop :=
  ∀ (s : State) (a : XReg) (c : Csr),
    (c ≠ .ctrl → exec (.csrr a c) s = .next (afterX s a (BitVec.ofNat 32 (csrValue s c)))) ∧
    (s.Inv → s.status.run = true →
      csrValue s .status = 1 ∧ csrValue s .cause = 0 ∧ csrValue s .epc = 0 ∧ csrValue s .tval = 0)

/-- CSRW completes for every engine-writable CSR: the low bits of the register's width are stored, every other CSR but PC
and everything else keeps its value (40_control R118, 10_state R30). -/
def Obligations.CsrWrites : Prop :=
  ∀ (s : State) (a : XReg) (c : Csr), c.engineWritable = true →
    ∃ f : ParamCsrs, exec (.csrw c a) s = .next { s with csr := f, pc := s.pc + 1 } ∧
      csrValue { s with csr := f } c = (s.getX a).toNat % 2 ^ csrWidth c ∧
      ∀ c', c' ≠ c → csrValue { s with csr := f } c' = csrValue s c'

/-! ## Scalar and memory commands -/

/-- The ten scalar commands complete from every state with the results of 41_scalar R131 to R140, written as exact integers
reduced modulo 2^32, and change nothing but x[a] and pc. -/
def Obligations.ScalarCommands : Prop :=
  ∀ (s : State) (a b c : XReg) (imm : BitVec 16) (sh : BitVec 5),
    let u := (s.getX b).toNat
    let v := (s.getX c).toNat
    exec (.li a imm) s = .next (afterX s a (BitVec.ofNat 32 imm.toNat)) ∧
    exec (.lih a imm) s = .next (afterX s a (BitVec.ofNat 32 (imm.toNat * 65536 + (s.getX a).toNat % 65536))) ∧
    exec (.addi a b imm) s = .next (afterX s a (BitVec.ofInt 32 (u + imm.toInt))) ∧
    exec (.add a b c) s = .next (afterX s a (BitVec.ofNat 32 (u + v))) ∧
    exec (.sub a b c) s = .next (afterX s a (BitVec.ofInt 32 ((u : Int) - v))) ∧
    exec (.and a b c) s = .next (afterX s a (BitVec.ofNat 32 (u &&& v))) ∧
    exec (.or a b c) s = .next (afterX s a (BitVec.ofNat 32 (u ||| v))) ∧
    exec (.xor a b c) s = .next (afterX s a (BitVec.ofNat 32 (u ^^^ v))) ∧
    exec (.slli a b sh) s = .next (afterX s a (BitVec.ofNat 32 (u * 2 ^ sh.toNat))) ∧
    exec (.srli a b sh) s = .next (afterX s a (BitVec.ofNat 32 (u / 2 ^ sh.toNat)))

/-- LB and SB (42_loadstore R150 to R152): the effective address is base plus signed offset modulo 2^32; below 16384 the
byte is loaded zero-extended, or the low byte stored there and nowhere else; from 16384 on both take MemRange. -/
def Obligations.ByteLoadStore : Prop :=
  ∀ (s : State) (a b : XReg) (imm : BitVec 16),
    let ea := effectiveAddress (s.getX b) imm
    (ea : Int) = (((s.getX b).toNat : Int) + imm.toInt) % 2 ^ 32 ∧
    (∀ v, ea < 16384 → Memory.read s.dm ea = some v →
      exec (.lb a b imm) s = .next (afterX s a (BitVec.ofNat 32 v.toNat))) ∧
    (ea < 16384 → ∃ dm, exec (.sb a b imm) s = .next { s with dm := dm, pc := s.pc + 1 } ∧
      Memory.read dm ea = some (BitVec.ofNat 8 (s.getX a).toNat) ∧
      ∀ k, k ≠ ea → Memory.read dm k = Memory.read s.dm k) ∧
    (16384 ≤ ea →
      exec (.lb a b imm) s = .next (faultState s 6 ea) ∧ exec (.sb a b imm) s = .next (faultState s 6 ea))

/-- PLD and PST (42_loadstore R153, R154): a range inside DM is moved whole, an empty one touches no memory, a range
past the end takes MemRange at its last address, and PLD of more than 256 bytes takes BadOperand. -/
def Obligations.VectorLoadStore : Prop :=
  ∀ (s : State) (q : PReg) (b c : XReg),
    let base := (s.getX b).toNat
    let n := (s.getX c).toNat
    let len := (s.getP q).length
    (∀ bytes : List Byte, bytes.length = n → n ≤ 256 → (n = 0 ∨ base + n ≤ 16384) →
      (∀ k, k < n → Memory.read s.dm (base + k) = bytes[k]?) → exec (.pld q b c) s = .next (afterP s q bytes)) ∧
    (256 < n → exec (.pld q b c) s = .next (faultState s 7 n)) ∧
    (0 < n → n ≤ 256 → 16384 < base + n → exec (.pld q b c) s = .next (faultState s 6 (base + n - 1))) ∧
    ((len = 0 ∨ base + len ≤ 16384) → ∃ dm, exec (.pst q b) s = .next { s with dm := dm, pc := s.pc + 1 } ∧
      (∀ k, k < len → Memory.read dm (base + k) = (s.getP q)[k]?) ∧
      ∀ k, k < base ∨ base + len ≤ k → Memory.read dm k = Memory.read s.dm k) ∧
    (0 < len → 16384 < base + len → exec (.pst q b) s = .next (faultState s 6 (base + len - 1)))

/-- PLEN, PMOV, BLEN, BAVL complete from every state (42_loadstore R155, R156; 46_bitstream R264, R270). -/
def Obligations.LengthAndMoveCommands : Prop :=
  ∀ (s : State) (a : XReg) (q r : PReg),
    exec (.plen a q) s = .next (afterX s a (BitVec.ofNat 32 (s.getP q).length)) ∧
    exec (.pmov q r) s = .next (afterP s q (s.getP r)) ∧
    exec (.blen a) s = .next (afterX s a s.csr.wlen) ∧
    exec (.bavl a) s = .next (afterX s a
      (if s.csr.rpos.toNat ≤ s.csr.rlim.toNat then BitVec.ofNat 32 (s.csr.rlim.toNat - s.csr.rpos.toNat) else 0))

/-! ## GF(2^8) -/

/-- The table EXP is repeated multiplication by 2 modulo 0x11D (10_state R45), and LOG inverts it on 0..254. -/
def Obligations.ExpTable : Prop :=
  expAt 0 = 1 ∧ expAt 255 = 1 ∧
  (∀ i, 1 ≤ i → i ≤ 255 →
    (expAt i).toNat =
      if (expAt (i - 1)).toNat < 128 then 2 * (expAt (i - 1)).toNat
      else ((2 * (expAt (i - 1)).toNat) ^^^ 0x11D) % 256) ∧
  (∀ i, i ≤ 254 → logAt (expAt i) = i)

/-- The field laws of 43_gf256 R177: commutative, associative, identity 1, inverses, distributive, the carry-less product
modulo 0x11D, and 2 of order 255. -/
def Obligations.FieldLaws : Prop :=
  (∀ a b : Byte, gfMul a b = gfMul b a) ∧ (∀ a b c : Byte, gfMul (gfMul a b) c = gfMul a (gfMul b c)) ∧
  (∀ a : Byte, gfMul 1 a = a) ∧ (∀ a : Byte, a ≠ 0 → ∃ b, gfInv a = .ok b ∧ gfMul a b = 1) ∧
  (∀ a b c : Byte, gfMul a (gfAdd b c) = gfAdd (gfMul a b) (gfMul a c)) ∧
  (∀ a b : Byte, (gfMul a b).toNat = fieldProduct a.toNat b.toNat) ∧
  (∀ i j, i ≤ 254 → j ≤ 254 → expAt i = expAt j → i = j) ∧ (∀ a : Byte, a ≠ 0 ↔ ∃ i, i ≤ 254 ∧ expAt i = a) ∧
  (∀ n, n ≤ 255 → (List.replicate n (2 : Byte)).foldl gfMul 1 = expAt n) ∧ expAt 255 = 1

/-- GFADD, GFMUL, GFINV, GFEXP, GFLOG complete on field elements (GFINV and GFLOG on non-zero ones, GFEXP on every value)
and take DomainError elsewhere, sub-code 3 above 255, 2 for inv(0), 1 for log(0) (43_gf256 R178 to R182). -/
def Obligations.FieldCommands : Prop :=
  ∀ (s : State) (a b c : XReg),
    let u := (s.getX b).toNat
    let v := (s.getX c).toNat
    (u ≤ 255 → v ≤ 255 →
      exec (.gfadd a b c) s = .next (afterX s a (BitVec.ofNat 32 (u ^^^ v))) ∧
      exec (.gfmul a b c) s =
        .next (afterX s a (BitVec.ofNat 32 (gfMul (BitVec.ofNat 8 u) (BitVec.ofNat 8 v)).toNat))) ∧
    (255 < u ∨ 255 < v →
      exec (.gfadd a b c) s = .next (faultState s 3 3) ∧ exec (.gfmul a b c) s = .next (faultState s 3 3)) ∧
    (1 ≤ u → u ≤ 255 → ∃ r : Byte, exec (.gfinv a b) s = .next (afterX s a (BitVec.ofNat 32 r.toNat)) ∧
      gfMul (BitVec.ofNat 8 u) r = 1) ∧
    (1 ≤ u → u ≤ 255 → ∃ n, n ≤ 254 ∧ exec (.gflog a b) s = .next (afterX s a (BitVec.ofNat 32 n)) ∧
      (expAt n).toNat = u) ∧
    exec (.gfexp a b) s = .next (afterX s a (BitVec.ofNat 32 (expAt (u % 255)).toNat)) ∧
    (255 < u → exec (.gfinv a b) s = .next (faultState s 3 3) ∧ exec (.gflog a b) s = .next (faultState s 3 3)) ∧
    (u = 0 → exec (.gfinv a b) s = .next (faultState s 3 2) ∧ exec (.gflog a b) s = .next (faultState s 3 1))

/-! ## Polynomials -/

/-- PNORM, PDEG, PCOEF, PEVAL on a non-empty p register, and their DomainErrors (44_polynomial R190 to R193, R200 to
R203). -/
def Obligations.PolynomialReads : Prop :=
  ∀ (s : State) (a : XReg) (q r : PReg) (c : XReg),
    let f := s.getP r
    let x := (s.getX c).toNat
    (f ≠ [] →
      exec (.pnorm q r) s = .next (afterP s q (normalForm f)) ∧
      exec (.pdeg a r) s = .next (afterX s a (BitVec.ofNat 32 ((normalForm f).length - 1))) ∧
      exec (.pcoef a r c) s = .next (afterX s a (BitVec.ofNat 32 (coef f x).toNat)) ∧
      (x ≤ 255 → exec (.peval a r c) s = .next (afterX s a (BitVec.ofNat 32 (horner f (BitVec.ofNat 8 x)).toNat)))) ∧
    (f = [] →
      exec (.pnorm q r) s = .next (faultState s 3 4) ∧ exec (.pdeg a r) s = .next (faultState s 3 4) ∧
      exec (.pcoef a r c) s = .next (faultState s 3 4) ∧
      (x ≤ 255 → exec (.peval a r c) s = .next (faultState s 3 4))) ∧
    (255 < x → exec (.peval a r c) s = .next (faultState s 3 3))

/-- PADD and PMUL on non-empty p registers: the result is the normal-form polynomial whose coefficients are the sums, or
the convolution sums, of the operands' (44_polynomial R194, R195, R204, R206); PMUL of operands whose product would have
more than 256 coefficients takes DomainError(5). -/
def Obligations.PolynomialSumAndProduct : Prop :=
  ∀ (s : State) (q r v : PReg),
    let f := s.getP r
    let g := s.getP v
    let size := (normalForm f).length + (normalForm g).length - 1
    (f ≠ [] → g ≠ [] →
      (∃ h, exec (.padd q r v) s = .next (afterP s q h) ∧ Normal h ∧ ∀ d, coef h d = coef f d ^^^ coef g d) ∧
      (size ≤ 256 ∨ normalForm f = [0] ∨ normalForm g = [0] →
        ∃ h, exec (.pmul q r v) s = .next (afterP s q h) ∧ Normal h ∧ ∀ d, coef h d = productCoef f g d) ∧
      (256 < size → normalForm f ≠ [0] → normalForm g ≠ [0] → exec (.pmul q r v) s = .next (faultState s 3 5))) ∧
    (f = [] ∨ g = [] →
      exec (.padd q r v) s = .next (faultState s 3 4) ∧ exec (.pmul q r v) s = .next (faultState s 3 4))

/-- PMULM and PMONO (44_polynomial R196, R197, R205, R208): the product with `k * X^d`, and `k * X^d` itself. -/
def Obligations.PolynomialMonomials : Prop :=
  ∀ (s : State) (q r : PReg) (c e : XReg),
    let f := s.getP r
    let d := (s.getX c).toNat
    let k := (s.getX e).toNat
    (k ≤ 255 → f ≠ [] → (normalForm f).length + d ≤ 256 ∨ k = 0 ∨ normalForm f = [0] →
      ∃ h, exec (.pmulm q r c e) s = .next (afterP s q h) ∧ Normal h ∧
        ∀ j, coef h j = if j < d then 0 else gfMul (coef f (j - d)) (BitVec.ofNat 8 k)) ∧
    (k ≤ 255 → d ≤ 255 ∨ k = 0 → ∃ h, exec (.pmono q c e) s = .next (afterP s q h) ∧ Normal h ∧
      ∀ j, coef h j = if j = d then BitVec.ofNat 8 k else 0) ∧
    (255 < k → exec (.pmulm q r c e) s = .next (faultState s 3 3) ∧ exec (.pmono q c e) s = .next (faultState s 3 3)) ∧
    (k ≤ 255 → f = [] → exec (.pmulm q r c e) s = .next (faultState s 3 4)) ∧
    (1 ≤ k → k ≤ 255 → f ≠ [] → normalForm f ≠ [0] → 256 < (normalForm f).length + d →
      exec (.pmulm q r c e) s = .next (faultState s 3 5)) ∧
    (1 ≤ k → k ≤ 255 → 256 < d + 1 → exec (.pmono q c e) s = .next (faultState s 3 5))

/-- PMOD of p registers of at most 256 bytes: dividend = quotient * divisor + remainder, the remainder zero or of lower
degree than the divisor (44_polynomial R198, R207); a zero divisor takes DomainError(2), an empty operand DomainError(4). -/
def Obligations.PolynomialRemainder : Prop :=
  ∀ (s : State) (q r v : PReg), (s.getP r).length ≤ 256 → (s.getP v).length ≤ 256 →
    let f := s.getP r
    let g := s.getP v
    (f ≠ [] → g ≠ [] → normalForm g ≠ [0] →
      ∃ quotient h, exec (.pmod q r v) s = .next (afterP s q h) ∧ Normal h ∧
        (h = [0] ∨ h.length < (normalForm g).length) ∧ ∀ d, coef f d = productCoef quotient g d ^^^ coef h d) ∧
    (f ≠ [] → g ≠ [] → normalForm g = [0] → exec (.pmod q r v) s = .next (faultState s 3 2)) ∧
    (f = [] ∨ g = [] → exec (.pmod q r v) s = .next (faultState s 3 4))

/-! ## Reed-Solomon -/

/-- RSGEN (45_reed_solomon R220, R232): for t up to 255 the result has t + 1 coefficients, leads with 1, and its roots are
exactly the first t powers of 2; a larger t takes BadOperand. -/
def Obligations.GeneratorPolynomial : Prop :=
  ∀ (s : State) (q : PReg) (b : XReg),
    let t := (s.getX b).toNat
    (t ≤ 255 → ∃ g, exec (.rsgen q b) s = .next (afterP s q g) ∧ g.length = t + 1 ∧ g.head? = some 1 ∧
      ∀ x, horner g x = 0 ↔ ∃ i, i < t ∧ x = gfExp i) ∧
    (255 < t → exec (.rsgen q b) s = .next (faultState s 7 t))

/-- RSENC (45_reed_solomon R222, R233): the codeword is the raw data followed by t bytes, and evaluates to 0 at
the first t powers of 2; outside its domain the command takes BadOperand, checked in the rule's order. -/
def Obligations.EncoderCommand : Prop :=
  ∀ (s : State) (q r : PReg) (c : XReg),
    let data := s.getP r
    let t := (s.getX c).toNat
    (1 ≤ t → t ≤ 254 → data ≠ [] → data.length + t ≤ 255 →
      ∃ ecc, ecc.length = t ∧ exec (.rsenc q r c) s = .next (afterP s q (data ++ ecc)) ∧
        ∀ i, i < t → horner (data ++ ecc) (gfExp i) = 0) ∧
    (t = 0 ∨ 254 < t → exec (.rsenc q r c) s = .next (faultState s 7 t)) ∧
    (1 ≤ t → t ≤ 254 → data = [] → exec (.rsenc q r c) s = .next (faultState s 7 0)) ∧
    (1 ≤ t → t ≤ 254 → data ≠ [] → 255 < data.length + t →
      exec (.rsenc q r c) s = .next (faultState s 7 (data.length + t)))

/-- The codeword invariant (45_reed_solomon R223). -/
def Obligations.CodewordInvariant : Prop :=
  ∀ (d : List Byte) (t : Nat), 1 ≤ d.length → 1 ≤ t → d.length + t ≤ 255 →
    ∃ word f, rsEncode d t = .ok word ∧ poly word = .ok f ∧ ∀ i, i < t → polyEval f (gfExp i) = 0

/-- RSSYN (45_reed_solomon R224, R234): the syndrome polynomial and whether some syndrome is not zero. -/
def Obligations.SyndromeCommand : Prop :=
  ∀ (s : State) (a : XReg) (q r : PReg) (e : XReg),
    let word := s.getP r
    let t := (s.getX e).toNat
    let syndromes := (List.range t).reverse.map fun i => horner word (gfExp i)
    (1 ≤ t → t ≤ 255 → 1 ≤ word.length → word.length ≤ 255 →
      exec (.rssyn a q r e) s = .next { s with
        x := s.x.set a.val (if syndromes.all (· == 0) then 0 else 1)
        p := s.p.set q.val (normalForm syndromes)
        pc := s.pc + 1 }) ∧
    (t = 0 ∨ 255 < t → exec (.rssyn a q r e) s = .next (faultState s 7 t)) ∧
    (1 ≤ t → t ≤ 255 → word.length = 0 ∨ 255 < word.length →
      exec (.rssyn a q r e) s = .next (faultState s 7 word.length))

/-- RSEUC (45_reed_solomon R225, R226, R235) completes with different destinations and a syndrome polynomial of degree below
t: the Euclidean algorithm reaches a remainder `rho` with 2 deg rho < t beside an auxiliary polynomial `tau` with
2 deg tau ≤ t. If tau has constant term 0 the status is 2 and the p registers are kept; otherwise the status is 0 and
sigma and omega are tau and rho divided by that term: sigma has constant term 1 and the key equation holds modulo X^t.
The status is never 1. -/
def Obligations.KeyEquationCommand : Prop :=
  ∀ (s : State) (a : XReg) (q r v : PReg) (e : XReg),
    let sx := s.getP v
    let t := (s.getX e).toNat
    (q ≠ r → sx ≠ [] → 1 ≤ t → t ≤ 255 → (normalForm sx).length ≤ t →
      ∃ u, exec (.rseuc a q r v e) s = .next u ∧
        ∃ r0 rho u0 tau, EuclidReaches t sx r0 rho u0 tau ∧ 2 * (rho.length - 1) < t ∧ 2 * (tau.length - 1) ≤ t ∧
          (coef tau 0 = 0 → u = afterX s a 2) ∧
          (coef tau 0 ≠ 0 → ∃ sigma omega,
            u = { s with
              x := s.x.set a.val 0
              p := (s.p.set q.val sigma).set r.val omega
              pc := s.pc + 1 } ∧
            Normal sigma ∧ (∀ d, gfMul (coef tau 0) (coef sigma d) = coef tau d) ∧
            Normal omega ∧ (∀ d, gfMul (coef tau 0) (coef omega d) = coef rho d) ∧
            coef sigma 0 = 1 ∧ 2 * (sigma.length - 1) ≤ t ∧ 2 * (omega.length - 1) < t ∧
            ∀ d, d < t → productCoef sigma sx d = coef omega d)) ∧
    (q ≠ r → sx = [] → exec (.rseuc a q r v e) s = .next (faultState s 3 4)) ∧
    (q ≠ r → sx ≠ [] → t = 0 ∨ 255 < t → exec (.rseuc a q r v e) s = .next (faultState s 7 t)) ∧
    (q ≠ r → sx ≠ [] → 1 ≤ t → t ≤ 255 → t < (normalForm sx).length →
      exec (.rseuc a q r v e) s = .next (faultState s 7 ((normalForm sx).length - 1)))

/-- RSCHN (45_reed_solomon R227, R236): status 0 and the locations in ascending exponent of the root when there are as
many as the degree, else status 1 and the p register kept. -/
def Obligations.ChienCommand : Prop :=
  ∀ (s : State) (a : XReg) (q r : PReg),
    let sigma := s.getP r
    (sigma ≠ [] →
      exec (.rschn a q r) s = .next
        (if (rootLocations sigma).length = (normalForm sigma).length - 1 then
          { s with x := s.x.set a.val 0, p := s.p.set q.val (rootLocations sigma), pc := s.pc + 1 }
        else afterX s a 1)) ∧
    (sigma = [] → exec (.rschn a q r) s = .next (faultState s 3 4))

/-- RSFRN and RSCOR (45_reed_solomon R228, R229, R237, R238): the magnitudes solve Forney's equation for different
non-zero locations; each is XORed into its position when every position lies in the word (status 0), else the word is
kept (status 1); of the locations that RSCOR refuses, the first decides: 0 takes DomainError(1), one outside the word
gives status 1. -/
def Obligations.ForneyAndCorrection : Prop :=
  ∀ (s : State) (a : XReg) (q r v w : PReg),
    let locs := s.getP v
    (s.getP r ≠ [] → 0 ∉ locs → locs.Nodup →
      ∃ mags, exec (.rsfrn q r v) s = .next (afterP s q mags) ∧ mags.length = locs.length ∧
        ∀ i xin, i < locs.length → gfMul (locs.getD i 0) xin = 1 →
          gfMul (mags.getD i 0) (forneyProduct locs i xin) = horner (s.getP r) xin) ∧
    (s.getP r ≠ [] → 0 ∈ locs ∨ ¬ locs.Nodup → exec (.rsfrn q r v) s = .next (faultState s 3 2)) ∧
    (s.getP r = [] → exec (.rsfrn q r v) s = .next (faultState s 3 4)) ∧
    (locs.length = (s.getP w).length → 0 ∉ locs →
      exec (.rscor a q r v w) s = .next
        (if locs.all (fun loc => decide (logAt loc < (s.getP r).length)) then
          { s with x := s.x.set a.val 0, p := s.p.set q.val (corrected (s.getP r) locs (s.getP w)), pc := s.pc + 1 }
        else afterX s a 1)) ∧
    (locs.length ≠ (s.getP w).length → exec (.rscor a q r v w) s = .next (faultState s 7 (s.getP w).length)) ∧
    ∀ good l rest, locs = good ++ l :: rest → locs.length = (s.getP w).length →
      (∀ g ∈ good, g ≠ 0 ∧ logAt g < (s.getP r).length) →
      (l = 0 → exec (.rscor a q r v w) s = .next (faultState s 3 1)) ∧
      (l ≠ 0 → (s.getP r).length ≤ logAt l → exec (.rscor a q r v w) s = .next (afterX s a 1))

/-- RSDEC (45_reed_solomon R230, R239) completes on every word of 1 to 255 bytes and every t of 1 to 255: status 0
with a word of the same length that differs in at most `count` places, or a status of 1 to 4 with count 0 and the p
register kept; a word whose syndromes are all zero comes back unchanged with count 0. -/
def Obligations.DecoderCommand : Prop :=
  ∀ (s : State) (a b : XReg) (q r : PReg) (e : XReg), a ≠ b →
    let word := s.getP r
    let t := (s.getX e).toNat
    (1 ≤ t → t ≤ 255 → 1 ≤ word.length → word.length ≤ 255 →
      ∃ u, exec (.rsdec a b q r e) s = .next u ∧
        ((∃ out count,
          u = { s with
            x := (s.x.set a.val 0).set b.val (BitVec.ofNat 32 count)
            p := s.p.set q.val out
            pc := s.pc + 1 } ∧
          out.length = word.length ∧ count ≤ 255 ∧ differences word out ≤ count ∧
          ((∀ i, i < t → horner word (gfExp i) = 0) → out = word ∧ count = 0)) ∨
        ((∃ i, i < t ∧ horner word (gfExp i) ≠ 0) ∧
          ∃ st : Nat, 1 ≤ st ∧ st ≤ 4 ∧
            u = { s with x := (s.x.set a.val (BitVec.ofNat 32 st)).set b.val 0, pc := s.pc + 1 }))) ∧
    (t = 0 ∨ 255 < t → exec (.rsdec a b q r e) s = .next (faultState s 7 t)) ∧
    (1 ≤ t → t ≤ 255 → word.length = 0 ∨ 255 < word.length →
      exec (.rsdec a b q r e) s = .next (faultState s 7 word.length))

/-- RSDEC repairs every word that differs from a codeword in at most half of t positions (45_reed_solomon R231 (a)). -/
def Obligations.DecoderCorrectsHalfDistance : Prop :=
  ∀ (s : State) (a b : XReg) (q r : PReg) (e : XReg) (data word : List Byte), a ≠ b →
    let t := (s.getX e).toNat
    1 ≤ t → 1 ≤ data.length → data.length + t ≤ 255 → rsEncode data t = .ok word →
    (s.getP r).length = word.length → differences word (s.getP r) ≤ t / 2 →
    exec (.rsdec a b q r e) s = .next { s with
      x := (s.x.set a.val 0).set b.val (BitVec.ofNat 32 (differences word (s.getP r)))
      p := s.p.set q.val word
      pc := s.pc + 1 }

/-! ## Bit streams -/

/-- BPUT (46_bitstream R261 to R263): the n bits stand at WLEN, the most significant first; the other bits of a byte begun
by this command are 0, those of a byte begun before are OR-ed; WLEN grows by n; no other byte changes. -/
def Obligations.BitPutCommand : Prop :=
  ∀ (s : State) (a b : XReg),
    let n := (s.getX b).toNat
    let w := s.csr.wlen.toNat
    let base := s.csr.wbase.toNat
    (n ≤ 32 → (n = 0 ∨ base + (w + n - 1) / 8 < 16384) →
      (n = 0 ∨ w % 8 = 0 ∨ (Memory.read s.dm (base + w / 8)).isSome) →
      ∃ dm, exec (.bput a b) s = .next { s with
          dm := dm, csr := { s.csr with wlen := BitVec.ofNat 32 (w + n) }, pc := s.pc + 1 } ∧
        (∀ k, k < base + w / 8 ∨ n = 0 ∨ base + (w + n - 1) / 8 < k → Memory.read dm k = Memory.read s.dm k) ∧
        ∀ q, 0 < n → w / 8 ≤ q / 8 → q / 8 ≤ (w + n - 1) / 8 →
          streamBit dm base q = some
            ((decide (w ≤ q ∧ q < w + n) && (s.getX a).getLsbD (w + n - 1 - q)) ||
              (decide (w % 8 ≠ 0 ∧ q / 8 = w / 8) && (streamBit s.dm base q).getD false))) ∧
    (32 < n → exec (.bput a b) s = .next (faultState s 7 n)) ∧
    (0 < n → n ≤ 32 → 16384 ≤ base + (w + n - 1) / 8 →
      exec (.bput a b) s = .next (faultState s 6 (base + (w + n - 1) / 8)))

/-- BPAD (46_bitstream R265, R266): WLEN becomes M; the byte begun is kept, the bytes up to the end of the terminator are 0,
and the pad bytes alternate 0xEC, 0x11 from the first; and its three faults in the rule's order. -/
def Obligations.BitPadCommand : Prop :=
  ∀ (s : State) (a : XReg),
    let m := (s.getX a).toNat
    let w := s.csr.wlen.toNat
    let base := s.csr.wbase.toNat
    let first := (w + min 4 (m - w) + 7) / 8
    (m % 8 = 0 → w ≤ m → (w = m ∨ base + m / 8 ≤ 16384) →
      (w = m ∨ w % 8 = 0 ∨ (Memory.read s.dm (base + w / 8)).isSome) →
      ∃ dm, exec (.bpad a) s = .next { s with
          dm := dm, csr := { s.csr with wlen := s.getX a }, pc := s.pc + 1 } ∧
        (∀ k, k < base + (w + 7) / 8 ∨ base + m / 8 ≤ k → Memory.read dm k = Memory.read s.dm k) ∧
        (∀ k, base + (w + 7) / 8 ≤ k → k < base + first → k < base + m / 8 → Memory.read dm k = some 0) ∧
        ∀ k, first + k < m / 8 → Memory.read dm (base + first + k) = some (if k % 2 = 0 then 0xEC else 0x11)) ∧
    (m % 8 ≠ 0 → exec (.bpad a) s = .next (faultState s 7 m)) ∧
    (m % 8 = 0 → m < w → exec (.bpad a) s = .next (faultState s 5 w)) ∧
    (m % 8 = 0 → w < m → 16384 < base + m / 8 → exec (.bpad a) s = .next (faultState s 6 (base + m / 8 - 1)))

/-- BREAD (46_bitstream R268, R269): the n bits from RPOS on, the first as bit n - 1, and RPOS grown by n; a read past the
end or outside its range faults and consumes nothing. -/
def Obligations.BitReadCommand : Prop :=
  ∀ (s : State) (a b : XReg),
    let n := (s.getX b).toNat
    let q := s.csr.rpos.toNat
    let base := s.csr.rbase.toNat
    (1 ≤ n → n ≤ 32 → q + n ≤ s.csr.rlim.toNat → base + (q + n - 1) / 8 < 16384 →
      (∀ i, i < n → (streamBit s.dm base (q + i)).isSome) →
      ∃ v : Word, exec (.bread a b) s = .next { s with
          x := s.x.set a.val v, csr := { s.csr with rpos := BitVec.ofNat 32 (q + n) }, pc := s.pc + 1 } ∧
        v.toNat < 2 ^ n ∧ ∀ i, i < n → streamBit s.dm base (q + i) = some (v.getLsbD (n - 1 - i))) ∧
    (n = 0 ∨ 32 < n → exec (.bread a b) s = .next (faultState s 7 n)) ∧
    (1 ≤ n → n ≤ 32 → s.csr.rlim.toNat < q + n → exec (.bread a b) s = .next (faultState s 4 n)) ∧
    (1 ≤ n → n ≤ 32 → q + n ≤ s.csr.rlim.toNat → 16384 ≤ base + (q + n - 1) / 8 →
      exec (.bread a b) s = .next (faultState s 6 (base + (q + n - 1) / 8)))

/-- What BPUT writes into a buffer started at WLEN = 0, BREAD reads back (46_bitstream R271). -/
def Obligations.BitStreamRoundTrip : Prop :=
  ∀ (s : State) (items : List (Word × Nat)), s.status.fault = false → (∀ it ∈ items, it.2 ≤ 32) →
    s.csr.wbase.toNat + ((items.map Prod.snd).sum + 7) / 8 ≤ 16384 →
    ∃ t, putAll items { s with csr := { s.csr with wlen := 0 } } = some t ∧
      t.csr.wlen.toNat = (items.map Prod.snd).sum ∧
      readAll (items.map Prod.snd) { t with csr := { t.csr with rbase := s.csr.wbase, rpos := 0, rlim := t.csr.wlen } } =
        some ((items.filter fun it => it.2 != 0).map fun it => BitVec.ofNat 32 (it.1.toNat % 2 ^ it.2))

/-! ## Codewords and BCH -/

/-- CWENC (47_codeword_bch R280, R281): with a legal layout and two disjoint ranges inside DM it stores the interleaved
stream at the destination and nothing elsewhere, its length the sum of the totals; an illegal layout takes the first of
the five BadOperand faults of R281 that applies, a source or a destination past the end of DM takes MemRange, and ranges
that share a byte take BadOperand, in this order. -/
def Obligations.CodewordCommand : Prop :=
  ∀ (s : State) (a b : XReg) (data : List Byte),
    let src := (s.getX b).toNat
    let dst := (s.getX a).toNat
    let c1 := s.csr.g1cnt.toNat
    let n1 := s.csr.g1tot.toNat
    let k1 := s.csr.g1dat.toNat
    let c2 := s.csr.g2cnt.toNat
    let n2 := s.csr.g2tot.toNat
    let k2 := s.csr.g2dat.toNat
    let slen := c1 * k1 + c2 * k2
    let dlen := c1 * n1 + c2 * n2
    (layoutOk s.csr → (src + slen ≤ 16384 → dst + dlen ≤ 16384 → dst + dlen ≤ src ∨ src + slen ≤ dst → data.length = slen →
      (∀ k, k < slen → Memory.read s.dm (src + k) = data[k]?) →
      ∃ out dm, cwSequence data (layout s.csr) = .ok out ∧ out.length = dlen ∧
        exec (.cwenc a b) s = .next { s with dm := dm, pc := s.pc + 1 } ∧
        (∀ k, k < dlen → Memory.read dm (dst + k) = out[k]?) ∧
        ∀ k, k < dst ∨ dst + dlen ≤ k → Memory.read dm k = Memory.read s.dm k) ∧
    (16384 < src + slen → exec (.cwenc a b) s = .next (faultState s 6 (src + slen - 1))) ∧
    (src + slen ≤ 16384 → 16384 < dst + dlen → exec (.cwenc a b) s = .next (faultState s 6 (dst + dlen - 1))) ∧
    (src + slen ≤ 16384 → dst + dlen ≤ 16384 → src < dst + dlen → dst < src + slen →
      exec (.cwenc a b) s = .next (faultState s 7 dst))) ∧
    (c1 = 0 → exec (.cwenc a b) s = .next (faultState s 7 0)) ∧
    (0 < c1 → k1 = 0 → exec (.cwenc a b) s = .next (faultState s 7 0)) ∧
    (0 < c1 → 0 < k1 → n1 ≤ k1 → exec (.cwenc a b) s = .next (faultState s 7 n1)) ∧
    (0 < c1 → 0 < k1 → k1 < n1 → 0 < c2 → k2 = 0 → exec (.cwenc a b) s = .next (faultState s 7 0)) ∧
    (0 < c1 → 0 < k1 → k1 < n1 → 0 < c2 → 0 < k2 → n2 ≤ k2 → exec (.cwenc a b) s = .next (faultState s 7 n2))

/-- The sequence of CWENC (47_codeword_bch R280): blocks of the layout's shapes, each the next data bytes with their ECC,
then the column-major order: element i of sequence j stands after the first i elements of every sequence and the i-th
element of the sequences before j. -/
def Obligations.CodewordOrder : Prop :=
  (∀ (seqs : List (List Byte)) (j i : Nat) (q : List Byte), seqs[j]? = some q → i < q.length →
    (interleave seqs)[(seqs.map fun u => min u.length i).sum +
      ((seqs.take j).filter fun u => decide (i < u.length)).length]? = q[i]?) ∧
  (∀ seqs : List (List Byte), (interleave seqs).length = (seqs.map List.length).sum) ∧
  (∀ (data : List Byte) (f : ParamCsrs), layoutOk f →
    data.length = f.g1cnt.toNat * f.g1dat.toNat + f.g2cnt.toNat * f.g2dat.toNat →
    ∃ pairs : List (List Byte × List Byte),
      cwSequence data (layout f) = .ok (interleave (pairs.map Prod.fst) ++ interleave (pairs.map Prod.snd)) ∧
      (pairs.map Prod.fst).flatten = data ∧
      pairs.map (fun p => (p.1.length + p.2.length, p.1.length)) =
        List.replicate f.g1cnt.toNat (f.g1tot.toNat, f.g1dat.toNat) ++
          List.replicate f.g2cnt.toNat (f.g2tot.toNat, f.g2dat.toNat) ∧
      ∀ p ∈ pairs, rsEncode p.1 p.2.length = .ok (p.1 ++ p.2))

/-- BCHF and BCHV (47_codeword_bch R285 to R288): the 32 format words and the version words 7 to 40 of the rules' tables,
for every 6-bit number the word with that number above a remainder that the generator divides; BadOperand outside; and the
smallest distances of the tables. -/
def Obligations.BchCommands : Prop :=
  (∀ (s : State) (a b : XReg),
    let v := (s.getX b).toNat
    (v ≤ 31 → exec (.bchf a b) s = .next (afterX s a (BitVec.ofNat 32 (formatWords.getD v 0)))) ∧
    (31 < v → exec (.bchf a b) s = .next (faultState s 7 v)) ∧
    (v ≤ 63 → ∃ word, word < 2 ^ 18 ∧ word / 4096 = v ∧ gf2Rem word 0x1F25 12 = 0 ∧
      exec (.bchv a b) s = .next (afterX s a (BitVec.ofNat 32 word))) ∧
    (7 ≤ v → v ≤ 40 → exec (.bchv a b) s = .next (afterX s a (BitVec.ofNat 32 (versionWords.getD (v - 7) 0)))) ∧
    (63 < v → exec (.bchv a b) s = .next (faultState s 7 v))) ∧
  formatWords.Pairwise (fun u v => 7 ≤ distance u v) ∧ versionWords.Pairwise (fun u v => 8 ≤ distance u v)

/-! ## The matrix -/

/-- MXCLR and MXFND with a legal VERSION (48_matrix R306, R310 to R312): every cell of the symbol becomes UNSET; the three
finders with their separators are stamped and no other cell changes. -/
def Obligations.ClearAndFinders : Prop :=
  ∀ (s : State) (d : Nat), versionOk s.csr d →
    (∃ mm, exec .mxclr s = .next { s with mm := mm, pc := s.pc + 1 } ∧
      ∀ r c, c < 177 → Memory.read mm (cellKey r c) =
        if r < d ∧ c < d then some .unset else Memory.read s.mm (cellKey r c)) ∧
    (∃ mm, exec .mxfnd s = .next { s with mm := mm, pc := s.pc + 1 } ∧
      ∀ r c, c < 177 → Memory.read mm (cellKey r c) =
        match finderColour d r c with
        | some dark => some (shade dark)
        | none => Memory.read s.mm (cellKey r c))

/-- MXALN with a legal VERSION and centres (48_matrix R313, R314) completes: pair by pair of centres, rows outer, a pattern
is stamped whose centre cell is UNSET then, and no other cell changes; so when different coordinates are at least 5
apart, round every pair whose cell was UNSET before. The first centre whose pattern would leave the matrix takes
BadOperand. -/
def Obligations.AlignmentCommand : Prop :=
  ∀ (s : State) (d : Nat), versionOk s.csr d →
    (centresOk s.csr d → (∀ u ∈ alignCentres s.csr, ∀ v ∈ alignCentres s.csr, (Memory.read s.mm (cellKey u v)).isSome) →
      ∃ mm, exec .mxaln s = .next { s with mm := mm, pc := s.pc + 1 } ∧
        (∀ r c, c < 177 → Memory.read mm (cellKey r c) =
          aligned ((alignCentres s.csr).flatMap fun u => (alignCentres s.csr).map fun v => (u, v))
            (fun r c => Memory.read s.mm (cellKey r c)) r c) ∧
        ((∀ u ∈ alignCentres s.csr, ∀ v ∈ alignCentres s.csr, u = v ∨ u + 5 ≤ v ∨ v + 5 ≤ u) →
          (∀ u ∈ alignCentres s.csr, ∀ v ∈ alignCentres s.csr, Memory.read s.mm (cellKey u v) = some .unset →
            ∀ r c, near r u → near c v →
              Memory.read mm (cellKey r c) = some (shade (ring 2 (r + 2 - u) (c + 2 - v) != 1))) ∧
          ∀ r c, c < 177 → (∀ u ∈ alignCentres s.csr, ∀ v ∈ alignCentres s.csr, near r u → near c v →
              Memory.read s.mm (cellKey u v) ≠ some .unset) →
            Memory.read mm (cellKey r c) = Memory.read s.mm (cellKey r c))) ∧
    (∀ good u rest, alignCentres s.csr = good ++ u :: rest → (∀ g ∈ good, 2 ≤ g ∧ g ≤ d - 3) → u < 2 ∨ d - 3 < u →
      exec .mxaln s = .next (faultState s 7 u))

/-- MXTIM with a legal VERSION (48_matrix R315, R316): the UNSET cells of column 6 and row 6 between the finders become
dark at even index and light at odd, and no other cell changes. -/
def Obligations.TimingCommand : Prop :=
  ∀ (s : State) (d : Nat), versionOk s.csr d →
    (∀ i, 8 ≤ i → i ≤ d - 9 →
      (Memory.read s.mm (cellKey i 6)).isSome ∧ (Memory.read s.mm (cellKey 6 i)).isSome) →
    ∃ mm, exec .mxtim s = .next { s with mm := mm, pc := s.pc + 1 } ∧
      (∀ i, 8 ≤ i → i ≤ d - 9 →
        (Memory.read s.mm (cellKey i 6) = some .unset → Memory.read mm (cellKey i 6) = some (shade (i % 2 == 0))) ∧
        (Memory.read s.mm (cellKey 6 i) = some .unset → Memory.read mm (cellKey 6 i) = some (shade (i % 2 == 0)))) ∧
      ∀ r c, c < 177 →
        ¬ ((c = 6 ∧ 8 ≤ r ∧ r ≤ d - 9 ∨ r = 6 ∧ 8 ≤ c ∧ c ≤ d - 9) ∧ Memory.read s.mm (cellKey r c) = some .unset) →
        Memory.read mm (cellKey r c) = Memory.read s.mm (cellKey r c)

/-- MXFMT and MXVER with a legal VERSION (48_matrix R317 to R319): the cells of both copies of the format word and, from
version 7 on, of the version word carry its bits, or are light on a test pass; the dark module at (D-8, 8); no other
cell changes. -/
def Obligations.FormatAndVersion : Prop :=
  ∀ (s : State) (d : Nat) (test : Bool), versionOk s.csr d →
    let v := s.csr.version.toNat
    let format := formatWords.getD (8 * s.csr.ecl.toNat + s.csr.mask.toNat) 0
    (∃ mm, exec (.mxfmt test) s = .next { s with mm := mm, pc := s.pc + 1 } ∧
      ∀ r c, c < 177 → Memory.read mm (cellKey r c) =
        match formatBit d r c with
        | some i => some (shade (!test && format.testBit i))
        | none => if r = d - 8 ∧ c = 8 then some (shade (!test)) else Memory.read s.mm (cellKey r c)) ∧
    (∃ mm, exec (.mxver test) s = .next { s with mm := mm, pc := s.pc + 1 } ∧
      (v < 7 → mm = s.mm) ∧
      (7 ≤ v → ∀ r c, c < 177 → Memory.read mm (cellKey r c) =
        match versionBit d r c with
        | some i => some (shade (!test && (versionWords.getD (v - 7) 0).testBit i))
        | none => Memory.read s.mm (cellKey r c)))

/-- The placement path (48_matrix R320): every cell of the symbol outside column 6 once, in lanes of two columns from the
right, the first upward, column 6 skipped, the right cell before the left. -/
def Obligations.PlacementPath : Prop :=
  ∀ v, 1 ≤ v → v ≤ 40 →
    let d := 4 * v + 17
    (path d).Nodup ∧ (path d).length = d * (d - 1) ∧
    (∀ r c, (r, c) ∈ path d ↔ r < d ∧ c < d ∧ c ≠ 6) ∧
    ∀ k j, k < (d - 1) / 2 → j < d →
      let col := if d - 1 - 2 * k ≤ 6 then d - 2 - 2 * k else d - 1 - 2 * k
      let row := if k % 2 = 0 then d - 1 - j else j
      (path d)[2 * (k * d + j)]? = some (row, col) ∧ (path d)[2 * (k * d + j) + 1]? = some (row, col - 1)

/-- MXDAT with a legal VERSION and readable bytes (48_matrix R321 to R323): the j-th UNSET cell of the path takes bit j of
the stream, 0 past its end, XOR the mask at the cell; no other cell changes; a range past the end of DM takes MemRange. -/
def Obligations.DataPlacement : Prop :=
  ∀ (s : State) (a b : XReg) (d : Nat), versionOk s.csr d →
    let base := (s.getX a).toNat
    let n := (s.getX b).toNat
    let free := (path d).filter fun rc => decide (Memory.read s.mm (cellKey rc.1 rc.2) = some .unset)
    (∀ bytes : List Byte, bytes.length = n → (n = 0 ∨ base + n ≤ 16384) →
      (∀ k, k < n → Memory.read s.dm (base + k) = bytes[k]?) →
      (∀ rc ∈ path d, (Memory.read s.mm (cellKey rc.1 rc.2)).isSome) →
      ∃ mm, exec (.mxdat a b) s = .next { s with mm := mm, pc := s.pc + 1 } ∧
        (∀ j r c, free[j]? = some (r, c) → Memory.read mm (cellKey r c) =
          some (shade ((decide (j < 8 * n) && (bytes.getD (j / 8) 0).getLsbD (7 - j % 8)) ^^
            maskPred s.csr.mask.toNat r c))) ∧
        ∀ r c, c < 177 → (r, c) ∉ free → Memory.read mm (cellKey r c) = Memory.read s.mm (cellKey r c)) ∧
    (0 < n → 16384 < base + n → exec (.mxdat a b) s = .next (faultState s 6 (base + n - 1)))

/-- MXPEN on a coloured symbol gives the score of R330 to R334, counted by windows (48_matrix R335). -/
def Obligations.PenaltyCommand : Prop :=
  ∀ (s : State) (a : XReg) (d : Nat), versionOk s.csr d → cellsColoured s.mm d →
    exec (.mxpen a) s = .next (afterX s a (BitVec.ofNat 32 (score d (colours s)))) ∧ score d (colours s) < 2 ^ 22

/-- MXGET of a cell of the symbol and MXMSK (48_matrix R302, R304, R305, R307), with their faults in the rules' order. -/
def Obligations.CellAndMaskReads : Prop :=
  ∀ (s : State) (a b c e : XReg),
    let u := (s.getX b).toNat
    let r := (s.getX c).toNat
    let k := (s.getX e).toNat
    (∀ d, versionOk s.csr d →
      (∀ dark, r < d → k < d → Memory.read s.mm (cellKey r k) = some (shade dark) →
        exec (.mxget a c e) s = .next (afterX s a (if dark then 1 else 0))) ∧
      (r < d → k < d → Memory.read s.mm (cellKey r k) = some .unset →
        exec (.mxget a c e) s = .next (faultState s 8 (r * 256 + k))) ∧
      (d ≤ r → exec (.mxget a c e) s = .next (faultState s 7 r)) ∧
      (r < d → d ≤ k → exec (.mxget a c e) s = .next (faultState s 7 k))) ∧
    (u ≤ 7 → r ≤ 176 → k ≤ 176 →
      exec (.mxmsk a b c e) s = .next (afterX s a
        (if (u = 0 ∧ (r + k) % 2 = 0) ∨ (u = 1 ∧ r % 2 = 0) ∨ (u = 2 ∧ k % 3 = 0) ∨ (u = 3 ∧ (r + k) % 3 = 0) ∨
          (u = 4 ∧ (r / 2 + k / 3) % 2 = 0) ∨ (u = 5 ∧ r * k % 2 + r * k % 3 = 0) ∨
          (u = 6 ∧ (r * k % 2 + r * k % 3) % 2 = 0) ∨ (u = 7 ∧ (r * k % 3 + (r + k) % 2) % 2 = 0)
        then 1 else 0))) ∧
    (7 < u → exec (.mxmsk a b c e) s = .next (faultState s 7 u)) ∧
    (u ≤ 7 → 176 < r → exec (.mxmsk a b c e) s = .next (faultState s 7 r)) ∧
    (u ≤ 7 → r ≤ 176 → 176 < k → exec (.mxmsk a b c e) s = .next (faultState s 7 k))

/-- MXBLD equals the command sequence of a construction pass run nine times (48_matrix R336, R337): the eight test passes
complete, the chosen mask is the lowest of least penalty, the final matrix is that of the last pass, and MASK, x[a] and
x[b] hold the mask and its penalty. -/
def Obligations.BuildCommand : Prop :=
  ∀ (s : State) (a b c e : XReg) (d : Nat), s.Inv → s.status.fault = false → a ≠ b → versionOk s.csr d →
    centresOk s.csr d → bytesReady s.dm (s.getX c).toNat (s.getX e).toNat →
    ∃ m best final, m < 8 ∧ buildCommands s m true c e = some best ∧ buildCommands s m false c e = some final ∧
      (∀ m', m' < 8 → ∃ trial, buildCommands s m' true c e = some trial ∧ cellsColoured trial.mm d ∧
        score d (colours best) ≤ score d (colours trial) ∧
        (m' < m → score d (colours best) < score d (colours trial))) ∧
      cellsColoured final.mm d ∧
      exec (.mxbld a b c e) s = .next { s with
        mm := final.mm
        csr := { s.csr with mask := BitVec.ofNat 3 m }
        x := (s.x.set a.val (BitVec.ofNat 32 m)).set b.val (BitVec.ofNat 32 (score d (colours best)))
        pc := s.pc + 1 }

/-- MXOUT of a coloured symbol (48_matrix R338): bit r * D + c of the output is 1 for a dark cell, the bits past the last
are 0, no other byte changes; a range past the end of DM takes MemRange and an UNSET symbol UnsetModule. -/
def Obligations.OutputCommand : Prop :=
  ∀ (s : State) (a : XReg) (d : Nat), versionOk s.csr d →
    let base := (s.getX a).toNat
    let n := (d * d + 7) / 8
    (cellsColoured s.mm d → base + n ≤ 16384 →
      ∃ dm, exec (.mxout a) s = .next { s with dm := dm, pc := s.pc + 1 } ∧
        (∀ r c, r < d → c < d → streamBit dm base (r * d + c) = some (colours s r c)) ∧
        (∀ q, d * d ≤ q → q < 8 * n → streamBit dm base q = some false) ∧
        ∀ k, k < base ∨ base + n ≤ k → Memory.read dm k = Memory.read s.dm k) ∧
    (cellsColoured s.mm d → 16384 < base + n → exec (.mxout a) s = .next (faultState s 6 (base + n - 1))) ∧
    (∀ r c, r < d → c < d → Memory.read s.mm (cellKey r c) = some .unset →
      (∀ r' c', r' < d → c' < d → r' * d + c' < r * d + c →
        Memory.read s.mm (cellKey r' c') = some .light ∨ Memory.read s.mm (cellKey r' c') = some .dark) →
      exec (.mxout a) s = .next (faultState s 8 (r * 256 + c)) ∧
      exec (.mxpen a) s = .next (faultState s 8 (r * 256 + c)))

/-- Every matrix command but MXMSK takes BadOperand(VERSION) when VERSION is no QR version, before any other check
(48_matrix R300). -/
def Obligations.VersionChecked : Prop :=
  ∀ (s : State) (a b c e : XReg) (test : Bool),
    let v := s.csr.version.toNat
    v = 0 ∨ 40 < v →
    ∀ i ∈ [Instr.mxclr, .mxfnd, .mxaln, .mxtim, .mxfmt test, .mxver test, .mxdat a b, .mxpen a, .mxget a b c, .mxout a],
      exec i s = .next (faultState s 7 v) ∧ (a ≠ b → exec (.mxbld a b c e) s = .next (faultState s 7 v))
end

