-- ==== Sys2Proof/Laws/Decode.lean ====
section
/-! SUPPORT. The fields of the words the encoder writes: what the decoder reads back from the formats of
30_encoding R83 to R87. -/

namespace Sys2Proof

variable {op a b c d e imm : Nat}

theorem field_formatI_opcode (ho : op < 256) (ha : a < 16) (hb : b < 16) (hi : imm < 65536) :
    field (formatI op a b imm) 24 8 = op := by
  simp only [field, formatI, BitVec.toNat_ofNat]
  omega

theorem field_formatI_a (ha : a < 16) (hb : b < 16) (hi : imm < 65536) :
    field (formatI op a b imm) 20 4 = a := by
  simp only [field, formatI, BitVec.toNat_ofNat]
  omega

theorem field_formatI_b (hb : b < 16) (hi : imm < 65536) :
    field (formatI op a b imm) 16 4 = b := by
  simp only [field, formatI, BitVec.toNat_ofNat]
  omega

theorem field_formatI_ab (ha : a < 16) (hb : b < 16) (hi : imm < 65536) :
    field (formatI op a b imm) 16 8 = a * 16 + b := by
  simp only [field, formatI, BitVec.toNat_ofNat]
  omega

theorem field_formatI_imm (hi : imm < 65536) :
    field (formatI op a b imm) 0 16 = imm := by
  simp only [field, formatI, BitVec.toNat_ofNat]
  omega

theorem field_formatI_target (hi : imm < 1024) :
    field (formatI op a b imm) 10 6 = 0 ∧ field (formatI op a b imm) 0 10 = imm := by
  simp only [field, formatI, BitVec.toNat_ofNat]
  omega

/-- Format R is format I with the low three fields in the immediate's place. -/
theorem formatR_eq_formatI :
    formatR op a b c d e = formatI op a b (c * 2 ^ 12 + d * 2 ^ 8 + e * 2 ^ 4) := by
  simp only [formatR, formatI, Nat.add_assoc]

theorem field_formatR_c (hc : c < 16) (hd : d < 16) (he : e < 16) :
    field (formatR op a b c d e) 12 4 = c := by
  simp only [field, formatR, BitVec.toNat_ofNat]
  omega

theorem field_formatR_d (hd : d < 16) (he : e < 16) :
    field (formatR op a b c d e) 8 4 = d := by
  simp only [field, formatR, BitVec.toNat_ofNat]
  omega

theorem field_formatR_e (he : e < 16) :
    field (formatR op a b c d e) 4 4 = e := by
  simp only [field, formatR, BitVec.toNat_ofNat]
  omega

theorem field_formatR_low (hc : c < 16) (hd : d < 16) (he : e < 16) :
    field (formatR op a b c d e) 0 4 = 0 ∧ field (formatR op a b c d e) 0 8 = e * 16 ∧
    field (formatR op a b c d e) 0 12 = d * 256 + e * 16 ∧
    field (formatR op a b c d e) 0 16 = c * 4096 + d * 256 + e * 16 := by
  simp only [field, formatR, BitVec.toNat_ofNat]
  omega

/-- A CSR number is below 64, and the number of a CSR names that CSR. -/
theorem Csr.number_lt (r : Csr) : r.number < 64 := by
  cases r <;> simp only [Csr.number] <;> omega

theorem Csr.ofNumber_number (r : Csr) : Csr.ofNumber r.number = some r := by
  cases r with
  | aln i =>
    revert i
    decide
  | _ => rfl

end Sys2Proof
end

