-- ==== Sys2Proof/Laws/Memory.lean ====
section
/-! SUPPORT. The laws of a memory: a read after a write, and that every memory operation keeps the canonical form. -/

namespace Sys2Proof.Machine

variable {α : Type}

/-! ## Reading and writing -/

@[simp] theorem Memory.read_write_same (m : Memory α) (a : Nat) (v : α) :
    Memory.read (Memory.write m a v) a = some v := by
  induction m with
  | nil => simp [Memory.write, Memory.read]
  | cons c m ih =>
    obtain ⟨k, u⟩ := c
    simp only [Memory.write]
    split_ifs with h1 h2
    · simp [Memory.read]
    · simp [Memory.read]
    · simp [Memory.read, Ne.symm h2, ih]

theorem Memory.read_write_ne (m : Memory α) {a b : Nat} (v : α) (h : b ≠ a) :
    Memory.read (Memory.write m a v) b = Memory.read m b := by
  induction m with
  | nil => simp [Memory.write, Memory.read, Ne.symm h]
  | cons c m ih =>
    obtain ⟨k, u⟩ := c
    simp only [Memory.write]
    split_ifs with h1 h2
    · simp [Memory.read, Ne.symm h]
    · subst h2
      simp [Memory.read, Ne.symm h]
    · simp [Memory.read, ih]

/-- A write makes its location written and leaves the written ones written. -/
theorem Memory.isSome_read_write (m : Memory α) (a b : Nat) (v : α) (h : (Memory.read m b).isSome) :
    (Memory.read (Memory.write m a v) b).isSome := by
  by_cases hb : b = a
  · subst hb
    simp
  · rw [Memory.read_write_ne m v hb]
    exact h

/-! ## The canonical form -/

theorem Memory.wfFrom_mono {lo lo' hi : Nat} {m : Memory α} (h : lo' ≤ lo) (hm : Memory.wfFrom lo hi m = true) :
    Memory.wfFrom lo' hi m = true := by
  cases m with
  | nil => rfl
  | cons c m =>
    obtain ⟨k, u⟩ := c
    simp only [Memory.wfFrom, Bool.and_eq_true, decide_eq_true_eq] at hm ⊢
    exact ⟨⟨by omega, hm.1.2⟩, hm.2⟩

theorem Memory.wfFrom_write {lo hi a : Nat} {m : Memory α} (v : α) (hlo : lo ≤ a) (hhi : a < hi)
    (hm : Memory.wfFrom lo hi m = true) : Memory.wfFrom lo hi (Memory.write m a v) = true := by
  induction m generalizing lo with
  | nil => simp [Memory.write, Memory.wfFrom, hlo, hhi]
  | cons c m ih =>
    obtain ⟨k, u⟩ := c
    simp only [Memory.wfFrom, Bool.and_eq_true, decide_eq_true_eq] at hm
    simp only [Memory.write]
    split_ifs with h1 h2
    · simp only [Memory.wfFrom, Bool.and_eq_true, decide_eq_true_eq]
      exact ⟨⟨hlo, hhi⟩, ⟨by omega, hm.1.2⟩, hm.2⟩
    · subst h2
      simpa [Memory.wfFrom, hlo, hhi] using hm.2
    · simp only [Memory.wfFrom, Bool.and_eq_true, decide_eq_true_eq]
      exact ⟨hm.1, ih (by omega) hm.2⟩

/-- Writing inside the memory keeps the canonical form. -/
theorem Memory.wf_write {size a : Nat} {m : Memory α} (v : α) (ha : a < size) (hm : Memory.wf size m = true) :
    Memory.wf size (Memory.write m a v) = true :=
  Memory.wfFrom_write v (Nat.zero_le a) ha hm

theorem Memory.wfFrom_filter {lo hi : Nat} {m : Memory α} (p : Nat × α → Bool)
    (hm : Memory.wfFrom lo hi m = true) : Memory.wfFrom lo hi (m.filter p) = true := by
  induction m generalizing lo with
  | nil => rfl
  | cons c m ih =>
    obtain ⟨k, u⟩ := c
    simp only [Memory.wfFrom, Bool.and_eq_true, decide_eq_true_eq] at hm
    rw [List.filter_cons]
    split
    · simp only [Memory.wfFrom, Bool.and_eq_true, decide_eq_true_eq]
      exact ⟨hm.1, ih hm.2⟩
    · exact ih (Memory.wfFrom_mono (by omega) hm.2)

/-- Forgetting locations keeps the canonical form. -/
theorem Memory.wf_forgetWhere {size : Nat} {m : Memory α} (p : Nat → Bool) (hm : Memory.wf size m = true) :
    Memory.wf size (Memory.forgetWhere m p) = true :=
  Memory.wfFrom_filter _ hm

/-! ## Forgetting -/

/-- A forgotten location reads as no value, any other as before. -/
theorem Memory.read_forgetWhere (m : Memory α) (p : Nat → Bool) (a : Nat) :
    Memory.read (Memory.forgetWhere m p) a = if p a then none else Memory.read m a := by
  induction m with
  | nil => simp [Memory.forgetWhere, Memory.read]
  | cons c m ih =>
    obtain ⟨k, u⟩ := c
    simp only [Memory.forgetWhere] at ih
    cases hk : p k with
    | true =>
      by_cases h : k = a
      · subst h
        simp [Memory.forgetWhere, hk, ih]
      · simp [Memory.forgetWhere, hk, ih, Memory.read, h]
    | false =>
      by_cases h : k = a
      · subst h
        simp [Memory.forgetWhere, hk, Memory.read]
      · simp [Memory.forgetWhere, hk, ih, Memory.read, h]

/-! ## Sequences of bytes -/

theorem wf_storeBytes {size a : Nat} {dm : Memory Byte} (bytes : List Byte) (ha : a + bytes.length ≤ size)
    (hm : Memory.wf size dm = true) : Memory.wf size (storeBytes dm a bytes) = true := by
  induction bytes generalizing a dm with
  | nil => exact hm
  | cons v vs ih =>
    simp only [List.length_cons] at ha
    exact ih (by omega) (Memory.wf_write v (by omega) hm)

/-- Bytes outside the stored range read as before. -/
theorem read_storeBytes_outside (dm : Memory Byte) (a b : Nat) (bytes : List Byte)
    (h : b < a ∨ a + bytes.length ≤ b) : Memory.read (storeBytes dm a bytes) b = Memory.read dm b := by
  induction bytes generalizing a dm with
  | nil => rfl
  | cons v vs ih =>
    simp only [List.length_cons] at h
    rw [storeBytes, ih _ _ (by omega), Memory.read_write_ne _ _ (by omega)]

/-- The stored bytes read back. -/
theorem read_storeBytes_inside (dm : Memory Byte) (a k : Nat) (bytes : List Byte) (h : k < bytes.length) :
    Memory.read (storeBytes dm a bytes) (a + k) = some bytes[k] := by
  induction bytes generalizing a dm k with
  | nil => simp at h
  | cons v vs ih =>
    cases k with
    | zero =>
      rw [storeBytes, read_storeBytes_outside _ _ _ _ (by omega)]
      exact Memory.read_write_same dm a v
    | succ k =>
      have hk : k < vs.length := by simpa using h
      have := ih (Memory.write dm a v) (a + 1) k hk
      rw [storeBytes, show a + (k + 1) = a + 1 + k by omega, this]
      rfl

/-! ## Module memory -/

/-- A cell inside MM has its key inside MM. -/
theorem cellKey_lt {r c : Nat} (hr : r < Config.mmDim) (hc : c < Config.mmDim) :
    cellKey r c < Config.mmDim * Config.mmDim := by
  simp only [cellKey, Config.mmDim] at *
  omega

/-- Different cells have different keys. -/
theorem cellKey_inj {r c r' c' : Nat} (hc : c < Config.mmDim) (hc' : c' < Config.mmDim)
    (h : cellKey r c = cellKey r' c') : r = r' ∧ c = c' := by
  simp only [cellKey, Config.mmDim] at *
  omega

theorem wf_setAll {mm : Memory ModuleCell} (stamps : List Stamp)
    (hs : ∀ t ∈ stamps, t.1 < Config.mmDim ∧ t.2.1 < Config.mmDim)
    (hm : Memory.wf (Config.mmDim * Config.mmDim) mm = true) :
    Memory.wf (Config.mmDim * Config.mmDim) (setAll mm stamps) = true := by
  induction stamps generalizing mm with
  | nil => exact hm
  | cons t ts ih =>
    obtain ⟨r, c, dark⟩ := t
    have h := hs (r, c, dark) (by simp)
    exact ih (fun u hu => hs u (by simp [hu])) (Memory.wf_write _ (cellKey_lt h.1 h.2) hm)

theorem wf_unsetAll {mm : Memory ModuleCell} (cs : List (Nat × Nat))
    (hs : ∀ t ∈ cs, t.1 < Config.mmDim ∧ t.2 < Config.mmDim)
    (hm : Memory.wf (Config.mmDim * Config.mmDim) mm = true) :
    Memory.wf (Config.mmDim * Config.mmDim) (unsetAll mm cs) = true := by
  induction cs generalizing mm with
  | nil => exact hm
  | cons t ts ih =>
    obtain ⟨r, c⟩ := t
    have h := hs (r, c) (by simp)
    exact ih (fun u hu => hs u (by simp [hu])) (Memory.wf_write _ (cellKey_lt h.1 h.2) hm)

end Sys2Proof.Machine
end

