-- ==== Sys2Proof/Laws/Outcome.lean ====
section
/-! SUPPORT. How a command ends: the inversion of `finish`, of a chain of checks, and of the checks themselves. Later
proofs cite these instead of unfolding a command's steps. -/

namespace Sys2Proof.Machine

/-- A chain answers only if each part does. -/
theorem bind_ok {ε α β : Type} {x : Except ε α} {f : α → Except ε β} {b : β} (h : (x >>= f) = .ok b) :
    ∃ a, x = .ok a ∧ f a = .ok b := by
  cases x with
  | error e => cases h
  | ok a => exact ⟨a, rfl, h⟩

/-- A chain whose first part answers is the rest of the chain. -/
@[simp] theorem ok_bind {ε α β : Type} (a : α) (f : α → Except ε β) : ((Except.ok a : Except ε α) >>= f) = f a := rfl

/-- A chain stops where its first part stops. -/
@[simp] theorem error_bind {ε α β : Type} (e : ε) (f : α → Except ε β) :
    ((Except.error e : Except ε α) >>= f) = .error e := rfl

/-- A command that ends in a next state has either applied its writes or taken one fault. -/
theorem finish_next {s t : State} {r : Except Stop State} (h : finish s r = .next t) :
    r = .ok t ∨ ∃ c n, r = .error (.raises c n) ∧ t = s.enterFault c n := by
  match r, h with
  | .ok u, h =>
    injection h with h
    exact .inl (h ▸ rfl)
  | .error (.raises c n), h =>
    injection h with h
    exact .inr ⟨c, n, rfl, h.symm⟩
  | .error (.sticks f), h => cases h

@[simp] theorem finish_ok (s t : State) : finish s (.ok t) = .next t := rfl

@[simp] theorem finish_raises (s : State) (c : Cause) (n : Nat) :
    finish s (.error (.raises c n)) = .next (s.enterFault c n) := rfl

@[simp] theorem finish_sticks (s : State) (f : Fault) : finish s (.error (.sticks f)) = .fault f := rfl

/-- No command ends in a refusal through `finish`. -/
theorem finish_not_refused (s : State) (r : Except Stop State) (q : Refusal) : finish s r ≠ .refused q := by
  match r with
  | .ok u => simp
  | .error (.raises c n) => simp
  | .error (.sticks f) => simp

/-! ## The checks -/

theorem badOperandIf_ok {bad : Bool} {v : Nat} {u : Unit} (h : badOperandIf bad v = .ok u) : bad = false := by
  cases bad
  · rfl
  · cases h

theorem badOperandIf_error {bad : Bool} {v : Nat} {e : Stop} (h : badOperandIf bad v = .error e) :
    bad = true ∧ e = .raises .badOperand v := by
  cases bad
  · cases h
  · injection h with h
    exact ⟨rfl, h.symm⟩

theorem fieldElement_ok {v : Word} {b : Byte} (h : fieldElement v = .ok b) : v.toNat ≤ 255 ∧ b = lowByte v := by
  unfold fieldElement at h
  split at h
  · cases h
  · injection h with h
    exact ⟨by omega, h.symm⟩

theorem poly_ok {f g : List Byte} (h : poly f = .ok g) : f ≠ [] ∧ g = stripZeros f := by
  unfold poly at h
  split at h
  · cases h
  · next hf =>
    injection h with h
    exact ⟨hf, h.symm⟩

theorem checkRange_ok {a n : Nat} {u : Unit} (h : checkRange a n = .ok u) : 0 < n → a + n ≤ Config.dmBytes := by
  unfold checkRange at h
  split at h
  · cases h
  · omega

theorem memRead_ok {dm : Memory Byte} {a : Nat} {v : Byte} (h : memRead dm a = .ok v) :
    a < Config.dmBytes ∧ Memory.read dm a = some v := by
  unfold memRead at h
  split at h
  · next ha =>
    refine ⟨ha, ?_⟩
    unfold writtenByte at h
    split at h
    · next w hw =>
      injection h with h
      exact h ▸ hw
    · cases h
  · cases h

theorem memWrite_ok {dm dm' : Memory Byte} {a : Nat} {v : Byte} (h : memWrite dm a v = .ok dm') :
    a < Config.dmBytes ∧ dm' = Memory.write dm a v := by
  unfold memWrite at h
  split at h
  · next ha =>
    injection h with h
    exact ⟨ha, h.symm⟩
  · cases h

theorem memWriteSeq_ok {dm dm' : Memory Byte} {a : Nat} {bytes : List Byte} (h : memWriteSeq dm a bytes = .ok dm') :
    (0 < bytes.length → a + bytes.length ≤ Config.dmBytes) ∧ dm' = storeBytes dm a bytes := by
  obtain ⟨u, hu, h⟩ := bind_ok h
  injection h with h
  exact ⟨checkRange_ok hu, h.symm⟩

theorem writtenBytes_length {dm : Memory Byte} {a n : Nat} {bytes : List Byte} (h : writtenBytes dm a n = .ok bytes) :
    bytes.length = n := by
  induction n generalizing a bytes with
  | zero =>
    injection h with h
    simp [← h]
  | succ n ih =>
    obtain ⟨v, -, h⟩ := bind_ok h
    obtain ⟨vs, hvs, h⟩ := bind_ok h
    injection h with h
    simp [← h, ih hvs]

theorem memReadSeq_ok {dm : Memory Byte} {a n : Nat} {bytes : List Byte} (h : memReadSeq dm a n = .ok bytes) :
    (0 < n → a + n ≤ Config.dmBytes) ∧ bytes.length = n := by
  obtain ⟨u, hu, h⟩ := bind_ok h
  exact ⟨checkRange_ok hu, writtenBytes_length h⟩

theorem checkStream_ok {base q n : Nat} {u : Unit} (h : checkStream base q n = .ok u) :
    0 < n → streamByte base (q + n - 1) < Config.dmBytes := by
  unfold checkStream at h
  split at h
  · cases h
  · omega

theorem dim_ok {f : ParamCsrs} {d : Nat} (h : dim f = .ok d) :
    1 ≤ f.version.toNat ∧ f.version.toNat ≤ 40 ∧ d = 4 * f.version.toNat + 17 := by
  have hv : Config.vMax = 40 := rfl
  unfold dim at h
  dsimp only at h
  split at h
  · cases h
  · injection h with h
    omega

/-- A QR dimension is odd, at least 21 and inside MM. -/
theorem dim_bounds {f : ParamCsrs} {d : Nat} (h : dim f = .ok d) : 21 ≤ d ∧ d ≤ Config.mmDim ∧ d % 2 = 1 := by
  have := dim_ok h
  simp only [Config.mmDim]
  omega

end Sys2Proof.Machine
end

