-- ==== Sys2Proof/Laws/Keep.lean ====
section
/-! SUPPORT. Every operation of the commands on DM and MM keeps the canonical form, and every pattern of the matrix
builder stays inside the symbol. -/

namespace Sys2Proof.Machine

/-! ## Data memory -/

theorem wf_memWrite {dm dm' : Memory Byte} {a : Nat} {v : Byte} (h : memWrite dm a v = .ok dm')
    (hm : Memory.wf Config.dmBytes dm = true) : Memory.wf Config.dmBytes dm' = true := by
  obtain ⟨ha, rfl⟩ := memWrite_ok h
  exact Memory.wf_write v ha hm

theorem wf_memWriteSeq {dm dm' : Memory Byte} {a : Nat} {bytes : List Byte} (h : memWriteSeq dm a bytes = .ok dm')
    (hm : Memory.wf Config.dmBytes dm = true) : Memory.wf Config.dmBytes dm' = true := by
  obtain ⟨ha, rfl⟩ := memWriteSeq_ok h
  cases bytes with
  | nil => exact hm
  | cons v vs => exact wf_storeBytes _ (ha (by simp)) hm

theorem wf_putBits {value : Word} {base n q : Nat} {dm dm' : Memory Byte}
    (hr : 0 < n → streamByte base (q + n - 1) < Config.dmBytes) (h : putBits value base n q dm = .ok dm')
    (hm : Memory.wf Config.dmBytes dm = true) : Memory.wf Config.dmBytes dm' = true := by
  induction n generalizing q dm with
  | zero =>
    injection h with h
    exact h ▸ hm
  | succ n ih =>
    rw [putBits] at h
    obtain ⟨old, -, h⟩ := bind_ok h
    have hr' := hr (by omega)
    simp only [streamByte] at hr hr'
    refine ih (q := q + 1) (fun hn => ?_) h (Memory.wf_write _ ?_ hm)
    · simp only [streamByte]
      have : q + 1 + n - 1 = q + (n + 1) - 1 := by omega
      rw [this]
      exact hr'
    · simp only [streamByte]
      have : q / 8 ≤ (q + (n + 1) - 1) / 8 := Nat.div_le_div_right (by omega)
      omega

/-- What `bb_put` does: DM inside the buffer and WLEN change, nothing else. -/
theorem bbPut_ok {value : Word} {n : Nat} {s t : State} (h : bbPut value n s = .ok t) :
    ∃ dm, putBits value s.csr.wbase.toNat n s.csr.wlen.toNat s.dm = .ok dm ∧
      (0 < n → streamByte s.csr.wbase.toNat (s.csr.wlen.toNat + n - 1) < Config.dmBytes) ∧
      t = { s with dm := dm, csr := { s.csr with wlen := BitVec.ofNat 32 (s.csr.wlen.toNat + n) } } := by
  obtain ⟨u, hu, h⟩ := bind_ok h
  obtain ⟨dm, hdm, h⟩ := bind_ok h
  injection h with h
  exact ⟨dm, hdm, checkStream_ok hu, h.symm⟩

theorem wf_bbPut {value : Word} {n : Nat} {s t : State} (h : bbPut value n s = .ok t)
    (hm : Memory.wf Config.dmBytes s.dm = true) : Memory.wf Config.dmBytes t.dm = true := by
  obtain ⟨dm, hdm, hr, rfl⟩ := bbPut_ok h
  exact wf_putBits hr hdm hm

theorem wf_padBytes {count k : Nat} {s t : State} (h : padBytes count k s = .ok t)
    (hm : Memory.wf Config.dmBytes s.dm = true) : Memory.wf Config.dmBytes t.dm = true := by
  induction count generalizing k s with
  | zero =>
    injection h with h
    exact h ▸ hm
  | succ count ih =>
    obtain ⟨u, hu, h⟩ := bind_ok h
    exact ih h (wf_bbPut hu hm)

theorem wf_bbPad {m : Nat} {s t : State} (h : bbPad m s = .ok t) (hm : Memory.wf Config.dmBytes s.dm = true) :
    Memory.wf Config.dmBytes t.dm = true := by
  unfold bbPad at h
  dsimp only at h
  split at h
  · cases h
  · split at h
    · cases h
    · obtain ⟨u, hu, h⟩ := bind_ok h
      obtain ⟨v, hv, h⟩ := bind_ok h
      exact wf_padBytes h (wf_bbPut hv (wf_bbPut hu hm))

/-! ## Module memory -/

/-- A list of stamps inside the `d x d` symbol. -/
def StampsIn (d : Nat) (stamps : List Stamp) : Prop := ∀ t ∈ stamps, t.1 < d ∧ t.2.1 < d

theorem wf_setAll_of_in {d : Nat} {mm : Memory ModuleCell} {stamps : List Stamp} (hd : d ≤ Config.mmDim)
    (hs : StampsIn d stamps) (hm : Memory.wf (Config.mmDim * Config.mmDim) mm = true) :
    Memory.wf (Config.mmDim * Config.mmDim) (setAll mm stamps) = true :=
  wf_setAll stamps (fun t ht => ⟨by have := (hs t ht).1; omega, by have := (hs t ht).2; omega⟩) hm

theorem cells_lt {d : Nat} {t : Nat × Nat} (h : t ∈ cells d) : t.1 < d ∧ t.2 < d := by
  simp only [cells, List.mem_flatMap, List.mem_map, List.mem_range] at h
  obtain ⟨r, hr, c, hc, rfl⟩ := h
  exact ⟨hr, hc⟩

theorem mem_cells {d r c : Nat} (hr : r < d) (hc : c < d) : (r, c) ∈ cells d := by
  simp only [cells, List.mem_flatMap, List.mem_map, List.mem_range]
  exact ⟨r, hr, c, hc, rfl⟩

theorem wf_clearMatrix {d : Nat} {mm : Memory ModuleCell} (hd : d ≤ Config.mmDim)
    (hm : Memory.wf (Config.mmDim * Config.mmDim) mm = true) :
    Memory.wf (Config.mmDim * Config.mmDim) (clearMatrix d mm) = true :=
  wf_unsetAll _ (fun t ht => ⟨by have := (cells_lt ht).1; omega, by have := (cells_lt ht).2; omega⟩) hm

theorem finderStamps_in (d r0 c0 : Nat) : StampsIn d (finderStamps d r0 c0) := by
  intro t ht
  simp only [finderStamps, List.mem_flatMap, List.mem_filterMap] at ht
  obtain ⟨dr, -, dc, -, h⟩ := ht
  split at h
  · cases h
  · injection h with h
    subst h
    constructor <;> dsimp only <;> omega

theorem alignStamps_in {d r0 c0 : Nat} (hr : 2 ≤ r0 ∧ r0 ≤ d - 3) (hc : 2 ≤ c0 ∧ c0 ≤ d - 3) :
    StampsIn d (alignStamps r0 c0) := by
  intro t ht
  simp only [alignStamps, List.mem_flatMap, List.mem_map, List.mem_range] at ht
  obtain ⟨i, hi, j, hj, rfl⟩ := ht
  constructor <;> dsimp only <;> omega

theorem timingStamps_in {d : Nat} (hd : 21 ≤ d) : StampsIn d (timingStamps d) := by
  intro t ht
  simp only [timingStamps, List.map_map, List.mem_append, List.mem_map, List.mem_range, Function.comp] at ht
  obtain ⟨i, hi, rfl⟩ | ⟨i, hi, rfl⟩ := ht <;> constructor <;> dsimp only <;> omega

theorem formatStamps_in {d : Nat} (hd : 21 ≤ d) (f : ParamCsrs) (test : Bool) : StampsIn d (formatStamps d f test) := by
  intro t ht
  simp only [formatStamps, formatCells, List.mem_append, List.mem_flatMap, List.mem_range, List.mem_cons,
    List.not_mem_nil, or_false] at ht
  obtain ⟨i, hi, rfl | rfl⟩ | rfl := ht
  · constructor <;> dsimp only <;> split <;> try split
    all_goals dsimp only
    all_goals omega
  · constructor <;> dsimp only <;> split <;> try split
    all_goals dsimp only
    all_goals omega
  · constructor <;> dsimp only <;> omega

theorem versionStamps_in {d : Nat} (hd : 21 ≤ d) (f : ParamCsrs) (test : Bool) :
    StampsIn d (versionStamps d f test) := by
  intro t ht
  simp only [versionStamps] at ht
  split at ht
  · cases ht
  · simp only [List.mem_flatMap, List.mem_range, List.mem_cons, List.not_mem_nil, or_false] at ht
    obtain ⟨i, hi, rfl | rfl⟩ := ht <;> constructor <;> dsimp only <;> omega

theorem wf_setWhereUnset {d : Nat} {mm mm' : Memory ModuleCell} {stamps : List Stamp} (hd : d ≤ Config.mmDim)
    (hs : StampsIn d stamps) (h : setWhereUnset mm stamps = .ok mm')
    (hm : Memory.wf (Config.mmDim * Config.mmDim) mm = true) :
    Memory.wf (Config.mmDim * Config.mmDim) mm' = true := by
  induction stamps generalizing mm with
  | nil =>
    injection h with h
    exact h ▸ hm
  | cons t ts ih =>
    obtain ⟨r, c, dark⟩ := t
    have hrc : r < d ∧ c < d := hs (r, c, dark) (by simp)
    obtain ⟨m, -, h⟩ := bind_ok h
    refine ih (fun u hu => hs u (by simp [hu])) h ?_
    split
    · exact Memory.wf_write _ (cellKey_lt (by have := hrc.1; omega) (by have := hrc.2; omega)) hm
    · exact hm

theorem checkCentres_ok {d : Nat} {cs : List Nat} {u : Unit} (h : checkCentres d cs = .ok u) :
    ∀ a ∈ cs, 2 ≤ a ∧ a ≤ d - 3 := by
  induction cs with
  | nil => simp
  | cons c cs ih =>
    obtain ⟨v, hv, h⟩ := bind_ok h
    have hc := badOperandIf_ok hv
    simp only [decide_eq_false_iff_not, not_or] at hc
    intro a ha
    obtain rfl | ha := List.mem_cons.mp ha
    · omega
    · exact ih h a ha

theorem wf_placeAlignAt {d : Nat} {mm mm' : Memory ModuleCell} {cs : List (Nat × Nat)} (hd : d ≤ Config.mmDim)
    (hs : ∀ t ∈ cs, (2 ≤ t.1 ∧ t.1 ≤ d - 3) ∧ 2 ≤ t.2 ∧ t.2 ≤ d - 3) (h : placeAlignAt mm cs = .ok mm')
    (hm : Memory.wf (Config.mmDim * Config.mmDim) mm = true) :
    Memory.wf (Config.mmDim * Config.mmDim) mm' = true := by
  induction cs generalizing mm with
  | nil =>
    injection h with h
    exact h ▸ hm
  | cons t ts ih =>
    obtain ⟨r, c⟩ := t
    have hrc := hs (r, c) (by simp)
    obtain ⟨m, -, h⟩ := bind_ok h
    refine ih (fun u hu => hs u (by simp [hu])) h ?_
    split
    · exact wf_setAll_of_in hd (alignStamps_in hrc.1 hrc.2) hm
    · exact hm

theorem wf_placeAlign {d : Nat} {f : ParamCsrs} {mm mm' : Memory ModuleCell} (hd : d ≤ Config.mmDim)
    (hc : ∀ a ∈ alignCentres f, 2 ≤ a ∧ a ≤ d - 3) (h : placeAlign f mm = .ok mm')
    (hm : Memory.wf (Config.mmDim * Config.mmDim) mm = true) :
    Memory.wf (Config.mmDim * Config.mmDim) mm' = true := by
  refine wf_placeAlignAt hd (fun t ht => ?_) h hm
  simp only [centrePairs, List.mem_flatMap, List.mem_map] at ht
  obtain ⟨r, hr, c, hc', rfl⟩ := ht
  exact ⟨hc r hr, hc c hc'⟩

theorem lanes_in {d fuel col : Nat} {up : Bool} (hcol : col < d) (hd : 6 ≤ d) :
    ∀ t ∈ lanes d fuel col up, t.1 < d ∧ t.2 < d := by
  induction fuel generalizing col up with
  | zero => simp [lanes]
  | succ fuel ih =>
    intro t ht
    simp only [lanes] at ht
    split at ht
    · cases ht
    · obtain ht | ht := List.mem_append.mp ht
      · simp only [List.mem_flatMap, List.mem_cons, List.not_mem_nil, or_false] at ht
        obtain ⟨r, hr, h⟩ := ht
        have hr : r < d := by
          split at hr
          · simpa using hr
          · simpa using hr
        obtain rfl | rfl := h <;> refine ⟨hr, ?_⟩ <;> dsimp only <;> split <;> omega
      · refine ih ?_ t ht
        split <;> omega

theorem path_in {d : Nat} (hd : 6 ≤ d) : ∀ t ∈ path d, t.1 < d ∧ t.2 < d :=
  lanes_in (by omega) hd

theorem wf_placeFrom {d : Nat} {bytes : List Byte} {m j : Nat} {mm mm' : Memory ModuleCell} {cs : List (Nat × Nat)}
    (hd : d ≤ Config.mmDim) (hs : ∀ t ∈ cs, t.1 < d ∧ t.2 < d) (h : placeFrom bytes m mm j cs = .ok mm')
    (hm : Memory.wf (Config.mmDim * Config.mmDim) mm = true) :
    Memory.wf (Config.mmDim * Config.mmDim) mm' = true := by
  induction cs generalizing mm j with
  | nil =>
    injection h with h
    exact h ▸ hm
  | cons t ts ih =>
    obtain ⟨r, c⟩ := t
    have hrc : r < d ∧ c < d := hs (r, c) (by simp)
    obtain ⟨m', -, h⟩ := bind_ok h
    have hts : ∀ t ∈ ts, t.1 < d ∧ t.2 < d := fun u hu => hs u (by simp [hu])
    split at h
    · exact ih hts h (Memory.wf_write _ (cellKey_lt (by have := hrc.1; omega) (by have := hrc.2; omega)) hm)
    · exact ih hts h hm

theorem wf_placeData {d : Nat} {bytes : List Byte} {m : Nat} {mm mm' : Memory ModuleCell} (hd : d ≤ Config.mmDim)
    (hd' : 6 ≤ d) (h : placeData d bytes m mm = .ok mm')
    (hm : Memory.wf (Config.mmDim * Config.mmDim) mm = true) :
    Memory.wf (Config.mmDim * Config.mmDim) mm' = true :=
  wf_placeFrom hd (path_in hd') h hm

theorem wf_placeFinders {d : Nat} {mm : Memory ModuleCell} (hd : d ≤ Config.mmDim)
    (hm : Memory.wf (Config.mmDim * Config.mmDim) mm = true) :
    Memory.wf (Config.mmDim * Config.mmDim) (placeFinders d mm) = true := by
  refine wf_setAll_of_in hd (fun t ht => ?_) hm
  simp only [finderPattern, List.mem_append] at ht
  obtain (ht | ht) | ht := ht
  · exact finderStamps_in _ _ _ t ht
  · exact finderStamps_in _ _ _ t ht
  · exact finderStamps_in _ _ _ t ht

theorem wf_placeTiming {d : Nat} {mm mm' : Memory ModuleCell} (hd : d ≤ Config.mmDim) (hd' : 21 ≤ d)
    (h : placeTiming d mm = .ok mm') (hm : Memory.wf (Config.mmDim * Config.mmDim) mm = true) :
    Memory.wf (Config.mmDim * Config.mmDim) mm' = true :=
  wf_setWhereUnset hd (timingStamps_in hd') h hm

/-- One construction of the matrix keeps the canonical form. -/
theorem wf_buildPass {d : Nat} {f : ParamCsrs} {bytes : List Byte} {m : BitVec 3} {test : Bool}
    {mm mm' : Memory ModuleCell} (hd : d ≤ Config.mmDim) (hd' : 21 ≤ d)
    (hc : ∀ a ∈ alignCentres f, 2 ≤ a ∧ a ≤ d - 3) (h : buildPass d f bytes m test mm = .ok mm')
    (hm : Memory.wf (Config.mmDim * Config.mmDim) mm = true) :
    Memory.wf (Config.mmDim * Config.mmDim) mm' = true := by
  obtain ⟨m1, h1, h⟩ := bind_ok h
  obtain ⟨m2, h2, h⟩ := bind_ok h
  have w1 := wf_placeAlign (f := { f with mask := m }) hd hc h1 (wf_placeFinders hd (wf_clearMatrix hd hm))
  have w2 := wf_placeTiming hd hd' h2 w1
  exact wf_placeData hd (by omega) h
    (wf_setAll_of_in hd (versionStamps_in hd' _ _) (wf_setAll_of_in hd (formatStamps_in hd' _ _) w2))

/-- The eight trials keep the canonical form. -/
theorem wf_trialFrom {d : Nat} {f : ParamCsrs} {bytes : List Byte} {m n : Nat} {best : Option (Nat × Nat)}
    {mm : Memory ModuleCell} {r : Option (Nat × Nat) × Memory ModuleCell} (hd : d ≤ Config.mmDim) (hd' : 21 ≤ d)
    (hc : ∀ a ∈ alignCentres f, 2 ≤ a ∧ a ≤ d - 3) (h : trialFrom d f bytes m n best mm = .ok r)
    (hm : Memory.wf (Config.mmDim * Config.mmDim) mm = true) :
    Memory.wf (Config.mmDim * Config.mmDim) r.2 = true := by
  induction n generalizing m best mm with
  | zero =>
    injection h with h
    exact h ▸ hm
  | succ n ih =>
    obtain ⟨m1, h1, h⟩ := bind_ok h
    obtain ⟨rows, -, h⟩ := bind_ok h
    exact ih h (wf_buildPass hd hd' hc h1 hm)

end Sys2Proof.Machine
end

