-- ==== Sys2Proof/Laws/PerInstr.lean ====
section
/-! SUPPORT. The statement proved of every command as syntax: its word carries the opcode 30_encoding R88 gives it. -/

namespace Sys2Proof.Laws.OpcodeByte

/-- The opcode byte of a command's word is the one of the opcode map (30_encoding R81, R88). -/
def Statement (i : Instr) : Prop := field (encode i) 24 8 = i.opcode

/-- What each lemma below unfolds to. -/
theorem of_formatR {op a b c d e : Nat} (ho : op < 256) (ha : a < 16) (hb : b < 16) (hc : c < 16) (hd : d < 16)
    (he : e < 16) : field (formatR op a b c d e) 24 8 = op := by
  rw [formatR_eq_formatI]
  exact field_formatI_opcode ho ha hb (by omega)

theorem nop : Statement .nop :=
  of_formatR (by decide) (by decide) (by decide) (by decide) (by decide) (by decide)
theorem halt : Statement .halt :=
  of_formatR (by decide) (by decide) (by decide) (by decide) (by decide) (by decide)
theorem jmp (t : BitVec 10) : Statement (.jmp t) :=
  field_formatI_opcode (by decide) (by decide) (by decide) (by omega)
theorem bz (a : XReg) (t : BitVec 10) : Statement (.bz a t) :=
  field_formatI_opcode (by decide) (by omega) (by decide) (by omega)
theorem bnz (a : XReg) (t : BitVec 10) : Statement (.bnz a t) :=
  field_formatI_opcode (by decide) (by omega) (by decide) (by omega)
theorem bltu (a : XReg) (b : XReg) (t : BitVec 10) : Statement (.bltu a b t) :=
  field_formatI_opcode (by decide) (by omega) (by omega) (by omega)
theorem csrr (a : XReg) (c : Csr) : Statement (.csrr a c) :=
  field_formatI_opcode (by decide) (by omega) (by decide) (by have := c.number_lt; omega)
theorem csrw (c : Csr) (a : XReg) : Statement (.csrw c a) :=
  field_formatI_opcode (by decide) (by omega) (by decide) (by have := c.number_lt; omega)
theorem li (a : XReg) (imm : BitVec 16) : Statement (.li a imm) :=
  field_formatI_opcode (by decide) (by omega) (by decide) (by omega)
theorem lih (a : XReg) (imm : BitVec 16) : Statement (.lih a imm) :=
  field_formatI_opcode (by decide) (by omega) (by decide) (by omega)
theorem addi (a : XReg) (b : XReg) (imm : BitVec 16) : Statement (.addi a b imm) :=
  field_formatI_opcode (by decide) (by omega) (by omega) (by omega)
theorem add (a : XReg) (b : XReg) (c : XReg) : Statement (.add a b c) :=
  of_formatR (by decide) (by omega) (by omega) (by omega) (by decide) (by decide)
theorem sub (a : XReg) (b : XReg) (c : XReg) : Statement (.sub a b c) :=
  of_formatR (by decide) (by omega) (by omega) (by omega) (by decide) (by decide)
theorem and (a : XReg) (b : XReg) (c : XReg) : Statement (.and a b c) :=
  of_formatR (by decide) (by omega) (by omega) (by omega) (by decide) (by decide)
theorem or (a : XReg) (b : XReg) (c : XReg) : Statement (.or a b c) :=
  of_formatR (by decide) (by omega) (by omega) (by omega) (by decide) (by decide)
theorem xor (a : XReg) (b : XReg) (c : XReg) : Statement (.xor a b c) :=
  of_formatR (by decide) (by omega) (by omega) (by omega) (by decide) (by decide)
theorem slli (a : XReg) (b : XReg) (sh : BitVec 5) : Statement (.slli a b sh) :=
  field_formatI_opcode (by decide) (by omega) (by omega) (by omega)
theorem srli (a : XReg) (b : XReg) (sh : BitVec 5) : Statement (.srli a b sh) :=
  field_formatI_opcode (by decide) (by omega) (by omega) (by omega)
theorem lb (a : XReg) (b : XReg) (imm : BitVec 16) : Statement (.lb a b imm) :=
  field_formatI_opcode (by decide) (by omega) (by omega) (by omega)
theorem sb (a : XReg) (b : XReg) (imm : BitVec 16) : Statement (.sb a b imm) :=
  field_formatI_opcode (by decide) (by omega) (by omega) (by omega)
theorem pld (a : PReg) (b : XReg) (c : XReg) : Statement (.pld a b c) :=
  of_formatR (by decide) (by omega) (by omega) (by omega) (by decide) (by decide)
theorem pst (a : PReg) (b : XReg) : Statement (.pst a b) :=
  of_formatR (by decide) (by omega) (by omega) (by decide) (by decide) (by decide)
theorem plen (a : XReg) (b : PReg) : Statement (.plen a b) :=
  of_formatR (by decide) (by omega) (by omega) (by decide) (by decide) (by decide)
theorem pmov (a : PReg) (b : PReg) : Statement (.pmov a b) :=
  of_formatR (by decide) (by omega) (by omega) (by decide) (by decide) (by decide)
theorem gfadd (a : XReg) (b : XReg) (c : XReg) : Statement (.gfadd a b c) :=
  of_formatR (by decide) (by omega) (by omega) (by omega) (by decide) (by decide)
theorem gfmul (a : XReg) (b : XReg) (c : XReg) : Statement (.gfmul a b c) :=
  of_formatR (by decide) (by omega) (by omega) (by omega) (by decide) (by decide)
theorem gfinv (a : XReg) (b : XReg) : Statement (.gfinv a b) :=
  of_formatR (by decide) (by omega) (by omega) (by decide) (by decide) (by decide)
theorem gfexp (a : XReg) (b : XReg) : Statement (.gfexp a b) :=
  of_formatR (by decide) (by omega) (by omega) (by decide) (by decide) (by decide)
theorem gflog (a : XReg) (b : XReg) : Statement (.gflog a b) :=
  of_formatR (by decide) (by omega) (by omega) (by decide) (by decide) (by decide)
theorem pnorm (a : PReg) (b : PReg) : Statement (.pnorm a b) :=
  of_formatR (by decide) (by omega) (by omega) (by decide) (by decide) (by decide)
theorem pdeg (a : XReg) (b : PReg) : Statement (.pdeg a b) :=
  of_formatR (by decide) (by omega) (by omega) (by decide) (by decide) (by decide)
theorem pcoef (a : XReg) (b : PReg) (c : XReg) : Statement (.pcoef a b c) :=
  of_formatR (by decide) (by omega) (by omega) (by omega) (by decide) (by decide)
theorem peval (a : XReg) (b : PReg) (c : XReg) : Statement (.peval a b c) :=
  of_formatR (by decide) (by omega) (by omega) (by omega) (by decide) (by decide)
theorem pmul (a : PReg) (b : PReg) (c : PReg) : Statement (.pmul a b c) :=
  of_formatR (by decide) (by omega) (by omega) (by omega) (by decide) (by decide)
theorem pmulm (a : PReg) (b : PReg) (c : XReg) (d : XReg) : Statement (.pmulm a b c d) :=
  of_formatR (by decide) (by omega) (by omega) (by omega) (by omega) (by decide)
theorem padd (a : PReg) (b : PReg) (c : PReg) : Statement (.padd a b c) :=
  of_formatR (by decide) (by omega) (by omega) (by omega) (by decide) (by decide)
theorem pmod (a : PReg) (b : PReg) (c : PReg) : Statement (.pmod a b c) :=
  of_formatR (by decide) (by omega) (by omega) (by omega) (by decide) (by decide)
theorem pmono (a : PReg) (b : XReg) (c : XReg) : Statement (.pmono a b c) :=
  of_formatR (by decide) (by omega) (by omega) (by omega) (by decide) (by decide)
theorem rsgen (a : PReg) (b : XReg) : Statement (.rsgen a b) :=
  of_formatR (by decide) (by omega) (by omega) (by decide) (by decide) (by decide)
theorem rsenc (a : PReg) (b : PReg) (c : XReg) : Statement (.rsenc a b c) :=
  of_formatR (by decide) (by omega) (by omega) (by omega) (by decide) (by decide)
theorem rssyn (a : XReg) (b : PReg) (c : PReg) (d : XReg) : Statement (.rssyn a b c d) :=
  of_formatR (by decide) (by omega) (by omega) (by omega) (by omega) (by decide)
theorem rseuc (a : XReg) (b : PReg) (c : PReg) (d : PReg) (e : XReg) : Statement (.rseuc a b c d e) :=
  of_formatR (by decide) (by omega) (by omega) (by omega) (by omega) (by omega)
theorem rschn (a : XReg) (b : PReg) (c : PReg) : Statement (.rschn a b c) :=
  of_formatR (by decide) (by omega) (by omega) (by omega) (by decide) (by decide)
theorem rsfrn (a : PReg) (b : PReg) (c : PReg) : Statement (.rsfrn a b c) :=
  of_formatR (by decide) (by omega) (by omega) (by omega) (by decide) (by decide)
theorem rscor (a : XReg) (b : PReg) (c : PReg) (d : PReg) (e : PReg) : Statement (.rscor a b c d e) :=
  of_formatR (by decide) (by omega) (by omega) (by omega) (by omega) (by omega)
theorem rsdec (a : XReg) (b : XReg) (c : PReg) (d : PReg) (e : XReg) : Statement (.rsdec a b c d e) :=
  of_formatR (by decide) (by omega) (by omega) (by omega) (by omega) (by omega)
theorem bput (a : XReg) (b : XReg) : Statement (.bput a b) :=
  of_formatR (by decide) (by omega) (by omega) (by decide) (by decide) (by decide)
theorem blen (a : XReg) : Statement (.blen a) :=
  of_formatR (by decide) (by omega) (by decide) (by decide) (by decide) (by decide)
theorem bpad (a : XReg) : Statement (.bpad a) :=
  of_formatR (by decide) (by omega) (by decide) (by decide) (by decide) (by decide)
theorem bread (a : XReg) (b : XReg) : Statement (.bread a b) :=
  of_formatR (by decide) (by omega) (by omega) (by decide) (by decide) (by decide)
theorem bavl (a : XReg) : Statement (.bavl a) :=
  of_formatR (by decide) (by omega) (by decide) (by decide) (by decide) (by decide)
theorem cwenc (a : XReg) (b : XReg) : Statement (.cwenc a b) :=
  of_formatR (by decide) (by omega) (by omega) (by decide) (by decide) (by decide)
theorem bchf (a : XReg) (b : XReg) : Statement (.bchf a b) :=
  of_formatR (by decide) (by omega) (by omega) (by decide) (by decide) (by decide)
theorem bchv (a : XReg) (b : XReg) : Statement (.bchv a b) :=
  of_formatR (by decide) (by omega) (by omega) (by decide) (by decide) (by decide)
theorem mxclr : Statement .mxclr :=
  of_formatR (by decide) (by decide) (by decide) (by decide) (by decide) (by decide)
theorem mxfnd : Statement .mxfnd :=
  of_formatR (by decide) (by decide) (by decide) (by decide) (by decide) (by decide)
theorem mxaln : Statement .mxaln :=
  of_formatR (by decide) (by decide) (by decide) (by decide) (by decide) (by decide)
theorem mxtim : Statement .mxtim :=
  of_formatR (by decide) (by decide) (by decide) (by decide) (by decide) (by decide)
theorem mxfmt (t : Bool) : Statement (.mxfmt t) :=
  of_formatR (by decide) (by cases t <;> decide) (by decide) (by decide) (by decide) (by decide)
theorem mxver (t : Bool) : Statement (.mxver t) :=
  of_formatR (by decide) (by cases t <;> decide) (by decide) (by decide) (by decide) (by decide)
theorem mxdat (a : XReg) (b : XReg) : Statement (.mxdat a b) :=
  of_formatR (by decide) (by omega) (by omega) (by decide) (by decide) (by decide)
theorem mxpen (a : XReg) : Statement (.mxpen a) :=
  of_formatR (by decide) (by omega) (by decide) (by decide) (by decide) (by decide)
theorem mxbld (a : XReg) (b : XReg) (c : XReg) (d : XReg) : Statement (.mxbld a b c d) :=
  of_formatR (by decide) (by omega) (by omega) (by omega) (by omega) (by decide)
theorem mxget (a : XReg) (b : XReg) (c : XReg) : Statement (.mxget a b c) :=
  of_formatR (by decide) (by omega) (by omega) (by omega) (by decide) (by decide)
theorem mxmsk (a : XReg) (b : XReg) (c : XReg) (d : XReg) : Statement (.mxmsk a b c d) :=
  of_formatR (by decide) (by omega) (by omega) (by omega) (by omega) (by decide)
theorem mxout (a : XReg) : Statement (.mxout a) :=
  of_formatR (by decide) (by omega) (by decide) (by decide) (by decide) (by decide)

end Sys2Proof.Laws.OpcodeByte
end

