-- ==== Sys2Proof/Laws/Reset.lean ====
section
/-! SUPPORT. What abandoning a command and the two resets do, field by field and location by location
(70_reset_and_hazards R380, R381). -/

namespace Sys2Proof.Machine

variable (s : State)

/-- Only the targets of a command that may write can be written. -/
theorem couldWriteByte_iff (i : Instr) (a : Nat) :
    couldWriteByte i s a = true ↔
      (dmTarget i s).1 ≤ a ∧ a < (dmTarget i s).1 + (dmTarget i s).2 ∧
        (dmTarget i s).1 + (dmTarget i s).2 ≤ Config.dmBytes ∧ mayWrite i s = true := by
  simp [couldWriteByte, and_assoc]

theorem couldWriteCell_iff (i : Instr) (k : Nat) :
    couldWriteCell i s k = true ↔ mmTarget i s k = true ∧ mayWrite i s = true := by
  simp [couldWriteCell]

/-- A command that ends the run, by a fault or by HALT, may write nothing. -/
theorem mayWrite_of_next {i : Instr} {t : State} (h : exec i s = .next t) : mayWrite i s = t.status.run := by
  simp [mayWrite, h]

/-- Abandoning a command forgets locations of DM and of MM and does nothing else: those the fetched command could write,
none where the fetch faults, those some command could write where the word at pc is unwritten. -/
theorem State.abandonCommand_cases :
    (∃ i, fetch s = .ok i ∧ s.abandonCommand = { s with
      dm := Memory.forgetWhere s.dm (couldWriteByte i s), mm := Memory.forgetWhere s.mm (couldWriteCell i s) }) ∨
    (∃ c n, fetch s = .error (.raises c n) ∧ s.abandonCommand = s) ∨
    ∃ f, fetch s = .error (.sticks f) ∧ s.abandonCommand = { s with
      dm := Memory.forgetWhere s.dm (someCouldWriteByte s)
      mm := Memory.forgetWhere s.mm (couldWriteCell .mxclr s) } := by
  unfold State.abandonCommand
  match fetch s with
  | .ok i => exact .inl ⟨i, rfl, rfl⟩
  | .error (.raises c n) => exact .inr (.inl ⟨c, n, rfl, rfl⟩)
  | .error (.sticks f) => exact .inr (.inr ⟨f, rfl, rfl⟩)

/-- Abandoning a command never touches CM. -/
@[simp] theorem State.abandonCommand_cm : s.abandonCommand.cm = s.cm := by
  obtain ⟨i, -, h⟩ | ⟨c, n, -, h⟩ | ⟨f, -, h⟩ := s.abandonCommand_cases <;> rw [h]

theorem State.softReset_idle (h : s.status.run = false) :
    s.softReset = { State.reset with cm := s.cm, dm := s.dm, mm := s.mm } := by
  simp [State.softReset, h]

theorem State.softReset_running (h : s.status.run = true) :
    s.softReset = { State.reset with cm := s.cm, dm := s.abandonCommand.dm, mm := s.abandonCommand.mm } := by
  simp [State.softReset, h]

theorem State.hardReset_idle (h : s.status.run = false) : s.hardReset = State.reset := by
  simp [State.hardReset, h]

theorem State.hardReset_running (h : s.status.run = true) : s.hardReset = { State.reset with cm := s.cm } := by
  simp [State.hardReset, h]

end Sys2Proof.Machine
end

