-- ==== Sys2Proof/Laws/State.lean ====
section
/-! SUPPORT. One lemma per field per update of the state, so that no proof unfolds a record update, and the reads of
registers after the writes of registers. -/

namespace Sys2Proof.Machine

variable (s : State)

/-! ### setX -/

@[simp] theorem State.setX_x (i : XReg) (v : Word) : (s.setX i v).x = s.x.set i.val v := rfl
@[simp] theorem State.setX_p (i : XReg) (v : Word) : (s.setX i v).p = s.p := rfl
@[simp] theorem State.setX_pc (i : XReg) (v : Word) : (s.setX i v).pc = s.pc := rfl
@[simp] theorem State.setX_status (i : XReg) (v : Word) : (s.setX i v).status = s.status := rfl
@[simp] theorem State.setX_ie (i : XReg) (v : Word) : (s.setX i v).ie = s.ie := rfl
@[simp] theorem State.setX_cause (i : XReg) (v : Word) : (s.setX i v).cause = s.cause := rfl
@[simp] theorem State.setX_epc (i : XReg) (v : Word) : (s.setX i v).epc = s.epc := rfl
@[simp] theorem State.setX_tval (i : XReg) (v : Word) : (s.setX i v).tval = s.tval := rfl
@[simp] theorem State.setX_csr (i : XReg) (v : Word) : (s.setX i v).csr = s.csr := rfl
@[simp] theorem State.setX_stopReq (i : XReg) (v : Word) : (s.setX i v).stopReq = s.stopReq := rfl
@[simp] theorem State.setX_cm (i : XReg) (v : Word) : (s.setX i v).cm = s.cm := rfl
@[simp] theorem State.setX_dm (i : XReg) (v : Word) : (s.setX i v).dm = s.dm := rfl
@[simp] theorem State.setX_mm (i : XReg) (v : Word) : (s.setX i v).mm = s.mm := rfl

/-! ### setP -/

@[simp] theorem State.setP_x (i : PReg) (v : List Byte) : (s.setP i v).x = s.x := rfl
@[simp] theorem State.setP_p (i : PReg) (v : List Byte) : (s.setP i v).p = s.p.set i.val v := rfl
@[simp] theorem State.setP_pc (i : PReg) (v : List Byte) : (s.setP i v).pc = s.pc := rfl
@[simp] theorem State.setP_status (i : PReg) (v : List Byte) : (s.setP i v).status = s.status := rfl
@[simp] theorem State.setP_ie (i : PReg) (v : List Byte) : (s.setP i v).ie = s.ie := rfl
@[simp] theorem State.setP_cause (i : PReg) (v : List Byte) : (s.setP i v).cause = s.cause := rfl
@[simp] theorem State.setP_epc (i : PReg) (v : List Byte) : (s.setP i v).epc = s.epc := rfl
@[simp] theorem State.setP_tval (i : PReg) (v : List Byte) : (s.setP i v).tval = s.tval := rfl
@[simp] theorem State.setP_csr (i : PReg) (v : List Byte) : (s.setP i v).csr = s.csr := rfl
@[simp] theorem State.setP_stopReq (i : PReg) (v : List Byte) : (s.setP i v).stopReq = s.stopReq := rfl
@[simp] theorem State.setP_cm (i : PReg) (v : List Byte) : (s.setP i v).cm = s.cm := rfl
@[simp] theorem State.setP_dm (i : PReg) (v : List Byte) : (s.setP i v).dm = s.dm := rfl
@[simp] theorem State.setP_mm (i : PReg) (v : List Byte) : (s.setP i v).mm = s.mm := rfl

/-! ### advance -/

@[simp] theorem State.advance_x : (s.advance).x = s.x := rfl
@[simp] theorem State.advance_p : (s.advance).p = s.p := rfl
@[simp] theorem State.advance_pc : (s.advance).pc = s.pc + 1 := rfl
@[simp] theorem State.advance_status : (s.advance).status = s.status := rfl
@[simp] theorem State.advance_ie : (s.advance).ie = s.ie := rfl
@[simp] theorem State.advance_cause : (s.advance).cause = s.cause := rfl
@[simp] theorem State.advance_epc : (s.advance).epc = s.epc := rfl
@[simp] theorem State.advance_tval : (s.advance).tval = s.tval := rfl
@[simp] theorem State.advance_csr : (s.advance).csr = s.csr := rfl
@[simp] theorem State.advance_stopReq : (s.advance).stopReq = s.stopReq := rfl
@[simp] theorem State.advance_cm : (s.advance).cm = s.cm := rfl
@[simp] theorem State.advance_dm : (s.advance).dm = s.dm := rfl
@[simp] theorem State.advance_mm : (s.advance).mm = s.mm := rfl

/-! ### jump -/

@[simp] theorem State.jump_x (t : BitVec 10) : (s.jump t).x = s.x := rfl
@[simp] theorem State.jump_p (t : BitVec 10) : (s.jump t).p = s.p := rfl
@[simp] theorem State.jump_pc (t : BitVec 10) : (s.jump t).pc = t.setWidth 32 := rfl
@[simp] theorem State.jump_status (t : BitVec 10) : (s.jump t).status = s.status := rfl
@[simp] theorem State.jump_ie (t : BitVec 10) : (s.jump t).ie = s.ie := rfl
@[simp] theorem State.jump_cause (t : BitVec 10) : (s.jump t).cause = s.cause := rfl
@[simp] theorem State.jump_epc (t : BitVec 10) : (s.jump t).epc = s.epc := rfl
@[simp] theorem State.jump_tval (t : BitVec 10) : (s.jump t).tval = s.tval := rfl
@[simp] theorem State.jump_csr (t : BitVec 10) : (s.jump t).csr = s.csr := rfl
@[simp] theorem State.jump_stopReq (t : BitVec 10) : (s.jump t).stopReq = s.stopReq := rfl
@[simp] theorem State.jump_cm (t : BitVec 10) : (s.jump t).cm = s.cm := rfl
@[simp] theorem State.jump_dm (t : BitVec 10) : (s.jump t).dm = s.dm := rfl
@[simp] theorem State.jump_mm (t : BitVec 10) : (s.jump t).mm = s.mm := rfl

/-! ### csrWrite -/

@[simp] theorem State.csrWrite_x (c : Csr) (v : Word) : (s.csrWrite c v).x = s.x := rfl
@[simp] theorem State.csrWrite_p (c : Csr) (v : Word) : (s.csrWrite c v).p = s.p := rfl
@[simp] theorem State.csrWrite_pc (c : Csr) (v : Word) : (s.csrWrite c v).pc = s.pc := rfl
@[simp] theorem State.csrWrite_status (c : Csr) (v : Word) : (s.csrWrite c v).status = s.status := rfl
@[simp] theorem State.csrWrite_ie (c : Csr) (v : Word) : (s.csrWrite c v).ie = s.ie := rfl
@[simp] theorem State.csrWrite_cause (c : Csr) (v : Word) : (s.csrWrite c v).cause = s.cause := rfl
@[simp] theorem State.csrWrite_epc (c : Csr) (v : Word) : (s.csrWrite c v).epc = s.epc := rfl
@[simp] theorem State.csrWrite_tval (c : Csr) (v : Word) : (s.csrWrite c v).tval = s.tval := rfl
@[simp] theorem State.csrWrite_csr (c : Csr) (v : Word) : (s.csrWrite c v).csr = s.csr.write c v := rfl
@[simp] theorem State.csrWrite_stopReq (c : Csr) (v : Word) : (s.csrWrite c v).stopReq = s.stopReq := rfl
@[simp] theorem State.csrWrite_cm (c : Csr) (v : Word) : (s.csrWrite c v).cm = s.cm := rfl
@[simp] theorem State.csrWrite_dm (c : Csr) (v : Word) : (s.csrWrite c v).dm = s.dm := rfl
@[simp] theorem State.csrWrite_mm (c : Csr) (v : Word) : (s.csrWrite c v).mm = s.mm := rfl

/-! ### enterFault -/

@[simp] theorem State.enterFault_x (c : Cause) (n : Nat) : (s.enterFault c n).x = s.x := rfl
@[simp] theorem State.enterFault_p (c : Cause) (n : Nat) : (s.enterFault c n).p = s.p := rfl
@[simp] theorem State.enterFault_pc (c : Cause) (n : Nat) : (s.enterFault c n).pc = s.pc := rfl
@[simp] theorem State.enterFault_status (c : Cause) (n : Nat) : (s.enterFault c n).status = { s.status with fault := true, run := false } := rfl
@[simp] theorem State.enterFault_ie (c : Cause) (n : Nat) : (s.enterFault c n).ie = s.ie := rfl
@[simp] theorem State.enterFault_cause (c : Cause) (n : Nat) : (s.enterFault c n).cause = c.code := rfl
@[simp] theorem State.enterFault_epc (c : Cause) (n : Nat) : (s.enterFault c n).epc = s.pc := rfl
@[simp] theorem State.enterFault_tval (c : Cause) (n : Nat) : (s.enterFault c n).tval = BitVec.ofNat 32 n := rfl
@[simp] theorem State.enterFault_csr (c : Cause) (n : Nat) : (s.enterFault c n).csr = s.csr := rfl
@[simp] theorem State.enterFault_stopReq (c : Cause) (n : Nat) : (s.enterFault c n).stopReq = s.stopReq := rfl
@[simp] theorem State.enterFault_cm (c : Cause) (n : Nat) : (s.enterFault c n).cm = s.cm := rfl
@[simp] theorem State.enterFault_dm (c : Cause) (n : Nat) : (s.enterFault c n).dm = s.dm := rfl
@[simp] theorem State.enterFault_mm (c : Cause) (n : Nat) : (s.enterFault c n).mm = s.mm := rfl

/-! ### honourStop -/

@[simp] theorem State.honourStop_x : (s.honourStop).x = s.x := rfl
@[simp] theorem State.honourStop_p : (s.honourStop).p = s.p := rfl
@[simp] theorem State.honourStop_pc : (s.honourStop).pc = s.pc := rfl
@[simp] theorem State.honourStop_status : (s.honourStop).status = { s.status with stopped := true, run := false } := rfl
@[simp] theorem State.honourStop_ie : (s.honourStop).ie = s.ie := rfl
@[simp] theorem State.honourStop_cause : (s.honourStop).cause = s.cause := rfl
@[simp] theorem State.honourStop_epc : (s.honourStop).epc = s.epc := rfl
@[simp] theorem State.honourStop_tval : (s.honourStop).tval = s.tval := rfl
@[simp] theorem State.honourStop_csr : (s.honourStop).csr = s.csr := rfl
@[simp] theorem State.honourStop_stopReq : (s.honourStop).stopReq = false := rfl
@[simp] theorem State.honourStop_cm : (s.honourStop).cm = s.cm := rfl
@[simp] theorem State.honourStop_dm : (s.honourStop).dm = s.dm := rfl
@[simp] theorem State.honourStop_mm : (s.honourStop).mm = s.mm := rfl

/-! ### Registers -/

@[simp] theorem State.getX_setX_same (i : XReg) (v : Word) : (s.setX i v).getX i = v := by
  simp [State.getX, State.setX]

theorem State.getX_setX_ne {i j : XReg} (v : Word) (h : i ≠ j) : (s.setX i v).getX j = s.getX j := by
  have hij : i.val ≠ j.val := fun e => h (Fin.ext e)
  simp [State.getX, State.setX, hij]

@[simp] theorem State.getP_setP_same (i : PReg) (v : List Byte) : (s.setP i v).getP i = v := by
  simp [State.getP, State.setP]

theorem State.getP_setP_ne {i j : PReg} (v : List Byte) (h : i ≠ j) : (s.setP i v).getP j = s.getP j := by
  have hij : i.val ≠ j.val := fun e => h (Fin.ext e)
  simp [State.getP, State.setP, hij]

@[simp] theorem State.getX_setP (i : PReg) (v : List Byte) (j : XReg) : (s.setP i v).getX j = s.getX j := rfl
@[simp] theorem State.getP_setX (i : XReg) (v : Word) (j : PReg) : (s.setX i v).getP j = s.getP j := rfl
@[simp] theorem State.getX_advance (j : XReg) : s.advance.getX j = s.getX j := rfl
@[simp] theorem State.getP_advance (j : PReg) : s.advance.getP j = s.getP j := rfl
@[simp] theorem State.getX_jump (t : BitVec 10) (j : XReg) : (s.jump t).getX j = s.getX j := rfl
@[simp] theorem State.getP_jump (t : BitVec 10) (j : PReg) : (s.jump t).getP j = s.getP j := rfl
@[simp] theorem State.getX_csrWrite (c : Csr) (v : Word) (j : XReg) : (s.csrWrite c v).getX j = s.getX j := rfl
@[simp] theorem State.getP_csrWrite (c : Csr) (v : Word) (j : PReg) : (s.csrWrite c v).getP j = s.getP j := rfl
@[simp] theorem State.getX_enterFault (c : Cause) (n : Nat) (j : XReg) : (s.enterFault c n).getX j = s.getX j := rfl
@[simp] theorem State.getP_enterFault (c : Cause) (n : Nat) (j : PReg) : (s.enterFault c n).getP j = s.getP j := rfl

/-! ### A step's last line -/

theorem State.settle_cases : s.settle = s ∨ (s.status.run = false ∧ s.settle = { s with stopReq := false }) := by
  unfold State.settle
  split
  · exact .inl rfl
  · next h => exact .inr ⟨by simpa using h, rfl⟩

/-- Without a stop request, settling changes nothing. -/
theorem State.settle_of_no_request (h : s.stopReq = false) : s.settle = s := by
  unfold State.settle
  split
  · rfl
  · cases s
    simp_all

theorem State.branch_cases (b : Bool) (t : BitVec 10) :
    s.branch b t = s.jump t ∨ s.branch b t = s.advance := by
  cases b
  · exact .inr rfl
  · exact .inl rfl

end Sys2Proof.Machine
end

