-- ==== Sys2Proof/Tests/Slice0.lean ====
section
/-! SUPPORT. The model's own tests: ill-formed commands, the words the spec writes out, the worked examples of the rules
(expected values are the spec's), and for every statement with hypotheses a witness that meets them. -/

namespace Sys2Proof.Tests

open Sys2Proof.Machine Sys2Proof.Claims

/-! ## WellFormed refuses (30_encoding R92, R93; 10_state R32) -/

theorem test_wf_csrr_ctrl : (Instr.csrr 1 .ctrl).wf = false := by decide
theorem test_wf_csrw_status : (Instr.csrw .status 1).wf = false := by decide
theorem test_wf_rseuc_same : (Instr.rseuc 1 3 3 2 2).wf = false := by decide
theorem test_wf_rsdec_same : (Instr.rsdec 8 8 3 2 3).wf = false := by decide
theorem test_wf_mxbld_same : (Instr.mxbld 1 1 3 4).wf = false := by decide

/-! ## The words of the rules, every constructor -/

theorem test_decode_control :
    decode 0x01000000 = .ok .nop ∧ decode 0x02000000 = .ok .halt ∧ decode 0x03000010 = .ok (.jmp 16) ∧
    decode 0x04300007 = .ok (.bz 3 7) ∧ decode 0x05300007 = .ok (.bnz 3 7) ∧ decode 0x06120002 = .ok (.bltu 1 2 2) ∧
    decode 0x08200010 = .ok (.csrr 2 .version) ∧ decode 0x09100011 = .ok (.csrw .ecl 1) :=
  ⟨rfl, rfl, rfl, rfl, rfl, rfl, rfl, rfl⟩

theorem test_decode_scalar :
    decode 0x10101234 = .ok (.li 1 0x1234) ∧ decode 0x1110ABCD = .ok (.lih 1 0xABCD) ∧
    decode 0x1222FFFF = .ok (.addi 2 2 0xFFFF) ∧ decode 0x13312000 = .ok (.add 3 1 2) ∧
    decode 0x14312000 = .ok (.sub 3 1 2) ∧ decode 0x15312000 = .ok (.and 3 1 2) ∧ decode 0x16312000 = .ok (.or 3 1 2) ∧
    decode 0x17312000 = .ok (.xor 3 1 2) ∧ decode 0x18210001 = .ok (.slli 2 1 1) ∧
    decode 0x1921001F = .ok (.srli 2 1 31) :=
  ⟨rfl, rfl, rfl, rfl, rfl, rfl, rfl, rfl, rfl, rfl⟩

theorem test_decode_loadstore :
    decode 0x20210000 = .ok (.lb 2 1 0) ∧ decode 0x21210004 = .ok (.sb 2 1 4) ∧ decode 0x22012000 = .ok (.pld 0 1 2) ∧
    decode 0x23010000 = .ok (.pst 0 1) ∧ decode 0x24100000 = .ok (.plen 1 0) ∧ decode 0x25210000 = .ok (.pmov 2 1) :=
  ⟨rfl, rfl, rfl, rfl, rfl, rfl⟩

theorem test_decode_gf :
    decode 0x30312000 = .ok (.gfadd 3 1 2) ∧ decode 0x31312000 = .ok (.gfmul 3 1 2) ∧
    decode 0x32210000 = .ok (.gfinv 2 1) ∧ decode 0x33210000 = .ok (.gfexp 2 1) ∧ decode 0x34210000 = .ok (.gflog 2 1) :=
  ⟨rfl, rfl, rfl, rfl, rfl⟩

theorem test_decode_polynomial :
    decode 0x40010000 = .ok (.pnorm 0 1) ∧ decode 0x41110000 = .ok (.pdeg 1 1) ∧
    decode 0x42112000 = .ok (.pcoef 1 1 2) ∧ decode 0x43112000 = .ok (.peval 1 1 2) ∧
    decode 0x44012000 = .ok (.pmul 0 1 2) ∧ decode 0x45012300 = .ok (.pmulm 0 1 2 3) ∧
    decode 0x46012000 = .ok (.padd 0 1 2) ∧ decode 0x47012000 = .ok (.pmod 0 1 2) ∧
    decode 0x48012000 = .ok (.pmono 0 1 2) :=
  ⟨rfl, rfl, rfl, rfl, rfl, rfl, rfl, rfl, rfl⟩

theorem test_decode_reed_solomon :
    decode 0x50010000 = .ok (.rsgen 0 1) ∧ decode 0x51012000 = .ok (.rsenc 0 1 2) ∧
    decode 0x52121200 = .ok (.rssyn 1 2 1 2) ∧ decode 0x53134220 = .ok (.rseuc 1 3 4 2 2) ∧
    decode 0x54153000 = .ok (.rschn 1 5 3) ∧ decode 0x55645000 = .ok (.rsfrn 6 4 5) ∧
    decode 0x56101560 = .ok (.rscor 1 0 1 5 6) ∧ decode 0x57130120 = .ok (.rsdec 1 3 0 1 2) :=
  ⟨rfl, rfl, rfl, rfl, rfl, rfl, rfl, rfl⟩

theorem test_decode_bitstream_codeword :
    decode 0x60120000 = .ok (.bput 1 2) ∧ decode 0x61300000 = .ok (.blen 3) ∧ decode 0x62100000 = .ok (.bpad 1) ∧
    decode 0x63120000 = .ok (.bread 1 2) ∧ decode 0x64300000 = .ok (.bavl 3) ∧ decode 0x68120000 = .ok (.cwenc 1 2) ∧
    decode 0x70210000 = .ok (.bchf 2 1) ∧ decode 0x71210000 = .ok (.bchv 2 1) :=
  ⟨rfl, rfl, rfl, rfl, rfl, rfl, rfl, rfl⟩

/-- MXDAT x3, x4: op 0x86, a = 3, b = 4, written out from 48_matrix R323. -/
theorem test_decode_matrix :
    decode 0x80000000 = .ok .mxclr ∧ decode 0x81000000 = .ok .mxfnd ∧ decode 0x82000000 = .ok .mxaln ∧
    decode 0x83000000 = .ok .mxtim ∧ decode 0x84100000 = .ok (.mxfmt true) ∧ decode 0x85000000 = .ok (.mxver false) ∧
    decode 0x86340000 = .ok (.mxdat 3 4) ∧ decode 0x87100000 = .ok (.mxpen 1) ∧
    decode 0x88123400 = .ok (.mxbld 1 2 3 4) ∧ decode 0x89312000 = .ok (.mxget 3 1 2) ∧
    decode 0x8A012300 = .ok (.mxmsk 0 1 2 3) ∧ decode 0x8B100000 = .ok (.mxout 1) :=
  ⟨rfl, rfl, rfl, rfl, rfl, rfl, rfl, rfl, rfl, rfl, rfl, rfl⟩

/-- 95_test_vectors 2.1 e. -/
theorem test_illegal_words :
    decode 0x00000000 = .error .reservedOpcode ∧ decode 0xFFFFFFFF = .error .reservedOpcode ∧
    decode 0x07000000 = .error .reservedOpcode ∧ decode 0x01000001 = .error .reservedBits ∧
    decode 0x13312001 = .error .reservedBits ∧ decode 0x03100010 = .error .reservedBits ∧
    decode 0x04300407 = .error .badImmediate ∧ decode 0x18210020 = .error .badImmediate ∧
    decode 0x08200008 = .error .badImmediate ∧ decode 0x08200001 = .error .badImmediate ∧
    decode 0x09100004 = .error .badImmediate ∧ decode 0x09100040 = .error .badImmediate ∧
    decode 0x40810000 = .error .badRegister ∧ decode 0x53133220 = .error .badRegister ∧
    decode 0x57883230 = .error .badRegister ∧ decode 0x88113400 = .error .badRegister ∧
    decode 0x84200000 = .error .badImmediate ∧ decode 0x10110000 = .error .reservedBits :=
  ⟨rfl, rfl, rfl, rfl, rfl, rfl, rfl, rfl, rfl, rfl, rfl, rfl, rfl, rfl, rfl, rfl, rfl, rfl⟩

theorem test_decode_table_word :
    decodeTableWord 32 0x13312000 = some (.add 3 1 2) ∧ decodeTableWord 32 0 = none := by decide

/-! ## Small states -/

/-- A running engine with the given first x registers and p registers. -/
def st (xs : List Nat) (ps : List (List Byte)) : State :=
  let s : State := { State.reset with status := { run := true, done := false, fault := false, stopped := false } }
  let s := xs.zipIdx.foldl (fun s v => s.setX (Fin.ofNat 16 v.2) (BitVec.ofNat 32 v.1)) s
  ps.zipIdx.foldl (fun s f => s.setP (Fin.ofNat 8 f.2) f.1) s

/-- DM written from an address on. -/
def load (s : State) (a : Nat) (bytes : List Byte) : State := { s with dm := storeBytes s.dm a bytes }

/-- VERSION set. -/
def ver (s : State) (v : Nat) : State := { s with csr := { s.csr with version := BitVec.ofNat 6 v } }

/-- The x register a command leaves. -/
def xOf (i : Instr) (s : State) (r : XReg) : Option Nat := (nextOf (exec i s)).map fun t => (t.getX r).toNat

/-- The p register a command leaves. -/
def pOf (i : Instr) (s : State) (r : PReg) : Option (List Byte) := (nextOf (exec i s)).map fun t => t.getP r

/-- Bytes of DM a command leaves. -/
def dmOf (i : Instr) (s : State) (a n : Nat) : Option (List (Option Byte)) :=
  (nextOf (exec i s)).map fun t => (List.range n).map fun k => Memory.read t.dm (a + k)

/-- A cell a command leaves. -/
def mmOf (i : Instr) (s : State) (r c : Nat) : Option (Option ModuleCell) :=
  (nextOf (exec i s)).map fun t => Memory.read t.mm (cellKey r c)

/-- CAUSE and TVAL after a command. -/
def faultOf (i : Instr) (s : State) : Option (Nat × Nat) :=
  (nextOf (exec i s)).map fun t => (t.cause.toNat, t.tval.toNat)

/-! ## The worked examples of the rules -/

theorem test_nop : (nextOf (exec .nop { st [] [] with pc := 5 })).map (·.pc) = some 6 := by decide
theorem test_halt : (nextOf (exec .halt { st [] [] with pc := 9 })).map (fun t => (t.status.word, t.pc)) = some (2, 9) := by
  decide
theorem test_jmp : (nextOf (exec (.jmp 16) (st [] []))).map (·.pc) = some 16 := by decide
theorem test_bz : (nextOf (exec (.bz 3 7) (st [] []))).map (·.pc) = some 7 := by decide
theorem test_bnz : (nextOf (exec (.bnz 3 7) (st [0, 0, 0, 0x80000000] []))).map (·.pc) = some 7 := by decide
/-- 95_test_vectors 2.1 a: the compare is unsigned. -/
theorem test_bltu : (nextOf (exec (.bltu 1 2 9) (st [0, 0xFFFFFFFF, 0] []))).map (·.pc) = some 1 := by decide
theorem test_csrr_version : xOf (.csrr 2 .version) (ver (st [] []) 5) 2 = some 5 := by decide
/-- 95_test_vectors 2.1 c. -/
theorem test_csrr_status : xOf (.csrr 1 .status) (st [] []) 1 = some 1 := by decide
/-- 95_test_vectors 2.1 d. -/
theorem test_csrw_truncates :
    (nextOf (exec (.csrw .version 1) (st [0, 0x1C5] []))).map (fun t => t.csr.version) = some 5 := by decide
theorem test_li : xOf (.li 1 0x1234) (st [0, 0xFFFFFFFF] []) 1 = some 0x1234 := by decide
theorem test_lih : xOf (.lih 1 0xABCD) (st [0, 0x1234] []) 1 = some 0xABCD1234 := by decide
theorem test_addi_negative : xOf (.addi 2 2 0xFFFF) (st [0, 0, 10] []) 2 = some 9 := by decide
theorem test_add_wraps : xOf (.add 3 1 2) (st [0, 0xFFFFFFFF, 1] []) 3 = some 0 := by decide
theorem test_sub_borrows : xOf (.sub 3 1 2) (st [0, 7, 8] []) 3 = some 0xFFFFFFFF := by decide
theorem test_and : xOf (.and 3 1 2) (st [0, 0xF0F0, 0x0FF0] []) 3 = some 0x00F0 := by decide
theorem test_or : xOf (.or 3 1 2) (st [0, 0xF0F0, 0x0FF0] []) 3 = some 0xFFF0 := by decide
theorem test_xor : xOf (.xor 3 1 2) (st [0, 0xF0F0, 0x0FF0] []) 3 = some 0xFF00 := by decide
theorem test_slli : xOf (.slli 2 1 1) (st [0, 0x80000001] []) 2 = some 2 := by decide
theorem test_srli : xOf (.srli 2 1 31) (st [0, 0x80000001] []) 2 = some 1 := by decide
theorem test_lb : xOf (.lb 2 1 0xFFFF) (load (st [0, 16384] []) 16383 [0xEC]) 2 = some 0xEC := by decide
theorem test_lb_range : faultOf (.lb 2 1 0xFFFF) (st [] []) = some (6, 0xFFFFFFFF) := by decide
theorem test_sb : dmOf (.sb 2 1 4) (st [0, 0x100, 0x1EC] []) 0x104 1 = some [some 0xEC] := by decide
theorem test_pld : pOf (.pld 0 1 2) (load (st [0, 0x200, 4] []) 0x200 [0, 0, 0x12, 0x34]) 0 =
    some [0, 0, 0x12, 0x34] := by decide
theorem test_pld_range : faultOf (.pld 0 1 2) (st [0, 16383, 2] []) = some (6, 16384) := by decide
theorem test_pst : dmOf (.pst 0 1) (st [0, 0x300] [[0x12, 0x34]]) 0x2FF 4 =
    some [none, some 0x12, some 0x34, none] := by decide
theorem test_plen : xOf (.plen 1 0) (st [] [[0, 0, 5]]) 1 = some 3 := by decide
theorem test_pmov : pOf (.pmov 2 1) (st [] [[], [9, 8, 7]]) 2 = some [9, 8, 7] := by decide
theorem test_gfadd : xOf (.gfadd 3 1 2) (st [0, 0x53, 0xCA] []) 3 = some 0x99 := by decide
theorem test_gfmul : xOf (.gfmul 3 1 2) (st [0, 2, 128] []) 3 = some 29 := by decide
theorem test_gfmul_range : faultOf (.gfmul 3 1 2) (st [0, 2, 256] []) = some (3, 3) := by decide
theorem test_gfinv : xOf (.gfinv 2 1) (st [0, 2] []) 2 = some 142 := by decide
theorem test_gfinv_zero : faultOf (.gfinv 2 1) (st [] []) = some (3, 2) := by decide
theorem test_gfexp : xOf (.gfexp 2 1) (st [0, 0xFFFFFFFF] []) 2 = some 1 := by decide
theorem test_gflog : xOf (.gflog 2 1) (st [0, 29] []) 2 = some 8 := by decide
theorem test_gflog_zero : faultOf (.gflog 2 1) (st [] []) = some (3, 1) := by decide
theorem test_pnorm : pOf (.pnorm 0 1) (st [] [[], [0, 0, 0x12, 0x34]]) 0 = some [0x12, 0x34] := by decide
theorem test_pdeg : xOf (.pdeg 1 1) (st [] [[], [0, 1, 3, 2]]) 1 = some 2 := by decide
theorem test_pcoef : xOf (.pcoef 1 1 2) (st [0, 0, 1] [[], [1, 3, 2]]) 1 = some 3 := by decide
theorem test_peval : xOf (.peval 1 1 2) (st [0, 0, 3] [[], [1, 3, 2]]) 1 = some 2 := by decide
theorem test_pmul : pOf (.pmul 0 1 2) (st [] [[], [2, 0, 7], [3, 1]]) 0 = some [6, 2, 9, 7] := by decide
theorem test_pmulm : pOf (.pmulm 0 1 2 3) (st [0, 0, 2, 2] [[], [1, 3, 2]]) 0 = some [2, 6, 4, 0, 0] := by decide
theorem test_padd : pOf (.padd 0 1 2) (st [] [[], [5], [1, 0, 0]]) 0 = some [1, 0, 5] := by decide
theorem test_pmod : pOf (.pmod 0 1 2) (st [] [[], [0x12, 0x34, 0x56, 0, 0], [1, 3, 2]]) 0 = some [152, 232] := by decide
theorem test_pmono : pOf (.pmono 0 1 2) (st [0, 3, 1] []) 0 = some [1, 0, 0, 0] := by decide
theorem test_rsgen : pOf (.rsgen 0 1) (st [0, 4] []) 0 = some [1, 15, 54, 120, 64] := by decide
theorem test_rsenc : pOf (.rsenc 0 1 2) (st [0, 0, 4] [[], [0x12, 0x34, 0x56]]) 0 =
    some [0x12, 0x34, 0x56, 0x37, 0xE6, 0x78, 0xD9] := by decide
theorem test_rsenc_padded : pOf (.rsenc 0 1 2) (st [0, 0, 2] [[], [67, 76]]) 0 = some [67, 76, 0, 15] := by decide
theorem test_rssyn : (nextOf (exec (.rssyn 1 2 1 2) (st [0, 0, 4] [[], [0x12, 0xCB, 0x56, 0x37, 0xE6, 0x79, 0xD9]]))).map
    (fun t => (t.getX 1, t.getP 2)) = some (1, [166, 51, 148, 254]) := by decide
theorem test_rseuc : (nextOf (exec (.rseuc 1 3 4 2 2) (st [0, 9, 4] [[], [], [166, 51, 148, 254]]))).map
    (fun t => (t.getX 1, t.getP 3, t.getP 4)) = some (0, [64, 34, 1], [195, 254]) := by decide
theorem test_rseuc_status : xOf (.rseuc 1 3 4 2 2) (st [0, 9, 4] [[], [], [16, 223, 247, 147]]) 1 = some 2 := by decide
theorem test_rschn : (nextOf (exec (.rschn 1 5 3) (st [0, 9] [[], [], [], [64, 34, 1]]))).map
    (fun t => (t.getX 1, t.getP 5)) = some (0, [32, 2]) := by decide +kernel
theorem test_rschn_status : xOf (.rschn 1 5 3) (st [] [[], [], [], [43, 184, 1]]) 1 = some 1 := by decide +kernel
theorem test_rsfrn : pOf (.rsfrn 6 4 5) (st [] [[], [], [], [], [195, 254], [32, 2]]) 6 = some [255, 1] := by decide
theorem test_rscor : (nextOf (exec (.rscor 1 0 1 5 6) (st [0, 9] [[], [0x12, 0xCB, 0x56, 0x37, 0xE6, 0x79, 0xD9], [], [],
    [], [32, 2], [255, 1]]))).map (fun t => (t.getX 1, t.getP 0)) =
    some (0, [0x12, 0x34, 0x56, 0x37, 0xE6, 0x78, 0xD9]) := by decide
theorem test_rsdec : (nextOf (exec (.rsdec 1 3 0 1 2) (st [0, 9, 4] [[], [0x12, 0xCB, 0x56, 0x37, 0xE6, 0x79, 0xD9]]))).map
    (fun t => (t.getX 1, t.getX 3, t.getP 0)) = some (0, 2, [0x12, 0x34, 0x56, 0x37, 0xE6, 0x78, 0xD9]) := by
  decide +kernel
theorem test_rsdec_status : (nextOf (exec (.rsdec 1 3 0 1 2) (st [0, 9, 4, 9] [[7],
    [0x13, 0x34, 0x54, 0x37, 0xE5, 0x78, 0xD9]]))).map (fun t => (t.getX 1, t.getX 3, t.getP 0)) = some (4, 0, [7]) := by
  decide +kernel
/-- The two BPUT of 46_bitstream R263, the second on the buffer the first leaves. -/
theorem test_bput : dmOf (.bput 1 2) (let s := load (st [0, 11, 9] []) 0x100 [0x20]
    { s with csr := { s.csr with wbase := 0x100, wlen := 4 } }) 0x100 2 = some [some 0x20, some 0x58] := by decide
theorem test_blen : xOf (.blen 3) { st [] [] with csr := { ParamCsrs.reset with wlen := 13 } } 3 = some 13 := by decide
theorem test_bpad : dmOf (.bpad 1) (let s := load (st [0, 32] []) 0 [0xAB, 0xCD, 0xE0]
    { s with csr := { s.csr with wlen := 20 } }) 0 5 = some [some 0xAB, some 0xCD, some 0xE0, some 0xEC, none] := by decide
theorem test_bpad_overflow : faultOf (.bpad 1) { st [0, 16] [] with csr := { ParamCsrs.reset with wlen := 24 } } =
    some (5, 24) := by decide
theorem test_bread : (nextOf (exec (.bread 1 2) (let s := load (st [0, 0, 9] []) 0x100 [0x20, 0x58]
    { s with csr := { s.csr with rbase := 0x100, rpos := 4, rlim := 13 } }))).map
    (fun t => (t.getX 1, t.csr.rpos)) = some (11, 13) := by decide
theorem test_bread_end : faultOf (.bread 1 2) { st [0, 0, 1] [] with csr := { ParamCsrs.reset with rpos := 13, rlim := 13 } } =
    some (4, 1) := by decide
theorem test_bavl : xOf (.bavl 3) { st [] [] with csr := { ParamCsrs.reset with rpos := 4, rlim := 13 } } 3 = some 9 := by
  decide
/-- Example 3 of 47_codeword_bch R281. -/
theorem test_cwenc : dmOf (.cwenc 1 2) (let s := load (st [0, 0x200, 0x100] []) 0x100 [1, 2, 3, 4, 5, 6, 7]
    { s with csr := { s.csr with g1cnt := 1, g1tot := 5, g1dat := 3, g2cnt := 1, g2tot := 7, g2dat := 4 } }) 0x200 12 =
    some ([1, 4, 2, 5, 3, 6, 7, 4, 191, 4, 116, 203].map fun v => some (BitVec.ofNat 8 v)) := by decide +kernel
theorem test_cwenc_overlap : faultOf (.cwenc 1 2) { st [0, 2, 0] [] with
    csr := { ParamCsrs.reset with g1cnt := 1, g1tot := 5, g1dat := 3 } } = some (7, 2) := by decide
theorem test_bchf : xOf (.bchf 2 1) (st [0, 25] []) 2 = some 0x3068 := by decide
theorem test_bchv : xOf (.bchv 2 1) (st [0, 7] []) 2 = some 0x07C94 := by decide
/-- Clearing a 2 x 2 corner leaves its neighbour as it was (48_matrix R306). -/
theorem test_mxclr : clearMatrix 2 [(2, .dark), (178, .dark)] =
    [(0, .unset), (1, .unset), (2, .dark), (177, .unset), (178, .unset)] := by decide
theorem test_mxclr_version : faultOf .mxclr (ver (st [] []) 41) = some (7, 41) := by decide
/-- The cells 48_matrix R312 names, in one command. -/
theorem test_mxfnd : (nextOf (exec .mxfnd (ver (st [] []) 1))).map (fun t =>
      [(14, 0), (13, 0), (0, 13), (8, 8)].map fun (rc : Nat × Nat) => Memory.read t.mm (cellKey rc.1 rc.2)) =
    some [some .dark, some .light, some .light, none] := by decide +kernel

/-- Version 1 with every cell of the symbol UNSET. -/
def blank (v : Nat) (xs : List Nat) : State :=
  let s := ver (st xs []) v
  { s with mm := (cells (4 * v + 17)).map fun rc => (cellKey rc.1 rc.2, .unset) }

/-- Version 1 with every cell light but those whose row and column are both even. -/
def painted (xs : List Nat) : State :=
  let s := ver (st xs []) 1
  { s with mm := (cells 21).map fun rc => (cellKey rc.1 rc.2, shade (rc.1 % 2 == 0 && rc.2 % 2 == 0)) }

theorem test_mxaln : (nextOf (exec .mxaln (let s := blank 2 []
    { s with csr := { s.csr with alncnt := 1, aln := s.csr.aln.set 0 18 } }))).map (fun t =>
      [(16, 18), (17, 17), (18, 18), (15, 18)].map fun (rc : Nat × Nat) => Memory.read t.mm (cellKey rc.1 rc.2)) =
    some [some .dark, some .light, some .dark, some .unset] := by decide +kernel
theorem test_mxaln_centre : faultOf .mxaln { ver (st [] []) 2 with
    csr := { ParamCsrs.reset with version := 2, alncnt := 1, aln := ParamCsrs.reset.aln.set 0 23 } } = some (7, 23) := by
  decide
theorem test_mxtim : (nextOf (exec .mxtim (blank 1 []))).map (fun t =>
      [(6, 8), (9, 6), (6, 13)].map fun (rc : Nat × Nat) => Memory.read t.mm (cellKey rc.1 rc.2)) =
    some [some .dark, some .light, some .unset] := by decide +kernel
/-- The worked example of 48_matrix R318. -/
theorem test_mxfmt : mmOf (.mxfmt false) { st [] [] with csr := { ParamCsrs.reset with version := 1, ecl := 3, mask := 1 } }
    18 8 = some (some .dark) ∧
    mmOf (.mxfmt false) { st [] [] with csr := { ParamCsrs.reset with version := 1, ecl := 3, mask := 1 } } 0 8 =
    some (some .light) := by decide
theorem test_mxfmt_test_pass : mmOf (.mxfmt true) { st [] [] with csr := { ParamCsrs.reset with version := 1 } } 13 8 =
    some (some .light) := by decide
/-- The worked example of 48_matrix R319. -/
theorem test_mxver : mmOf (.mxver false) (ver (st [] []) 7) 0 36 = some (some .dark) ∧
    mmOf (.mxver false) (ver (st [] []) 7) 34 0 = some (some .light) := by decide
/-- The first cells of the path of version 1 (48_matrix R323), and its last: the tenth lane runs downward (R320). -/
theorem test_path : (path 21).take 4 = [(20, 20), (20, 19), (19, 20), (19, 19)] ∧
    (path 21).getLast? = some (20, 0) := by decide +kernel
/-- Those cells with byte 0x20 and mask 1, the second of them set before (48_matrix R322, R323). -/
theorem test_mxdat : placeFrom [0x20] 1 [(19 * 177 + 19, .unset), (19 * 177 + 20, .unset), (20 * 177 + 19, .light),
    (20 * 177 + 20, .unset)] 0 [(20, 20), (20, 19), (19, 20), (19, 19)] =
    .ok [(19 * 177 + 19, .dark), (19 * 177 + 20, .light), (20 * 177 + 19, .light), (20 * 177 + 20, .dark)] := by decide
theorem test_mxdat_range : faultOf (.mxdat 1 2) (ver (st [0, 16383, 2] []) 1) = some (6, 16384) := by decide
/-- Dark where row and column are even: N2 = N3 = 0, the 10 light rows and 10 light columns of 21 modules add 19 each, and
121 of 441 modules are dark, so N4 = 10 * ((22050 - 12100) div 2205) = 40 (by hand from R331 to R334). -/
theorem test_penalty : penalty 21 ((List.range 21).map fun r => (List.range 21).map fun c => r % 2 == 0 && c % 2 == 0) =
    20 * 19 + 40 := by decide +kernel
theorem test_mxpen_unset : faultOf (.mxpen 1) (blank 1 []) = some (8, 0) := by decide +kernel
theorem test_mxget : xOf (.mxget 3 1 2) (painted [0, 2, 4]) 3 = some 1 := by decide +kernel
theorem test_mxget_unset : faultOf (.mxget 3 1 2) (blank 1 [0, 0, 8]) = some (8, 8) := by decide +kernel
theorem test_mxmsk : xOf (.mxmsk 0 1 2 3) (st [9, 4, 3, 5] []) 0 = some 1 := by decide
/-- Nine bits, the last byte padded with zeros (48_matrix R338). -/
theorem test_mxout_packing : packBits 0 0 [true, false, true, false, true, false, true, false, true] = [0xAA, 0x80] := by decide
theorem test_mxout_unset : faultOf (.mxout 1) (blank 1 []) = some (8, 0) := by decide +kernel
theorem test_mxbld_range : faultOf (.mxbld 1 2 3 4) (ver (st [0, 0, 0, 16383, 2] []) 1) = some (6, 16384) := by decide

/-! ## Witnesses: for every statement with hypotheses, values that meet them, each clause at an end of its range -/

/-- A running engine with a word at its pc. -/
def fetching (w : Nat) : State := State.reset.withFetchWord 32 w

/-- A cell of a memory given cell by cell reads as given. -/
theorem read_map (f : Nat × Nat → ModuleCell) {l : List (Nat × Nat)} (hl : ∀ t ∈ l, t.2 < Config.mmDim) {r c : Nat}
    (hc : c < Config.mmDim) (h : (r, c) ∈ l) :
    Memory.read (l.map fun rc => (cellKey rc.1 rc.2, f rc)) (cellKey r c) = some (f (r, c)) := by
  induction l with
  | nil => cases h
  | cons t l ih =>
    simp only [List.map_cons, Memory.read]
    split
    · next hk =>
      have := cellKey_inj (hl t (by simp)) hc hk
      rw [show t = (r, c) from Prod.ext this.1 this.2]
    · next hk =>
      obtain rfl | h := List.mem_cons.mp h
      · exact absurd rfl hk
      · exact ih (fun u hu => hl u (by simp [hu])) h

theorem read_painted (xs : List Nat) {r c : Nat} (hr : r < 21) (hc : c < 21) :
    Memory.read (painted xs).mm (cellKey r c) = some (shade (r % 2 == 0 && c % 2 == 0)) :=
  read_map _ (fun t ht => by have := (cells_lt ht).2; simp only [Config.mmDim]; omega)
    (by simp only [Config.mmDim]; omega) (mem_cells hr hc)

theorem read_blank (xs : List Nat) {r c : Nat} (hr : r < 21) (hc : c < 21) :
    Memory.read (blank 1 xs).mm (cellKey r c) = some .unset :=
  read_map (fun _ => .unset) (fun t ht => by have := (cells_lt ht).2; simp only [Config.mmDim]; omega)
    (by simp only [Config.mmDim]; omega) (mem_cells hr hc)

/-- Registers set in order and the CSRs given. -/
def with_csr (s : State) (f : ParamCsrs) : State := { s with csr := f }

theorem inv_reset : State.reset.Inv :=
  ⟨by decide, by decide, by decide, by decide, by decide, by decide⟩

theorem inv_fetching_halt : (fetching 0x02000000).Inv :=
  ⟨by decide, by decide, by decide, by decide, by decide, by decide⟩

theorem witness_DecodeOfEncode : (Instr.rsdec 1 3 0 1 2).wf = true ∧ (Instr.csrw .rlim 15).wf = true := by decide

theorem witness_EncodeOfDecode : decode 0x57130120 = .ok (.rsdec 1 3 0 1 2) := rfl

/-! ### Steps -/

theorem test_step_runs_fetched_word :
    (nextOf (step (State.reset.withFetchWord 32 0x10101234))).map (fun t => (t.getX 1, t.pc)) = some (0x1234, 1) := by decide

/-- 95_test_vectors 2.1 b. -/
theorem test_step_pc_range : (nextOf (step { st [] [] with pc := 1024 })).map (fun t => (t.cause, t.epc, t.tval, t.status.word)) =
    some (2, 1024, 1024, 4) := by decide

theorem witness_IllegalWordsRefused_opcode : ∀ i : Instr, i.opcode ≠ field 0x07000000 24 8 := by
  have h : field 0x07000000 24 8 = 7 := by decide
  intro i
  rw [h]
  cases i <;> simp [Instr.opcode]

theorem witness_IllegalWordsRefused_csr :
    field 0x08200001 24 8 = 0x08 ∧ (∀ c, Csr.ofNumber (field 0x08200001 0 16) = some c → c = .ctrl) ∧
    field 0x09100007 24 8 = 0x09 ∧ (∀ c, Csr.ofNumber (field 0x09100007 0 16) = some c → c.number < 0x10) := by
  have h1 : Csr.ofNumber (field 0x08200001 0 16) = some .ctrl := by decide
  have h2 : Csr.ofNumber (field 0x09100007 0 16) = some .tval := by decide
  refine ⟨by decide, ?_, by decide, ?_⟩
  · intro c hc
    rw [h1] at hc
    exact (Option.some.inj hc).symm
  · intro c hc
    rw [h2] at hc
    rw [← Option.some.inj hc]
    decide

theorem witness_IllegalWordsRefused_fields :
    (field 0x18210020 24 8 = 0x18 ∧ 32 ≤ field 0x18210020 0 16) ∧
    (3 ≤ field 0x06120402 24 8 ∧ field 0x06120402 24 8 ≤ 6 ∧ field 0x06120402 10 6 ≠ 0) ∧
    (field 0x84200000 24 8 = 0x84 ∧ 1 < field 0x84200000 20 4) ∧
    (field 0x25800000 24 8 = 0x25 ∧ 8 ≤ field 0x25800000 20 4) ∧
    (field 0x53133220 24 8 = 0x53 ∧ field 0x53133220 16 4 = field 0x53133220 12 4) ∧
    (field 0x57110120 24 8 = 0x57 ∧ field 0x57110120 20 4 = field 0x57110120 16 4) := by decide

theorem witness_StepRunsDecodedCommand :
    (fetching 0x13312000).status.run = true ∧ (fetching 0x13312000).stopReq = false ∧
    (fetching 0x13312000).pc.toNat < 1024 ∧
    Memory.read (fetching 0x13312000).cm (fetching 0x13312000).pc.toNat = some 0x13312000 ∧
    decode 0x13312000 = .ok (.add 3 1 2) := ⟨by decide, by decide, by decide, by decide, rfl⟩

theorem witness_StepWithoutCommand_idle : State.reset.status.run = false := by decide

theorem witness_StepWithoutCommand_stop :
    { st [] [] with stopReq := true }.status.run = true ∧ { st [] [] with stopReq := true }.stopReq = true := by decide

theorem witness_StepWithoutCommand_range :
    { st [] [] with pc := 1024 }.status.run = true ∧ { st [] [] with pc := 1024 }.stopReq = false ∧
    1024 ≤ { st [] [] with pc := 1024 }.pc.toNat := by decide

theorem witness_StepWithoutCommand_illegal :
    (fetching 0).status.run = true ∧ (fetching 0).stopReq = false ∧ (fetching 0).pc.toNat < 1024 ∧
    Memory.read (fetching 0).cm (fetching 0).pc.toNat = some 0 ∧ ∀ i, decode 0 ≠ .ok i := by
  refine ⟨by decide, by decide, by decide, by decide, ?_⟩
  intro i h
  have h0 : decode 0 = .error .reservedOpcode := rfl
  rw [h0] at h
  cases h

theorem witness_StepWithoutCommand_unwritten :
    { st [] [] with pc := 1023 }.status.run = true ∧ { st [] [] with pc := 1023 }.stopReq = false ∧
    { st [] [] with pc := 1023 }.pc.toNat < 1024 ∧
    Memory.read { st [] [] with pc := 1023 }.cm { st [] [] with pc := 1023 }.pc.toNat = none := by decide

theorem witness_StepKeepsInvariant : (fetching 0x02000000).Inv ∧ ∃ t, step (fetching 0x02000000) = .next t :=
  ⟨inv_fetching_halt, _, rfl⟩

theorem witness_HostMovesKeepInvariant : State.reset.Inv ∧ ∃ t, hostMove (.writeCsr 1 1) State.reset = .next t :=
  ⟨inv_reset, _, rfl⟩

/-- For EngineNeverWritesHostState, RegisterFrame, DataMemoryFrame, ModuleMemoryFrame and CommandsEndOneOfTwoWays: a store
with a byte just past its range, and a command that writes no cell. -/
theorem witness_frames :
    (∃ t, exec (.sb 2 1 4) (st [0, 0x100, 0x1EC] []) = .next t) ∧
    (dmTarget (.sb 2 1 4) (st [0, 0x100, 0x1EC] [])).1 + (dmTarget (.sb 2 1 4) (st [0, 0x100, 0x1EC] [])).2 ≤ 0x105 ∧
    (3 : XReg) ∉ xTargets (.sb 2 1 4) ∧ (3 : PReg) ∉ pTargets (.sb 2 1 4) ∧ Csr.wlen.engineWritable = true ∧
    Csr.wlen ∉ csrTargets (.sb 2 1 4) ∧ writesMatrix (.sb 2 1 4) = false := ⟨⟨_, rfl⟩, by decide⟩

theorem witness_FaultCausesAsTabled :
    (Instr.gfinv 2 1).wf = true ∧ (∀ p, ((st [] []).getP p).length ≤ 256) ∧ (st [] []).status.fault = false ∧
    ∃ t, exec (.gfinv 2 1) (st [] []) = .next t ∧ t.status.fault = true ∧ t.cause = 3 :=
  ⟨by decide, by decide, by decide, _, rfl, by decide, by decide⟩

theorem witness_FaultEntry :
    { st [] [] with ie := 2 }.status = { run := true, done := false, fault := false, stopped := false } ∧
    { st [] [] with ie := 2 }.ie.getLsbD 1 = true := by decide

theorem witness_ControlRegisterWrite :
    (0xB : Word).getLsbD 2 = false ∧ (0xF : Word).getLsbD 2 = true ∧ State.reset.status.run = false := by decide

/-- A run whose command at pc is SB of 0x5A to byte 4, byte 4 and byte 5 written before. -/
def storing : State := { load (st [4, 0x5A] []) 4 [1, 2] with cm := [(0, 0x21100000)] }

theorem witness_ControlRegisterWrite_run :
    (4 : Word).getLsbD 2 = true ∧ storing.status.run = true ∧ fetch storing = .ok (.sb 1 0 0) ∧
    (dmTarget (.sb 1 0 0) storing).1 + (dmTarget (.sb 1 0 0) storing).2 ≤ 5 ∧ (dmTarget (.sb 1 0 0) storing).1 ≤ 4 ∧
    writesMatrix (.sb 1 0 0) = false ∧ mmTarget (.sb 1 0 0) storing 0 = false ∧
    (nextOf (exec (.sb 1 0 0) storing)).map (fun t => (t.status.run, Memory.read t.dm 4)) = some (true, some 0x5A) ∧
    Memory.read storing.dm 4 = some 1 := ⟨by decide, by decide, rfl, by decide⟩

/-- A run whose command at pc is MXVER 0 at version 7: (0, 34) is a cell of the version word, (8, 8) is none. -/
theorem witness_ControlRegisterWrite_matrix :
    fetch { ver (st [] []) 7 with cm := [(0, 0x85000000)] } = .ok (.mxver false) ∧
    mmTarget (.mxver false) { ver (st [] []) 7 with cm := [(0, 0x85000000)] } (cellKey 0 34) = true ∧
    mmTarget (.mxver false) { ver (st [] []) 7 with cm := [(0, 0x85000000)] } (cellKey 8 8) = false ∧
    inSymbol 45 (cellKey 45 0) = false := ⟨rfl, by decide⟩

theorem witness_ControlRegisterWrite_faults :
    (nextOf (exec (.bput 0 1) (st [0, 33] []))).map (·.status.run) = some false ∧
    fetch (fetching 0) = .error (.raises .illegalCommand 0) ∧ fetch (st [] []) = .error (.sticks (.unwrittenCommand 0)) :=
  ⟨by decide, rfl, rfl⟩

/-- An unwritten word at pc may be SB or, with a legal VERSION, a matrix command; VERSION is 0 at reset. -/
theorem witness_ControlRegisterWrite_unwritten :
    mayWrite (.sb 0 0 0) (st [4] []) = true ∧
    (nextOf (exec (.mxfmt true) (ver (st [] []) 1))).map (fun t => (t.status.run, Memory.read t.mm (cellKey 0 8))) =
      some (true, some .light) ∧
    inSymbol 21 (cellKey 21 0) = false ∧ ∀ d, ¬ versionOk (st [] []).csr d :=
  ⟨by decide, by decide, by decide, fun d h => absurd h.1 (by decide)⟩

/-- 48_matrix R300: with an unwritten word at pc, a cell outside the symbol is kept. -/
theorem test_soft_reset_unwritten_word :
    (hostWriteCsr 1 4 { ver (st [] []) 1 with mm := [(cellKey 20 20, .dark), (cellKey 21 0, .dark)] }).mm =
      [(cellKey 21 0, .dark)] := by decide

/-- 48_matrix R314: (10, 10) is unwritten, (10, 12) and (10, 14) are UNSET. If (10, 10) is UNSET its pattern covers
(10, 12), so (10, 14) gets a pattern, which reaches (10, 16). -/
theorem test_alignWrites_unwritten :
    covers (alignWrites [(cellKey 10 12, .unset), (cellKey 10 14, .unset)] [(10, 10), (10, 12), (10, 14)])
      (cellKey 10 16) = true := by decide

/-- 48_matrix R338: an UNSET cell makes MXOUT fault, whatever an unwritten one before it holds. -/
theorem test_mxout_sure_to_fault :
    mayWrite (.mxout 0) { ver (st [] []) 1 with mm := [(cellKey 0 1, .unset)] } = false := by decide

/-- 93_implementation_defined U6, 10_state R50. -/
theorem test_hard_reset : (storing.hardReset.cm, storing.hardReset.dm, State.reset.hardReset.cm) = ([(0, 0x21100000)], [], []) := by
  decide

/-- 70_reset_and_hazards R381: byte 4 was to be written, byte 5 was not. -/
theorem test_soft_reset_in_run :
    (Memory.read (hostWriteCsr 1 4 storing).dm 4, Memory.read (hostWriteCsr 1 4 storing).dm 5,
      (hostWriteCsr 1 4 storing).status.word) = (none, some 2, 0) := by decide

/-- 48_matrix R319, 70_reset_and_hazards R381: below version 7 MXVER writes nothing, so a soft reset keeps every cell. -/
theorem test_soft_reset_mxver :
    (hostWriteCsr 1 4 { ver (st [] []) 6 with cm := [(0, 0x85000000)], mm := [(cellKey 0 30, .dark)] }).mm =
      [(cellKey 0 30, .dark)] := by decide

theorem witness_HostAccess :
    (st [] []).status.run = true ∧ (0 : Fin 64) ≠ 1 ∧ (0 : Fin 64) ≠ 3 ∧ (63 : Fin 64) ≠ 0 ∧ (63 : Fin 64) ≠ 2 ∧
    State.reset.status.run = false ∧ Csr.ofNumber (0x2E : Fin 64).val = some .rlim ∧ Csr.rlim.engineWritable = true ∧
    Csr.ofNumber (63 : Fin 64).val = none := by decide

theorem witness_HostAccess_cell : ∃ t, hostWriteMm 176 176 ModuleCell.dark.code State.reset = .next t := ⟨_, rfl⟩

theorem witness_CsrReads :
    Csr.rlim ≠ .ctrl ∧ (fetching 0x02000000).Inv ∧ (fetching 0x02000000).status.run = true :=
  ⟨by decide, inv_fetching_halt, by decide⟩

theorem witness_CsrWrites : Csr.version.engineWritable = true ∧ Csr.rlim.engineWritable = true := by decide

theorem witness_ByteLoadStore :
    (effectiveAddress ((load (st [0, 16384] []) 16383 [0xEC]).getX 1) 0xFFFF < 16384 ∧
      Memory.read (load (st [0, 16384] []) 16383 [0xEC]).dm
        (effectiveAddress ((load (st [0, 16384] []) 16383 [0xEC]).getX 1) 0xFFFF) = some 0xEC) ∧
    16384 ≤ effectiveAddress ((st [0, 16384] []).getX 1) 0 := by decide

def forVectorLoadStore : State := load (st [0, 16382, 2] [[5, 6]]) 16382 [1, 2]
def forVectorLoadStore2 : State := st [0, 16383, 2] [[5, 6]]

theorem witness_VectorLoadStore :
    ([1, 2].length = (forVectorLoadStore.getX 2).toNat ∧ (forVectorLoadStore.getX 2).toNat ≤ 256 ∧ (forVectorLoadStore.getX 1).toNat + (forVectorLoadStore.getX 2).toNat ≤ 16384 ∧
      (∀ k, k < (forVectorLoadStore.getX 2).toNat → Memory.read forVectorLoadStore.dm ((forVectorLoadStore.getX 1).toNat + k) = [(1 : Byte), 2][k]?) ∧
      (forVectorLoadStore.getX 1).toNat + (forVectorLoadStore.getP 0).length ≤ 16384) ∧
    256 < ((st [0, 0, 257] []).getX 2).toNat ∧
    (0 < (forVectorLoadStore2.getX 2).toNat ∧ (forVectorLoadStore2.getX 2).toNat ≤ 256 ∧ 16384 < (forVectorLoadStore2.getX 1).toNat + (forVectorLoadStore2.getX 2).toNat ∧
      0 < (forVectorLoadStore2.getP 0).length ∧ 16384 < (forVectorLoadStore2.getX 1).toNat + (forVectorLoadStore2.getP 0).length) := by decide

def forFieldCommands : State := st [0, 255, 1] []

theorem witness_FieldCommands :
    ((forFieldCommands.getX 1).toNat ≤ 255 ∧ (forFieldCommands.getX 2).toNat ≤ 255 ∧ 1 ≤ (forFieldCommands.getX 1).toNat) ∧
    255 < ((st [0, 256] []).getX 1).toNat ∧ ((st [] []).getX 1).toNat = 0 := by decide

def forPolynomialReads : State := st [0, 0, 255] [[], [0, 5]]

theorem witness_PolynomialReads :
    (forPolynomialReads.getP 1 ≠ [] ∧ (forPolynomialReads.getX 2).toNat ≤ 255 ∧ forPolynomialReads.getP 0 = []) ∧
    255 < ((st [256] []).getX 0).toNat := by decide

def forPolynomialSumAndProduct : State := st [] [[1, 2], [0, 0], []]
def forPolynomialSumAndProduct2 : State := st [] [List.replicate 256 1, [1, 1]]

theorem witness_PolynomialSumAndProduct :
    (forPolynomialSumAndProduct.getP 0 ≠ [] ∧ forPolynomialSumAndProduct.getP 1 ≠ [] ∧ (normalForm (forPolynomialSumAndProduct.getP 0)).length + (normalForm (forPolynomialSumAndProduct.getP 1)).length - 1 ≤ 256 ∧
      forPolynomialSumAndProduct.getP 2 = []) ∧
    (forPolynomialSumAndProduct2.getP 0 ≠ [] ∧ forPolynomialSumAndProduct2.getP 1 ≠ [] ∧ 256 < (normalForm (forPolynomialSumAndProduct2.getP 0)).length + (normalForm (forPolynomialSumAndProduct2.getP 1)).length - 1 ∧
      normalForm (forPolynomialSumAndProduct2.getP 0) ≠ [0] ∧ normalForm (forPolynomialSumAndProduct2.getP 1) ≠ [0]) := by decide +kernel

def forPolynomialMonomials : State := st [254, 255] [[1, 2], []]
def forPolynomialMonomials2 : State := st [256, 1] [[1, 2]]

theorem witness_PolynomialMonomials :
    ((forPolynomialMonomials.getX 1).toNat ≤ 255 ∧ forPolynomialMonomials.getP 0 ≠ [] ∧ (normalForm (forPolynomialMonomials.getP 0)).length + (forPolynomialMonomials.getX 0).toNat ≤ 256 ∧
      (forPolynomialMonomials.getX 0).toNat ≤ 255 ∧ forPolynomialMonomials.getP 1 = []) ∧
    255 < ((st [0, 256] []).getX 1).toNat ∧
    (1 ≤ (forPolynomialMonomials2.getX 1).toNat ∧ (forPolynomialMonomials2.getX 1).toNat ≤ 255 ∧ forPolynomialMonomials2.getP 0 ≠ [] ∧ normalForm (forPolynomialMonomials2.getP 0) ≠ [0] ∧
      256 < (normalForm (forPolynomialMonomials2.getP 0)).length + (forPolynomialMonomials2.getX 0).toNat ∧ 256 < (forPolynomialMonomials2.getX 0).toNat + 1) := by decide

def forPolynomialRemainder : State := st [] [[1, 0, 0, 0], [0, 1, 3], [0, 0], []]

theorem witness_PolynomialRemainder :
    (forPolynomialRemainder.getP 0).length ≤ 256 ∧ (forPolynomialRemainder.getP 1).length ≤ 256 ∧ (forPolynomialRemainder.getP 2).length ≤ 256 ∧ forPolynomialRemainder.getP 0 ≠ [] ∧ forPolynomialRemainder.getP 1 ≠ [] ∧
    normalForm (forPolynomialRemainder.getP 1) ≠ [0] ∧ forPolynomialRemainder.getP 2 ≠ [] ∧ normalForm (forPolynomialRemainder.getP 2) = [0] ∧ forPolynomialRemainder.getP 3 = [] := by decide

theorem witness_GeneratorPolynomial :
    ((st [255] []).getX 0).toNat ≤ 255 ∧ 255 < ((st [256] []).getX 0).toNat := by decide

def forEncoderCommand : State := st [254, 0, 255] [[7], [], [1, 2]]

theorem witness_EncoderCommand :
    (1 ≤ (forEncoderCommand.getX 0).toNat ∧ (forEncoderCommand.getX 0).toNat ≤ 254 ∧ forEncoderCommand.getP 0 ≠ [] ∧ (forEncoderCommand.getP 0).length + (forEncoderCommand.getX 0).toNat ≤ 255 ∧
      (forEncoderCommand.getX 1).toNat = 0 ∧ 254 < (forEncoderCommand.getX 2).toNat ∧ forEncoderCommand.getP 1 = [] ∧ forEncoderCommand.getP 2 ≠ [] ∧
      255 < (forEncoderCommand.getP 2).length + (forEncoderCommand.getX 0).toNat) := by decide

theorem witness_CodewordInvariant : 1 ≤ [(7 : Byte)].length ∧ 1 ≤ 254 ∧ [(7 : Byte)].length + 254 ≤ 255 := by decide

def forSyndromeCommand : State := st [255, 0, 256] [[7], []]

/-- For SyndromeCommand and, with two different x registers, DecoderCommand. -/
theorem witness_SyndromeCommand :
    (1 ≤ (forSyndromeCommand.getX 0).toNat ∧ (forSyndromeCommand.getX 0).toNat ≤ 255 ∧ 1 ≤ (forSyndromeCommand.getP 0).length ∧ (forSyndromeCommand.getP 0).length ≤ 255 ∧
      (forSyndromeCommand.getX 1).toNat = 0 ∧ 255 < (forSyndromeCommand.getX 2).toNat ∧ (forSyndromeCommand.getP 1).length = 0) := by decide

def forKeyEquationCommand : State := st [4, 0, 256, 1] [[166, 51, 148, 254], [], [0, 1, 0]]

theorem witness_KeyEquationCommand :
    ((3 : PReg) ≠ 4 ∧ forKeyEquationCommand.getP 0 ≠ [] ∧ 1 ≤ (forKeyEquationCommand.getX 0).toNat ∧ (forKeyEquationCommand.getX 0).toNat ≤ 255 ∧
      (normalForm (forKeyEquationCommand.getP 0)).length ≤ (forKeyEquationCommand.getX 0).toNat ∧ forKeyEquationCommand.getP 1 = [] ∧ (forKeyEquationCommand.getX 1).toNat = 0 ∧
      255 < (forKeyEquationCommand.getX 2).toNat ∧ forKeyEquationCommand.getP 2 ≠ [] ∧ (forKeyEquationCommand.getX 3).toNat < (normalForm (forKeyEquationCommand.getP 2)).length) := by decide

theorem coef_past {f : List Byte} {d : Nat} (h : f.length ≤ d) : coef f d = 0 := by
  simp [coef, List.getD_eq_getElem?_getD, h]

/-- A product has no coefficient past the sum of the degrees. -/
theorem productCoef_past {f g : List Byte} {d : Nat} (h : f.length + g.length ≤ d + 1) : productCoef f g d = 0 := by
  have zero : ∀ l : List Nat, (∀ i ∈ l, gfMul (coef f i) (coef g (d - i)) = 0) →
      l.foldl (fun acc i => acc ^^^ gfMul (coef f i) (coef g (d - i))) 0 = 0 := by
    intro l
    induction l with
    | nil => exact fun _ => rfl
    | cons i l ih =>
      intro hl
      rw [List.foldl_cons, hl i (by simp)]
      exact ih fun j hj => hl j (by simp [hj])
  refine zero _ fun i hi => ?_
  rw [List.mem_range] at hi
  by_cases hf : f.length ≤ i
  · simp [coef_past hf, gfMul]
  · simp [coef_past (f := g) (d := d - i) (by omega), gfMul]

/-- The syndrome polynomial X with t = 2: the algorithm ends beside the auxiliary polynomial X, whose constant term is 0. -/
theorem witness_KeyEquationCommand_status_two :
    EuclidReaches 2 [1, 0] [1, 0] [0] [1] [1, 0] ∧ coef [1, 0] 0 = 0 := by
  refine ⟨.turn (q := [1, 0]) .start (by decide) (.inl rfl) (.inl rfl) (fun d => ?_)
    (.inr ⟨1, [0], rfl, by decide⟩) (fun d => ?_), by decide⟩
  · by_cases hd : d < 3
    · interval_cases d <;> decide
    · have hd : 3 ≤ d := by omega
      rw [productCoef_past (by simp; omega), coef_past (by simpa using hd), coef_past (by simp; omega)]
      rfl
  · by_cases hd : d < 3
    · interval_cases d <;> decide
    · rw [productCoef_past (by simp; omega), coef_past (by simp; omega), coef_past (by simp; omega)]
      rfl

theorem witness_ChienCommand : (st [] [[64, 34, 1], []]).getP 0 ≠ [] ∧ (st [] [[64, 34, 1], []]).getP 1 = [] := by decide

def forForneyAndCorrection : State := st [] [[195, 254], [32, 2], [255, 1], [], [32, 32], [0], [9]]

/-- In a word of two bytes, location 2 is inside, 4 is outside: 0 first, 0 after a good one, and 4 before 0. -/
theorem witness_ForneyAndCorrection_first_bad :
    [(0 : Byte)] = [] ++ 0 :: [] ∧ [(2 : Byte), 0] = [2] ++ 0 :: [] ∧ [(2 : Byte), 4, 0] = [2] ++ 4 :: [0] ∧
    (∀ g ∈ [(2 : Byte)], g ≠ 0 ∧ logAt g < ((st [] [[7, 7], [2, 4, 0], [1, 1, 1]]).getP 0).length) ∧
    ((st [] [[7, 7], [2, 4, 0], [1, 1, 1]]).getP 1).length = ((st [] [[7, 7], [2, 4, 0], [1, 1, 1]]).getP 2).length ∧
    (4 : Byte) ≠ 0 ∧ ((st [] [[7, 7], [2, 4, 0], [1, 1, 1]]).getP 0).length ≤ logAt 4 := by decide

/-- 45_reed_solomon R229: the location outside the word comes before the location 0, so the status is 1. -/
theorem test_rscor_outside_before_zero :
    xOf (.rscor 1 3 0 1 2) (st [] [[7, 7], [2, 4, 0], [1, 1, 1]]) 1 = some 1 ∧
    faultOf (.rscor 1 3 0 1 2) (st [] [[7, 7], [2, 0], [1, 1]]) = some (3, 1) := by decide

theorem witness_ForneyAndCorrection :
    (forForneyAndCorrection.getP 0 ≠ [] ∧ (0 : Byte) ∉ forForneyAndCorrection.getP 1 ∧ (forForneyAndCorrection.getP 1).Nodup ∧ ¬ (forForneyAndCorrection.getP 4).Nodup ∧ (0 : Byte) ∈ forForneyAndCorrection.getP 5 ∧
      forForneyAndCorrection.getP 3 = [] ∧ (forForneyAndCorrection.getP 1).length = (forForneyAndCorrection.getP 2).length ∧ (forForneyAndCorrection.getP 1).length ≠ (forForneyAndCorrection.getP 3).length ∧ forForneyAndCorrection.getP 5 = [0] ∧
      (forForneyAndCorrection.getP 6).length = 1 ∧ gfMul ((forForneyAndCorrection.getP 1).getD 0 0) 108 = 1) := by decide

def forDecoderCommand : State := st [0, 0, 4] [[], [0x12, 0xCB, 0x56, 0x37, 0xE6, 0x79, 0xD9]]

theorem witness_DecoderCommand :
    (1 : XReg) ≠ 3 ∧
    (1 ≤ (forDecoderCommand.getX 2).toNat ∧ (forDecoderCommand.getX 2).toNat ≤ 255 ∧ 1 ≤ (forDecoderCommand.getP 1).length ∧ (forDecoderCommand.getP 1).length ≤ 255 ∧
      (forDecoderCommand.getX 0).toNat = 0 ∧ (forDecoderCommand.getP 0).length = 0) := by decide

/-- The two errors of 45_reed_solomon R239, half of t = 4. -/
theorem witness_DecoderCorrectsHalfDistance :
    (1 : XReg) ≠ 3 ∧ 1 ≤ ((st [0, 0, 4] []).getX 2).toNat ∧ 1 ≤ [(0x12 : Byte), 0x34, 0x56].length ∧
    [(0x12 : Byte), 0x34, 0x56].length + ((st [0, 0, 4] []).getX 2).toNat ≤ 255 ∧
    rsEncode [0x12, 0x34, 0x56] ((st [0, 0, 4] []).getX 2).toNat = .ok [0x12, 0x34, 0x56, 0x37, 0xE6, 0x78, 0xD9] ∧
    differences [0x12, 0x34, 0x56, 0x37, 0xE6, 0x78, 0xD9] [0x12, 0xCB, 0x56, 0x37, 0xE6, 0x79, 0xD9] ≤
      ((st [0, 0, 4] []).getX 2).toNat / 2 :=
  ⟨by decide, by decide, by decide, by decide, by rfl, by decide⟩

def forBitPutCommand : State :=
  with_csr (load (st [0, 0xFFFFFFFF, 32, 33] []) 16380 [0xF0]) { ParamCsrs.reset with wbase := 16380 }
def forBitPutCommand2 : State :=
  with_csr (load (st [0, 0xFFFFFFFF, 4] []) 16383 [0xF0]) { ParamCsrs.reset with wbase := 16383, wlen := 4 }
def forBitPutCommand3 : State := with_csr (st [0, 0, 1] []) { ParamCsrs.reset with wbase := 16383, wlen := 8 }

theorem witness_BitPutCommand :
    ((forBitPutCommand.getX 2).toNat ≤ 32 ∧ forBitPutCommand.csr.wbase.toNat + (forBitPutCommand.csr.wlen.toNat + (forBitPutCommand.getX 2).toNat - 1) / 8 < 16384 ∧
      forBitPutCommand.csr.wlen.toNat % 8 = 0 ∧ 32 < (forBitPutCommand.getX 3).toNat) ∧
    (forBitPutCommand2.csr.wbase.toNat + (forBitPutCommand2.csr.wlen.toNat + (forBitPutCommand2.getX 2).toNat - 1) / 8 < 16384 ∧
      (Memory.read forBitPutCommand2.dm (forBitPutCommand2.csr.wbase.toNat + forBitPutCommand2.csr.wlen.toNat / 8)).isSome) ∧
    (0 < (forBitPutCommand3.getX 2).toNat ∧ (forBitPutCommand3.getX 2).toNat ≤ 32 ∧
      16384 ≤ forBitPutCommand3.csr.wbase.toNat + (forBitPutCommand3.csr.wlen.toNat + (forBitPutCommand3.getX 2).toNat - 1) / 8) := by decide

def forBitPadCommand : State :=
  with_csr (load (st [32, 31, 16] []) 16380 [0xAB, 0xCD, 0xE0]) { ParamCsrs.reset with wbase := 16380, wlen := 20 }
def forBitPadCommand2 : State := with_csr (st [8] []) { ParamCsrs.reset with wbase := 16383, wlen := 0 }
def forBitPadCommand3 : State := with_csr (st [16] []) { ParamCsrs.reset with wbase := 16383, wlen := 0 }

theorem witness_BitPadCommand :
    ((forBitPadCommand.getX 0).toNat % 8 = 0 ∧ forBitPadCommand.csr.wlen.toNat ≤ (forBitPadCommand.getX 0).toNat ∧
      forBitPadCommand.csr.wbase.toNat + (forBitPadCommand.getX 0).toNat / 8 ≤ 16384 ∧
      (Memory.read forBitPadCommand.dm (forBitPadCommand.csr.wbase.toNat + forBitPadCommand.csr.wlen.toNat / 8)).isSome ∧ (forBitPadCommand.getX 1).toNat % 8 ≠ 0 ∧
      (forBitPadCommand.getX 2).toNat % 8 = 0 ∧ (forBitPadCommand.getX 2).toNat < forBitPadCommand.csr.wlen.toNat) ∧
    (forBitPadCommand2.csr.wlen.toNat = 0 ∧ forBitPadCommand2.csr.wbase.toNat + (forBitPadCommand2.getX 0).toNat / 8 ≤ 16384) ∧
    ((forBitPadCommand3.getX 0).toNat % 8 = 0 ∧ forBitPadCommand3.csr.wlen.toNat < (forBitPadCommand3.getX 0).toNat ∧
      16384 < forBitPadCommand3.csr.wbase.toNat + (forBitPadCommand3.getX 0).toNat / 8) := by decide

def forBitReadCommand : State :=
  with_csr (load (st [0, 9, 0, 33, 10] []) 16382 [0x20, 0x58]) { ParamCsrs.reset with rbase := 16382, rpos := 4, rlim := 13 }
def forBitReadCommand2 : State :=
  with_csr (st [0, 1] []) { ParamCsrs.reset with rbase := 16383, rpos := 8, rlim := 9 }

theorem witness_BitReadCommand :
    (1 ≤ (forBitReadCommand.getX 1).toNat ∧ (forBitReadCommand.getX 1).toNat ≤ 32 ∧ forBitReadCommand.csr.rpos.toNat + (forBitReadCommand.getX 1).toNat ≤ forBitReadCommand.csr.rlim.toNat ∧
      forBitReadCommand.csr.rbase.toNat + (forBitReadCommand.csr.rpos.toNat + (forBitReadCommand.getX 1).toNat - 1) / 8 < 16384 ∧
      (∀ i, i < (forBitReadCommand.getX 1).toNat → (streamBit forBitReadCommand.dm forBitReadCommand.csr.rbase.toNat (forBitReadCommand.csr.rpos.toNat + i)).isSome) ∧
      (forBitReadCommand.getX 2).toNat = 0 ∧ 32 < (forBitReadCommand.getX 3).toNat ∧ forBitReadCommand.csr.rlim.toNat < forBitReadCommand.csr.rpos.toNat + (forBitReadCommand.getX 4).toNat) ∧
    (forBitReadCommand2.csr.rpos.toNat + (forBitReadCommand2.getX 1).toNat ≤ forBitReadCommand2.csr.rlim.toNat ∧
      16384 ≤ forBitReadCommand2.csr.rbase.toNat + (forBitReadCommand2.csr.rpos.toNat + (forBitReadCommand2.getX 1).toNat - 1) / 8) := by decide

theorem witness_BitStreamRoundTrip :
    (st [] []).status.fault = false ∧ (∀ it ∈ [((5 : Word), 3), (7, 0), (0xFFFFFFFF, 32)], it.2 ≤ 32) ∧
    (st [] []).csr.wbase.toNat + (([((5 : Word), 3), (7, 0), (0xFFFFFFFF, 32)].map Prod.snd).sum + 7) / 8 ≤ 16384 := by
  decide

def forCodewordCommand : State :=
  with_csr (load (st [3, 0, 16382, 16380, 2] []) 0 [1, 2, 3]) { ParamCsrs.reset with g1cnt := 1, g1tot := 5, g1dat := 3 }

/-- A layout of one block (5, 3), its source at 0 and its destination right after it or at the end of DM. -/
theorem witness_CodewordCommand :
    (layoutOk forCodewordCommand.csr ∧
      forCodewordCommand.csr.g1cnt.toNat * forCodewordCommand.csr.g1dat.toNat + forCodewordCommand.csr.g2cnt.toNat * forCodewordCommand.csr.g2dat.toNat = [(1 : Byte), 2, 3].length ∧
      forCodewordCommand.csr.g1cnt.toNat * forCodewordCommand.csr.g1tot.toNat + forCodewordCommand.csr.g2cnt.toNat * forCodewordCommand.csr.g2tot.toNat = 5 ∧
      (forCodewordCommand.getX 1).toNat + 3 ≤ (forCodewordCommand.getX 0).toNat ∧
      (∀ k, k < 3 → Memory.read forCodewordCommand.dm ((forCodewordCommand.getX 1).toNat + k) = [(1 : Byte), 2, 3][k]?) ∧
      16384 < (forCodewordCommand.getX 2).toNat + 3 ∧ 16384 < (forCodewordCommand.getX 3).toNat + 5 ∧
      (forCodewordCommand.getX 1).toNat < (forCodewordCommand.getX 4).toNat + 5 ∧ (forCodewordCommand.getX 4).toNat < (forCodewordCommand.getX 1).toNat + 3) := by
  unfold layoutOk
  decide

/-- Layouts that take each of the five BadOperand faults of 47_codeword_bch R281. -/
def badLayout (c1 n1 k1 c2 n2 k2 : BitVec 8) : State :=
  with_csr (st [] []) { ParamCsrs.reset with g1cnt := c1, g1tot := n1, g1dat := k1, g2cnt := c2, g2tot := n2, g2dat := k2 }

theorem witness_CodewordCommand_layout :
    (badLayout 0 5 3 0 0 0).csr.g1cnt.toNat = 0 ∧
    (0 < (badLayout 1 5 0 0 0 0).csr.g1cnt.toNat ∧ (badLayout 1 5 0 0 0 0).csr.g1dat.toNat = 0) ∧
    (0 < (badLayout 1 5 5 0 0 0).csr.g1dat.toNat ∧
      (badLayout 1 5 5 0 0 0).csr.g1tot.toNat ≤ (badLayout 1 5 5 0 0 0).csr.g1dat.toNat) ∧
    ((badLayout 1 5 3 1 6 0).csr.g1dat.toNat < (badLayout 1 5 3 1 6 0).csr.g1tot.toNat ∧
      0 < (badLayout 1 5 3 1 6 0).csr.g2cnt.toNat ∧ (badLayout 1 5 3 1 6 0).csr.g2dat.toNat = 0) ∧
    (0 < (badLayout 1 5 3 1 6 6).csr.g2cnt.toNat ∧ 0 < (badLayout 1 5 3 1 6 6).csr.g2dat.toNat ∧
      (badLayout 1 5 3 1 6 6).csr.g2tot.toNat ≤ (badLayout 1 5 3 1 6 6).csr.g2dat.toNat) := by decide

theorem witness_CodewordOrder :
    [[(1 : Byte), 2], [3]][0]? = some [1, 2] ∧ 1 < [(1 : Byte), 2].length ∧
    layoutOk { ParamCsrs.reset with g1cnt := 1, g1tot := 5, g1dat := 3, g2cnt := 1, g2tot := 6, g2dat := 4 } ∧
    [(1 : Byte), 2, 3, 4, 5, 6, 7].length = 1 * 3 + 1 * 4 := by
  unfold layoutOk
  decide

theorem witness_BchCommands :
    ((st [31] []).getX 0).toNat ≤ 31 ∧ 31 < ((st [32] []).getX 0).toNat ∧ ((st [63] []).getX 0).toNat ≤ 63 ∧
    63 < ((st [64] []).getX 0).toNat ∧ 7 ≤ ((st [7] []).getX 0).toNat ∧ ((st [40] []).getX 0).toNat ≤ 40 := by decide

/-- Versions 1 and 40 for every statement about a legal VERSION, 0 and 41 for VersionChecked. -/
theorem witness_versionOk :
    versionOk (ver (st [] []) 1).csr 21 ∧ versionOk (ver (st [] []) 40).csr 177 ∧
    (ver (st [] []) 0).csr.version.toNat = 0 ∧ 40 < (ver (st [] []) 41).csr.version.toNat := by
  unfold versionOk
  decide

def forAlignmentCommand : State :=
  with_csr { ver (st [] []) 7 with mm := [(cellKey 2 2, .unset), (cellKey 2 42, .unset), (cellKey 42 2, .dark), (cellKey 42 42, .unset)] } { ParamCsrs.reset with version := 7, alncnt := 2, aln := (ParamCsrs.reset.aln.set 0 2).set 1 42 }

/-- Two centres of version 7, the first and the last at the ends of the legal range. -/
theorem witness_AlignmentCommand :
    (versionOk forAlignmentCommand.csr 45 ∧ centresOk forAlignmentCommand.csr 45 ∧
      (∀ u ∈ alignCentres forAlignmentCommand.csr, ∀ v ∈ alignCentres forAlignmentCommand.csr, (Memory.read forAlignmentCommand.mm (cellKey u v)).isSome) ∧
      (∀ u ∈ alignCentres forAlignmentCommand.csr, ∀ v ∈ alignCentres forAlignmentCommand.csr, u = v ∨ u + 5 ≤ v ∨ v + 5 ≤ u) ∧
      Memory.read forAlignmentCommand.mm (cellKey 42 42) = some .unset) ∧
    alignCentres { ParamCsrs.reset with version := 7, alncnt := 2, aln := (ParamCsrs.reset.aln.set 0 42).set 1 43 } =
      [42] ++ 43 :: [] ∧
    (∀ g ∈ [42], 2 ≤ g ∧ g ≤ 45 - 3) ∧ 45 - 3 < 43 := by
  unfold versionOk centresOk
  decide

theorem witness_TimingCommand :
    versionOk (blank 1 []).csr 21 ∧
    ∀ i, 8 ≤ i → i ≤ 21 - 9 →
      (Memory.read (blank 1 []).mm (cellKey i 6)).isSome ∧ (Memory.read (blank 1 []).mm (cellKey 6 i)).isSome := by
  refine ⟨by unfold versionOk; decide, fun i _ hi => ?_⟩
  rw [read_blank [] (by omega) (by omega), read_blank [] (by omega) (by omega)]
  exact ⟨rfl, rfl⟩

theorem witness_PlacementPath : 1 ≤ 40 ∧ 40 ≤ 40 ∧ 87 < (177 - 1) / 2 ∧ 176 < 177 := by decide

def forDataPlacement : State := load (blank 1 [16382, 2, 16383]) 16382 [1, 2]

/-- A blank symbol of version 1 and two readable bytes at the end of DM; and a range past it. -/
theorem witness_DataPlacement :
    (versionOk forDataPlacement.csr 21 ∧ [(1 : Byte), 2].length = (forDataPlacement.getX 1).toNat ∧ (forDataPlacement.getX 0).toNat + (forDataPlacement.getX 1).toNat ≤ 16384 ∧
      (∀ k, k < (forDataPlacement.getX 1).toNat → Memory.read forDataPlacement.dm ((forDataPlacement.getX 0).toNat + k) = [(1 : Byte), 2][k]?) ∧
      0 < (forDataPlacement.getX 1).toNat ∧ 16384 < (forDataPlacement.getX 2).toNat + (forDataPlacement.getX 1).toNat) := by
  unfold versionOk
  decide

theorem witness_DataPlacement_cells :
    ∀ rc ∈ path 21, (Memory.read (blank 1 []).mm (cellKey rc.1 rc.2)).isSome := by
  intro rc h
  have := path_in (by omega) rc h
  rw [read_blank [] this.1 this.2]
  rfl

/-- For PenaltyCommand and OutputCommand, and as every cell has a colour for the clauses on coloured symbols. -/
theorem witness_cellsColoured :
    versionOk (painted [16328]).csr 21 ∧ cellsColoured (painted [16328]).mm 21 ∧
    ((painted [16328]).getX 0).toNat + (21 * 21 + 7) / 8 ≤ 16384 := by
  refine ⟨by unfold versionOk; decide, fun r hr c hc => ?_, by decide⟩
  rw [read_painted _ hr hc]
  cases r % 2 == 0 && c % 2 == 0
  · exact .inl rfl
  · exact .inr rfl

theorem witness_OutputCommand :
    16384 < ((painted [16329]).getX 0).toNat + (21 * 21 + 7) / 8 ∧
    Memory.read (blank 1 []).mm (cellKey 0 0) = some .unset ∧ ¬ ∃ r c, r * 21 + c < 0 * 21 + 0 :=
  ⟨by decide, by decide, by omega⟩

def forCellAndMaskReads : State := st [7, 176, 8, 177, 21, 20] []

theorem witness_CellAndMaskReads :
    Memory.read (painted []).mm (cellKey 0 20) = some (shade true) ∧
    Memory.read (blank 1 []).mm (cellKey 0 20) = some .unset ∧
    ((forCellAndMaskReads.getX 0).toNat ≤ 7 ∧ (forCellAndMaskReads.getX 1).toNat ≤ 176 ∧ 7 < (forCellAndMaskReads.getX 2).toNat ∧ 176 < (forCellAndMaskReads.getX 3).toNat ∧
      21 ≤ (forCellAndMaskReads.getX 4).toNat ∧ (forCellAndMaskReads.getX 5).toNat < 21) := by decide +kernel

theorem witness_BuildCommand :
    (ver (st [] []) 1).Inv ∧ (ver (st [] []) 1).status.fault = false ∧ (1 : XReg) ≠ 2 ∧
    versionOk (ver (st [] []) 1).csr 21 ∧ centresOk (ver (st [] []) 1).csr 21 ∧
    bytesReady (ver (st [] []) 1).dm ((ver (st [] []) 1).getX 3).toNat ((ver (st [] []) 1).getX 4).toNat := by
  refine ⟨⟨by decide, by decide, by decide, by decide, by decide, by decide⟩, by decide, by decide, ?_, ?_, ?_⟩
  · unfold versionOk
    decide
  · unfold centresOk
    decide
  · unfold bytesReady
    decide

end Sys2Proof.Tests
end

section
/-! SUPPORT. The tables EXP and LOG are inverse to each other and step by `xtime` (10_state R45, R46). -/

namespace Sys2Proof.Machine

/-- Every row of EXP continues by multiplication by 2 (10_state R45). -/
theorem expAt_succ : ∀ i < 255, expAt (i + 1) = xtime (expAt i) := by decide +kernel

theorem xtime_toNat (a : Byte) :
    (xtime a).toNat = if a.toNat < 128 then 2 * a.toNat else ((2 * a.toNat) ^^^ 0x11D) % 256 := by
  unfold xtime
  split
  · rw [BitVec.toNat_ofNat]
    omega
  · rw [BitVec.toNat_ofNat, Nat.mul_comm a.toNat]
    rfl

theorem logAt_expAt : ∀ i < 255, logAt (expAt i) = i := by decide +kernel

theorem expAt_ne_zero : ∀ i < 256, expAt i ≠ 0 := by decide +kernel

/-- The logarithm of a non-zero element is below 255, and EXP inverts LOG there. -/
theorem expAt_logAt {a : Byte} (ha : a ≠ 0) : logAt a < 255 ∧ expAt (logAt a) = a := by
  have table : ∀ n < 255, logAt (BitVec.ofNat 8 (n + 1)) < 255 ∧
      expAt (logAt (BitVec.ofNat 8 (n + 1))) = BitVec.ofNat 8 (n + 1) := by decide +kernel
  have hpos : a.toNat ≠ 0 := fun h => ha (BitVec.eq_of_toNat_eq h)
  have hn : BitVec.ofNat 8 (a.toNat - 1 + 1) = a := by
    rw [Nat.sub_add_cancel (by omega), BitVec.ofNat_toNat, BitVec.setWidth_eq]
  simpa [hn] using table (a.toNat - 1) (by omega)

/-- Settles O27: the table steps by `xtime`, and LOG reads back every exponent below 255. -/
theorem expTable : Obligations.ExpTable := by
  refine ⟨rfl, rfl, fun i h1 h2 => ?_, fun i hi => logAt_expAt i (by omega)⟩
  have hstep := expAt_succ (i - 1) (by omega)
  rw [Nat.sub_add_cancel h1] at hstep
  rw [hstep, xtime_toNat]

end Sys2Proof.Machine
end

section
/-! SUPPORT. The answers of a chain of checks, the field laws that division needs, and the lengths of what the polynomial
unit answers (44_polynomial). -/

namespace Sys2Proof.Machine

/-! ## Chains of checks -/

/-- Every answer of a chain, if there is one, satisfies `P`. -/
def Answers {α : Type} (P : α → Prop) (r : Except Stop α) : Prop := ∀ a, r = .ok a → P a

theorem Answers.ok {α : Type} {P : α → Prop} {a : α} (h : P a) : Answers P (.ok a) := by
  intro b hb
  injection hb with hb
  exact hb ▸ h

theorem Answers.pure {α : Type} {P : α → Prop} {a : α} (h : P a) : Answers P (pure a) := Answers.ok h

theorem Answers.error {α : Type} {P : α → Prop} {e : Stop} : Answers P (.error e) := by
  intro a h
  cases h

theorem Answers.raise {α : Type} {P : α → Prop} {c : Cause} {n : Nat} : Answers P (raise c n) := Answers.error

theorem Answers.bind {α β : Type} {P : β → Prop} {x : Except Stop α} {f : α → Except Stop β}
    (h : ∀ a, x = .ok a → Answers P (f a)) : Answers P (x >>= f) := by
  intro b hb
  obtain ⟨a, ha, hb⟩ := bind_ok hb
  exact h a ha b hb

theorem Answers.ite {α : Type} {P : α → Prop} {c : Prop} [Decidable c] {x y : Except Stop α}
    (hx : c → Answers P x) (hy : ¬ c → Answers P y) : Answers P (if c then x else y) := by
  split
  · next h => exact hx h
  · next h => exact hy h

/-! ## The field (43_gf256 R172, R173) -/

theorem gfMul_of_ne_zero {a b : Byte} (ha : a ≠ 0) (hb : b ≠ 0) :
    gfMul a b = expAt ((logAt a + logAt b) % 255) := by
  rw [gfMul, if_neg (not_or.mpr ⟨ha, hb⟩)]

theorem gfMul_ne_zero {a b : Byte} (ha : a ≠ 0) (hb : b ≠ 0) : gfMul a b ≠ 0 := by
  rw [gfMul_of_ne_zero ha hb]
  exact expAt_ne_zero _ (by omega)

theorem gfMul_zero_left (b : Byte) : gfMul 0 b = 0 := by simp [gfMul]

theorem gfMul_zero_right (a : Byte) : gfMul a 0 = 0 := by simp [gfMul]

theorem logAt_gfMul {a b : Byte} (ha : a ≠ 0) (hb : b ≠ 0) : logAt (gfMul a b) = (logAt a + logAt b) % 255 := by
  rw [gfMul_of_ne_zero ha hb]
  exact logAt_expAt _ (by omega)

theorem gfInv_ok {a b : Byte} (h : gfInv a = .ok b) : a ≠ 0 ∧ b ≠ 0 ∧ (logAt a + logAt b) % 255 = 0 := by
  unfold gfInv at h
  split at h
  · cases h
  · next ha =>
    injection h with h
    subst h
    have hlog := (expAt_logAt ha).1
    refine ⟨ha, expAt_ne_zero _ (by omega), ?_⟩
    by_cases h0 : logAt a = 0
    · rw [h0]
      rfl
    · rw [logAt_expAt _ (by omega)]
      omega

/-- Multiplying by an element undoes multiplying by its inverse. -/
theorem gfMul_gfMul_inv {g li : Byte} (r : Byte) (h : gfInv g = .ok li) : gfMul g (gfMul r li) = r := by
  obtain ⟨hg, hli, hlog⟩ := gfInv_ok h
  by_cases hr : r = 0
  · rw [hr, gfMul_zero_left, gfMul_zero_right]
  · obtain ⟨hlt, hexp⟩ := expAt_logAt hr
    rw [gfMul_of_ne_zero hg (gfMul_ne_zero hr hli), logAt_gfMul hr hli]
    have : (logAt g + (logAt r + logAt li) % 255) % 255 = logAt r := by omega
    rw [this, hexp]

/-! ## Lengths of polynomials (44_polynomial) -/

theorem stripZeros_length_le (f : List Byte) : (stripZeros f).length ≤ f.length := by
  fun_induction stripZeros f with
  | case1 => exact le_rfl
  | case2 => exact le_rfl
  | case3 d cs ih => exact Nat.le_succ_of_le ih
  | case4 => exact le_rfl

/-- A leading zero of a polynomial of at least two coefficients is removed. -/
theorem stripZeros_length_lt {f : List Byte} (h2 : 2 ≤ f.length) (h0 : f.headD 0 = 0) :
    (stripZeros f).length < f.length := by
  match f with
  | c :: d :: cs =>
    have hc : c = 0 := h0
    have := stripZeros_length_le (d :: cs)
    simp only [stripZeros, hc, if_true, List.length_cons] at this ⊢
    omega

theorem poly_length_le {f g : List Byte} (h : poly f = .ok g) : g.length ≤ f.length := by
  obtain ⟨-, rfl⟩ := poly_ok h
  exact stripZeros_length_le f

theorem xorAligned_length {f g : List Byte} (h : g.length ≤ f.length) : (xorAligned f g).length = f.length := by
  simp only [xorAligned, List.length_append, List.length_take, List.length_zipWith, List.length_drop]
  omega

/-- The leading coefficient of a sum: that of the longer summand, or the sum of both. -/
theorem xorAligned_headD {f g : List Byte} (h : g.length ≤ f.length) (hg : g ≠ []) :
    (xorAligned f g).headD 0 = if g.length = f.length then gfAdd (f.headD 0) (g.headD 0) else f.headD 0 := by
  match f, g with
  | [], b :: bs => simp at h
  | a :: as, b :: bs =>
    split
    · next he => simp [xorAligned, he]
    · next hne =>
      obtain ⟨n, hn⟩ : ∃ n, (a :: as).length - (b :: bs).length = n + 1 :=
        ⟨(a :: as).length - (b :: bs).length - 1, by omega⟩
      rw [xorAligned, hn, List.take_succ_cons]
      rfl

theorem polyAdd_length_le (f g : List Byte) : (polyAdd f g).length ≤ max f.length g.length := by
  unfold polyAdd
  refine (stripZeros_length_le _).trans ?_
  split
  · next h => rw [xorAligned_length h]; omega
  · next h => rw [xorAligned_length (by omega)]; omega

theorem mulRows_length {f : List Byte} (g : List Byte) (hf : f ≠ []) :
    (mulRows f g).length = f.length + g.length - 1 := by
  induction f with
  | nil => exact absurd rfl hf
  | cons c cs ih =>
    match cs, ih with
    | [], _ => simp [mulRows]
    | d :: cs, ih =>
      have hlow := ih (List.cons_ne_nil d cs)
      have hhigh : (g.map (gfMul c) ++ List.replicate (cs.length + 1) 0).length = g.length + (cs.length + 1) := by simp
      rw [List.length_cons] at hlow
      rw [mulRows, xorAligned_length (by omega), hhigh, List.length_cons, List.length_cons]
      omega

theorem isZero_false_of_length {f : List Byte} (h : 2 ≤ f.length) : isZero f = false := by
  rw [isZero, beq_eq_false_iff_ne]
  rintro rfl
  simp at h

theorem polyMul_length_le {f g r : List Byte} (h : polyMul f g = .ok r) : r.length ≤ Config.pMax := by
  refine (?_ : Answers (·.length ≤ Config.pMax) (polyMul f g)) r h
  refine .ite (fun _ => .ok (by decide)) fun _ => .ite (fun _ => .raise) fun hlen => .ok ?_
  match f with
  | [] => exact Nat.zero_le _
  | a :: f =>
    rw [mulRows_length g (List.cons_ne_nil a f)]
    omega

theorem polyMul_length {f g r : List Byte} (hf : f ≠ []) (hzf : isZero f = false) (hzg : isZero g = false)
    (h : polyMul f g = .ok r) : r.length = f.length + g.length - 1 := by
  refine (?_ : Answers (·.length = f.length + g.length - 1) (polyMul f g)) r h
  refine .ite (fun hz => absurd hz (by simp [hzf, hzg])) fun _ => .ite (fun _ => .raise) fun _ => .ok ?_
  exact mulRows_length g hf

theorem polyMulm_length_le {f r : List Byte} {d : Nat} {c : Byte} (h : polyMulm f d c = .ok r) :
    r.length ≤ Config.pMax := by
  refine (?_ : Answers (·.length ≤ Config.pMax) (polyMulm f d c)) r h
  refine .ite (fun _ => .ok (by decide)) fun _ => .ite (fun _ => .raise) fun hlen => .ok ?_
  rw [List.length_append, List.length_map, List.length_replicate]
  omega

theorem polyMono_length_le {d : Nat} {c : Byte} {r : List Byte} (h : polyMono d c = .ok r) :
    r.length ≤ Config.pMax := by
  refine (?_ : Answers (·.length ≤ Config.pMax) (polyMono d c)) r h
  refine .ite (fun _ => .ok (by decide)) fun _ => .ite (fun _ => .raise) fun hlen => .ok ?_
  rw [List.length_cons, List.length_replicate]
  omega

/-! ## Division (44_polynomial R198) -/

/-- One turn of the division removes the leading coefficient of the remainder. -/
theorem divTurn_length_lt {g r gm : List Byte} {li : Byte} (hli : gfInv (g.headD 0) = .ok li) (hg : 2 ≤ g.length)
    (hr : g.length ≤ r.length) (h : polyMulm g (degree r - degree g) (gfMul (r.headD 0) li) = .ok gm) :
    (polyAdd r gm).length < r.length := by
  have hcancel := gfMul_gfMul_inv (r.headD 0) hli
  obtain ⟨-, hli0, -⟩ := gfInv_ok hli
  suffices hgm : gm.length ≤ r.length ∧ (xorAligned r gm).headD 0 = 0 by
    obtain ⟨hlen, hhead⟩ := hgm
    rw [polyAdd, if_pos hlen]
    calc (stripZeros (xorAligned r gm)).length
        < (xorAligned r gm).length := stripZeros_length_lt (by rw [xorAligned_length hlen]; omega) hhead
      _ = r.length := xorAligned_length hlen
  refine (?_ : Answers (fun gm => gm.length ≤ r.length ∧ (xorAligned r gm).headD 0 = 0) (polyMulm _ _ _)) gm h
  refine .ite (fun hz => .ok ?_) fun _ => .ite (fun _ => .raise) fun _ => .ok ?_
  · have hsc : gfMul (r.headD 0) li = 0 := by simpa [isZero_false_of_length hg] using hz
    have hr0 : r.headD 0 = 0 := by
      by_contra hne
      exact gfMul_ne_zero hne hli0 hsc
    have hlen : [(0 : Byte)].length ≤ r.length := by
      rw [List.length_singleton]
      omega
    refine ⟨hlen, ?_⟩
    rw [xorAligned_headD hlen (List.cons_ne_nil _ _), if_neg (by rw [List.length_singleton]; omega), hr0]
  · match g with
    | c :: cs =>
      have hlen : ((c :: cs).map (fun u => gfMul u (gfMul (r.headD 0) li)) ++
          List.replicate (degree r - degree (c :: cs)) 0).length = r.length := by
        simp only [degree, List.length_append, List.length_map, List.length_replicate, List.length_cons] at *
        omega
      refine ⟨hlen.le, ?_⟩
      rw [xorAligned_headD hlen.le (by simp), if_pos hlen]
      change gfAdd (r.headD 0) (gfMul c (gfMul (r.headD 0) li)) = 0
      rw [show gfMul c (gfMul (r.headD 0) li) = r.headD 0 from hcancel]
      exact BitVec.xor_self

/-- With a turn for every coefficient, the division ends below the degree of the divisor. -/
theorem divLoop_remainder_lt {g : List Byte} {li : Byte} (hli : gfInv (g.headD 0) = .ok li) (hg : 2 ≤ g.length)
    {fuel : Nat} {q r : List Byte} (hr : r.length ≤ fuel) :
    Answers (fun p => p.2.length < g.length) (divLoop g li fuel q r) := by
  induction fuel generalizing q r with
  | zero => exact .ok (show r.length < g.length by omega)
  | succ fuel ih =>
    refine .ite (fun hc => .bind fun m _ => .bind fun gm hgm => ih ?_) fun hc => .ok ?_
    · have hle : g.length ≤ r.length := by
        have := hc.1
        simp only [degree] at this
        omega
      have := divTurn_length_lt hli hg hle hgm
      omega
    · change r.length < g.length
      by_cases hz : isZero r = false
      · have : ¬ degree g ≤ degree r := fun h => hc ⟨h, hz⟩
        simp only [degree] at this
        omega
      · have : r = [0] := by simpa [isZero] using hz
        rw [this, List.length_singleton]
        omega

theorem divLoop_remainder_le {g : List Byte} {li : Byte} {fuel : Nat} {q r : List Byte}
    (hr : r.length ≤ Config.pMax) : Answers (fun p => p.2.length ≤ Config.pMax) (divLoop g li fuel q r) := by
  induction fuel generalizing q r with
  | zero => exact .ok hr
  | succ fuel ih =>
    refine .ite (fun _ => .bind fun m _ => .bind fun gm hgm => ih ?_) fun _ => .ok hr
    exact (polyAdd_length_le r gm).trans (max_le hr (polyMulm_length_le hgm))

theorem polyMod_length_lt {f g r : List Byte} (hg : 2 ≤ g.length) (h : polyMod f g = .ok r) :
    r.length < g.length := by
  obtain ⟨p, hp, h⟩ := bind_ok h
  obtain ⟨li, hli, hp⟩ := bind_ok hp
  injection h with h
  exact h ▸ divLoop_remainder_lt hli hg le_rfl p hp

theorem polyMod_length_le {f g r : List Byte} (hf : f.length ≤ Config.pMax) (h : polyMod f g = .ok r) :
    r.length ≤ Config.pMax := by
  obtain ⟨p, hp, h⟩ := bind_ok h
  obtain ⟨li, -, hp⟩ := bind_ok hp
  injection h with h
  exact h ▸ divLoop_remainder_le hf p hp

end Sys2Proof.Machine
end

section
/-! SUPPORT. The lengths of what the Reed-Solomon unit answers (45_reed_solomon). -/

namespace Sys2Proof.Machine

theorem rsGenFrom_length_le {g : List Byte} {i n : Nat} (hg : g.length ≤ Config.pMax) :
    Answers (·.length ≤ Config.pMax) (rsGenFrom g i n) := by
  induction n generalizing g i with
  | zero => exact .ok hg
  | succ n ih => exact .bind fun h hh => ih (polyMul_length_le hh)

/-- Every factor raises the degree of a non-zero polynomial by one. -/
theorem rsGenFrom_length {g : List Byte} {i n : Nat} (hg : g ≠ []) (hz : isZero g = false) :
    Answers (·.length = g.length + n) (rsGenFrom g i n) := by
  induction n generalizing g i with
  | zero => exact .ok rfl
  | succ n ih =>
    refine .bind fun h hh => ?_
    have hpos := List.length_pos_iff.mpr hg
    have hlen : h.length = g.length + 1 := polyMul_length hg hz (isZero_false_of_length (by simp)) hh
    have hne : h ≠ [] := List.length_pos_iff.mp (by omega)
    have hrest := ih (i := i + 1) hne (isZero_false_of_length (by omega))
    rw [hlen, Nat.add_right_comm] at hrest
    exact hrest

theorem rsGen_length {t : Nat} {g : List Byte} (h : rsGen t = .ok g) : g.length = t + 1 := by
  rw [rsGenFrom_length (List.cons_ne_nil 1 []) (by decide) g h, List.length_singleton, Nat.add_comm]

theorem rsGen_length_le {t : Nat} {g : List Byte} (h : rsGen t = .ok g) : g.length ≤ Config.pMax :=
  rsGenFrom_length_le (by decide) g h

/-- The ECC of `t` bytes has `t` bytes: the remainder by a generator of degree `t` is shorter (R222). -/
theorem rsEcc_length {d : List Byte} {t : Nat} (ht : 0 < t) : Answers (·.length = t) (rsEcc d t) := by
  refine .bind fun f _ => .bind fun g hg => .bind fun rem hrem => .pure ?_
  have hgen := rsGen_length hg
  have hlt := polyMod_length_lt (by omega) hrem
  split
  · exact List.length_replicate
  · rw [List.length_append, List.length_replicate]
    omega

theorem rsEncode_length {d : List Byte} {t : Nat} (ht : 0 < t) :
    Answers (·.length = d.length + t) (rsEncode d t) :=
  .bind fun ecc hecc => .pure (by rw [List.length_append, rsEcc_length ht ecc hecc])

theorem syndromesDown_length (f : List Byte) (n : Nat) : (syndromesDown f n).length = n := by
  induction n with
  | zero => rfl
  | succ n ih => rw [syndromesDown, List.length_cons, ih]

theorem rsSyndromes_length {c : List Byte} {t : Nat} : Answers (·.1.length ≤ t) (rsSyndromes c t) :=
  .bind fun f _ => .bind fun _ hsx => .pure ((poly_length_le hsx).trans (syndromesDown_length f t).le)

/-- A soft result that is a success satisfies `P`. -/
def Softly {α : Type} (P : α → Prop) (r : Soft α) : Prop := ∀ a, r = .ok a → P a

theorem Softly.ok {α : Type} {P : α → Prop} {a : α} (h : P a) : Softly P (.ok a) := by
  intro b hb
  injection hb with hb
  exact hb ▸ h

theorem Softly.error {α : Type} {P : α → Prop} {n : Nat} : Softly P (.error n) := by
  intro a h
  cases h

theorem euclidLoop_length_le {t : Nat} (fuel : Nat) {rLast r tLast tt : List Byte} :
    Answers (Softly fun p => p.1.length ≤ Config.pMax ∧ p.2.length ≤ Config.pMax)
      (euclidLoop t fuel rLast r tLast tt) := by
  unfold euclidLoop
  refine .ite (fun _ => ?turn) fun _ => .ite (fun _ => .pure .error) fun _ => .bind fun inv0 _ =>
    .bind fun sigma hs => .bind fun omega ho => .pure (.ok ⟨polyMulm_length_le hs, polyMulm_length_le ho⟩)
  case turn =>
    match fuel with
    | 0 => exact .ok .error
    | fuel + 1 =>
      exact .ite (fun _ => .pure .error) fun _ => .bind fun p _ => .bind fun m _ => euclidLoop_length_le fuel

theorem rsEuclid_length_le {sx : List Byte} {t : Nat} :
    Answers (Softly fun p => p.1.length ≤ Config.pMax ∧ p.2.length ≤ Config.pMax) (rsEuclid sx t) :=
  .bind fun _ _ => euclidLoop_length_le t

theorem chienFrom_length_le {sigma : List Byte} {j n : Nat} : Answers (·.length ≤ n) (chienFrom sigma j n) := by
  induction n generalizing j with
  | zero => exact .ok le_rfl
  | succ n ih =>
    refine .ite (fun _ => .bind fun loc _ => .bind fun rest hrest => .pure ?_) fun _ a ha => ?_
    · exact Nat.succ_le_succ (ih rest hrest)
    · exact Nat.le_succ_of_le (ih a ha)

theorem rsChien_length_le {sigma : List Byte} : Answers (Softly (·.length ≤ 255)) (rsChien sigma) := by
  refine .bind fun locs hlocs => .pure ?_
  split
  · exact .error
  · exact .ok (chienFrom_length_le locs hlocs)

theorem forneyFrom_length {omega locs : List Byte} {i n : Nat} :
    Answers (·.length = n) (forneyFrom omega locs i n) := by
  induction n generalizing i with
  | zero => exact .ok rfl
  | succ n ih =>
    refine .bind fun xin _ => .bind fun deninv _ => .bind fun rest hrest => .pure ?_
    rw [List.length_cons, ih rest hrest]

theorem xorAt_length (out : List Byte) (ms : List (Nat × Byte)) : (xorAt out ms).length = out.length := by
  induction ms generalizing out with
  | nil => rfl
  | cons m ms ih => rw [xorAt, ih, List.length_modify]

theorem rsCorrect_length {c locs mags : List Byte} :
    Answers (Softly (·.length = c.length)) (rsCorrect c locs mags) := by
  refine .bind fun ps _ => ?_
  match ps with
  | none => exact .pure .error
  | some ps => exact .pure (.ok (xorAt_length c _))

theorem rsDecode_length {c : List Byte} {t : Nat} : Answers (Softly (·.2.length = c.length)) (rsDecode c t) := by
  refine .bind fun sa _ => .ite (fun _ => .pure (.ok rfl)) fun _ => .bind fun so _ => ?_
  match so with
  | .error st => exact .pure .error
  | .ok (sigma, omega) =>
    refine .bind fun locs _ => ?_
    match locs with
    | .error st => exact .pure .error
    | .ok locs =>
      refine .bind fun mags _ => .bind fun out hout => ?_
      match out, hout with
      | .error st, _ => exact .pure .error
      | .ok out, hout => exact .pure (.ok (rsCorrect_length _ hout out rfl))

end Sys2Proof.Machine
end

section
/-! SUPPORT. The lengths of the codeword stream and of the packed symbol (47_codeword_bch R280, R281; 48_matrix R338). -/

namespace Sys2Proof.Machine

theorem foldl_max_length_le {seqs : List (List Byte)} {m : Nat} :
    m ≤ seqs.foldl (fun m q => max m q.length) m ∧
      ∀ q ∈ seqs, q.length ≤ seqs.foldl (fun m q => max m q.length) m := by
  induction seqs generalizing m with
  | nil => simp
  | cons p ps ih =>
    obtain ⟨hm, hps⟩ := ih (m := max m p.length)
    rw [List.foldl_cons]
    refine ⟨le_trans (le_max_left _ _) hm, fun q hq => ?_⟩
    obtain rfl | hq := List.mem_cons.mp hq
    · exact le_trans (le_max_right _ _) hm
    · exact hps q hq

theorem column_cons_length (q : List Byte) (qs : List (List Byte)) (i : Nat) :
    ((q :: qs).filterMap fun q => q[i]?).length =
      (if i < q.length then 1 else 0) + (qs.filterMap fun q => q[i]?).length := by
  split
  · next h => simp [h, Nat.add_comm]
  · next h => simp [h]

theorem sum_range_lt (m n : Nat) : ((List.range m).map fun i => if i < n then 1 else 0).sum = min m n := by
  induction m with
  | zero => simp
  | succ m ih =>
    rw [List.range_succ, List.map_append, List.sum_append, ih, List.map_singleton, List.sum_singleton]
    split <;> omega

/-- The columns below `m` hold every element of sequences no longer than `m`. -/
theorem columns_length {seqs : List (List Byte)} {m : Nat} (h : ∀ q ∈ seqs, q.length ≤ m) :
    ((List.range m).flatMap fun i => seqs.filterMap fun q => q[i]?).length = (seqs.map List.length).sum := by
  rw [List.length_flatMap]
  induction seqs with
  | nil => simp
  | cons q qs ih =>
    have hq : q.length ≤ m := h q List.mem_cons_self
    simp only [column_cons_length]
    rw [List.sum_map_add, sum_range_lt, ih fun p hp => h p (List.mem_cons_of_mem q hp), Nat.min_eq_right hq,
      List.map_cons, List.sum_cons]

theorem interleave_length (seqs : List (List Byte)) :
    (interleave seqs).length = (seqs.map List.length).sum :=
  columns_length foldl_max_length_le.2

/-- The split of as much data as the blocks take: every block is its data and its ECC. -/
theorem splitBlocks_length {shapes : List (Nat × Nat)} {data : List Byte} (hs : ∀ t ∈ shapes, t.2 < t.1)
    (hd : data.length = (shapes.map Prod.snd).sum) :
    Answers (fun blocks => (blocks.map fun b => b.1.length).sum + (blocks.map fun b => b.2.length).sum =
      (shapes.map Prod.fst).sum) (splitBlocks shapes data) := by
  induction shapes generalizing data with
  | nil => exact .ok rfl
  | cons t ts ih =>
    obtain ⟨n, k⟩ := t
    rw [List.map_cons, List.sum_cons] at hd
    have hk : k < n := hs (n, k) List.mem_cons_self
    refine .bind fun e he => .bind fun rest hrest => .pure ?_
    have hecc := rsEcc_length (by omega) e he
    have htail := ih (fun t ht => hs t (List.mem_cons_of_mem _ ht)) (by rw [List.length_drop]; omega) rest hrest
    simp only [List.map_cons, List.sum_cons, List.length_take, hecc]
    omega

theorem sum_blockShapes (groups : List (Nat × Nat × Nat)) :
    ((blockShapes groups).map Prod.snd).sum = (groups.map fun t => t.1 * t.2.2).sum ∧
    ((blockShapes groups).map Prod.fst).sum = (groups.map fun t => t.1 * t.2.1).sum := by
  induction groups with
  | nil => exact ⟨rfl, rfl⟩
  | cons t ts ih =>
    obtain ⟨hk, hn⟩ := ih
    simp only [blockShapes, List.flatMap_cons, List.map_append, List.sum_append, List.map_replicate,
      List.sum_replicate, List.map_cons, List.sum_cons, smul_eq_mul] at hk hn ⊢
    exact ⟨by rw [hk], by rw [hn]⟩

theorem sum_layout (f : ParamCsrs) :
    ((layout f).map fun t => t.1 * t.2.2).sum = sourceLength f ∧
    ((layout f).map fun t => t.1 * t.2.1).sum = streamLength f := by
  unfold layout sourceLength streamLength
  split
  · simp
  · next h =>
    have : f.g2cnt.toNat = 0 := by omega
    simp [this]

theorem checkLayout_ok {f : ParamCsrs} {u : Unit} (h : checkLayout f = .ok u) :
    ∀ t ∈ blockShapes (layout f), t.2 < t.1 := by
  obtain ⟨_, -, h⟩ := bind_ok h
  obtain ⟨_, -, h⟩ := bind_ok h
  obtain ⟨_, h1, h⟩ := bind_ok h
  obtain ⟨_, -, h⟩ := bind_ok h
  have h1 := badOperandIf_ok h1
  have h2 := badOperandIf_ok h
  simp only [decide_eq_false_iff_not, not_le, not_and] at h1 h2
  intro t ht
  simp only [blockShapes, List.mem_flatMap, List.mem_replicate] at ht
  obtain ⟨g, hg, -, rfl⟩ := ht
  unfold layout at hg
  split at hg
  · next hpos =>
    obtain rfl | hg := List.mem_cons.mp hg
    · exact h1
    · exact List.mem_singleton.mp hg ▸ h2 hpos
  · exact List.mem_singleton.mp hg ▸ h1

/-- CWENC's output has the length of the range it checked (R281). -/
theorem cwSequence_length {f : ParamCsrs} {data : List Byte} {u : Unit} (h : checkLayout f = .ok u)
    (hd : data.length = sourceLength f) : Answers (·.length = streamLength f) (cwSequence data (layout f)) := by
  obtain ⟨hsrc, hstream⟩ := sum_layout f
  obtain ⟨hk, hn⟩ := sum_blockShapes (layout f)
  refine .bind fun blocks hblocks => .pure ?_
  have := splitBlocks_length (checkLayout_ok h) (by rw [hd, hk, hsrc]) blocks hblocks
  rw [List.length_append, interleave_length, interleave_length, List.map_map, List.map_map]
  rw [hn, hstream] at this
  exact this

theorem packBits_length (gs : List Bool) {acc : Byte} {k : Nat} (hk : k ≤ 7) :
    (packBits acc k gs).length = (k + gs.length + 7) / 8 := by
  induction gs generalizing acc k with
  | nil =>
    rw [packBits]
    split
    · next h => simp [h]
    · simp only [List.length_cons, List.length_nil]
      omega
  | cons g gs ih =>
    simp only [packBits]
    split
    · rw [List.length_cons, ih (by omega), List.length_cons]
      omega
    · rw [ih (by omega), List.length_cons, Nat.add_assoc k 1, Nat.add_comm 1]

theorem readColours_length {mm : Memory ModuleCell} {cs : List (Nat × Nat)} :
    Answers (·.length = cs.length) (readColours mm cs) := by
  induction cs with
  | nil => exact .ok rfl
  | cons t ts ih =>
    refine .bind fun g _ => .bind fun gs hgs => .pure ?_
    rw [List.length_cons, ih gs hgs, List.length_cons]

theorem readRows_length {d : Nat} {mm : Memory ModuleCell} {r n : Nat} :
    Answers (·.flatten.length = n * d) (readRows d mm r n) := by
  induction n generalizing r with
  | zero => exact .ok (Nat.zero_mul d).symm
  | succ n ih =>
    refine .bind fun row hrow => .bind fun rows hrows => .pure ?_
    rw [List.flatten_cons, List.length_append, readColours_length row hrow, ih rows hrows, List.length_map,
      List.length_range, Nat.succ_mul, Nat.add_comm]

/-- MXOUT stores as many bytes as it checked the range for (R338). -/
theorem packBits_readMatrix_length {d : Nat} {mm : Memory ModuleCell} :
    Answers (fun rows => (packBits 0 0 rows.flatten).length = packedLength d) (readMatrix d mm) := by
  intro rows h
  rw [packBits_length _ (by omega), readRows_length rows h, Nat.zero_add, packedLength]

end Sys2Proof.Machine
end

section
/-! SUPPORT. What the bit-stream writer stores and what it leaves unchanged (46_bitstream). -/

namespace Sys2Proof.Machine

/-- Bytes outside the positions `q` to `q + n - 1` read as before. -/
theorem read_putBits_outside {value : Word} {base n q a : Nat} {dm dm' : Memory Byte}
    (h : putBits value base n q dm = .ok dm') (ha : a < base + q / 8 ∨ base + (q + n + 7) / 8 ≤ a) :
    Memory.read dm' a = Memory.read dm a := by
  induction n generalizing q dm with
  | zero =>
    injection h with h
    rw [h]
  | succ n ih =>
    rw [putBits] at h
    obtain ⟨old, -, h⟩ := bind_ok h
    have hrest : a < base + (q + 1) / 8 ∨ base + (q + 1 + n + 7) / 8 ≤ a := by omega
    have hne : a ≠ streamByte base q := by
      unfold streamByte
      omega
    rw [ih h hrest, Memory.read_write_ne _ _ hne]

/-- `t` is `s` with the bits from WLEN up to `q` appended to its stream: DM from the byte of WLEN to the byte of the last
bit and WLEN itself may differ, nothing else. -/
structure StreamExtended (s t : State) (q : Nat) : Prop where
  state : t = { s with dm := t.dm, csr := { s.csr with wlen := BitVec.ofNat 32 q } }
  le : s.csr.wlen.toNat ≤ q
  frame : ∀ a, a < s.csr.wbase.toNat + s.csr.wlen.toNat / 8 ∨ s.csr.wbase.toNat + (q + 7) / 8 ≤ a →
    Memory.read t.dm a = Memory.read s.dm a

theorem StreamExtended.refl (s : State) : StreamExtended s s s.csr.wlen.toNat where
  state := by simp
  le := le_rfl
  frame _ _ := rfl

theorem StreamExtended.wbase {s t : State} {q : Nat} (h : StreamExtended s t q) : t.csr.wbase = s.csr.wbase := by
  rw [h.state]

theorem StreamExtended.wlen {s t : State} {q : Nat} (h : StreamExtended s t q) (hq : q < 2 ^ 32) :
    t.csr.wlen.toNat = q := by
  rw [h.state]
  exact Nat.mod_eq_of_lt hq

theorem StreamExtended.trans {s t u : State} {q r : Nat} (hq : q < 2 ^ 32) (h : StreamExtended s t q)
    (h' : StreamExtended t u r) : StreamExtended s u r where
  state := by
    have h1 := h'.state
    rw [h.state] at h1
    exact h1
  le := by
    have := h.le
    have := h'.le
    rw [h.wlen hq] at this
    omega
  frame a ha := by
    have h1 := h.le
    have h2 := h'.le
    have h3 := h'.frame a
    rw [h.wlen hq] at h2
    rw [h.wlen hq, h.wbase] at h3
    rw [h3 (by omega), h.frame a (by omega)]

theorem bbPut_extends {value : Word} {n : Nat} {s t : State} (h : bbPut value n s = .ok t) :
    StreamExtended s t (s.csr.wlen.toNat + n) := by
  obtain ⟨dm, hdm, -, rfl⟩ := bbPut_ok h
  exact ⟨rfl, Nat.le_add_right _ _, fun a ha => read_putBits_outside hdm ha⟩

theorem padBytes_extends {count k : Nat} {s t : State} (hq : s.csr.wlen.toNat + 8 * count < 2 ^ 32)
    (h : padBytes count k s = .ok t) : StreamExtended s t (s.csr.wlen.toNat + 8 * count) := by
  induction count generalizing k s with
  | zero =>
    injection h with h
    exact h ▸ .refl s
  | succ count ih =>
    obtain ⟨u, hu, h⟩ := bind_ok h
    have hput := bbPut_extends hu
    have hu : u.csr.wlen.toNat = s.csr.wlen.toNat + 8 := hput.wlen (by omega)
    have hrest := hput.trans (by omega) (ih (by omega) h)
    rw [hu, Nat.add_assoc, Nat.add_comm 8, ← Nat.mul_succ] at hrest
    exact hrest

/-- `bb_pad(M)` of a whole number of bytes fills the stream up to `M` (R265). -/
theorem bbPad_extends {m : Nat} {s t : State} (hm : m < 2 ^ 32) (h8 : m % 8 = 0) (h : bbPad m s = .ok t) :
    StreamExtended s t m ∧
      (s.csr.wlen.toNat < m → s.csr.wbase.toNat + m / 8 ≤ Config.dmBytes) := by
  unfold bbPad at h
  dsimp only at h
  split at h
  · cases h
  · split at h
    · cases h
    · next hle hfit =>
      obtain ⟨u, hu, h⟩ := bind_ok h
      obtain ⟨v, hv, h⟩ := bind_ok h
      have h1 := bbPut_extends hu
      have h2 := bbPut_extends hv
      have hwu := h1.wlen (by omega)
      rw [hwu] at h2
      have hwv := h2.wlen (by omega)
      have h3 := padBytes_extends (by omega) h
      have hend : v.csr.wlen.toNat + 8 * ((m - v.csr.wlen.toNat) / 8) = m := by omega
      rw [hend] at h3
      exact ⟨(h1.trans (by omega) h2).trans (by omega) h3, fun hlt => by omega⟩

end Sys2Proof.Machine
end

section
/-! SUPPORT. What the matrix builder leaves unchanged, cell by cell (48_matrix R301 to R323). -/

namespace Sys2Proof.Machine

theorem writtenCell_ok {mm : Memory ModuleCell} {r c : Nat} {m : ModuleCell} (h : writtenCell mm r c = .ok m) :
    Memory.read mm (cellKey r c) = some m := by
  unfold writtenCell at h
  split at h
  · next hm =>
    injection h with h
    exact h ▸ hm
  · cases h

/-- The key of a cell of the symbol gives its row and its column back. -/
theorem cellKey_div_mod {r c : Nat} (hc : c < Config.mmDim) :
    cellKey r c / Config.mmDim = r ∧ cellKey r c % Config.mmDim = c := by
  simp only [cellKey, Config.mmDim] at *
  omega

theorem inSymbol_cellKey {d r c : Nat} (hd : d ≤ Config.mmDim) (hr : r < d) (hc : c < d) :
    inSymbol d (cellKey r c) = true := by
  obtain ⟨hdiv, hmod⟩ := cellKey_div_mod (r := r) (hc.trans_le hd)
  simp [inSymbol, hdiv, hmod, hr, hc]

theorem covers_iff {stamps : List Stamp} {k : Nat} :
    covers stamps k = true ↔ ∃ t ∈ stamps, cellKey t.1 t.2.1 = k := by
  simp [covers]

theorem covers_cons (t : Stamp) (ts : List Stamp) (k : Nat) :
    covers (t :: ts) k = (cellKey t.1 t.2.1 == k || covers ts k) := rfl

theorem covers_append (ts us : List Stamp) (k : Nat) : covers (ts ++ us) k = (covers ts k || covers us k) :=
  List.any_append

/-- A pattern inside the symbol covers cells of the symbol only. -/
theorem StampsIn.inSymbol_of_covers {d : Nat} {stamps : List Stamp} (hs : StampsIn d stamps) (hd : d ≤ Config.mmDim)
    {k : Nat} (h : covers stamps k = true) : inSymbol d k = true := by
  obtain ⟨t, ht, rfl⟩ := covers_iff.mp h
  obtain ⟨hr, hc⟩ := hs t ht
  exact inSymbol_cellKey hd hr hc

theorem StampsIn.covers_eq_false {d : Nat} {stamps : List Stamp} (hs : StampsIn d stamps) (hd : d ≤ Config.mmDim)
    {k : Nat} (hk : inSymbol d k = false) : covers stamps k = false := by
  by_contra hc
  rw [hs.inSymbol_of_covers hd (by simpa using hc)] at hk
  cases hk

theorem StampsIn.append {d : Nat} {ts us : List Stamp} (ht : StampsIn d ts) (hu : StampsIn d us) :
    StampsIn d (ts ++ us) := by
  intro t h
  obtain h | h := List.mem_append.mp h
  · exact ht t h
  · exact hu t h

theorem finderPattern_in (d : Nat) : StampsIn d (finderPattern d) :=
  ((finderStamps_in d 0 0).append (finderStamps_in d (d - 7) 0)).append (finderStamps_in d 0 (d - 7))

theorem read_setAll_outside {stamps : List Stamp} {mm : Memory ModuleCell} {k : Nat} (h : covers stamps k = false) :
    Memory.read (setAll mm stamps) k = Memory.read mm k := by
  induction stamps generalizing mm with
  | nil => rfl
  | cons t ts ih =>
    rw [covers_cons, Bool.or_eq_false_iff, beq_eq_false_iff_ne] at h
    obtain ⟨hk, hts⟩ := h
    rw [setAll, ih hts, setCell, Memory.read_write_ne _ _ hk.symm]

theorem read_unsetAll_outside {cs : List (Nat × Nat)} {mm : Memory ModuleCell} {k : Nat}
    (h : ∀ t ∈ cs, cellKey t.1 t.2 ≠ k) : Memory.read (unsetAll mm cs) k = Memory.read mm k := by
  induction cs generalizing mm with
  | nil => rfl
  | cons t ts ih =>
    rw [unsetAll, ih fun u hu => h u (List.mem_cons_of_mem t hu),
      Memory.read_write_ne _ _ (h t List.mem_cons_self).symm]

theorem read_clearMatrix_outside {d : Nat} {mm : Memory ModuleCell} {k : Nat} (hd : d ≤ Config.mmDim)
    (h : inSymbol d k = false) : Memory.read (clearMatrix d mm) k = Memory.read mm k := by
  refine read_unsetAll_outside fun t ht he => ?_
  obtain ⟨hr, hc⟩ := cells_lt ht
  rw [← he, inSymbol_cellKey hd hr hc] at h
  cases h

/-! ### The cells a pass sets where they are UNSET -/

theorem mayBeUnset_congr {mm mm' : Memory ModuleCell} {k : Nat} (h : Memory.read mm' k = Memory.read mm k) :
    mayBeUnset mm' k = mayBeUnset mm k := by
  rw [mayBeUnset, h, mayBeUnset]

theorem mayBeUnset_of_writtenCell {mm : Memory ModuleCell} {r c : Nat} (h : writtenCell mm r c = .ok .unset) :
    mayBeUnset mm (cellKey r c) = true := by
  rw [mayBeUnset, writtenCell_ok h]

/-- Setting one cell if it is UNSET leaves another cell, and a cell that holds a colour, as it was. -/
theorem read_setIfUnset {mm : Memory ModuleCell} {r c k : Nat} {m : ModuleCell} {dark : Bool}
    (h : writtenCell mm r c = .ok m) (hk : cellKey r c = k → mayBeUnset mm k = false) :
    Memory.read (if m = .unset then setCell mm r c dark else mm) k = Memory.read mm k := by
  split
  · next hm =>
    refine Memory.read_write_ne _ _ fun he => ?_
    have hset := mayBeUnset_of_writtenCell (hm ▸ h)
    rw [← he, hk he.symm] at hset
    cases hset
  · rfl

theorem read_setWhereUnset_kept {stamps : List Stamp} {mm mm' : Memory ModuleCell} {k : Nat}
    (h : setWhereUnset mm stamps = .ok mm') (hk : covers stamps k = true → mayBeUnset mm k = false) :
    Memory.read mm' k = Memory.read mm k := by
  induction stamps generalizing mm with
  | nil =>
    injection h with h
    rw [h]
  | cons t ts ih =>
    obtain ⟨r, c, dark⟩ := t
    obtain ⟨m, hm, h⟩ := bind_ok h
    rw [covers_cons, Bool.or_eq_true, beq_iff_eq] at hk
    have hone := read_setIfUnset (dark := dark) hm fun he => hk (.inl he)
    rw [ih h fun hts => (mayBeUnset_congr hone).trans (hk (.inr hts)), hone]

theorem read_placeFrom_kept {bytes : List Byte} {m j : Nat} {cs : List (Nat × Nat)} {mm mm' : Memory ModuleCell}
    {k : Nat} (h : placeFrom bytes m mm j cs = .ok mm')
    (hk : ∀ t ∈ cs, cellKey t.1 t.2 = k → mayBeUnset mm k = false) : Memory.read mm' k = Memory.read mm k := by
  induction cs generalizing mm j with
  | nil =>
    injection h with h
    rw [h]
  | cons t ts ih =>
    obtain ⟨r, c⟩ := t
    obtain ⟨cell, hcell, h⟩ := bind_ok h
    have hone := read_setIfUnset (dark := dataBit bytes j ^^ maskPred m r c) hcell (hk (r, c) List.mem_cons_self)
    split at h
    · next hu =>
      rw [if_pos hu] at hone
      rw [ih h fun u hmem he => (mayBeUnset_congr hone).trans (hk u (List.mem_cons_of_mem _ hmem) he), hone]
    · exact ih h fun u hmem => hk u (List.mem_cons_of_mem _ hmem)

/-- Lanes that start at an even column, or left of column 6, never use column 6 (R320). -/
theorem lanes_ne_six {d fuel col : Nat} {up : Bool} (hcol : col % 2 = 0 ∨ col < 6) :
    ∀ t ∈ lanes d fuel col up, t.2 ≠ 6 := by
  induction fuel generalizing col up with
  | zero => simp [lanes]
  | succ fuel ih =>
    intro t ht
    simp only [lanes] at ht
    split at ht
    · cases ht
    · obtain ht | ht := List.mem_append.mp ht
      · simp only [List.mem_flatMap, List.mem_cons, List.not_mem_nil, or_false] at ht
        obtain ⟨r, -, rfl | rfl⟩ := ht <;> dsimp only <;> split <;> omega
      · refine ih ?_ t ht
        split <;> omega

/-- Data placement keeps every cell outside the symbol, every cell of column 6 and every coloured cell (R320, R322). -/
theorem read_placeData_kept {d : Nat} {bytes : List Byte} {m : Nat} {mm mm' : Memory ModuleCell} {k : Nat}
    (hd : 21 ≤ d ∧ d ≤ Config.mmDim ∧ d % 2 = 1) (h : placeData d bytes m mm = .ok mm')
    (hk : (inSymbol d k && k % Config.mmDim != 6 && mayBeUnset mm k) = false) :
    Memory.read mm' k = Memory.read mm k := by
  obtain ⟨h21, hle, hodd⟩ := hd
  refine read_placeFrom_kept h fun t ht he => ?_
  obtain ⟨hr, hc⟩ := path_in (by omega) t ht
  have hcol : k % Config.mmDim ≠ 6 := by
    rw [← he, (cellKey_div_mod (hc.trans_le hle)).2]
    exact lanes_ne_six (by omega) t ht
  have hin : inSymbol d k = true := he ▸ inSymbol_cellKey hle hr hc
  simpa [hin, hcol] using hk

/-! ### Alignment patterns -/

theorem alignWrites_in {d : Nat} {cs : List (Nat × Nat)} {mm : Memory ModuleCell}
    (hs : ∀ t ∈ cs, (2 ≤ t.1 ∧ t.1 ≤ d - 3) ∧ 2 ≤ t.2 ∧ t.2 ≤ d - 3) : StampsIn d (alignWrites mm cs) := by
  induction cs generalizing mm with
  | nil => exact fun t ht => absurd ht List.not_mem_nil
  | cons t ts ih =>
    have hstamps := alignStamps_in (hs t List.mem_cons_self).1 (hs t List.mem_cons_self).2
    have hrest : ∀ {mm}, StampsIn d (alignWrites mm ts) := ih fun u hu => hs u (List.mem_cons_of_mem t hu)
    rw [alignWrites]
    split
    · exact hstamps.append hrest
    · exact hrest
    · exact hrest
    · exact (hstamps.append hrest).append hrest

/-- MXALN sets no cell outside the patterns it may write. -/
theorem read_placeAlignAt_outside {cs : List (Nat × Nat)} {mm mm' : Memory ModuleCell} {k : Nat}
    (h : placeAlignAt mm cs = .ok mm') (hk : covers (alignWrites mm cs) k = false) :
    Memory.read mm' k = Memory.read mm k := by
  induction cs generalizing mm with
  | nil =>
    injection h with h
    rw [h]
  | cons t ts ih =>
    obtain ⟨r, c⟩ := t
    obtain ⟨m, hm, h⟩ := bind_ok h
    simp only [alignWrites, writtenCell_ok hm] at hk
    cases m with
    | unset =>
      rw [if_pos rfl] at h
      rw [covers_append, Bool.or_eq_false_iff] at hk
      obtain ⟨hstamps, hrest⟩ := hk
      rw [ih h hrest]
      exact read_setAll_outside hstamps
    | light =>
      rw [if_neg (by decide)] at h
      exact ih h hk
    | dark =>
      rw [if_neg (by decide)] at h
      exact ih h hk

theorem centrePairs_bounds {d : Nat} {f : ParamCsrs} (hc : ∀ a ∈ alignCentres f, 2 ≤ a ∧ a ≤ d - 3) :
    ∀ t ∈ centrePairs f, (2 ≤ t.1 ∧ t.1 ≤ d - 3) ∧ 2 ≤ t.2 ∧ t.2 ≤ d - 3 := by
  intro t ht
  simp only [centrePairs, List.mem_flatMap, List.mem_map] at ht
  obtain ⟨r, hr, c, hc', rfl⟩ := ht
  exact ⟨hc r hr, hc c hc'⟩

/-! ### Outside the symbol -/

/-- A pattern inside the symbol leaves every cell outside it. -/
theorem StampsIn.read_setAll {d : Nat} {stamps : List Stamp} (hs : StampsIn d stamps) (hd : d ≤ Config.mmDim)
    {mm : Memory ModuleCell} {k : Nat} (hk : inSymbol d k = false) :
    Memory.read (setAll mm stamps) k = Memory.read mm k :=
  read_setAll_outside (hs.covers_eq_false hd hk)

theorem read_buildPass_outside {d : Nat} {f : ParamCsrs} {bytes : List Byte} {m : BitVec 3} {test : Bool}
    {mm mm' : Memory ModuleCell} {k : Nat} (hd : 21 ≤ d ∧ d ≤ Config.mmDim ∧ d % 2 = 1)
    (hc : ∀ a ∈ alignCentres f, 2 ≤ a ∧ a ≤ d - 3) (h : buildPass d f bytes m test mm = .ok mm')
    (hk : inSymbol d k = false) : Memory.read mm' k = Memory.read mm k := by
  have h21 := hd.1
  have hle := hd.2.1
  obtain ⟨m1, h1, h⟩ := bind_ok h
  obtain ⟨m2, h2, h⟩ := bind_ok h
  have halign : Memory.read m1 k = _ :=
    read_placeAlignAt_outside h1 ((alignWrites_in (centrePairs_bounds hc)).covers_eq_false hle hk)
  have htiming : Memory.read m2 k = _ := read_setWhereUnset_kept h2 fun hcov => by
    rw [(timingStamps_in h21).covers_eq_false hle hk] at hcov
    cases hcov
  rw [read_placeData_kept hd h (by simp [hk]), (versionStamps_in h21 _ _).read_setAll hle hk,
    (formatStamps_in h21 _ _).read_setAll hle hk, htiming, halign, placeFinders,
    (finderPattern_in d).read_setAll hle hk, read_clearMatrix_outside hle hk]

theorem read_trialFrom_outside {d : Nat} {f : ParamCsrs} {bytes : List Byte} {m n : Nat} {best : Option (Nat × Nat)}
    {mm : Memory ModuleCell} {r : Option (Nat × Nat) × Memory ModuleCell} {k : Nat}
    (hd : 21 ≤ d ∧ d ≤ Config.mmDim ∧ d % 2 = 1) (hc : ∀ a ∈ alignCentres f, 2 ≤ a ∧ a ≤ d - 3)
    (h : trialFrom d f bytes m n best mm = .ok r) (hk : inSymbol d k = false) :
    Memory.read r.2 k = Memory.read mm k := by
  induction n generalizing m best mm with
  | zero =>
    injection h with h
    rw [← h]
  | succ n ih =>
    obtain ⟨m1, h1, h⟩ := bind_ok h
    obtain ⟨rows, -, h⟩ := bind_ok h
    rw [ih h, read_buildPass_outside hd hc h1 hk]

end Sys2Proof.Machine
end

section
/-! SUPPORT. How a command ends: a fault entry, or a completion that changes no more than `Completed` says
(60_exceptions R355, R363). Said once here for all commands; the statements about steps and resets follow from it. -/

namespace Sys2Proof.Machine

/-- No p register is longer than PMAX (10_state R23). -/
def VectorsFit (s : State) : Prop := ∀ q : PReg, (s.getP q).length ≤ Config.pMax

/-- From `s` to `t` only x, p, pc and the engine-writable CSRs change, and p registers stay within PMAX. -/
structure RegisterStep (s t : State) : Prop where
  status : t.status = s.status
  ie : t.ie = s.ie
  cause : t.cause = s.cause
  epc : t.epc = s.epc
  tval : t.tval = s.tval
  stopReq : t.stopReq = s.stopReq
  cm : t.cm = s.cm
  dm : t.dm = s.dm
  mm : t.mm = s.mm
  vectors : VectorsFit s → VectorsFit t

theorem VectorsFit.setP {s : State} {a : PReg} {f : List Byte} (h : VectorsFit s) (hf : f.length ≤ Config.pMax) :
    VectorsFit (s.setP a f) := by
  intro q
  by_cases hq : a = q
  · rw [← hq, State.getP_setP_same]
    exact hf
  · rw [State.getP_setP_ne _ _ hq]
    exact h q

namespace RegisterStep

variable {s t : State}

theorem refl : RegisterStep s s := ⟨rfl, rfl, rfl, rfl, rfl, rfl, rfl, rfl, rfl, id⟩

theorem setX {a : XReg} {v : Word} (h : RegisterStep s t) : RegisterStep s (t.setX a v) := { h with }

theorem advance (h : RegisterStep s t) : RegisterStep s t.advance := { h with }

theorem jump {target : BitVec 10} (h : RegisterStep s t) : RegisterStep s (t.jump target) := { h with }

theorem withCsr {f : ParamCsrs} (h : RegisterStep s t) : RegisterStep s { t with csr := f } := { h with }

theorem setP {a : PReg} {f : List Byte} (h : RegisterStep s t) (hf : VectorsFit s → f.length ≤ Config.pMax) :
    RegisterStep s (t.setP a f) :=
  { h with vectors := fun hs => (h.vectors hs).setP (hf hs) }

theorem branch {taken : Bool} {target : BitVec 10} : RegisterStep s (s.branch taken target) := by
  obtain h | h := s.branch_cases taken target <;> rw [h]
  · exact refl.jump
  · exact refl.advance

end RegisterStep

/-- What a command that completes may do to DM: it stores inside DM, and only in its range `dmTarget`. -/
structure StoresIn (i : Instr) (s : State) (dm : Memory Byte) : Prop where
  wf : Memory.wf Config.dmBytes s.dm = true → Memory.wf Config.dmBytes dm = true
  fits : 0 < (dmTarget i s).2 → (dmTarget i s).1 + (dmTarget i s).2 ≤ Config.dmBytes
  frame : ∀ a, a < (dmTarget i s).1 ∨ (dmTarget i s).1 + (dmTarget i s).2 ≤ a →
    Memory.read dm a = Memory.read s.dm a

/-- What a command that completes may do to MM: it sets only cells of `mmTarget`, which are cells of the symbol. -/
structure PaintsIn (i : Instr) (s : State) (mm : Memory ModuleCell) : Prop where
  wf : Memory.wf (Config.mmDim * Config.mmDim) s.mm = true → Memory.wf (Config.mmDim * Config.mmDim) mm = true
  inSymbol : ∀ k, mmTarget i s k = true → ∃ d, dim s.csr = .ok d ∧ inSymbol d k = true
  frame : ∀ k, mmTarget i s k = false → Memory.read mm k = Memory.read s.mm k

/-- The command `i` has completed in `t`, from `s` (60_exceptions R355, R363). -/
structure Completed (i : Instr) (s t : State) : Prop where
  status : t.status = if i = .halt then { s.status with run := false, done := true } else s.status
  ie : t.ie = s.ie
  cause : t.cause = s.cause
  epc : t.epc = s.epc
  tval : t.tval = s.tval
  stopReq : t.stopReq = s.stopReq
  cm : t.cm = s.cm
  vectors : VectorsFit s → VectorsFit t
  stores : StoresIn i s t.dm
  paints : PaintsIn i s t.mm

variable {i : Instr} {s t : State}

theorem StoresIn.of_no_target (h : (dmTarget i s).2 = 0) : StoresIn i s s.dm :=
  ⟨id, fun hpos => absurd h hpos.ne', fun _ _ => rfl⟩

theorem PaintsIn.of_no_target (h : ∀ k, mmTarget i s k = false) : PaintsIn i s s.mm :=
  ⟨id, fun k hk => absurd hk (by simp [h k]), fun _ _ => rfl⟩

/-- A command that changes registers only. -/
theorem Completed.registers (h : RegisterStep s t) (hi : i ≠ .halt := by nofun)
    (hd : (dmTarget i s).2 = 0 := by rfl) (hm : ∀ k, mmTarget i s k = false := by intro; rfl) : Completed i s t :=
  { h with
    status := by rw [h.status, if_neg hi]
    stores := h.dm ▸ .of_no_target hd
    paints := h.mm ▸ .of_no_target hm }

/-- A command that stores to DM. -/
theorem Completed.store {dm : Memory Byte} (hdm : StoresIn i s dm) (h : RegisterStep { s with dm := dm } t)
    (hi : i ≠ .halt := by nofun) (hm : ∀ k, mmTarget i s k = false := by intro; rfl) : Completed i s t :=
  { h with
    status := by rw [h.status, if_neg hi]
    stores := h.dm ▸ hdm
    paints := h.mm ▸ .of_no_target hm }

/-- A command that sets cells of MM. -/
theorem Completed.paint {mm : Memory ModuleCell} (hmm : PaintsIn i s mm) (h : RegisterStep { s with mm := mm } t)
    (hi : i ≠ .halt := by nofun) (hd : (dmTarget i s).2 = 0 := by rfl) : Completed i s t :=
  { h with
    status := by rw [h.status, if_neg hi]
    stores := h.dm ▸ .of_no_target hd
    paints := h.mm ▸ hmm }

/-- A next state after the command `i` is a fault entry or its completion. -/
def Ends (i : Instr) (s : State) (o : Host.Outcome State Fault Refusal) : Prop :=
  ∀ t, o = .next t → (∃ c n, t = s.enterFault c n) ∨ Completed i s t

theorem Ends.next (h : Completed i s t) : Ends i s (.next t) := by
  intro u hu
  injection hu with hu
  exact .inr (hu ▸ h)

theorem Ends.finish {r : Except Stop State} (h : Answers (Completed i s) r) : Ends i s (finish s r) := by
  intro t ht
  obtain hok | ⟨c, n, -, ht⟩ := finish_next ht
  · exact .inr (h t hok)
  · exact .inl ⟨c, n, ht⟩

/-! ### Commands that change registers only -/

theorem ends_halt : Ends .halt s (exec .halt s) :=
  .next { status := rfl, ie := rfl, cause := rfl, epc := rfl, tval := rfl, stopReq := rfl, cm := rfl, vectors := id
          stores := .of_no_target rfl, paints := .of_no_target fun _ => rfl }

theorem ends_csrr {a : XReg} {c : Csr} : Ends (.csrr a c) s (exec (.csrr a c) s) :=
  .finish (.ite (fun _ => .pure (.registers (.advance (.setX .refl)))) fun _ => .raise)

theorem ends_csrw {a : XReg} {c : Csr} : Ends (.csrw c a) s (exec (.csrw c a) s) :=
  .finish (.ite (fun _ => .pure (.registers (.advance (.withCsr .refl)))) fun _ => .raise)

theorem ends_pld {a : PReg} {b c : XReg} : Ends (.pld a b c) s (exec (.pld a b c) s) :=
  .finish <| .bind fun _ hn => .bind fun bytes hbytes => .pure <| .registers <| .advance <| .setP .refl fun _ => by
    rw [(memReadSeq_ok hbytes).2]
    exact not_lt.mp (of_decide_eq_false (badOperandIf_ok hn))

theorem ends_bread {a b : XReg} : Ends (.bread a b) s (exec (.bread a b) s) :=
  .finish <| .bind fun _ _ => .ite (fun _ => .raise) fun _ => .bind fun _ _ => .bind fun _ _ =>
    .pure <| .registers <| .advance <| .setX <| .withCsr .refl

theorem ends_rsgen {a : PReg} {b : XReg} : Ends (.rsgen a b) s (exec (.rsgen a b) s) :=
  .finish <| .bind fun _ _ => .bind fun _ hg =>
    .pure <| .registers <| .advance <| .setP .refl fun _ => rsGen_length_le hg

theorem ends_rsenc {a b : PReg} {c : XReg} : Ends (.rsenc a b c) s (exec (.rsenc a b c) s) :=
  .finish <| .bind fun _ ht => .bind fun _ _ => .bind fun _ hn => .bind fun word hword =>
    .pure <| .registers <| .advance <| .setP .refl fun _ => by
      have ht := of_decide_eq_false (badOperandIf_ok ht)
      have hn := of_decide_eq_false (badOperandIf_ok hn)
      calc word.length
          = (s.getP b).length + (s.getX c).toNat := rsEncode_length (by omega) word hword
        _ ≤ Config.rsNMax := by omega
        _ ≤ Config.pMax := by decide

theorem ends_rssyn {a : XReg} {b c : PReg} {d : XReg} : Ends (.rssyn a b c d) s (exec (.rssyn a b c d) s) :=
  .finish <| .bind fun _ ht => .bind fun _ _ => .bind fun r hr =>
    .pure <| .registers <| .advance <| .setX <| .setP .refl fun _ => by
      have ht := of_decide_eq_false (badOperandIf_ok ht)
      calc r.1.length
          ≤ (s.getX d).toNat := rsSyndromes_length r hr
        _ ≤ 255 := by omega
        _ ≤ Config.pMax := by decide

theorem ends_rseuc {a : XReg} {b c d : PReg} {e : XReg} : Ends (.rseuc a b c d e) s (exec (.rseuc a b c d e) s) := by
  refine .finish <| .ite (fun _ => .raise) fun _ => .bind fun sx _ => .bind fun _ _ => .bind fun _ _ =>
    .bind fun r hr => ?_
  match r, hr with
  | .error st, _ => exact .pure <| .registers <| .advance <| .setX .refl
  | .ok (sigma, omega), hr =>
    obtain ⟨hs, ho⟩ := rsEuclid_length_le _ hr _ rfl
    exact .pure <| .registers <| .advance <| .setX <| .setP (.setP .refl fun _ => hs) fun _ => ho

theorem ends_rschn {a : XReg} {b c : PReg} : Ends (.rschn a b c) s (exec (.rschn a b c) s) := by
  refine .finish <| .bind fun sigma _ => .bind fun r hr => ?_
  match r, hr with
  | .error st, _ => exact .pure <| .registers <| .advance <| .setX .refl
  | .ok locs, hr =>
    have : locs.length ≤ 255 := rsChien_length_le _ hr _ rfl
    exact .pure <| .registers <| .advance <| .setX <| .setP .refl fun _ => this.trans (by decide)

theorem ends_rsfrn {a b c : PReg} : Ends (.rsfrn a b c) s (exec (.rsfrn a b c) s) :=
  .finish <| .bind fun _ _ => .bind fun mags hmags =>
    .pure <| .registers <| .advance <| .setP .refl fun hfit => (forneyFrom_length mags hmags).trans_le (hfit c)

theorem ends_rscor {a : XReg} {b c d e : PReg} : Ends (.rscor a b c d e) s (exec (.rscor a b c d e) s) := by
  refine .finish <| .bind fun _ _ => .bind fun r hr => ?_
  match r, hr with
  | .error st, _ => exact .pure <| .registers <| .advance <| .setX .refl
  | .ok out, hr =>
    exact .pure <| .registers <| .advance <| .setX <| .setP .refl fun hfit =>
      (rsCorrect_length _ hr _ rfl).trans_le (hfit c)

theorem ends_rsdec {a b : XReg} {c d : PReg} {e : XReg} : Ends (.rsdec a b c d e) s (exec (.rsdec a b c d e) s) := by
  refine .finish <| .ite (fun _ => .raise) fun _ => .bind fun _ _ => .bind fun _ _ => .bind fun r hr => ?_
  match r, hr with
  | .error st, _ => exact .pure <| .registers <| .advance <| .setX <| .setX .refl
  | .ok (count, out), hr =>
    exact .pure <| .registers <| .advance <| .setX <| .setX <| .setP .refl fun hfit =>
      (rsDecode_length _ hr _ rfl).trans_le (hfit d)

/-! ### Commands that store to DM -/

theorem ends_sb {a b : XReg} {imm : BitVec 16} : Ends (.sb a b imm) s (exec (.sb a b imm) s) := by
  refine .finish <| .bind fun dm hdm => .pure <| .store ⟨wf_memWrite hdm, ?_, ?_⟩ (.advance .refl)
  · exact fun _ => (memWrite_ok hdm).1
  · intro x hx
    obtain ⟨-, rfl⟩ := memWrite_ok hdm
    simp only [dmTarget] at hx
    exact Memory.read_write_ne _ _ (by omega)

/-- A store of as many bytes as the range of the command holds. -/
theorem StoresIn.of_memWriteSeq {bytes : List Byte} {dm : Memory Byte}
    (h : memWriteSeq s.dm (dmTarget i s).1 bytes = .ok dm) (hlen : bytes.length = (dmTarget i s).2) :
    StoresIn i s dm := by
  obtain ⟨hfit, hdm⟩ := memWriteSeq_ok h
  refine ⟨wf_memWriteSeq h, hlen ▸ hfit, fun a ha => ?_⟩
  rw [hdm]
  exact read_storeBytes_outside _ _ _ _ (hlen ▸ ha)

theorem ends_pst {a : PReg} {b : XReg} : Ends (.pst a b) s (exec (.pst a b) s) :=
  .finish <| .bind fun _ hdm => .pure <| .store (.of_memWriteSeq hdm rfl) (.advance .refl)

theorem ends_cwenc {a b : XReg} : Ends (.cwenc a b) s (exec (.cwenc a b) s) :=
  .finish <| .bind fun _ hlayout => .bind fun _ _ => .bind fun _ _ => .bind fun _ _ => .bind fun _ hdata =>
    .bind fun out hout => .bind fun _ hdm => .pure <|
      .store (.of_memWriteSeq hdm (cwSequence_length hlayout (memReadSeq_ok hdata).2 out hout)) (.advance .refl)

theorem ends_mxout {a : XReg} : Ends (.mxout a) s (exec (.mxout a) s) :=
  .finish <| .bind fun d hd => .bind fun rows hrows => .bind fun _ _ => .bind fun _ hdm => .pure <| .store
    (.of_memWriteSeq hdm (by
      obtain ⟨-, -, rfl⟩ := dim_ok hd
      exact packBits_readMatrix_length rows hrows))
    (.advance .refl)

theorem StreamExtended.registers {q : Nat} (h : StreamExtended s t q) : RegisterStep { s with dm := t.dm } t := by
  obtain ⟨hstate, -, -⟩ := h
  generalize t.dm = dm at hstate ⊢
  subst hstate
  exact .withCsr .refl

theorem ends_bput {a b : XReg} : Ends (.bput a b) s (exec (.bput a b) s) := by
  refine .finish <| .bind fun _ _ => .bind fun u hu => .pure ?_
  have hext := bbPut_extends hu
  refine .store ?_ hext.registers.advance
  by_cases hn : (s.getX b).toNat = 0
  · have hdm : u.dm = s.dm := by
      obtain ⟨dm, hdm, -, rfl⟩ := bbPut_ok hu
      rw [hn] at hdm
      injection hdm with hdm
      exact hdm.symm
    exact hdm ▸ .of_no_target (if_pos hn)
  · obtain ⟨-, -, hfit, -⟩ := bbPut_ok hu
    refine ⟨wf_bbPut hu, fun _ => ?_, fun x hx => hext.frame x ?_⟩
    · have := hfit (by omega)
      simp only [streamByte, dmTarget, if_neg hn] at this ⊢
      omega
    · simp only [streamByte, dmTarget, if_neg hn] at hx
      omega

theorem ends_bpad {a : XReg} : Ends (.bpad a) s (exec (.bpad a) s) := by
  refine .finish <| .bind fun _ hm => .bind fun u hu => .pure ?_
  have hm := not_not.mp (of_decide_eq_false (badOperandIf_ok hm))
  obtain ⟨hext, hfit⟩ := bbPad_extends (s.getX a).isLt hm hu
  have hle := hext.le
  refine .store ⟨wf_bbPad hu, fun hpos => ?_, fun x hx => hext.frame x ?_⟩ hext.registers.advance
  · simp only [streamByte, dmTarget] at hpos ⊢
    have := hfit (by omega)
    omega
  · simp only [streamByte, dmTarget] at hx
    omega

/-! ### Commands that set cells of MM -/

/-- A pattern inside the symbol, set whatever its cells held. -/
theorem PaintsIn.of_setAll {d : Nat} {stamps : List Stamp} (hd : dim s.csr = .ok d) (hs : StampsIn d stamps)
    (ht : mmTarget i s = covers stamps) : PaintsIn i s (setAll s.mm stamps) := by
  obtain ⟨-, hle, -⟩ := dim_bounds hd
  refine ⟨wf_setAll_of_in hle hs, fun k hk => ⟨d, hd, ?_⟩, fun k hk => ?_⟩
  · exact hs.inSymbol_of_covers hle (ht ▸ hk)
  · exact read_setAll_outside (ht ▸ hk)

theorem ends_mxclr : Ends .mxclr s (exec .mxclr s) := by
  refine .finish <| .bind fun d hd => .pure <| .paint ⟨?_, ?_, ?_⟩ (.advance .refl)
  all_goals
    obtain ⟨-, hle, -⟩ := dim_bounds hd
    obtain ⟨-, -, hv⟩ := dim_ok hd
  · exact wf_clearMatrix hle
  · intro k hk
    refine ⟨d, hd, ?_⟩
    rw [hv]
    exact hk
  · intro k hk
    refine read_clearMatrix_outside hle ?_
    rw [hv]
    exact hk

theorem ends_mxfnd : Ends .mxfnd s (exec .mxfnd s) := by
  refine .finish <| .bind fun d hd => .pure <| .paint (.of_setAll hd (finderPattern_in d) ?_) (.advance .refl)
  obtain ⟨-, -, rfl⟩ := dim_ok hd
  rfl

theorem ends_mxfmt {test : Bool} : Ends (.mxfmt test) s (exec (.mxfmt test) s) := by
  refine .finish <| .bind fun d hd => .pure <|
    .paint (.of_setAll hd (formatStamps_in (dim_bounds hd).1 s.csr test) ?_) (.advance .refl)
  obtain ⟨-, -, rfl⟩ := dim_ok hd
  rfl

theorem ends_mxver {test : Bool} : Ends (.mxver test) s (exec (.mxver test) s) := by
  refine .finish <| .bind fun d hd => .pure <|
    .paint (.of_setAll hd (versionStamps_in (dim_bounds hd).1 s.csr test) ?_) (.advance .refl)
  obtain ⟨-, -, rfl⟩ := dim_ok hd
  rfl

theorem ends_mxaln : Ends .mxaln s (exec .mxaln s) := by
  refine .finish <| .bind fun d hd => .bind fun _ hc => .bind fun mm hmm => .pure <|
    .paint ⟨?_, ?_, ?_⟩ (.advance .refl)
  all_goals
    obtain ⟨-, hle, -⟩ := dim_bounds hd
    have hc := checkCentres_ok hc
  · exact wf_placeAlign hle hc hmm
  · exact fun k hk => ⟨d, hd, (alignWrites_in (centrePairs_bounds hc)).inSymbol_of_covers hle hk⟩
  · exact fun k hk => read_placeAlignAt_outside hmm hk

theorem ends_mxtim : Ends .mxtim s (exec .mxtim s) := by
  refine .finish <| .bind fun d hd => .bind fun mm hmm => .pure <| .paint ⟨?_, ?_, ?_⟩ (.advance .refl)
  all_goals
    obtain ⟨h21, hle, -⟩ := dim_bounds hd
    obtain ⟨-, -, hv⟩ := dim_ok hd
  · exact wf_placeTiming hle h21 hmm
  · intro k hk
    simp only [mmTarget, ← hv, Bool.and_eq_true] at hk
    exact ⟨d, hd, (timingStamps_in h21).inSymbol_of_covers hle hk.1⟩
  · intro k hk
    simp only [mmTarget, ← hv] at hk
    refine read_setWhereUnset_kept hmm fun hcov => ?_
    simpa [hcov] using hk

theorem ends_mxdat {a b : XReg} : Ends (.mxdat a b) s (exec (.mxdat a b) s) := by
  refine .finish <| .bind fun d hd => .bind fun _ _ => .bind fun mm hmm => .pure <|
    .paint ⟨?_, ?_, ?_⟩ (.advance .refl)
  all_goals
    have hb := dim_bounds hd
    obtain ⟨-, -, hv⟩ := dim_ok hd
  · exact wf_placeData hb.2.1 (by omega) hmm
  · intro k hk
    simp only [mmTarget, ← hv, Bool.and_eq_true] at hk
    exact ⟨d, hd, hk.1.1⟩
  · intro k hk
    simp only [mmTarget, ← hv] at hk
    exact read_placeData_kept hb hmm hk

theorem ends_mxbld {a b c e : XReg} : Ends (.mxbld a b c e) s (exec (.mxbld a b c e) s) := by
  refine .finish <| .ite (fun _ => .raise) fun _ => .bind fun d hd => .bind fun _ hc => .bind fun _ _ =>
    .bind fun r hr => .bind fun mm hmm => .pure <|
    .paint (mm := mm) ⟨?_, ?_, ?_⟩ (.advance <| .setX <| .setX <| .withCsr .refl)
  all_goals
    have hb := dim_bounds hd
    obtain ⟨-, -, hv⟩ := dim_ok hd
    have hc := checkCentres_ok hc
  · exact fun hw => wf_buildPass hb.2.1 hb.1 hc hmm (wf_trialFrom hb.2.1 hb.1 hc hr hw)
  · intro k hk
    refine ⟨d, hd, ?_⟩
    rw [hv]
    exact hk
  · intro k hk
    simp only [mmTarget, ← hv] at hk
    rw [read_buildPass_outside hb hc hmm hk, read_trialFrom_outside hb hc hr hk]

/-- Every command ends by a fault entry, by completing as `Completed` says, or in no next state. -/
theorem exec_ends (i : Instr) (s : State) : Ends i s (exec i s) :=
  match i with
  | .nop => .next (.registers (.advance .refl))
  | .halt => ends_halt
  | .jmp _ => .next (.registers (.jump .refl))
  | .bz _ _ | .bnz _ _ | .bltu _ _ _ => .next (.registers .branch)
  | .csrr _ _ => ends_csrr
  | .csrw _ _ => ends_csrw
  | .li _ _ | .lih _ _ | .addi _ _ _ | .add _ _ _ | .sub _ _ _ | .and _ _ _ | .or _ _ _ | .xor _ _ _
  | .slli _ _ _ | .srli _ _ _ | .plen _ _ | .gfexp _ _ | .blen _ | .bavl _ =>
    .next (.registers (.advance (.setX .refl)))
  | .lb _ _ _ => .finish (.bind fun _ _ => .pure (.registers (.advance (.setX .refl))))
  | .sb _ _ _ => ends_sb
  | .pld _ _ _ => ends_pld
  | .pst _ _ => ends_pst
  | .pmov _ b => .next (.registers (.advance (.setP .refl fun hfit => hfit b)))
  | .gfadd _ _ _ | .gfmul _ _ _ => .finish (.bind fun _ _ => .pure (.registers (.advance (.setX .refl))))
  | .gfinv _ _ | .gflog _ _ => .finish (.bind fun _ _ => .bind fun _ _ => .pure (.registers (.advance (.setX .refl))))
  | .pnorm _ b => .finish (.bind fun _ hf =>
      .pure (.registers (.advance (.setP .refl fun hfit => (poly_length_le hf).trans (hfit b)))))
  | .pdeg _ _ | .pcoef _ _ _ => .finish (.bind fun _ _ => .pure (.registers (.advance (.setX .refl))))
  | .peval _ _ _ => .finish (.bind fun _ _ => .bind fun _ _ => .pure (.registers (.advance (.setX .refl))))
  | .pmul _ _ _ => .finish (.bind fun _ _ => .bind fun _ _ => .bind fun _ hr =>
      .pure (.registers (.advance (.setP .refl fun _ => polyMul_length_le hr))))
  | .pmulm _ _ _ _ => .finish (.bind fun _ _ => .bind fun _ _ => .bind fun _ hr =>
      .pure (.registers (.advance (.setP .refl fun _ => polyMulm_length_le hr))))
  | .padd _ b c => .finish (.bind fun f hf => .bind fun g hg =>
      .pure (.registers (.advance (.setP .refl fun hfit => (polyAdd_length_le f g).trans
        (max_le ((poly_length_le hf).trans (hfit b)) ((poly_length_le hg).trans (hfit c)))))))
  | .pmod _ b _ => .finish (.bind fun _ hf => .bind fun _ _ => .bind fun _ hr =>
      .pure (.registers (.advance (.setP .refl fun hfit =>
        polyMod_length_le ((poly_length_le hf).trans (hfit b)) hr))))
  | .pmono _ _ _ => .finish (.bind fun _ _ => .bind fun _ hr =>
      .pure (.registers (.advance (.setP .refl fun _ => polyMono_length_le hr))))
  | .rsgen _ _ => ends_rsgen
  | .rsenc _ _ _ => ends_rsenc
  | .rssyn _ _ _ _ => ends_rssyn
  | .rseuc _ _ _ _ _ => ends_rseuc
  | .rschn _ _ _ => ends_rschn
  | .rsfrn _ _ _ => ends_rsfrn
  | .rscor _ _ _ _ _ => ends_rscor
  | .rsdec _ _ _ _ _ => ends_rsdec
  | .bput _ _ => ends_bput
  | .bpad _ => ends_bpad
  | .bread _ _ => ends_bread
  | .cwenc _ _ => ends_cwenc
  | .bchf _ _ | .bchv _ _ => .finish (.bind fun _ _ => .pure (.registers (.advance (.setX .refl))))
  | .mxclr => ends_mxclr
  | .mxfnd => ends_mxfnd
  | .mxaln => ends_mxaln
  | .mxtim => ends_mxtim
  | .mxfmt _ => ends_mxfmt
  | .mxver _ => ends_mxver
  | .mxdat _ _ => ends_mxdat
  | .mxpen _ => .finish (.bind fun _ _ => .bind fun _ _ => .pure (.registers (.advance (.setX .refl))))
  | .mxbld _ _ _ _ => ends_mxbld
  | .mxget _ _ _ => .finish (.bind fun _ _ => .bind fun _ _ => .bind fun _ _ => .bind fun _ _ =>
      .pure (.registers (.advance (.setX .refl))))
  | .mxmsk _ _ _ _ => .finish (.bind fun _ _ => .bind fun _ _ => .bind fun _ _ =>
      .pure (.registers (.advance (.setX .refl))))
  | .mxout _ => ends_mxout

end Sys2Proof.Machine
end

section
/-! The statements about the reset state, the step and the host's write of CTRL. -/

namespace Sys2Proof.Machine

variable {i : Instr} {s t : State}

/-! ## The reset state (10_state R50) -/

theorem State.reset_inv : State.reset.Inv :=
  ⟨by decide, by decide, by decide, by decide, by decide, by decide⟩

/-- Settles O7: every register of the reset state is evaluated, and no memory lists a location. -/
theorem resetState : Obligations.ResetState := by
  refine ⟨by decide, by decide, fun c => ?_, rfl, fun _ => rfl, fun _ => rfl, fun _ => rfl, State.reset_inv⟩
  cases c with
  | aln i =>
    revert i
    decide
  | _ => rfl

/-! ## The invariant along a step (60_exceptions R363) -/

theorem State.memoriesWf_iff (s : State) : s.memoriesWf = true ↔
    Memory.wf Config.cmWords s.cm = true ∧ Memory.wf Config.dmBytes s.dm = true ∧
      Memory.wf (Config.mmDim * Config.mmDim) s.mm = true := by
  simp only [State.memoriesWf, Bool.and_eq_true, and_assoc]

/-- During a run no bit of STATUS but RUN is set (10_state R35). -/
theorem Status.eq_of_legal_of_run {u : Status} (hl : u.legal = true) (hr : u.run = true) :
    u = { run := true, done := false, fault := false, stopped := false } := by
  obtain ⟨run, done, fault, stopped⟩ := u
  revert run done fault stopped
  decide

theorem Cause.code_bounds (c : Cause) : 1 ≤ c.code.toNat ∧ c.code.toNat ≤ 8 := by
  cases c <;> decide

theorem State.Inv.status_of_run (h : s.Inv) (hr : s.status.run = true) :
    s.status = { run := true, done := false, fault := false, stopped := false } :=
  Status.eq_of_legal_of_run h.status hr

/-- A command that completes keeps the invariant. -/
theorem Completed.inv (hc : Completed i s t) (h : s.Inv) (hr : s.status.run = true) (hq : s.stopReq = false) :
    t.Inv := by
  have hs := h.status_of_run hr
  have hstatus : t.status =
      { run := decide (i ≠ .halt), done := decide (i = .halt), fault := false, stopped := false } := by
    rw [hc.status, hs]
    split
    · next hi => simp [hi]
    · next hi => simp [hi]
  obtain ⟨hcm, hdm, hmm⟩ := s.memoriesWf_iff.mp h.memories
  refine ⟨t.memoriesWf_iff.mpr ⟨hc.cm ▸ hcm, hc.stores.wf hdm, hc.paints.wf hmm⟩, hc.vectors h.vectors,
    ?_, ?_, ?_, ?_⟩
  · rw [hstatus]
    by_cases hi : i = .halt <;> simp [Status.legal, hi]
  · rw [hc.cause, hc.epc, hc.tval]
    exact fun _ => h.noFault (by rw [hs])
  · rw [hstatus]
    exact fun hf => absurd hf Bool.false_ne_true
  · rw [hc.stopReq, hq]
    exact fun hf => absurd hf Bool.false_ne_true

theorem State.Inv.enterFault (h : s.Inv) (hr : s.status.run = true) (hq : s.stopReq = false) (c : Cause) (n : Nat) :
    (s.enterFault c n).Inv where
  memories := h.memories
  vectors := h.vectors
  status := by
    rw [State.enterFault_status, h.status_of_run hr]
    rfl
  noFault hf := absurd hf (by simp)
  fault _ := c.code_bounds
  stop hs := by
    rw [State.enterFault_stopReq, hq] at hs
    cases hs

theorem State.Inv.honourStop (h : s.Inv) (hr : s.status.run = true) : s.honourStop.Inv where
  memories := h.memories
  vectors := h.vectors
  status := by
    rw [State.honourStop_status, h.status_of_run hr]
    rfl
  noFault := h.noFault
  fault := h.fault
  stop hs := absurd hs (by simp)

theorem State.Inv.settle (h : s.Inv) : s.settle.Inv := by
  obtain hs | ⟨-, hs⟩ := s.settle_cases
  · rw [hs]
    exact h
  · rw [hs]
    exact { h with stop := fun hf => absurd hf Bool.false_ne_true }

/-- What a step can do: nothing while idle, honour a stop request, or run a command or take a fault and settle. -/
theorem step_next (h : step s = .next t) :
    s.status.run = false ∧ t = s ∨ s.status.run = true ∧ s.stopReq = true ∧ t = s.honourStop ∨
      s.status.run = true ∧ s.stopReq = false ∧ ∃ u, t = u.settle ∧
        ((∃ c n, u = s.enterFault c n) ∨ ∃ i, fetch s = .ok i ∧ exec i s = .next u) := by
  have settled : ∀ {o}, settleOutcome o = .next t → ∃ u, t = u.settle ∧ o = .next u := by
    intro o ho
    match o with
    | .next u =>
      injection ho with ho
      exact ⟨u, ho.symm, rfl⟩
  unfold step at h
  split at h
  · next hr =>
    injection h with h
    exact .inl ⟨hr, h.symm⟩
  · next hr =>
    have hr : s.status.run = true := by simpa using hr
    split at h
    · next hq =>
      injection h with h
      exact .inr (.inl ⟨hr, hq, h.symm⟩)
    · next hq =>
      refine .inr (.inr ⟨hr, by simpa using hq, ?_⟩)
      split at h
      · obtain ⟨u, ht, hu⟩ := settled h
        obtain hok | ⟨c, n, -, hu⟩ := finish_next hu
        · cases hok
        · exact ⟨u, ht, .inl ⟨c, n, hu⟩⟩
      · next i hi =>
        obtain ⟨u, ht, hu⟩ := settled h
        exact ⟨u, ht, .inr ⟨i, hi, hu⟩⟩

/-- Settles O8: every way a step can end keeps each clause of the invariant. -/
theorem stepKeepsInvariant : Obligations.StepKeepsInvariant := by
  intro s t h hstep
  obtain ⟨-, rfl⟩ | ⟨hr, -, rfl⟩ | ⟨hr, hq, u, rfl, hu⟩ := step_next hstep
  · exact h
  · exact h.honourStop hr
  · refine State.Inv.settle ?_
    obtain ⟨c, n, rfl⟩ | ⟨i, -, hexec⟩ := hu
    · exact h.enterFault hr hq c n
    · obtain ⟨c, n, rfl⟩ | hc := exec_ends i s u hexec
      · exact h.enterFault hr hq c n
      · exact hc.inv h hr hq

/-! ## The host's write of CTRL (10_state R34) -/

theorem State.ctrlWrite_of_reset {w : Word} (h : w.getLsbD 2 = true) : s.ctrlWrite w = s.softReset := if_pos h

theorem hostWriteCsr_ctrl (w : Word) (s : State) : hostWriteCsr 1 w s = s.ctrlWrite w := rfl

theorem ite_clearFault (b : Bool) (u : State) : (if b = true then u.clearFault else u) =
    if b = true ∧ u.status.run = false then
      { u with status := { run := false, done := false, fault := false, stopped := false }, cause := 0, epc := 0,
               tval := 0 }
    else u := by
  cases b <;> cases hr : u.status.run <;> simp [State.clearFault, hr]

theorem ite_start (b : Bool) (u : State) : (if b = true then u.start else u) =
    if b = true ∧ u.status.run = false ∧ u.status.fault = false then
      { u with status := { run := true, done := false, fault := u.status.fault, stopped := false } }
    else u := by
  cases b <;> cases hr : u.status.run <;> cases hf : u.status.fault <;> simp [State.start, hr, hf]

theorem ite_requestStop (b : Bool) (u : State) : (if b = true then u.requestStop else u) =
    if b = true ∧ u.status.run = true then { u with stopReq := true } else u := by
  cases b <;> cases hr : u.status.run <;> simp [State.requestStop, hr]

/-! ### What an abandoned command leaves (70_reset_and_hazards R381) -/

theorem Memory.forgetWhere_of_none {α : Type} {m : Memory α} {p : Nat → Bool} (h : ∀ a, p a = false) :
    Memory.forgetWhere m p = m := by
  simp [Memory.forgetWhere, h]

theorem Memory.read_forgetWhere_true {α : Type} {m : Memory α} {p : Nat → Bool} {a : Nat} (h : p a = true) :
    Memory.read (Memory.forgetWhere m p) a = none := by
  rw [Memory.read_forgetWhere, if_pos h]

theorem Memory.read_forgetWhere_false {α : Type} {m : Memory α} {p : Nat → Bool} {a : Nat} (h : p a = false) :
    Memory.read (Memory.forgetWhere m p) a = Memory.read m a := by
  rw [Memory.read_forgetWhere, h, if_neg Bool.false_ne_true]

/-- A command after which the run goes on has completed. -/
theorem completed_of_run (h : exec i s = .next t) (hr : t.status.run = true) : Completed i s t := by
  obtain ⟨c, n, rfl⟩ | hc := exec_ends i s t h
  · cases hr
  · exact hc

/-- The engine was running before a command after which it runs. -/
theorem Completed.run (hc : Completed i s t) (hr : t.status.run = true) : s.status.run = true := by
  rw [hc.status] at hr
  split at hr
  · cases hr
  · exact hr

/-- The bytes in the range of a command that completes are those it could write. -/
theorem couldWriteByte_of_target {a : Nat} (h : exec i s = .next t) (hr : t.status.run = true)
    (hlo : (dmTarget i s).1 ≤ a) (hhi : a < (dmTarget i s).1 + (dmTarget i s).2) : couldWriteByte i s a = true :=
  (couldWriteByte_iff s i a).mpr
    ⟨hlo, hhi, (completed_of_run h hr).stores.fits (by omega), (mayWrite_of_next s h).trans hr⟩

theorem mmTarget_of_not_writesMatrix (h : writesMatrix i = false) (k : Nat) : mmTarget i s k = false := by
  cases i with
  | mxclr | mxfnd | mxaln | mxtim | mxfmt | mxver | mxdat | mxbld => cases h
  | _ => rfl

/-- A command with a range in DM is tried by `storingCommands`, SB with the offset that reaches the byte. -/
theorem mem_storingCommands (a : Nat) (h : 0 < (dmTarget i s).2) :
    i ∈ storingCommands s a ∨ ∃ r b imm, i = .sb r b imm := by
  cases i with
  | sb r b imm => exact .inr ⟨r, b, imm, rfl⟩
  | pst | bput | bpad | cwenc | mxout => exact .inl (by simp [storingCommands])
  | _ => exact absurd h (Nat.lt_irrefl 0)

/-- The offset from a base register to the byte that SB stores. -/
theorem setWidth_effectiveAddress_sub (x : Word) (imm : BitVec 16) :
    (BitVec.ofNat 32 (effectiveAddress x imm) - x).setWidth 16 = imm := by
  have hsext : (sext32 imm).setWidth 16 = imm := by
    ext j hj
    simp [sext32, BitVec.getElem_signExtend, hj, show j < 32 by omega]
  rw [effectiveAddress, BitVec.ofNat_toNat, BitVec.setWidth_eq, BitVec.add_comm, BitVec.add_sub_cancel, hsext]

/-- SB of x0 is tried for each byte that some SB could write. -/
theorem couldWriteByte_sb {r b : XReg} {imm : BitVec 16} {a : Nat} (h : couldWriteByte (.sb r b imm) s a = true)
    (hr : s.status.run = true) :
    ∃ j ∈ storingCommands s a, couldWriteByte j s a = true := by
  obtain ⟨hlo, hhi, hfit, -⟩ := (couldWriteByte_iff s _ a).mp h
  have ha : a = effectiveAddress (s.getX b) imm := by
    simp only [dmTarget] at hlo hhi
    omega
  refine ⟨.sb 0 b imm, ?_, (couldWriteByte_iff s _ a).mpr ⟨hlo, hhi, hfit, ?_⟩⟩
  · simp only [storingCommands, List.append_assoc, List.mem_append, List.mem_map]
    exact .inl ⟨b, List.mem_finRange b, by rw [ha, setWidth_effectiveAddress_sub]⟩
  · have hstore : ∃ dm, memWrite s.dm (effectiveAddress (s.getX b) imm) (lowByte (s.getX 0)) = .ok dm :=
      ⟨_, if_pos hfit⟩
    obtain ⟨dm, hdm⟩ := hstore
    have hexec : exec (.sb 0 b imm) s = .next (State.advance { s with dm := dm }) := by
      rw [exec, execSb, hdm, ok_bind]
      rfl
    exact (mayWrite_of_next s hexec).trans hr

theorem someCouldWriteByte_of_target {a : Nat} (h : exec i s = .next t) (hr : t.status.run = true)
    (hlo : (dmTarget i s).1 ≤ a) (hhi : a < (dmTarget i s).1 + (dmTarget i s).2) : someCouldWriteByte s a = true := by
  have hbyte := couldWriteByte_of_target h hr hlo hhi
  rw [someCouldWriteByte, List.any_eq_true]
  obtain hmem | ⟨r, b, imm, rfl⟩ := mem_storingCommands (i := i) (s := s) a (by omega)
  · exact ⟨i, hmem, hbyte⟩
  · exact couldWriteByte_sb hbyte ((completed_of_run h hr).run hr)

theorem dim_cases (f : ParamCsrs) : (∃ d, dim f = .ok d) ∨ ∃ v, dim f = .error (.raises .badOperand v) := by
  unfold dim
  dsimp only
  split
  · exact .inr ⟨_, rfl⟩
  · exact .inl ⟨_, rfl⟩

/-- MXCLR completes just when VERSION is legal. -/
theorem mayWrite_mxclr_iff (s : State) :
    mayWrite .mxclr s = true ↔ s.status.run = true ∧ ∃ d, dim s.csr = .ok d := by
  obtain ⟨d, hd⟩ | ⟨v, hv⟩ := dim_cases s.csr
  · have hexec : exec .mxclr s = .next (State.advance { s with mm := clearMatrix d s.mm }) := by
      rw [exec, execMxclr, hd, ok_bind]
      rfl
    rw [mayWrite_of_next s hexec]
    exact ⟨fun hr => ⟨hr, d, hd⟩, fun h => h.1⟩
  · have hexec : exec .mxclr s = .next (s.enterFault .badOperand v) := by
      rw [exec, execMxclr, hv, error_bind]
      rfl
    rw [mayWrite_of_next s hexec, State.enterFault_status]
    refine ⟨fun hr => absurd hr Bool.false_ne_true, fun ⟨_, d, hd⟩ => ?_⟩
    rw [hv] at hd
    cases hd

/-- A cell that a completing command may set is one that MXCLR could. -/
theorem couldWriteCell_mxclr_of_target {k : Nat} (h : exec i s = .next t) (hr : t.status.run = true)
    (hk : mmTarget i s k = true) : couldWriteCell .mxclr s k = true := by
  have hc := completed_of_run h hr
  obtain ⟨d, hd, hin⟩ := hc.paints.inSymbol k hk
  obtain ⟨-, -, rfl⟩ := dim_ok hd
  exact (couldWriteCell_iff s _ k).mpr ⟨hin, (mayWrite_mxclr_iff s).mpr ⟨hc.run hr, _, hd⟩⟩

theorem couldWriteByte_of_outside {a : Nat} (h : a < (dmTarget i s).1 ∨ (dmTarget i s).1 + (dmTarget i s).2 ≤ a) :
    couldWriteByte i s a = false := by
  rw [← Bool.not_eq_true, couldWriteByte_iff]
  omega

theorem couldWriteByte_of_not_mayWrite (h : mayWrite i s = false) (a : Nat) : couldWriteByte i s a = false := by
  simp [couldWriteByte, h]

theorem couldWriteCell_of_not_mmTarget {k : Nat} (h : mmTarget i s k = false) : couldWriteCell i s k = false := by
  simp [couldWriteCell, h]

theorem couldWriteCell_of_not_mayWrite (h : mayWrite i s = false) (k : Nat) : couldWriteCell i s k = false := by
  simp [couldWriteCell, h]

theorem someCouldWriteByte_of_outside {a : Nat}
    (h : ∀ i, mayWrite i s = true → a < (dmTarget i s).1 ∨ (dmTarget i s).1 + (dmTarget i s).2 ≤ a) :
    someCouldWriteByte s a = false := by
  rw [someCouldWriteByte, List.any_eq_false]
  intro i _ hi
  obtain ⟨hlo, hhi, -, hmay⟩ := (couldWriteByte_iff s i a).mp hi
  have := h i hmay
  omega

theorem mayWrite_mxclr_of_bad_version (h : ∀ d, ¬ versionOk s.csr d) : mayWrite .mxclr s = false := by
  rw [← Bool.not_eq_true, mayWrite_mxclr_iff]
  rintro ⟨-, d, hd⟩
  exact h d (dim_ok hd)

/-- A cell that a completing command may set is a cell of the symbol (48_matrix R300). -/
theorem Completed.inSymbol_of_mmTarget (hc : Completed i s t) {k : Nat} (hk : mmTarget i s k = true) :
    inSymbol (4 * s.csr.version.toNat + 17) k = true := by
  obtain ⟨d, hd, hin⟩ := hc.paints.inSymbol k hk
  obtain ⟨-, -, rfl⟩ := dim_ok hd
  exact hin

theorem Completed.mmTarget_of_outside (hc : Completed i s t) {k : Nat}
    (hk : inSymbol (4 * s.csr.version.toNat + 17) k = false) : mmTarget i s k = false :=
  Bool.eq_false_iff.mpr fun h => Bool.false_ne_true (hk.symm.trans (hc.inSymbol_of_mmTarget h))

theorem Completed.mmTarget_of_changed (hc : Completed i s t) {k : Nat}
    (hk : Memory.read t.mm k ≠ Memory.read s.mm k) : mmTarget i s k = true := by
  by_contra h
  exact hk (hc.paints.frame k (Bool.eq_false_iff.mpr h))

theorem Completed.dmTarget_of_changed (hc : Completed i s t) {a : Nat}
    (ha : Memory.read t.dm a ≠ Memory.read s.dm a) :
    (dmTarget i s).1 ≤ a ∧ a < (dmTarget i s).1 + (dmTarget i s).2 := by
  by_contra h
  exact ha (hc.stores.frame a (by omega))

/-- Settles O18: CTRL acts in the order SRST, CLR, START, STOP, and a soft reset in a run forgets exactly what the
abandoned command could write. -/
theorem controlRegisterWrite : Obligations.ControlRegisterWrite := by
  intro s w
  refine ⟨fun hw => ?order, fun hw hr => ?idle, fun hw hr => ?running, rfl, rfl⟩
  case order =>
    dsimp only
    rw [← ite_clearFault, ← ite_start, ← ite_requestStop, hostWriteCsr_ctrl, State.ctrlWrite, hw,
      if_neg Bool.false_ne_true]
  case idle => rw [hostWriteCsr_ctrl, State.ctrlWrite_of_reset hw, s.softReset_idle hr]
  case running =>
    rw [hostWriteCsr_ctrl, State.ctrlWrite_of_reset hw, s.softReset_running hr]
    refine ⟨_, _, rfl, ?_⟩
    obtain ⟨i, hi, hab⟩ | ⟨c, n, hn, hab⟩ | ⟨f, hf, hab⟩ := s.abandonCommand_cases <;> rw [hab]
    · refine ⟨fun _ _ h => (nomatch hi.symm.trans h), fun _ h => (nomatch hi.symm.trans h), fun j hj => ?_⟩
      obtain rfl : i = j := by injection hi.symm.trans hj
      have cell_kept : ∀ k, mmTarget i s k = false →
          Memory.read (Memory.forgetWhere s.mm (couldWriteCell i s)) k = Memory.read s.mm k :=
        fun k hk => Memory.read_forgetWhere_false (couldWriteCell_of_not_mmTarget hk)
      refine ⟨fun a ha => Memory.read_forgetWhere_false (couldWriteByte_of_outside ha), cell_kept,
        fun k hk => cell_kept k (mmTarget_of_not_writesMatrix hk k), fun t hexec hend => ?_, fun t hexec hrun => ?_⟩
      · have hmay : mayWrite i s = false := (mayWrite_of_next s hexec).trans hend
        exact ⟨Memory.forgetWhere_of_none (couldWriteByte_of_not_mayWrite hmay),
          Memory.forgetWhere_of_none (couldWriteCell_of_not_mayWrite hmay)⟩
      · have hc := completed_of_run hexec hrun
        have byte_forgotten : ∀ a, (dmTarget i s).1 ≤ a → a < (dmTarget i s).1 + (dmTarget i s).2 →
            Memory.read (Memory.forgetWhere s.dm (couldWriteByte i s)) a = none :=
          fun a hlo hhi => Memory.read_forgetWhere_true (couldWriteByte_of_target hexec hrun hlo hhi)
        have cell_forgotten : ∀ k, mmTarget i s k = true →
            Memory.read (Memory.forgetWhere s.mm (couldWriteCell i s)) k = none :=
          fun k hk => Memory.read_forgetWhere_true
            ((couldWriteCell_iff s i k).mpr ⟨hk, (mayWrite_of_next s hexec).trans hrun⟩)
        exact ⟨fun k hk => cell_kept k (hc.mmTarget_of_outside hk),
          fun a ha => byte_forgotten a (hc.dmTarget_of_changed ha).1 (hc.dmTarget_of_changed ha).2,
          fun k hk => cell_forgotten k (hc.mmTarget_of_changed hk), byte_forgotten, cell_forgotten⟩
    · exact ⟨fun _ _ _ => ⟨rfl, rfl⟩, fun _ h => (nomatch hn.symm.trans h), fun _ h => (nomatch hn.symm.trans h)⟩
    · refine ⟨fun _ _ h => (nomatch hf.symm.trans h), fun _ _ => ?_, fun _ h => (nomatch hf.symm.trans h)⟩
      refine ⟨fun a ha => Memory.read_forgetWhere_false (someCouldWriteByte_of_outside ha),
        fun k hk => Memory.read_forgetWhere_false (couldWriteCell_of_not_mmTarget hk),
        fun hv => Memory.forgetWhere_of_none (couldWriteCell_of_not_mayWrite (mayWrite_mxclr_of_bad_version hv)),
        fun i t hexec hrun => ⟨fun a hlo hhi => ?_, fun k hk => ?_⟩⟩
      · exact Memory.read_forgetWhere_true (someCouldWriteByte_of_target hexec hrun hlo hhi)
      · exact Memory.read_forgetWhere_true (couldWriteCell_mxclr_of_target hexec hrun
          ((completed_of_run hexec hrun).mmTarget_of_changed hk))

end Sys2Proof.Machine
end

section
/-! The statements about what a command leaves unchanged in the host's registers and in the memories (20_memory R61,
R76; 48_matrix R300). -/

namespace Sys2Proof.Machine

/-- Settles O11: neither a fault entry nor a completion writes the host's state, and a completion keeps the fault record. -/
theorem engineNeverWritesHostState : Obligations.EngineNeverWritesHostState := by
  intro i s t h
  obtain ⟨c, n, rfl⟩ | hc := exec_ends i s t h
  · exact ⟨rfl, rfl, rfl, .inr ⟨rfl, rfl, rfl⟩⟩
  · exact ⟨hc.cm, hc.ie, hc.stopReq, .inl ⟨hc.cause, hc.epc, hc.tval⟩⟩

/-- Settles O13: a fault entry keeps DM, and a completion stores only in the range of the command. -/
theorem dataMemoryFrame : Obligations.DataMemoryFrame := by
  intro i s t h a ha
  obtain ⟨c, n, rfl⟩ | hc := exec_ends i s t h
  · rfl
  · exact hc.stores.frame a ha

/-- Settles O14: a fault entry keeps MM, and a completion sets only target cells, of which a command outside
`writesMatrix` has none and any other only cells of the symbol. -/
theorem moduleMemoryFrame : Obligations.ModuleMemoryFrame := by
  intro i s t h k hk
  obtain ⟨c, n, rfl⟩ | hc := exec_ends i s t h
  · rfl
  · obtain hi | hout := hk
    · exact hc.paints.frame k (mmTarget_of_not_writesMatrix hi k)
    · exact hc.paints.frame k (hc.mmTarget_of_outside hout)

end Sys2Proof.Machine
end

section
/-! The statements about the host's operations (20_memory R70, R71; 10_state R28 to R37). -/

namespace Sys2Proof.Machine

variable {s : State}

/-! ## The invariant -/

theorem State.Inv.cm_wf (h : s.Inv) : Memory.wf Config.cmWords s.cm = true :=
  (s.memoriesWf_iff.mp h.memories).1

theorem State.Inv.dm_wf (h : s.Inv) : Memory.wf Config.dmBytes s.dm = true :=
  (s.memoriesWf_iff.mp h.memories).2.1

theorem State.Inv.mm_wf (h : s.Inv) : Memory.wf (Config.mmDim * Config.mmDim) s.mm = true :=
  (s.memoriesWf_iff.mp h.memories).2.2

/-- The registers of the reset state with canonical memories. -/
theorem State.inv_reset_with {cm : Memory Word} {dm : Memory Byte} {mm : Memory ModuleCell}
    (hcm : Memory.wf Config.cmWords cm = true) (hdm : Memory.wf Config.dmBytes dm = true)
    (hmm : Memory.wf (Config.mmDim * Config.mmDim) mm = true) :
    State.Inv { State.reset with cm := cm, dm := dm, mm := mm } :=
  { State.reset_inv with memories := (State.memoriesWf_iff _).mpr ⟨hcm, hdm, hmm⟩ }

theorem State.Inv.withCm {cm : Memory Word} (h : s.Inv) (hcm : Memory.wf Config.cmWords cm = true) :
    State.Inv { s with cm := cm } :=
  { h with memories := (State.memoriesWf_iff _).mpr ⟨hcm, h.dm_wf, h.mm_wf⟩ }

theorem State.Inv.withDm {dm : Memory Byte} (h : s.Inv) (hdm : Memory.wf Config.dmBytes dm = true) :
    State.Inv { s with dm := dm } :=
  { h with memories := (State.memoriesWf_iff _).mpr ⟨h.cm_wf, hdm, h.mm_wf⟩ }

theorem State.Inv.withMm {mm : Memory ModuleCell} (h : s.Inv)
    (hmm : Memory.wf (Config.mmDim * Config.mmDim) mm = true) : State.Inv { s with mm := mm } :=
  { h with memories := (State.memoriesWf_iff _).mpr ⟨h.cm_wf, h.dm_wf, hmm⟩ }

/-- Abandoning a command only forgets locations, so the memories stay canonical. -/
theorem State.Inv.abandonCommand_wf (h : s.Inv) : Memory.wf Config.dmBytes s.abandonCommand.dm = true ∧
    Memory.wf (Config.mmDim * Config.mmDim) s.abandonCommand.mm = true := by
  obtain ⟨i, -, hs⟩ | ⟨c, n, -, hs⟩ | ⟨f, -, hs⟩ := s.abandonCommand_cases <;> rw [hs]
  · exact ⟨Memory.wf_forgetWhere _ h.dm_wf, Memory.wf_forgetWhere _ h.mm_wf⟩
  · exact ⟨h.dm_wf, h.mm_wf⟩
  · exact ⟨Memory.wf_forgetWhere _ h.dm_wf, Memory.wf_forgetWhere _ h.mm_wf⟩

theorem State.Inv.softReset (h : s.Inv) : s.softReset.Inv := by
  cases hr : s.status.run with
  | false =>
    rw [s.softReset_idle hr]
    exact State.inv_reset_with h.cm_wf h.dm_wf h.mm_wf
  | true =>
    rw [s.softReset_running hr]
    obtain ⟨hdm, hmm⟩ := h.abandonCommand_wf
    exact State.inv_reset_with h.cm_wf hdm hmm

theorem State.Inv.hardReset (h : s.Inv) : s.hardReset.Inv := by
  cases hr : s.status.run with
  | false =>
    rw [s.hardReset_idle hr]
    exact State.reset_inv
  | true =>
    rw [s.hardReset_running hr]
    exact State.inv_reset_with h.cm_wf rfl rfl

theorem State.Inv.clearFault (h : s.Inv) : s.clearFault.Inv := by
  unfold State.clearFault
  split
  · exact h
  · next hr =>
    exact {
      h with
      status := by simp [Status.legal, hr]
      noFault := fun _ => ⟨rfl, rfl, rfl⟩
      fault := nofun }

theorem State.Inv.start (h : s.Inv) : s.start.Inv := by
  unfold State.start
  split
  · exact h
  · next hs =>
    obtain ⟨-, hf⟩ : s.status.run = false ∧ s.status.fault = false := by simpa using hs
    exact {
      h with
      status := by simp [Status.legal, hf]
      stop := fun _ => rfl }

theorem State.Inv.requestStop (h : s.Inv) : s.requestStop.Inv := by
  unfold State.requestStop
  split
  · next hr => exact { h with stop := fun _ => hr }
  · exact h

theorem State.Inv.ite {c : Prop} [Decidable c] {t u : State} (ht : t.Inv) (hu : u.Inv) :
    (if c then t else u).Inv := by
  split
  · exact ht
  · exact hu

theorem State.Inv.ctrlWrite (h : s.Inv) (w : Word) : (s.ctrlWrite w).Inv := by
  have hclr := State.Inv.ite (c := w.getLsbD 3 = true) h.clearFault h
  have hstart := State.Inv.ite (c := w.getLsbD 0 = true) hclr.start hclr
  exact .ite h.softReset (.ite hstart.requestStop hstart)

theorem State.Inv.hostWriteCsr (h : s.Inv) (n : Fin 64) (w : Word) : (hostWriteCsr n w s).Inv := by
  unfold Machine.hostWriteCsr
  split
  case h_1 => exact h
  case h_2 => exact h.ctrlWrite w
  case h_3 => exact { h with }
  case h_4 => exact .ite h { h with }
  case h_5 => exact .ite h { h with }

theorem State.Inv.hostWriteCm (h : s.Inv) (i : Fin 1024) (w : Word) : (hostWriteCm i w s).Inv :=
  .ite h (h.withCm (Memory.wf_write w i.isLt h.cm_wf))

theorem State.Inv.hostWriteDm (h : s.Inv) (a : Fin 16384) (b : Byte) : (hostWriteDm a b s).Inv :=
  .ite h (h.withDm (Memory.wf_write b a.isLt h.dm_wf))

theorem State.Inv.hostWriteMm {t : State} (h : s.Inv) {r c : Fin 177} {code : BitVec 2}
    (ht : hostWriteMm r c code s = .next t) : t.Inv := by
  unfold Machine.hostWriteMm at ht
  split at ht
  · cases ht
  · injection ht with ht
    exact ht ▸ .ite h (h.withMm (Memory.wf_write _ (cellKey_lt r.isLt c.isLt) h.mm_wf))

/-- Settles O9: each kind of host operation keeps the invariant. -/
theorem hostMovesKeepInvariant : Obligations.HostMovesKeepInvariant := by
  intro m s t h hm
  cases m with
  | writeCsr n w =>
    injection hm with hm
    exact hm ▸ h.hostWriteCsr n w
  | writeCm i w =>
    injection hm with hm
    exact hm ▸ h.hostWriteCm i w
  | writeDm a b =>
    injection hm with hm
    exact hm ▸ h.hostWriteDm a b
  | writeMm r c code => exact h.hostWriteMm hm
  | hardReset =>
    injection hm with hm
    exact hm ▸ h.hardReset

/-! ## Access while idle and during a run -/

theorem Csr.number_of_ofNumber {n : Nat} {c : Csr} (h : Csr.ofNumber n = some c) : c.number = n := by
  unfold Csr.ofNumber at h
  split at h
  case h_31 => cases h
  all_goals
    injection h with h
    subst h
    rfl

@[simp] theorem ModuleCell.ofCode_code (m : ModuleCell) : ModuleCell.ofCode m.code = some m := by
  cases m <;> rfl

/-! ### During a run (R71) -/

/-- A write of a CSR other than CTRL and IE is ignored. -/
theorem hostWriteCsr_running {n : Fin 64} {w : Word} (hr : s.status.run = true) (h1 : n ≠ 1) (h3 : n ≠ 3) :
    hostWriteCsr n w s = s := by
  unfold hostWriteCsr
  split
  case h_1 => rfl
  case h_2 hc => exact absurd (Fin.ext (Csr.number_of_ofNumber hc).symm) h1
  case h_3 hc => exact absurd (Fin.ext (Csr.number_of_ofNumber hc).symm) h3
  case h_4 => exact if_pos hr
  case h_5 => exact if_pos hr

/-- A read of a CSR other than ID and STATUS is refused. -/
theorem hostReadCsr_running {n : Fin 64} (hr : s.status.run = true) (h0 : n ≠ 0) (h2 : n ≠ 2) :
    hostReadCsr n s = .refused .hostReadDuringRun := by
  unfold hostReadCsr
  split
  case h_1 hc => exact absurd (Fin.ext (Csr.number_of_ofNumber hc).symm) h0
  case h_2 hc => exact absurd (Fin.ext (Csr.number_of_ofNumber hc).symm) h2
  case h_3 => exact if_pos hr
  case h_4 => exact if_pos hr

/-! ### While idle (R70) -/

theorem hostReadCsr_idle {n : Fin 64} {c : Csr} (hr : s.status.run = false) (hc : Csr.ofNumber n.val = some c) :
    hostReadCsr n s = .next (s.csrRead c) := by
  unfold hostReadCsr
  rw [hc]
  split
  case h_1 he => cases he; rfl
  case h_2 he => cases he; rfl
  case h_3 he => cases he; exact if_neg (by simp [hr])
  case h_4 he => cases he

theorem hostWriteCsr_idle {n : Fin 64} {c : Csr} {w : Word} (hr : s.status.run = false)
    (hc : Csr.ofNumber n.val = some c) (hw : c.engineWritable = true) : hostWriteCsr n w s = s.csrWrite c w := by
  unfold hostWriteCsr
  rw [hc]
  cases c with
  | id | ctrl | status | ie | pc | cause | epc | tval => cases hw
  | _ => exact if_neg (by simp [hr])

/-- Widening the low bits of a word gives its remainder. -/
theorem setWidth_setWidth_word (w : Word) (k : Nat) :
    (w.setWidth k).setWidth 32 = BitVec.ofNat 32 (w.toNat % 2 ^ k) := by
  apply BitVec.eq_of_toNat_eq
  simp

theorem word_eq_ofNat_mod (w : Word) : w = BitVec.ofNat 32 (w.toNat % 2 ^ 32) := by
  rw [Nat.mod_eq_of_lt w.isLt, BitVec.ofNat_toNat, BitVec.setWidth_eq]

/-- A written CSR reads back as the low bits it implements (10_state R28, R30). -/
theorem csrRead_csrWrite {c : Csr} (w : Word) (hw : c.engineWritable = true) :
    (s.csrWrite c w).csrRead c = BitVec.ofNat 32 (w.toNat % 2 ^ Claims.csrWidth c) := by
  cases c with
  | id | ctrl | status | ie | pc | cause | epc | tval => cases hw
  | wlen | rpos | rlim => exact word_eq_ofNat_mod w
  | aln i =>
    simp only [State.csrRead, State.csrWrite_csr, ParamCsrs.write, Vector.getElem_set_self]
    exact setWidth_setWidth_word w 8
  | _ => exact setWidth_setWidth_word w _

theorem hostReadCsr_hostWriteCsr {n : Fin 64} {c : Csr} (w : Word) (hr : s.status.run = false)
    (hc : Csr.ofNumber n.val = some c) (hw : c.engineWritable = true ∨ c = .pc ∨ c = .ie) :
    hostReadCsr n (hostWriteCsr n w s) = .next (BitVec.ofNat 32 (w.toNat % 2 ^ Claims.csrWidth c)) := by
  obtain hw | rfl | rfl := hw
  · rw [hostWriteCsr_idle hr hc hw, hostReadCsr_idle (s := s.csrWrite c w) hr hc, csrRead_csrWrite w hw]
  · have hs : hostWriteCsr n w s = { s with pc := w } := by
      rw [hostWriteCsr, hc]
      exact if_neg (by simp [hr])
    rw [hs, hostReadCsr_idle (s := { s with pc := w }) hr hc]
    exact congrArg _ (word_eq_ofNat_mod w)
  · have hs : hostWriteCsr n w s = { s with ie := w.setWidth 2 } := by
      rw [hostWriteCsr, hc]
    rw [hs, hostReadCsr_idle (s := { s with ie := w.setWidth 2 }) hr hc]
    exact congrArg _ (setWidth_setWidth_word w 2)

theorem hostReadCm_hostWriteCm (i : Fin 1024) (w : Word) (hr : s.status.run = false) :
    hostReadCm i (hostWriteCm i w s) = .next w := by
  simp [hostReadCm, hostWriteCm, hr]

theorem hostReadDm_hostWriteDm (a : Fin 16384) (b : Byte) (hr : s.status.run = false) :
    hostReadDm a (hostWriteDm a b s) = .next b := by
  simp [hostReadDm, hostWriteDm, hr]

theorem hostWriteMm_code (r c : Fin 177) (m : ModuleCell) : hostWriteMm r c m.code s =
    .next (if s.status.run then s else { s with mm := Memory.write s.mm (cellKey r.val c.val) m }) := by
  rw [hostWriteMm, ModuleCell.ofCode_code]

theorem hostReadMm_of_hostWriteMm {t : State} {r c : Fin 177} {m : ModuleCell} (hr : s.status.run = false)
    (ht : hostWriteMm r c m.code s = .next t) : hostReadMm r c t = .next m.code := by
  rw [hostWriteMm_code] at ht
  injection ht with ht
  subst ht
  simp [hostReadMm, hr]

/-! ### Always -/

theorem hostWriteCsr_id (w : Word) : hostWriteCsr 0 w s = s := ite_self s

/-- STATUS reads as the sum of its set bits (10_state R35). -/
theorem State.status_word_eq (s : State) : s.status.word = BitVec.ofNat 32 (Claims.csrValue s .status) := by
  simp only [Status.word, Claims.csrValue]
  cases s.status.run <;> cases s.status.done <;> cases s.status.fault <;> cases s.status.stopped <;> rfl

theorem State.irq_iff : s.irq = true ↔
    (s.status.done = true ∧ s.ie.getLsbD 0 = true) ∨ (s.status.fault = true ∧ s.ie.getLsbD 1 = true) := by
  simp [State.irq]

/-- Settles O19: the accesses during a run, those while idle, and those that RUN does not matter to. -/
theorem hostAccess : Obligations.HostAccess := by
  intro s n w i a b r c m
  refine ⟨fun hr => ?running, fun hr => ?idle, rfl, hostWriteCsr_id w, congrArg _ s.status_word_eq, rfl, s.irq_iff⟩
  case running =>
    refine ⟨hostWriteCsr_running hr, if_pos hr, if_pos hr, ?_, hostReadCsr_running hr, if_pos hr, if_pos hr,
      if_pos hr⟩
    rw [hostWriteMm_code, if_pos hr]
  case idle =>
    refine ⟨hostReadCm_hostWriteCm i w hr, hostReadDm_hostWriteDm a b hr, fun t => hostReadMm_of_hostWriteMm hr,
      fun x => hostReadCsr_hostWriteCsr w hr, fun hn => ?_⟩
    rw [hostWriteCsr, hostReadCsr, hn]
    exact ⟨rfl, if_neg (by simp [hr])⟩

end Sys2Proof.Machine
end

section
/-! SUPPORT. Where a chain of checks may stop the model itself: the calculus of `Stops`, and that the field, the
polynomial unit, the Reed-Solomon unit and the codeword sequencer, which read no memory, never do (20_memory R79). -/

namespace Sys2Proof.Machine

/-- Every stop of the model in a chain satisfies `P`, and every answer of it `Q`; a fault of the hardware is no stop of
the model. -/
def Stops {α : Type} (P : Fault → Prop) (Q : α → Prop) : Except Stop α → Prop
  | .ok a => Q a
  | .error (.raises _ _) => True
  | .error (.sticks f) => P f

/-- The chain stops the model only where `P` holds. -/
abbrev StopsOnly {α : Type} (P : Fault → Prop) (r : Except Stop α) : Prop := Stops P (fun _ => True) r

variable {α β : Type} {P : Fault → Prop} {Q : α → Prop} {R : β → Prop}

theorem Stops.ok {a : α} (h : Q a) : Stops P Q (.ok a) := h

theorem Stops.pure {a : α} (h : Q a) : Stops P Q (pure a) := h

theorem Stops.raise {c : Cause} {n : Nat} : Stops P Q (raise c n) := trivial

/-- The rest of the chain may use what the first part's answer satisfies. -/
theorem Stops.andThen {x : Except Stop α} {f : α → Except Stop β} (hx : Stops P Q x)
    (hf : ∀ a, x = .ok a → Q a → Stops P R (f a)) : Stops P R (x >>= f) := by
  match x, hx with
  | .ok a, hx => exact hf a rfl hx
  | .error (.raises _ _), _ => trivial
  | .error (.sticks _), hx => exact hx

theorem Stops.bind {x : Except Stop α} {f : α → Except Stop β} (hx : StopsOnly P x)
    (hf : ∀ a, x = .ok a → Stops P R (f a)) : Stops P R (x >>= f) :=
  hx.andThen fun a ha _ => hf a ha

/-- A stop of a chain is as good a stop of another one. -/
theorem Stops.error {x : Except Stop α} {e : Stop} (hx : Stops P Q x) (he : x = .error e) :
    Stops P R (.error e) := by
  subst he
  match e, hx with
  | .raises _ _, _ => trivial
  | .sticks _, hx => exact hx

theorem Stops.ite {c : Prop} [Decidable c] {x y : Except Stop α} (hx : c → Stops P Q x) (hy : ¬ c → Stops P Q y) :
    Stops P Q (if c then x else y) := by
  split
  · next h => exact hx h
  · next h => exact hy h

/-! ## The checks and the field -/

theorem stops_badOperandIf {bad : Bool} {v : Nat} : StopsOnly P (badOperandIf bad v) :=
  .ite (fun _ => .raise) fun _ => trivial

theorem stops_checkRange {a n : Nat} : StopsOnly P (checkRange a n) := .ite (fun _ => .raise) fun _ => trivial

theorem stops_checkStream {base q n : Nat} : StopsOnly P (checkStream base q n) :=
  .ite (fun _ => .raise) fun _ => trivial

theorem stops_fieldElement {v : Word} : StopsOnly P (fieldElement v) := .ite (fun _ => .raise) fun _ => trivial

theorem stops_fieldElements {v w : Word} : StopsOnly P (fieldElements v w) :=
  .bind stops_fieldElement fun _ _ => .bind stops_fieldElement fun _ _ => trivial

theorem stops_gfInv {a : Byte} : StopsOnly P (gfInv a) := .ite (fun _ => .raise) fun _ => trivial

theorem stops_gfLog {a : Byte} : StopsOnly P (gfLog a) := .ite (fun _ => .raise) fun _ => trivial

theorem stops_dim {f : ParamCsrs} : StopsOnly P (dim f) := .ite (fun _ => .raise) fun _ => trivial

theorem stops_checkCentres {d : Nat} {cs : List Nat} : StopsOnly P (checkCentres d cs) := by
  induction cs with
  | nil => trivial
  | cons c cs ih => exact .bind stops_badOperandIf fun _ _ => ih

theorem stops_checkLayout {f : ParamCsrs} : StopsOnly P (checkLayout f) :=
  .bind stops_badOperandIf fun _ _ => .bind stops_badOperandIf fun _ _ => .bind stops_badOperandIf fun _ _ =>
    .bind stops_badOperandIf fun _ _ => stops_badOperandIf

/-! ## Polynomials (44_polynomial) -/

theorem stops_poly {f : List Byte} : StopsOnly P (poly f) := .ite (fun _ => .raise) fun _ => trivial

theorem stops_polyMul {f g : List Byte} : StopsOnly P (polyMul f g) :=
  .ite (fun _ => trivial) fun _ => .ite (fun _ => .raise) fun _ => trivial

theorem stops_polyMulm {f : List Byte} {d : Nat} {c : Byte} : StopsOnly P (polyMulm f d c) :=
  .ite (fun _ => trivial) fun _ => .ite (fun _ => .raise) fun _ => trivial

theorem stops_polyMono {d : Nat} {c : Byte} : StopsOnly P (polyMono d c) :=
  .ite (fun _ => trivial) fun _ => .ite (fun _ => .raise) fun _ => trivial

theorem stops_divLoop {g : List Byte} {li : Byte} {fuel : Nat} {q r : List Byte} :
    StopsOnly P (divLoop g li fuel q r) := by
  induction fuel generalizing q r with
  | zero => trivial
  | succ fuel ih =>
    exact .ite (fun _ => .bind stops_polyMono fun _ _ => .bind stops_polyMulm fun _ _ => ih) fun _ => trivial

theorem stops_polyDivmod {f g : List Byte} : StopsOnly P (polyDivmod f g) :=
  .bind stops_gfInv fun _ _ => stops_divLoop

theorem stops_polyMod {f g : List Byte} : StopsOnly P (polyMod f g) := .bind stops_polyDivmod fun _ _ => trivial

/-! ## Reed-Solomon and codewords (45_reed_solomon, 47_codeword_bch) -/

theorem stops_rsGenFrom {g : List Byte} {i n : Nat} : StopsOnly P (rsGenFrom g i n) := by
  induction n generalizing g i with
  | zero => trivial
  | succ n ih => exact .bind stops_polyMul fun _ _ => ih

theorem stops_rsEcc {d : List Byte} {t : Nat} : StopsOnly P (rsEcc d t) :=
  .bind stops_poly fun _ _ => .bind stops_rsGenFrom fun _ _ => .bind stops_polyMod fun _ _ => trivial

theorem stops_rsEncode {d : List Byte} {t : Nat} : StopsOnly P (rsEncode d t) := .bind stops_rsEcc fun _ _ => trivial

theorem stops_rsSyndromes {c : List Byte} {t : Nat} : StopsOnly P (rsSyndromes c t) :=
  .bind stops_poly fun _ _ => .bind stops_poly fun _ _ => trivial

theorem stops_euclidLoop {t : Nat} (fuel : Nat) {rLast r tLast tt : List Byte} :
    StopsOnly P (euclidLoop t fuel rLast r tLast tt) := by
  unfold euclidLoop
  refine .ite (fun _ => ?turn) fun _ => .ite (fun _ => trivial) fun _ => .bind stops_gfInv fun _ _ =>
    .bind stops_polyMulm fun _ _ => .bind stops_polyMulm fun _ _ => trivial
  case turn =>
    match fuel with
    | 0 => trivial
    | fuel + 1 =>
      exact .ite (fun _ => trivial) fun _ => .bind stops_polyDivmod fun _ _ => .bind stops_polyMul fun _ _ =>
        stops_euclidLoop fuel

theorem stops_rsEuclid {sx : List Byte} {t : Nat} : StopsOnly P (rsEuclid sx t) :=
  .bind stops_polyMono fun _ _ => stops_euclidLoop t

theorem stops_chienFrom {sigma : List Byte} {j n : Nat} : StopsOnly P (chienFrom sigma j n) := by
  induction n generalizing j with
  | zero => trivial
  | succ n ih => exact .ite (fun _ => .bind stops_gfInv fun _ _ => .bind ih fun _ _ => trivial) fun _ => ih

theorem stops_rsChien {sigma : List Byte} : StopsOnly P (rsChien sigma) := .bind stops_chienFrom fun _ _ => trivial

theorem stops_forneyFrom {omega locs : List Byte} {i n : Nat} : StopsOnly P (forneyFrom omega locs i n) := by
  induction n generalizing i with
  | zero => trivial
  | succ n ih => exact .bind stops_gfInv fun _ _ => .bind stops_gfInv fun _ _ => .bind ih fun _ _ => trivial

theorem stops_rsForney {omega locs : List Byte} : StopsOnly P (rsForney omega locs) := stops_forneyFrom

theorem stops_positions {n : Nat} {locs : List Byte} : StopsOnly P (positions n locs) := by
  induction locs with
  | nil => trivial
  | cons loc locs ih =>
    refine .bind stops_gfLog fun _ _ => .ite (fun _ => trivial) fun _ => .bind ih fun ps _ => ?_
    cases ps <;> trivial

theorem stops_rsCorrect {c locs mags : List Byte} : StopsOnly P (rsCorrect c locs mags) :=
  .bind stops_positions fun ps _ => by cases ps <;> trivial

theorem stops_rsDecode {c : List Byte} {t : Nat} : StopsOnly P (rsDecode c t) := by
  refine .bind stops_rsSyndromes fun sa _ => .ite (fun _ => trivial) fun _ => .bind stops_rsEuclid fun so _ => ?_
  match so with
  | .error st => trivial
  | .ok (sigma, omega) =>
    refine .bind stops_rsChien fun locs _ => ?_
    match locs with
    | .error st => trivial
    | .ok locs =>
      refine .bind stops_rsForney fun mags _ => .bind stops_rsCorrect fun out _ => ?_
      cases out <;> trivial

theorem stops_splitBlocks {shapes : List (Nat × Nat)} {data : List Byte} : StopsOnly P (splitBlocks shapes data) := by
  induction shapes generalizing data with
  | nil => trivial
  | cons t ts ih => exact .bind stops_rsEcc fun _ _ => .bind ih fun _ _ => trivial

theorem stops_cwSequence {data : List Byte} {groups : List (Nat × Nat × Nat)} :
    StopsOnly P (cwSequence data groups) :=
  .bind stops_splitBlocks fun _ _ => trivial

end Sys2Proof.Machine
end

section
/-! SUPPORT. A read of a memory stops the model only at an unwritten location, and what a command has written before
stays written (20_memory R79; log 1). -/

namespace Sys2Proof.Machine

/-- `P` holds of the model's stop at each unwritten byte of DM. -/
def ByteStops (P : Fault → Prop) (dm : Memory Byte) : Prop :=
  ∀ a < Config.dmBytes, Memory.read dm a = none → P (.unwrittenByte a)

/-- `P` holds of the model's stop at each unwritten cell of MM. -/
def CellStops (P : Fault → Prop) (mm : Memory ModuleCell) : Prop :=
  ∀ r < Config.mmDim, ∀ c < Config.mmDim, Memory.read mm (cellKey r c) = none → P (.unwrittenCell r c)

variable {P : Fault → Prop}

theorem Memory.read_eq_none_of_write {α : Type} {m : Memory α} {a b : Nat} {v : α}
    (h : Memory.read (Memory.write m a v) b = none) : Memory.read m b = none := by
  by_contra hb
  have := Memory.isSome_read_write m a b v (Option.isSome_iff_ne_none.mpr hb)
  rw [h] at this
  cases this

theorem ByteStops.write {dm : Memory Byte} (h : ByteStops P dm) {a : Nat} {v : Byte} :
    ByteStops P (Memory.write dm a v) :=
  fun b hb hn => h b hb (Memory.read_eq_none_of_write hn)

theorem CellStops.write {mm : Memory ModuleCell} (h : CellStops P mm) {k : Nat} {m : ModuleCell} :
    CellStops P (Memory.write mm k m) :=
  fun r hr c hc hn => h r hr c hc (Memory.read_eq_none_of_write hn)

/-! ## Data memory -/

variable {dm : Memory Byte}

theorem stops_writtenByte {a : Nat} (h : ByteStops P dm) (ha : a < Config.dmBytes) :
    StopsOnly P (writtenByte dm a) := by
  unfold writtenByte
  split
  · trivial
  · next hn => exact h a ha hn

theorem stops_memRead {a : Nat} (h : ByteStops P dm) : StopsOnly P (memRead dm a) :=
  .ite (fun ha => stops_writtenByte h ha) fun _ => .raise

theorem stops_writtenBytes {a n : Nat} (h : ByteStops P dm) (hn : 0 < n → a + n ≤ Config.dmBytes) :
    StopsOnly P (writtenBytes dm a n) := by
  induction n generalizing a with
  | zero => trivial
  | succ n ih =>
    have ha := hn (Nat.succ_pos n)
    exact .bind (stops_writtenByte h (by omega)) fun _ _ => .bind (ih fun _ => by omega) fun _ _ => trivial

theorem stops_memReadSeq {a n : Nat} (h : ByteStops P dm) : StopsOnly P (memReadSeq dm a n) :=
  .bind stops_checkRange fun _ hu => stops_writtenBytes h (checkRange_ok hu)

theorem stops_memWrite {a : Nat} {v : Byte} : StopsOnly P (memWrite dm a v) :=
  .ite (fun _ => trivial) fun _ => .raise

theorem stops_memWriteSeq {a : Nat} {bytes : List Byte} : StopsOnly P (memWriteSeq dm a bytes) :=
  .bind stops_checkRange fun _ _ => trivial

/-! ### Bit streams -/

/-- A position before the last one of a stream that fits is inside DM. -/
theorem streamByte_lt {base q n k : Nat} (hr : streamByte base (q + n - 1) < Config.dmBytes) (hk : k < q + n) :
    streamByte base k < Config.dmBytes := by
  unfold streamByte at *
  omega

theorem stops_putBits {value : Word} {base n q : Nat} (h : ByteStops P dm)
    (hr : 0 < n → streamByte base (q + n - 1) < Config.dmBytes) :
    Stops P (ByteStops P) (putBits value base n q dm) := by
  induction n generalizing q dm with
  | zero => exact h
  | succ n ih =>
    have hlast := hr (Nat.succ_pos n)
    refine .bind (.ite (fun _ => trivial) fun _ => stops_writtenByte h ?_) fun _ _ => ih h.write fun _ => ?_
    all_goals exact streamByte_lt hlast (by omega)

theorem stops_readBits {base n q : Nat} {v : Word} (h : ByteStops P dm)
    (hr : 0 < n → streamByte base (q + n - 1) < Config.dmBytes) : StopsOnly P (readBits dm base n q v) := by
  induction n generalizing q v with
  | zero => trivial
  | succ n ih =>
    have hlast := hr (Nat.succ_pos n)
    refine .bind (stops_writtenByte h ?_) fun _ _ => ih fun _ => ?_
    all_goals exact streamByte_lt hlast (by omega)

theorem stops_bbPut {value : Word} {n : Nat} {s : State} (h : ByteStops P s.dm) :
    Stops P (fun t => ByteStops P t.dm) (bbPut value n s) :=
  .bind stops_checkStream fun _ hu => .andThen (stops_putBits h (checkStream_ok hu)) fun _ _ hdm => hdm

theorem stops_padBytes {count k : Nat} {s : State} (h : ByteStops P s.dm) : StopsOnly P (padBytes count k s) := by
  induction count generalizing k s with
  | zero => trivial
  | succ count ih => exact .andThen (stops_bbPut h) fun _ _ ht => ih ht

theorem stops_bbPad {m : Nat} {s : State} (h : ByteStops P s.dm) : StopsOnly P (bbPad m s) :=
  .ite (fun _ => .raise) fun _ => .ite (fun _ => .raise) fun _ => .andThen (stops_bbPut h) fun _ _ ht =>
    .andThen (stops_bbPut ht) fun _ _ hu => stops_padBytes hu

/-! ## Module memory -/

variable {mm : Memory ModuleCell} {d : Nat}

theorem le_dim {f : ParamCsrs} (h : dim f = .ok d) : 21 ≤ d := (dim_bounds h).1

theorem dim_le_mmDim {f : ParamCsrs} (h : dim f = .ok d) : d ≤ Config.mmDim := (dim_bounds h).2.1

theorem CellStops.setAll {stamps : List Stamp} (h : CellStops P mm) : CellStops P (setAll mm stamps) := by
  induction stamps generalizing mm with
  | nil => exact h
  | cons t ts ih => exact ih h.write

theorem CellStops.unsetAll {cs : List (Nat × Nat)} (h : CellStops P mm) : CellStops P (unsetAll mm cs) := by
  induction cs generalizing mm with
  | nil => exact h
  | cons t ts ih => exact ih h.write

theorem CellStops.ite {c : Prop} [Decidable c] {mm' : Memory ModuleCell} (h : CellStops P mm)
    (h' : CellStops P mm') : CellStops P (if c then mm else mm') := by
  split
  · exact h
  · exact h'

theorem stops_writtenCell {r c : Nat} (h : CellStops P mm) (hr : r < Config.mmDim) (hc : c < Config.mmDim) :
    StopsOnly P (writtenCell mm r c) := by
  unfold writtenCell
  split
  · trivial
  · next hn => exact h r hr c hc hn

theorem stops_isDark {r c : Nat} (h : CellStops P mm) (hr : r < Config.mmDim) (hc : c < Config.mmDim) :
    StopsOnly P (isDark mm r c) :=
  .bind (stops_writtenCell h hr hc) fun m _ => by cases m <;> trivial

theorem stops_setWhereUnset {stamps : List Stamp} (hd : d ≤ Config.mmDim) (hs : StampsIn d stamps)
    (h : CellStops P mm) : Stops P (CellStops P) (setWhereUnset mm stamps) := by
  induction stamps generalizing mm with
  | nil => exact h
  | cons t ts ih =>
    obtain ⟨hr, hc⟩ := hs t List.mem_cons_self
    exact .bind (stops_writtenCell h (hr.trans_le hd) (hc.trans_le hd)) fun _ _ =>
      ih (fun u hu => hs u (List.mem_cons_of_mem t hu)) (.ite h.write h)

theorem stops_placeAlignAt {cs : List (Nat × Nat)} (hs : ∀ t ∈ cs, t.1 < Config.mmDim ∧ t.2 < Config.mmDim)
    (h : CellStops P mm) : Stops P (CellStops P) (placeAlignAt mm cs) := by
  induction cs generalizing mm with
  | nil => exact h
  | cons t ts ih =>
    obtain ⟨hr, hc⟩ := hs t List.mem_cons_self
    exact .bind (stops_writtenCell h hr hc) fun _ _ =>
      ih (fun u hu => hs u (List.mem_cons_of_mem t hu)) (.ite h.setAll h)

theorem stops_placeAlign {f : ParamCsrs} (hd : d ≤ Config.mmDim) (hc : ∀ a ∈ alignCentres f, 2 ≤ a ∧ a ≤ d - 3)
    (h : CellStops P mm) : Stops P (CellStops P) (placeAlign f mm) := by
  refine stops_placeAlignAt (fun t ht => ?_) h
  obtain ⟨⟨-, hr⟩, -, hcol⟩ := centrePairs_bounds hc t ht
  simp only [Config.mmDim] at *
  omega

theorem stops_placeFrom {bytes : List Byte} {m j : Nat} {cs : List (Nat × Nat)} (hd : d ≤ Config.mmDim)
    (hs : ∀ t ∈ cs, t.1 < d ∧ t.2 < d) (h : CellStops P mm) :
    Stops P (CellStops P) (placeFrom bytes m mm j cs) := by
  induction cs generalizing mm j with
  | nil => exact h
  | cons t ts ih =>
    obtain ⟨hr, hc⟩ := hs t List.mem_cons_self
    have hts : ∀ u ∈ ts, u.1 < d ∧ u.2 < d := fun u hu => hs u (List.mem_cons_of_mem t hu)
    exact .bind (stops_writtenCell h (hr.trans_le hd) (hc.trans_le hd)) fun _ _ =>
      .ite (fun _ => ih hts h.write) fun _ => ih hts h

theorem stops_placeData {bytes : List Byte} {m : Nat} (h21 : 21 ≤ d) (hd : d ≤ Config.mmDim) (h : CellStops P mm) :
    Stops P (CellStops P) (placeData d bytes m mm) :=
  stops_placeFrom hd (path_in (by omega)) h

theorem stops_placeTiming (h21 : 21 ≤ d) (hd : d ≤ Config.mmDim) (h : CellStops P mm) :
    Stops P (CellStops P) (placeTiming d mm) :=
  stops_setWhereUnset hd (timingStamps_in h21) h

theorem stops_readColours {cs : List (Nat × Nat)} (hs : ∀ t ∈ cs, t.1 < Config.mmDim ∧ t.2 < Config.mmDim)
    (h : CellStops P mm) : StopsOnly P (readColours mm cs) := by
  induction cs with
  | nil => trivial
  | cons t ts ih =>
    obtain ⟨hr, hc⟩ := hs t List.mem_cons_self
    exact .bind (stops_isDark h hr hc) fun _ _ =>
      .bind (ih fun u hu => hs u (List.mem_cons_of_mem t hu)) fun _ _ => trivial

theorem stops_readRows {r n : Nat} (hd : d ≤ Config.mmDim) (hr : r + n ≤ d) (h : CellStops P mm) :
    StopsOnly P (readRows d mm r n) := by
  induction n generalizing r with
  | zero => trivial
  | succ n ih =>
    refine .bind (stops_readColours (fun t ht => ?_) h) fun _ _ => .bind (ih (by omega)) fun _ _ => trivial
    obtain ⟨c, hc, rfl⟩ := List.mem_map.mp ht
    have := List.mem_range.mp hc
    dsimp only
    omega

theorem stops_readMatrix (hd : d ≤ Config.mmDim) (h : CellStops P mm) : StopsOnly P (readMatrix d mm) :=
  stops_readRows hd (by omega) h

theorem stops_buildPass {f : ParamCsrs} {bytes : List Byte} {m : BitVec 3} {test : Bool} (h21 : 21 ≤ d)
    (hd : d ≤ Config.mmDim) (hc : ∀ a ∈ alignCentres f, 2 ≤ a ∧ a ≤ d - 3) (h : CellStops P mm) :
    Stops P (CellStops P) (buildPass d f bytes m test mm) :=
  .andThen (stops_placeAlign (f := { f with mask := m }) hd hc h.unsetAll.setAll) fun _ _ h1 =>
    .andThen (stops_placeTiming h21 hd h1) fun _ _ h2 => stops_placeData h21 hd h2.setAll.setAll

theorem stops_trialFrom {f : ParamCsrs} {bytes : List Byte} {m n : Nat} {best : Option (Nat × Nat)} (h21 : 21 ≤ d)
    (hd : d ≤ Config.mmDim) (hc : ∀ a ∈ alignCentres f, 2 ≤ a ∧ a ≤ d - 3) (h : CellStops P mm) :
    Stops P (fun r => CellStops P r.2) (trialFrom d f bytes m n best mm) := by
  induction n generalizing m best mm with
  | zero => exact h
  | succ n ih =>
    exact .andThen (stops_buildPass h21 hd hc h) fun _ _ h1 => .bind (stops_readMatrix hd h1) fun _ _ => ih h1

end Sys2Proof.Machine
end

section
/-! A step stops the model only at an unwritten location, and no step is refused (20_memory R79; log 1). -/

namespace Sys2Proof.Machine

variable {s : State}

/-- The location at which the model stops is one that nobody has written. -/
def Fault.Unwritten (s : State) : Fault → Prop
  | .unwrittenCommand i => i = s.pc.toNat ∧ Memory.read s.cm i = none
  | .unwrittenByte a => a < Config.dmBytes ∧ Memory.read s.dm a = none
  | .unwrittenCell r c => r < Config.mmDim ∧ c < Config.mmDim ∧ Memory.read s.mm (cellKey r c) = none

/-- In `s` itself, `Fault.Unwritten s` is what the reads of DM and MM need. -/
theorem byteStops_dm : ByteStops (Fault.Unwritten s) s.dm := fun _ ha hn => ⟨ha, hn⟩

theorem cellStops_mm : CellStops (Fault.Unwritten s) s.mm := fun _ hr _ hc hn => ⟨hr, hc, hn⟩

/-- An outcome from `s` is a next state or a stop of the model at an unwritten location. -/
def StopsUnwritten (s : State) : Host.Outcome State Fault Refusal → Prop
  | .next _ => True
  | .fault f => f.Unwritten s
  | .refused _ => False

theorem StopsUnwritten.finish {r : Except Stop State} (h : StopsOnly (Fault.Unwritten s) r) :
    StopsUnwritten s (finish s r) := by
  match r, h with
  | .ok _, _ => trivial
  | .error (.raises _ _), _ => trivial
  | .error (.sticks _), h => exact h

theorem StopsUnwritten.settleOutcome {o : Host.Outcome State Fault Refusal} (h : StopsUnwritten s o) :
    StopsUnwritten s (settleOutcome o) := by
  match o, h with
  | .next _, _ => trivial
  | .fault _, h => exact h

/-! ## The commands that read memory -/

theorem stopsUnwritten_pld {a : PReg} {b c : XReg} : StopsUnwritten s (exec (.pld a b c) s) :=
  .finish <| .bind stops_badOperandIf fun _ _ => .bind (stops_memReadSeq byteStops_dm) fun _ _ => trivial

theorem stopsUnwritten_bput {a b : XReg} : StopsUnwritten s (exec (.bput a b) s) :=
  .finish <| .bind stops_badOperandIf fun _ _ => .andThen (stops_bbPut byteStops_dm) fun _ _ _ => trivial

theorem stopsUnwritten_bread {a b : XReg} : StopsUnwritten s (exec (.bread a b) s) :=
  .finish <| .bind stops_badOperandIf fun _ _ => .ite (fun _ => .raise) fun _ => .bind stops_checkStream fun _ hu =>
    .bind (stops_readBits byteStops_dm (checkStream_ok hu)) fun _ _ => trivial

theorem stopsUnwritten_cwenc {a b : XReg} : StopsUnwritten s (exec (.cwenc a b) s) :=
  .finish <| .bind stops_checkLayout fun _ _ => .bind stops_checkRange fun _ _ => .bind stops_checkRange fun _ _ =>
    .bind stops_badOperandIf fun _ _ => .bind (stops_memReadSeq byteStops_dm) fun _ _ =>
    .bind stops_cwSequence fun _ _ => .bind stops_memWriteSeq fun _ _ => trivial

theorem stopsUnwritten_mxaln : StopsUnwritten s (exec .mxaln s) :=
  .finish <| .bind stops_dim fun _ hd => .bind stops_checkCentres fun _ hc =>
    .andThen (stops_placeAlign (dim_le_mmDim hd) (checkCentres_ok hc) cellStops_mm) fun _ _ _ => trivial

theorem stopsUnwritten_mxtim : StopsUnwritten s (exec .mxtim s) :=
  .finish <| .bind stops_dim fun _ hd =>
    .andThen (stops_placeTiming (le_dim hd) (dim_le_mmDim hd) cellStops_mm) fun _ _ _ => trivial

theorem stopsUnwritten_mxdat {a b : XReg} : StopsUnwritten s (exec (.mxdat a b) s) :=
  .finish <| .bind stops_dim fun _ hd => .bind (stops_memReadSeq byteStops_dm) fun _ _ =>
    .andThen (stops_placeData (le_dim hd) (dim_le_mmDim hd) cellStops_mm) fun _ _ _ => trivial

theorem stopsUnwritten_mxpen {a : XReg} : StopsUnwritten s (exec (.mxpen a) s) :=
  .finish <| .bind stops_dim fun _ hd => .bind (stops_readMatrix (dim_le_mmDim hd) cellStops_mm) fun _ _ => trivial

theorem stopsUnwritten_mxbld {a b c e : XReg} : StopsUnwritten s (exec (.mxbld a b c e) s) := by
  refine .finish <| .ite (fun _ => .raise) fun _ => .bind stops_dim fun d hd => .bind stops_checkCentres fun _ hc => ?_
  have h21 := le_dim hd
  have hle := dim_le_mmDim hd
  have hc := checkCentres_ok hc
  exact .bind (stops_memReadSeq byteStops_dm) fun _ _ => .andThen (stops_trialFrom h21 hle hc cellStops_mm)
    fun _ _ hmm => .andThen (stops_buildPass h21 hle hc hmm) fun _ _ _ => trivial

theorem stopsUnwritten_mxget {a b c : XReg} : StopsUnwritten s (exec (.mxget a b c) s) := by
  refine .finish <| .bind stops_dim fun d hd => .bind stops_badOperandIf fun _ hr => .bind stops_badOperandIf
    fun _ hc => .bind (stops_isDark cellStops_mm ?_ ?_) fun _ _ => trivial
  all_goals
    have hle := dim_le_mmDim hd
    have hr := of_decide_eq_false (badOperandIf_ok hr)
    have hc := of_decide_eq_false (badOperandIf_ok hc)
    omega

theorem stopsUnwritten_mxout {a : XReg} : StopsUnwritten s (exec (.mxout a) s) :=
  .finish <| .bind stops_dim fun _ hd => .bind (stops_readMatrix (dim_le_mmDim hd) cellStops_mm) fun _ _ =>
    .bind stops_checkRange fun _ _ => .bind stops_memWriteSeq fun _ _ => trivial

/-! ## The commands that read registers only -/

theorem stopsUnwritten_rseuc {a : XReg} {b c d : PReg} {e : XReg} : StopsUnwritten s (exec (.rseuc a b c d e) s) :=
  .finish <| .ite (fun _ => .raise) fun _ => .bind stops_poly fun _ _ => .bind stops_badOperandIf fun _ _ =>
    .bind stops_badOperandIf fun _ _ => .bind stops_rsEuclid fun r _ => by cases r <;> trivial

theorem stopsUnwritten_rschn {a : XReg} {b c : PReg} : StopsUnwritten s (exec (.rschn a b c) s) :=
  .finish <| .bind stops_poly fun _ _ => .bind stops_rsChien fun r _ => by cases r <;> trivial

theorem stopsUnwritten_rscor {a : XReg} {b c d e : PReg} : StopsUnwritten s (exec (.rscor a b c d e) s) :=
  .finish <| .bind stops_badOperandIf fun _ _ => .bind stops_rsCorrect fun r _ => by cases r <;> trivial

theorem stopsUnwritten_rsdec {a b : XReg} {c d : PReg} {e : XReg} : StopsUnwritten s (exec (.rsdec a b c d e) s) :=
  .finish <| .ite (fun _ => .raise) fun _ => .bind stops_badOperandIf fun _ _ => .bind stops_badOperandIf fun _ _ =>
    .bind stops_rsDecode fun r _ => by cases r <;> trivial

/-- No command is refused, and one that stops the model does so at an unwritten location. -/
theorem exec_stopsUnwritten (i : Instr) (s : State) : StopsUnwritten s (exec i s) :=
  match i with
  | .nop | .halt | .jmp _ | .bz _ _ | .bnz _ _ | .bltu _ _ _ | .li _ _ | .lih _ _ | .addi _ _ _ | .add _ _ _
  | .sub _ _ _ | .and _ _ _ | .or _ _ _ | .xor _ _ _ | .slli _ _ _ | .srli _ _ _ | .plen _ _ | .pmov _ _
  | .gfexp _ _ | .blen _ | .bavl _ => trivial
  | .csrr _ _ | .csrw _ _ => .finish (.ite (fun _ => trivial) fun _ => .raise)
  | .lb _ _ _ => .finish (.bind (stops_memRead byteStops_dm) fun _ _ => trivial)
  | .sb _ _ _ => .finish (.bind stops_memWrite fun _ _ => trivial)
  | .pld _ _ _ => stopsUnwritten_pld
  | .pst _ _ => .finish (.bind stops_memWriteSeq fun _ _ => trivial)
  | .gfadd _ _ _ | .gfmul _ _ _ => .finish (.bind stops_fieldElements fun _ _ => trivial)
  | .gfinv _ _ => .finish (.bind stops_fieldElement fun _ _ => .bind stops_gfInv fun _ _ => trivial)
  | .gflog _ _ => .finish (.bind stops_fieldElement fun _ _ => .bind stops_gfLog fun _ _ => trivial)
  | .pnorm _ _ | .pdeg _ _ | .pcoef _ _ _ => .finish (.bind stops_poly fun _ _ => trivial)
  | .peval _ _ _ => .finish (.bind stops_fieldElement fun _ _ => .bind stops_poly fun _ _ => trivial)
  | .pmul _ _ _ => .finish (.bind stops_poly fun _ _ => .bind stops_poly fun _ _ => .bind stops_polyMul
      fun _ _ => trivial)
  | .pmulm _ _ _ _ => .finish (.bind stops_fieldElement fun _ _ => .bind stops_poly fun _ _ => .bind stops_polyMulm
      fun _ _ => trivial)
  | .padd _ _ _ => .finish (.bind stops_poly fun _ _ => .bind stops_poly fun _ _ => trivial)
  | .pmod _ _ _ => .finish (.bind stops_poly fun _ _ => .bind stops_poly fun _ _ => .bind stops_polyMod
      fun _ _ => trivial)
  | .pmono _ _ _ => .finish (.bind stops_fieldElement fun _ _ => .bind stops_polyMono fun _ _ => trivial)
  | .rsgen _ _ => .finish (.bind stops_badOperandIf fun _ _ => .bind stops_rsGenFrom fun _ _ => trivial)
  | .rsenc _ _ _ => .finish (.bind stops_badOperandIf fun _ _ => .bind stops_badOperandIf fun _ _ =>
      .bind stops_badOperandIf fun _ _ => .bind stops_rsEncode fun _ _ => trivial)
  | .rssyn _ _ _ _ => .finish (.bind stops_badOperandIf fun _ _ => .bind stops_badOperandIf fun _ _ =>
      .bind stops_rsSyndromes fun _ _ => trivial)
  | .rseuc _ _ _ _ _ => stopsUnwritten_rseuc
  | .rschn _ _ _ => stopsUnwritten_rschn
  | .rsfrn _ _ _ => .finish (.bind stops_poly fun _ _ => .bind stops_rsForney fun _ _ => trivial)
  | .rscor _ _ _ _ _ => stopsUnwritten_rscor
  | .rsdec _ _ _ _ _ => stopsUnwritten_rsdec
  | .bput _ _ => stopsUnwritten_bput
  | .bpad _ => .finish (.bind stops_badOperandIf fun _ _ => .bind (stops_bbPad byteStops_dm) fun _ _ => trivial)
  | .bread _ _ => stopsUnwritten_bread
  | .cwenc _ _ => stopsUnwritten_cwenc
  | .bchf _ _ | .bchv _ _ => .finish (.bind stops_badOperandIf fun _ _ => trivial)
  | .mxclr | .mxfnd | .mxfmt _ | .mxver _ => .finish (.bind stops_dim fun _ _ => trivial)
  | .mxaln => stopsUnwritten_mxaln
  | .mxtim => stopsUnwritten_mxtim
  | .mxdat _ _ => stopsUnwritten_mxdat
  | .mxpen _ => stopsUnwritten_mxpen
  | .mxbld _ _ _ _ => stopsUnwritten_mxbld
  | .mxget _ _ _ => stopsUnwritten_mxget
  | .mxmsk _ _ _ _ => .finish (.bind stops_badOperandIf fun _ _ => .bind stops_badOperandIf fun _ _ =>
      .bind stops_badOperandIf fun _ _ => trivial)
  | .mxout _ => stopsUnwritten_mxout

/-! ## The step -/

theorem stops_fetchWord : StopsOnly (Fault.Unwritten s) (fetchWord s) := by
  unfold fetchWord
  refine .ite (fun _ => .raise) fun _ => ?_
  split
  · trivial
  · next hn => exact ⟨rfl, hn⟩

theorem stops_commandOf {P : Fault → Prop} {w : Word} : StopsOnly P (commandOf w) := by
  unfold commandOf
  split
  · trivial
  · exact .raise

theorem stops_fetch : StopsOnly (Fault.Unwritten s) (fetch s) := .bind stops_fetchWord fun _ _ => stops_commandOf

theorem step_stopsUnwritten (s : State) : StopsUnwritten s (step s) := by
  unfold step
  split
  · trivial
  · split
    · trivial
    · split
      · next e he => exact .settleOutcome (.finish (stops_fetch.error he))
      · next i _ => exact .settleOutcome (exec_stopsUnwritten i s)

/-- Settles O10: every read of a command, and the fetch, is of a location of its space, and what the command wrote before
is written. -/
theorem stopsOnlyOnUnwritten : Obligations.StopsOnlyOnUnwritten := by
  intro s
  have h := step_stopsUnwritten s
  refine ⟨fun r hr => ?_, fun i hi => ?_, fun a ha => ?_, fun r c hrc => ?_⟩
  · rw [hr] at h
    exact h
  · rw [hi] at h
    exact h
  · rw [ha] at h
    exact h
  · rw [hrc] at h
    exact h

end Sys2Proof.Machine
end

section
/-! SUPPORT. What each check of the decoder answers, in fields of the word, and which fields make a word that of a
format (30_encoding R82 to R93). -/

namespace Sys2Proof

variable {w : Word}

/-! ## Fields -/

theorem field_lt (w : Word) (lo len : Nat) : field w lo len < 2 ^ len := Nat.mod_lt _ (by positivity)

/-- A word is that of format I exactly if its four fields are the given ones. -/
theorem formatI_eq_iff {op a b imm : Nat} (ho : op < 256) (ha : a < 16) (hb : b < 16) (hi : imm < 65536) :
    formatI op a b imm = w ↔
      field w 24 8 = op ∧ field w 20 4 = a ∧ field w 16 4 = b ∧ field w 0 16 = imm := by
  constructor
  · rintro rfl
    exact ⟨field_formatI_opcode ho ha hb hi, field_formatI_a ha hb hi, field_formatI_b hb hi, field_formatI_imm hi⟩
  · intro h
    apply BitVec.eq_of_toNat_eq
    simp only [field, formatI, BitVec.toNat_ofNat] at h ⊢
    omega

/-- A word is that of format R exactly if its fields are the given ones and its lowest four bits are zero. -/
theorem formatR_eq_iff {op a b c d e : Nat} (ho : op < 256) (ha : a < 16) (hb : b < 16) (hc : c < 16) (hd : d < 16)
    (he : e < 16) :
    formatR op a b c d e = w ↔ field w 24 8 = op ∧ field w 20 4 = a ∧ field w 16 4 = b ∧
      field w 12 4 = c ∧ field w 8 4 = d ∧ field w 4 4 = e ∧ field w 0 4 = 0 := by
  rw [formatR_eq_formatI, formatI_eq_iff ho ha hb (by omega)]
  simp only [field]
  omega

/-- A field of more than four bits is zero exactly if its low four bits and the rest are. -/
theorem field_eq_zero_iff {lo m : Nat} :
    field w lo (m + 5) = 0 ↔ field w (lo + 4) (m + 1) = 0 ∧ field w lo 4 = 0 := by
  have hhigh : field w (lo + 4) (m + 1) = w.toNat / 2 ^ lo / 2 ^ 4 % 2 ^ (m + 1) := by
    rw [field, Nat.pow_add, Nat.div_div_eq_div_mul]
  have hall : field w lo (m + 5) = field w lo 4 + 2 ^ 4 * field w (lo + 4) (m + 1) := by
    rw [hhigh, field, field, ← Nat.mod_mul, ← Nat.pow_add, Nat.add_comm 4]
  rw [hall]
  omega

/-! ## The checks -/

/-- A chain answers exactly if each part does. -/
theorem bind_eq_ok_iff {ε α β : Type} {x : Except ε α} {f : α → Except ε β} {b : β} :
    (x >>= f) = .ok b ↔ ∃ a, x = .ok a ∧ f a = .ok b :=
  ⟨Machine.bind_ok, fun ⟨_, ha, hb⟩ => ha ▸ hb⟩

theorem pure_eq_ok_iff {ε α : Type} {a b : α} : (pure a : Except ε α) = .ok b ↔ a = b :=
  iff_of_eq (Except.ok.injEq a b)

theorem xField_eq_iff {lo : Nat} {a : XReg} : xField w lo = a ↔ field w lo 4 = a := by
  have := field_lt w lo 4
  rw [Fin.ext_iff, xField, Fin.val_ofNat]
  omega

theorem immField_eq_iff {imm : BitVec 16} : immField w = imm ↔ field w 0 16 = imm.toNat := by
  rw [← BitVec.toNat_inj, immField, BitVec.toNat_ofNat, Nat.mod_eq_of_lt (field_lt w 0 16)]

theorem zeroBits_eq_ok_iff {lo len : Nat} {u : Unit} : zeroBits w lo len = .ok u ↔ field w lo len = 0 := by
  simp [zeroBits]

theorem pField_eq_ok_iff {lo : Nat} {a : PReg} : pField w lo = .ok a ↔ field w lo 4 = a := by
  unfold pField
  split
  · rw [Except.ok.injEq, Fin.ext_iff]
  · refine iff_of_false nofun ?_
    omega

theorem targetField_eq_ok_iff {t : BitVec 10} : targetField w = .ok t ↔ field w 0 16 = t.toNat := by
  have hsplit : field w 0 16 = field w 10 6 * 2 ^ 10 + field w 0 10 := by
    simp only [field]
    omega
  have hlow := field_lt w 0 10
  unfold targetField
  split
  · rw [Except.ok.injEq, ← BitVec.toNat_inj, BitVec.toNat_ofNat]
    omega
  · refine iff_of_false nofun ?_
    omega

theorem shiftField_eq_ok_iff {sh : BitVec 5} : shiftField w = .ok sh ↔ field w 0 16 = sh.toNat := by
  unfold shiftField
  split
  · rw [Except.ok.injEq, ← BitVec.toNat_inj, BitVec.toNat_ofNat]
    omega
  · refine iff_of_false nofun ?_
    omega

theorem testField_eq_ok_iff {t : Bool} : testField w = .ok t ↔ field w 20 4 = t.toNat := by
  unfold testField
  split
  · cases t <;> simp [*]
  · split
    · cases t <;> simp [*]
    · refine iff_of_false nofun ?_
      have := t.toNat_lt
      omega

theorem distinct_eq_ok_iff {n : Nat} {i j : Fin n} {u : Unit} : distinct i j = .ok u ↔ i ≠ j := by
  simp [distinct]

theorem csrField_eq_ok_iff {rights : Csr → Bool} {c : Csr} :
    csrField w rights = .ok c ↔ field w 0 16 = c.number ∧ rights c = true := by
  have hnumber : field w 0 16 = c.number ↔ Csr.ofNumber (field w 0 16) = some c :=
    ⟨fun h => h ▸ c.ofNumber_number, fun h => (Machine.Csr.number_of_ofNumber h).symm⟩
  rw [hnumber]
  unfold csrField
  split
  · next r hr =>
    rw [hr, Option.some.injEq]
    split
    · next hrights =>
      rw [Except.ok.injEq]
      exact ⟨fun h => ⟨h, h ▸ hrights⟩, And.left⟩
    · next hrights => exact iff_of_false nofun fun ⟨h, hc⟩ => hrights (h ▸ hc)
  · next hr => simp [hr]

end Sys2Proof
end

section
/-! Decoding and encoding are inverse to each other (30_encoding R83 to R95). -/

namespace Sys2Proof

variable {w : Word}

/-- A word that decodes carries the opcode of its command (R88). -/
theorem opcode_of_decode {i : Instr} (h : decode w = .ok i) : i.opcode = field w 24 8 := by
  unfold decode at h
  generalize field w 24 8 = op at h ⊢
  split at h
  case h_67 => cases h
  all_goals
    repeat
      rw [bind_eq_ok_iff] at h
      obtain ⟨_, _, h⟩ := h
    cases h
    rfl

/-- Of the words with the opcode of a command, the command's own word decodes to it, if the command is well formed, and no
other does: both sides come down to the same conditions on the fields of the word. -/
theorem decode_eq_ok_iff_of_opcode {i : Instr} (hop : field w 24 8 = i.opcode) :
    decode w = .ok i ↔ i.wf = true ∧ encode i = w := by
  rw [decode, hop]
  cases i
  case' csrr a c | csrw c a => have hnumber := c.number_lt
  case' mxfmt test | mxver test => have htest := test.toNat_lt
  any_goals refine bind_eq_ok_iff.trans ?_
  any_goals refine pure_eq_ok_iff.trans ?_
  all_goals
    dsimp only [Instr.opcode, Instr.wf, encode] at hop ⊢
    simp (disch := omega) only [hop, formatI_eq_iff, formatR_eq_iff, bind_eq_ok_iff, pure_eq_ok_iff,
      zeroBits_eq_ok_iff, field_eq_zero_iff, pField_eq_ok_iff, targetField_eq_ok_iff, shiftField_eq_ok_iff,
      testField_eq_ok_iff, distinct_eq_ok_iff, csrField_eq_ok_iff]
    grind [xField_eq_iff, immField_eq_iff]

open Laws.OpcodeByte in
/-- The word of every command carries the command's opcode (R81, R88). -/
theorem field_encode_opcode (i : Instr) : field (encode i) 24 8 = i.opcode := by
  cases i
  exacts [nop, halt, jmp _, bz _ _, bnz _ _, bltu _ _ _, csrr _ _, csrw _ _,
    li _ _, lih _ _, addi _ _ _, add _ _ _, sub _ _ _, and _ _ _, or _ _ _, xor _ _ _, slli _ _ _, srli _ _ _,
    lb _ _ _, sb _ _ _, pld _ _ _, pst _ _, plen _ _, pmov _ _,
    gfadd _ _ _, gfmul _ _ _, gfinv _ _, gfexp _ _, gflog _ _,
    pnorm _ _, pdeg _ _, pcoef _ _ _, peval _ _ _, pmul _ _ _, pmulm _ _ _ _, padd _ _ _, pmod _ _ _, pmono _ _ _,
    rsgen _ _, rsenc _ _ _, rssyn _ _ _ _, rseuc _ _ _ _ _, rschn _ _ _, rsfrn _ _ _, rscor _ _ _ _ _, rsdec _ _ _ _ _,
    bput _ _, blen _, bpad _, bread _ _, bavl _, cwenc _ _, bchf _ _, bchv _ _,
    mxclr, mxfnd, mxaln, mxtim, mxfmt _, mxver _, mxdat _ _, mxpen _, mxbld _ _ _ _, mxget _ _ _, mxmsk _ _ _ _, mxout _]

/-- A word decodes to a command exactly if the command is well formed and the word is its word. -/
theorem decode_eq_ok_iff {i : Instr} : decode w = .ok i ↔ i.wf = true ∧ encode i = w := by
  constructor
  · intro h
    exact (decode_eq_ok_iff_of_opcode (opcode_of_decode h).symm).mp h
  · rintro ⟨hwf, rfl⟩
    exact (decode_eq_ok_iff_of_opcode (field_encode_opcode i)).mpr ⟨hwf, rfl⟩

/-- Settles O1: the word of a command decodes to it, by `decode_eq_ok_iff`. -/
theorem decodeOfEncode : Obligations.DecodeOfEncode := by
  intro i hwf
  exact decode_eq_ok_iff.mpr ⟨hwf, rfl⟩

/-- Settles O2: the other direction of `decode_eq_ok_iff`. -/
theorem encodeOfDecode : Obligations.EncodeOfDecode := by
  intro w i h
  exact decode_eq_ok_iff.mp h

/-- Settles O3: each word is the encoding of its command. -/
theorem specWordsDecode : Obligations.SpecWordsDecode :=
  ⟨decodeOfEncode (.bltu 1 2 2) rfl, decodeOfEncode (.csrw .ecl 1) rfl, decodeOfEncode (.addi 2 2 0xFFFF) rfl,
    decodeOfEncode (.sb 2 1 4) rfl, decodeOfEncode (.pld 0 1 2) rfl, decodeOfEncode (.gfadd 3 1 2) rfl,
    decodeOfEncode (.pmulm 0 1 2 3) rfl, decodeOfEncode (.rseuc 1 3 4 2 2) rfl, decodeOfEncode (.bput 1 2) rfl,
    decodeOfEncode (.cwenc 1 2) rfl, decodeOfEncode (.mxfmt true) rfl, decodeOfEncode (.mxbld 1 2 3 4) rfl⟩

end Sys2Proof
end

section
/-! The words the static checks refuse (30_encoding R90, R92, R93). -/

namespace Sys2Proof

variable {w : Word}

/-! ## Reserved opcodes -/

/-- One command of each opcode. -/
def oneOfEach : List Instr :=
  [.nop, .halt, .jmp 0, .bz 0 0, .bnz 0 0, .bltu 0 0 0, .csrr 0 .id, .csrw .ecl 0,
    .li 0 0, .lih 0 0, .addi 0 0 0, .add 0 0 0, .sub 0 0 0, .and 0 0 0, .or 0 0 0, .xor 0 0 0, .slli 0 0 0, .srli 0 0 0,
    .lb 0 0 0, .sb 0 0 0, .pld 0 0 0, .pst 0 0, .plen 0 0, .pmov 0 0,
    .gfadd 0 0 0, .gfmul 0 0 0, .gfinv 0 0, .gfexp 0 0, .gflog 0 0,
    .pnorm 0 0, .pdeg 0 0, .pcoef 0 0 0, .peval 0 0 0, .pmul 0 0 0, .pmulm 0 0 0 0, .padd 0 0 0, .pmod 0 0 0,
    .pmono 0 0 0,
    .rsgen 0 0, .rsenc 0 0 0, .rssyn 0 0 0 0, .rseuc 0 0 1 0 0, .rschn 0 0 0, .rsfrn 0 0 0, .rscor 0 0 0 0 0,
    .rsdec 0 1 0 0 0,
    .bput 0 0, .blen 0, .bpad 0, .bread 0 0, .bavl 0, .cwenc 0 0, .bchf 0 0, .bchv 0 0,
    .mxclr, .mxfnd, .mxaln, .mxtim, .mxfmt false, .mxver false, .mxdat 0 0, .mxpen 0, .mxbld 0 1 0 0, .mxget 0 0 0,
    .mxmsk 0 0 0 0, .mxout 0]

/-- Every arm of the decoder but the last is for the opcode of a command, so another opcode falls to the last. -/
theorem decode_of_not_mem_opcodes (h : field w 24 8 ∉ oneOfEach.map Instr.opcode) :
    decode w = .error .reservedOpcode := by
  unfold decode
  split
  case h_67 => rfl
  all_goals
    next hop =>
      rw [hop] at h
      exact absurd (by decide) h

/-- An opcode that no command has is reserved (R90). -/
theorem decode_of_reserved (h : ∀ i : Instr, i.opcode ≠ field w 24 8) : decode w = .error .reservedOpcode := by
  refine decode_of_not_mem_opcodes fun hmem => ?_
  obtain ⟨i, -, hi⟩ := List.mem_map.mp hmem
  exact h i hi

/-! ## Checks that refuse -/

/-- A check, or a chain of checks, refuses the word. -/
def Refused {α : Type} (r : Except Illegal α) : Prop := ∃ e, r = .error e

theorem Refused.first {α β : Type} {x : Except Illegal α} {f : α → Except Illegal β} (h : Refused x) :
    Refused (x >>= f) := by
  obtain ⟨e, rfl⟩ := h
  exact ⟨e, rfl⟩

theorem Refused.rest {α β : Type} {x : Except Illegal α} {f : α → Except Illegal β}
    (h : ∀ a, x = .ok a → Refused (f a)) : Refused (x >>= f) := by
  cases x with
  | error e => exact ⟨e, rfl⟩
  | ok a => exact h a rfl

theorem refused_targetField (h : field w 10 6 ≠ 0) : Refused (targetField w) := ⟨_, if_neg h⟩

theorem refused_shiftField (h : 32 ≤ field w 0 16) : Refused (shiftField w) := ⟨_, if_neg h.not_gt⟩

theorem refused_testField (h : 1 < field w 20 4) : Refused (testField w) :=
  ⟨_, (if_neg (by omega)).trans (if_neg (by omega))⟩

theorem refused_pField {lo : Nat} (h : 8 ≤ field w lo 4) : Refused (pField w lo) := ⟨_, dif_neg h.not_gt⟩

theorem refused_distinct {n : Nat} {i j : Fin n} (h : i = j) : Refused (distinct i j) := ⟨_, if_pos h⟩

theorem refused_csrField {rights : Csr → Bool}
    (h : ∀ c, Csr.ofNumber (field w 0 16) = some c → rights c = false) : Refused (csrField w rights) := by
  cases hr : csrField w rights with
  | error e => exact ⟨e, rfl⟩
  | ok c =>
    obtain ⟨hnumber, hc⟩ := csrField_eq_ok_iff.mp hr
    rw [h c (hnumber ▸ c.ofNumber_number)] at hc
    cases hc

/-! ## Words that break a check (R92, R93) -/

theorem Csr.engineWritable_of_number_lt {c : Csr} (h : c.number < 0x10) : c.engineWritable = false := by
  cases c with
  | id | ctrl | status | ie | pc | cause | epc | tval => rfl
  | _ =>
    simp only [Csr.number] at h
    omega

theorem xField_eq_of_field_eq {lo lo' : Nat} (h : field w lo 4 = field w lo' 4) : xField w lo = xField w lo' := by
  rw [xField, xField, h]

theorem refused_csrr (hop : field w 24 8 = 0x08) (h : ∀ c, Csr.ofNumber (field w 0 16) = some c → c = .ctrl) :
    Refused (decode w) := by
  rw [decode, hop]
  exact .rest fun _ _ => .first <| refused_csrField fun c hc => h c hc ▸ rfl

theorem refused_csrw (hop : field w 24 8 = 0x09) (h : ∀ c, Csr.ofNumber (field w 0 16) = some c → c.number < 0x10) :
    Refused (decode w) := by
  rw [decode, hop]
  exact .rest fun _ _ => .first <| refused_csrField fun c hc => Csr.engineWritable_of_number_lt (h c hc)

theorem refused_shift (hop : field w 24 8 = 0x18 ∨ field w 24 8 = 0x19) (h : 32 ≤ field w 0 16) :
    Refused (decode w) := by
  obtain hop | hop := hop <;> rw [decode, hop] <;> exact .first (refused_shiftField h)

theorem refused_branch (hlo : 3 ≤ field w 24 8) (hhi : field w 24 8 ≤ 6) (h : field w 10 6 ≠ 0) :
    Refused (decode w) := by
  have hop : field w 24 8 = 3 ∨ field w 24 8 = 4 ∨ field w 24 8 = 5 ∨ field w 24 8 = 6 := by omega
  obtain hop | hop | hop | hop := hop <;> rw [decode, hop]
  case inr.inr.inr => exact .first (refused_targetField h)
  all_goals exact .rest fun _ _ => .first (refused_targetField h)

theorem refused_test (hop : field w 24 8 = 0x84 ∨ field w 24 8 = 0x85) (h : 1 < field w 20 4) : Refused (decode w) := by
  obtain hop | hop := hop <;> rw [decode, hop] <;> exact .rest fun _ _ => .first (refused_testField h)

theorem refused_pmov (hop : field w 24 8 = 0x25) (h : 8 ≤ field w 20 4 ∨ 8 ≤ field w 16 4) :
    Refused (decode w) := by
  rw [decode, hop]
  obtain ha | hb := h
  · exact .rest fun _ _ => .first (refused_pField ha)
  · exact .rest fun _ _ => .rest fun _ _ => .first (refused_pField hb)

theorem refused_rseuc (hop : field w 24 8 = 0x53) (h : field w 16 4 = field w 12 4) : Refused (decode w) := by
  rw [decode, hop]
  refine .rest fun _ _ => .rest fun b hb => .rest fun c hc => .rest fun _ _ => .first <| refused_distinct <| Fin.ext ?_
  calc b.val
      = field w 16 4 := (pField_eq_ok_iff.mp hb).symm
    _ = field w 12 4 := h
    _ = c.val := pField_eq_ok_iff.mp hc

theorem refused_rsdec_mxbld (hop : field w 24 8 = 0x57 ∨ field w 24 8 = 0x88) (h : field w 20 4 = field w 16 4) :
    Refused (decode w) := by
  have hsame : Refused (distinct (xField w 20) (xField w 16)) := refused_distinct (xField_eq_of_field_eq h)
  obtain hop | hop := hop <;> rw [decode, hop]
  · exact .rest fun _ _ => .rest fun _ _ => .rest fun _ _ => .first hsame
  · exact .rest fun _ _ => .first hsame

/-- Settles O4: no arm of the decoder has a reserved opcode, and in the arm of each opcode named the check of the field
named refuses. -/
theorem illegalWordsRefused : Obligations.IllegalWordsRefused := by
  intro w
  exact ⟨decode_of_reserved, refused_csrr, refused_csrw, refused_shift, refused_branch, refused_test, refused_pmov,
    refused_rseuc, refused_rsdec_mxbld⟩

end Sys2Proof
end

section
/-! The register frame of every command (20_memory R61, 30_encoding R95): an x register, a p register or an
engine-writable CSR changes only if it is a destination of the command. -/

namespace Sys2Proof.Machine

open Sys2Proof.Claims

/-- From `s` to `t` only the destination registers of the command `i` change. -/
structure RegistersKept (i : Instr) (s t : State) : Prop where
  x : ∀ r, r ∉ xTargets i → t.getX r = s.getX r
  p : ∀ r, r ∉ pTargets i → t.getP r = s.getP r
  csr : ∀ c, c.engineWritable = true → c ∉ csrTargets i → csrValue t c = csrValue s c

variable {i : Instr} {s t : State}

/-- What an engine-writable CSR holds is held in `State.csr`. -/
theorem csrValue_congr {c : Csr} (hc : c.engineWritable = true) (h : t.csr = s.csr) : csrValue t c = csrValue s c := by
  cases c with
  | id | ctrl | status | ie | pc | cause | epc | tval => cases hc
  | _ => simp only [csrValue, h]

/-- A write to one CSR leaves what another holds. -/
theorem csrValue_csrWrite_ne {c c' : Csr} {v : Word} (hc : c.engineWritable = true) (h : c ≠ c') :
    csrValue (s.csrWrite c' v) c = csrValue s c := by
  cases c with
  | id | ctrl | status | ie | pc | cause | epc | tval => cases hc
  | aln k =>
    cases c' with
    | aln j =>
      have hne : j.val ≠ k.val := fun e => h (congrArg Csr.aln (Fin.ext e.symm))
      simp only [csrValue, State.csrWrite_csr, ParamCsrs.write, Vector.getElem_set_ne _ _ hne]
    | _ => rfl
  | _ => cases c' <;> trivial

namespace RegistersKept

theorem refl : RegistersKept i s s := ⟨fun _ _ => rfl, fun _ _ => rfl, fun _ _ _ => rfl⟩

/-- A change of fields that hold no such register. -/
theorem congr {u : State} (h : RegistersKept i s t) (hx : u.x = t.x) (hp : u.p = t.p) (hcsr : u.csr = t.csr) :
    RegistersKept i s u where
  x r hr := by rw [← h.x r hr, State.getX, State.getX, hx]
  p r hr := by rw [← h.p r hr, State.getP, State.getP, hp]
  csr c hc hne := (csrValue_congr hc hcsr).trans (h.csr c hc hne)

theorem advance (h : RegistersKept i s t) : RegistersKept i s t.advance := h.congr rfl rfl rfl

theorem branch {taken : Bool} {target : BitVec 10} : RegistersKept i s (s.branch taken target) := by
  obtain h | h := s.branch_cases taken target <;> rw [h] <;> exact refl.congr rfl rfl rfl

theorem setX {a : XReg} {v : Word} (h : RegistersKept i s t) (ha : a ∈ xTargets i := by simp [xTargets]) :
    RegistersKept i s (t.setX a v) where
  x r hr := (State.getX_setX_ne t v (ne_of_mem_of_not_mem ha hr)).trans (h.x r hr)
  p := h.p
  csr c hc hne := (csrValue_congr hc rfl).trans (h.csr c hc hne)

theorem setP {a : PReg} {f : List Byte} (h : RegistersKept i s t) (ha : a ∈ pTargets i := by simp [pTargets]) :
    RegistersKept i s (t.setP a f) where
  x := h.x
  p r hr := (State.getP_setP_ne t f (ne_of_mem_of_not_mem ha hr)).trans (h.p r hr)
  csr c hc hne := (csrValue_congr hc rfl).trans (h.csr c hc hne)

theorem csrWrite {a : Csr} {v : Word} (h : RegistersKept i s t) (ha : a ∈ csrTargets i := by simp [csrTargets]) :
    RegistersKept i s (t.csrWrite a v) where
  x := h.x
  p := h.p
  csr c hc hne := (csrValue_csrWrite_ne hc (ne_of_mem_of_not_mem ha hne).symm).trans (h.csr c hc hne)

end RegistersKept

/-- Every next state after the command `i` keeps the registers that are no destination of it. -/
def KeepsRegisters (i : Instr) (s : State) (o : Host.Outcome State Fault Refusal) : Prop :=
  ∀ t, o = .next t → RegistersKept i s t

theorem KeepsRegisters.next (h : RegistersKept i s t) : KeepsRegisters i s (.next t) := by
  intro u hu
  injection hu with hu
  exact hu ▸ h

/-- A fault entry changes no such register, so only the completion counts. -/
theorem KeepsRegisters.finish {r : Except Stop State} (h : Answers (RegistersKept i s) r) :
    KeepsRegisters i s (finish s r) := by
  intro t ht
  obtain hok | ⟨c, n, -, rfl⟩ := finish_next ht
  · exact h t hok
  · exact .congr .refl rfl rfl rfl

/-- Appending bits to the stream writes WLEN and no other register (46_bitstream R261). -/
theorem StreamExtended.registersKept {q : Nat} (h : StreamExtended s t q) (hi : .wlen ∈ csrTargets i) :
    RegistersKept i s t := by
  obtain ⟨hstate, -, -⟩ := h
  generalize t.dm = dm at hstate
  subst hstate
  exact (RegistersKept.csrWrite (v := BitVec.ofNat 32 q) .refl hi).congr rfl rfl rfl

/-! ### Commands that end in more than one way or write a CSR -/

theorem keepsRegisters_rseuc {a : XReg} {b c d : PReg} {e : XReg} :
    KeepsRegisters (.rseuc a b c d e) s (exec (.rseuc a b c d e) s) :=
  .finish <| .ite (fun _ => .raise) fun _ => .bind fun _ _ => .bind fun _ _ => .bind fun _ _ => .bind fun r _ =>
    match r with
    | .error _ => .pure (.advance (.setX .refl))
    | .ok _ => .pure (.advance (.setX (.setP (.setP .refl))))

theorem keepsRegisters_rschn {a : XReg} {b c : PReg} : KeepsRegisters (.rschn a b c) s (exec (.rschn a b c) s) :=
  .finish <| .bind fun _ _ => .bind fun r _ =>
    match r with
    | .error _ => .pure (.advance (.setX .refl))
    | .ok _ => .pure (.advance (.setX (.setP .refl)))

theorem keepsRegisters_rscor {a : XReg} {b c d e : PReg} :
    KeepsRegisters (.rscor a b c d e) s (exec (.rscor a b c d e) s) :=
  .finish <| .bind fun _ _ => .bind fun r _ =>
    match r with
    | .error _ => .pure (.advance (.setX .refl))
    | .ok _ => .pure (.advance (.setX (.setP .refl)))

theorem keepsRegisters_rsdec {a b : XReg} {c d : PReg} {e : XReg} :
    KeepsRegisters (.rsdec a b c d e) s (exec (.rsdec a b c d e) s) :=
  .finish <| .ite (fun _ => .raise) fun _ => .bind fun _ _ => .bind fun _ _ => .bind fun r _ =>
    match r with
    | .error _ => .pure (.advance (.setX (.setX .refl)))
    | .ok _ => .pure (.advance (.setX (.setX (.setP .refl))))

theorem keepsRegisters_bput {a b : XReg} : KeepsRegisters (.bput a b) s (exec (.bput a b) s) :=
  .finish <| .bind fun _ _ => .bind fun _ hu =>
    .pure ((bbPut_extends hu).registersKept (by simp [csrTargets])).advance

theorem keepsRegisters_bpad {a : XReg} : KeepsRegisters (.bpad a) s (exec (.bpad a) s) := by
  refine .finish <| .bind fun _ hm => .bind fun u hu => .pure ?_
  have hm := not_not.mp (of_decide_eq_false (badOperandIf_ok hm))
  obtain ⟨hext, -⟩ := bbPad_extends (s.getX a).isLt hm hu
  exact (hext.registersKept (by simp [csrTargets])).advance

theorem keepsRegisters_bread {a b : XReg} : KeepsRegisters (.bread a b) s (exec (.bread a b) s) :=
  .finish <| .bind fun _ _ => .ite (fun _ => .raise) fun _ => .bind fun _ _ => .bind fun _ _ =>
    .pure (.advance (.setX (.csrWrite (a := .rpos) .refl)))

/-- The state MXBLD leaves before it writes its two results (48_matrix R337). -/
theorem RegistersKept.withMask {mm : Memory ModuleCell} {m : BitVec 3} (hi : .mask ∈ csrTargets i) :
    RegistersKept i s { s with mm := mm, csr := { s.csr with mask := m } } := by
  refine (RegistersKept.csrWrite (v := m.setWidth 32) .refl hi).congr rfl rfl ?_
  simp [ParamCsrs.write]

theorem keepsRegisters_mxbld {a b c e : XReg} : KeepsRegisters (.mxbld a b c e) s (exec (.mxbld a b c e) s) :=
  .finish <| .ite (fun _ => .raise) fun _ => .bind fun _ _ => .bind fun _ _ => .bind fun _ _ => .bind fun _ _ =>
    .bind fun _ _ => .pure (.advance (.setX (.setX (.withMask (by simp [csrTargets])))))

/-- Every command keeps the registers that are no destination of it. -/
theorem exec_keepsRegisters (i : Instr) (s : State) : KeepsRegisters i s (exec i s) :=
  match i with
  | .nop => .next (.advance .refl)
  | .halt | .jmp _ => .next (.congr .refl rfl rfl rfl)
  | .bz _ _ | .bnz _ _ | .bltu _ _ _ => .next .branch
  | .csrr _ _ => .finish (.ite (fun _ => .pure (.advance (.setX .refl))) fun _ => .raise)
  | .csrw _ _ => .finish (.ite (fun _ => .pure (.advance (.csrWrite .refl))) fun _ => .raise)
  | .li _ _ | .lih _ _ | .addi _ _ _ | .add _ _ _ | .sub _ _ _ | .and _ _ _ | .or _ _ _ | .xor _ _ _
  | .slli _ _ _ | .srli _ _ _ | .plen _ _ | .gfexp _ _ | .blen _ | .bavl _ => .next (.advance (.setX .refl))
  | .pmov _ _ => .next (.advance (.setP .refl))
  | .lb _ _ _ | .gfadd _ _ _ | .gfmul _ _ _ | .pdeg _ _ | .pcoef _ _ _ | .bchf _ _ | .bchv _ _ =>
    .finish (.bind fun _ _ => .pure (.advance (.setX .refl)))
  | .gfinv _ _ | .gflog _ _ | .peval _ _ _ | .mxpen _ =>
    .finish (.bind fun _ _ => .bind fun _ _ => .pure (.advance (.setX .refl)))
  | .mxmsk _ _ _ _ => .finish (.bind fun _ _ => .bind fun _ _ => .bind fun _ _ => .pure (.advance (.setX .refl)))
  | .mxget _ _ _ => .finish (.bind fun _ _ => .bind fun _ _ => .bind fun _ _ => .bind fun _ _ =>
      .pure (.advance (.setX .refl)))
  | .pnorm _ _ => .finish (.bind fun _ _ => .pure (.advance (.setP .refl)))
  | .pld _ _ _ | .padd _ _ _ | .pmono _ _ _ | .rsgen _ _ | .rsfrn _ _ _ =>
    .finish (.bind fun _ _ => .bind fun _ _ => .pure (.advance (.setP .refl)))
  | .pmul _ _ _ | .pmulm _ _ _ _ | .pmod _ _ _ =>
    .finish (.bind fun _ _ => .bind fun _ _ => .bind fun _ _ => .pure (.advance (.setP .refl)))
  | .rsenc _ _ _ => .finish (.bind fun _ _ => .bind fun _ _ => .bind fun _ _ => .bind fun _ _ =>
      .pure (.advance (.setP .refl)))
  | .rssyn _ _ _ _ => .finish (.bind fun _ _ => .bind fun _ _ => .bind fun _ _ =>
      .pure (.advance (.setX (.setP .refl))))
  | .rseuc _ _ _ _ _ => keepsRegisters_rseuc
  | .rschn _ _ _ => keepsRegisters_rschn
  | .rscor _ _ _ _ _ => keepsRegisters_rscor
  | .rsdec _ _ _ _ _ => keepsRegisters_rsdec
  | .bput _ _ => keepsRegisters_bput
  | .bpad _ => keepsRegisters_bpad
  | .bread _ _ => keepsRegisters_bread
  | .sb _ _ _ | .pst _ _ | .mxclr | .mxfnd | .mxfmt _ | .mxver _ =>
    .finish (.bind fun _ _ => .pure (.congr .refl rfl rfl rfl))
  | .mxtim => .finish (.bind fun _ _ => .bind fun _ _ => .pure (.congr .refl rfl rfl rfl))
  | .mxaln | .mxdat _ _ => .finish (.bind fun _ _ => .bind fun _ _ => .bind fun _ _ => .pure (.congr .refl rfl rfl rfl))
  | .mxout _ => .finish (.bind fun _ _ => .bind fun _ _ => .bind fun _ _ => .bind fun _ _ =>
      .pure (.congr .refl rfl rfl rfl))
  | .cwenc _ _ => .finish (.bind fun _ _ => .bind fun _ _ => .bind fun _ _ => .bind fun _ _ => .bind fun _ _ =>
      .bind fun _ _ => .bind fun _ _ => .pure (.congr .refl rfl rfl rfl))
  | .mxbld _ _ _ _ => keepsRegisters_mxbld

/-- Settles O12: a fault entry keeps every such register, and a completion writes destinations of the command only. -/
theorem registerFrame : Obligations.RegisterFrame := by
  intro i s t h
  obtain ⟨hx, hp, hcsr⟩ := exec_keepsRegisters i s t h
  exact ⟨hx, hp, hcsr⟩

end Sys2Proof.Machine
end

section
/-! The control and CSR commands (40_control R111 to R118). -/

namespace Sys2Proof.Machine

open Sys2Proof.Claims

variable {s : State}

/-! ## Control commands -/

/-- A branch changes pc only (40_control R114). -/
theorem State.branch_eq (taken : Bool) (target : BitVec 10) :
    s.branch taken target = { s with pc := if taken then BitVec.ofNat 32 target.toNat else s.pc + 1 } := by
  cases taken with
  | false => rfl
  | true => simp [State.branch, State.jump, BitVec.ofNat_toNat]

/-- Settles O20: each command's next state is written out, the branches by `State.branch_eq`. -/
theorem controlCommands : Obligations.ControlCommands := by
  intro s a b t
  have hzero : s.getX a = 0 ↔ (s.getX a).toNat = 0 := BitVec.toNat_inj.symm
  refine ⟨rfl, rfl, ?_, ?_, ?_, ?_⟩
  · rw [BitVec.ofNat_toNat]
    rfl
  · simp [exec, execBz, State.branch_eq, ← hzero]
  · simp [exec, execBnz, State.branch_eq, ← hzero]
  · simp [exec, execBltu, State.branch_eq]

/-! ## CSR reads and writes -/

/-- A CSR reads as the number it holds, zero-extended (10_state R28). -/
theorem State.csrRead_eq (c : Csr) : s.csrRead c = BitVec.ofNat 32 (csrValue s c) := by
  cases c with
  | id | ctrl => rfl
  | status =>
    simp only [State.csrRead, csrValue]
    obtain ⟨run, done, fault, stopped⟩ := s.status
    revert run done fault stopped
    decide
  | pc | epc | tval | wlen | rpos | rlim =>
    simp only [State.csrRead, csrValue, BitVec.ofNat_toNat, BitVec.setWidth_eq]
  | _ => exact (BitVec.ofNat_toNat _ _).symm

theorem Csr.engineReadable_of_ne_ctrl {c : Csr} (h : c ≠ .ctrl) : c.engineReadable = true := by
  cases c <;> trivial

/-- What a run leaves in the CSRs of its end (10_state R32, R37). -/
theorem State.Inv.csrValue_of_run (h : s.Inv) (hr : s.status.run = true) :
    csrValue s .status = 1 ∧ csrValue s .cause = 0 ∧ csrValue s .epc = 0 ∧ csrValue s .tval = 0 := by
  have hs := h.status_of_run hr
  obtain ⟨hcause, hepc, htval⟩ := h.noFault (by rw [hs])
  simp [csrValue, hs, hcause, hepc, htval]

/-- Settles O21: CSRR answers what `csrRead` reads, and during a run the invariant fixes STATUS, CAUSE, EPC and TVAL. -/
theorem csrReads : Obligations.CsrReads := by
  intro s a c
  refine ⟨fun hc => ?_, State.Inv.csrValue_of_run⟩
  rw [← State.csrRead_eq]
  exact congrArg (finish s) (if_pos (Csr.engineReadable_of_ne_ctrl hc))

/-- A write to an engine-writable CSR stores the low bits of its width (10_state R30). -/
theorem csrValue_csrWrite_same {c : Csr} {v : Word} (hc : c.engineWritable = true) :
    csrValue (s.csrWrite c v) c = v.toNat % 2 ^ csrWidth c := by
  cases c with
  | id | ctrl | status | ie | pc | cause | epc | tval => cases hc
  | aln k => simp [csrValue, csrWidth, ParamCsrs.write]
  | wlen | rpos | rlim => exact (Nat.mod_eq_of_lt v.isLt).symm
  | _ => exact BitVec.toNat_setWidth _ _

/-- The CSRs no command may write are not held in `State.csr`. -/
theorem csrValue_withCsr {c : Csr} (f : ParamCsrs) (hc : c.engineWritable = false) :
    csrValue { s with csr := f } c = csrValue s c := by
  cases c with
  | id | ctrl | status | ie | pc | cause | epc | tval => rfl
  | _ => cases hc

/-- Settles O22: the CSRs written are those of `ParamCsrs.write`. -/
theorem csrWrites : Obligations.CsrWrites := by
  intro s a c hc
  refine ⟨s.csr.write c (s.getX a), ?_, csrValue_csrWrite_same hc, fun c' hne => ?_⟩
  · exact congrArg (finish s) (if_pos hc)
  · cases hw : c'.engineWritable with
    | false => exact csrValue_withCsr _ hw
    | true => exact csrValue_csrWrite_ne hw hne

end Sys2Proof.Machine
end

section
/-! How a command ends: the pc of every completion (40_control R110, R119), beside the STATUS and fault registers that
`exec_ends` gives. -/

namespace Sys2Proof.Machine

open Sys2Proof.Claims

variable {i : Instr} {s : State}

/-- Fault entry as the statements write it (60_exceptions R356). -/
theorem State.enterFault_eq_faultState (c : Cause) (n : Nat) : s.enterFault c n = faultState s c.code.toNat n := by
  rw [State.enterFault, faultState, BitVec.ofNat_toNat, BitVec.setWidth_eq]

theorem State.exists_faultState_eq_enterFault (c : Cause) (n : Nat) :
    ∃ code info, 1 ≤ code ∧ code ≤ 8 ∧ s.enterFault c n = faultState s code info := by
  obtain ⟨hlo, hhi⟩ := c.code_bounds
  exact ⟨c.code.toNat, n, hlo, hhi, State.enterFault_eq_faultState c n⟩

/-- A next state after the command `i` is a fault entry or has the pc of 40_control R119. -/
def EndsAtNextPc (i : Instr) (s : State) (o : Host.Outcome State Fault Refusal) : Prop :=
  ∀ t, o = .next t → (∃ c n, t = s.enterFault c n) ∨ t.pc = nextPc i s

theorem EndsAtNextPc.next {t : State} (h : t.pc = nextPc i s) : EndsAtNextPc i s (.next t) := by
  intro u hu
  injection hu with hu
  exact .inr (hu ▸ h)

theorem EndsAtNextPc.of_exec {t : State} (he : exec i s = .next t) (h : t.pc = nextPc i s) :
    EndsAtNextPc i s (exec i s) := by
  rw [he]
  exact .next h

theorem EndsAtNextPc.finish {r : Except Stop State} (h : Answers (·.pc = nextPc i s) r) :
    EndsAtNextPc i s (finish s r) := by
  intro t ht
  obtain hok | ⟨c, n, -, ht⟩ := finish_next ht
  · exact .inr (h t hok)
  · exact .inl ⟨c, n, ht⟩

theorem StreamExtended.pc {t : State} {q : Nat} (h : StreamExtended s t q) : t.pc = s.pc := by rw [h.state]

theorem endsAtNextPc_bpad {a : XReg} : EndsAtNextPc (.bpad a) s (exec (.bpad a) s) := by
  refine .finish <| .bind fun _ hm => .bind fun u hu => .pure ?_
  have hm := not_not.mp (of_decide_eq_false (badOperandIf_ok hm))
  obtain ⟨hext, -⟩ := bbPad_extends (s.getX a).isLt hm hu
  exact congrArg (· + 1) hext.pc

/-- Every command that completes leaves the pc of 40_control R119: all but HALT, JMP and the branches end by
`State.advance` (R110). -/
theorem exec_endsAtNextPc (i : Instr) (s : State) : EndsAtNextPc i s (exec i s) :=
  match i with
  | .jmp target =>
    have ⟨_, _, hjmp, _⟩ := controlCommands s 0 0 target
    .of_exec hjmp rfl
  | .bz a target =>
    have ⟨_, _, _, hbz, _⟩ := controlCommands s a a target
    .of_exec hbz rfl
  | .bnz a target =>
    have ⟨_, _, _, _, hbnz, _⟩ := controlCommands s a a target
    .of_exec hbnz (ite_not ..).symm
  | .bltu a b target =>
    have ⟨_, _, _, _, _, hbltu⟩ := controlCommands s a b target
    .of_exec hbltu rfl
  | .nop | .halt | .li _ _ | .lih _ _ | .addi _ _ _ | .add _ _ _ | .sub _ _ _ | .and _ _ _ | .or _ _ _ | .xor _ _ _
  | .slli _ _ _ | .srli _ _ _ | .plen _ _ | .pmov _ _ | .gfexp _ _ | .blen _ | .bavl _ => .next rfl
  | .csrr _ _ | .csrw _ _ => .finish (.ite (fun _ => .pure rfl) fun _ => .raise)
  | .lb _ _ _ | .sb _ _ _ | .pst _ _ | .gfadd _ _ _ | .gfmul _ _ _ | .pnorm _ _ | .pdeg _ _ | .pcoef _ _ _
  | .bchf _ _ | .bchv _ _ | .mxclr | .mxfnd | .mxfmt _ | .mxver _ => .finish (.bind fun _ _ => .pure rfl)
  | .pld _ _ _ | .gfinv _ _ | .gflog _ _ | .peval _ _ _ | .padd _ _ _ | .pmono _ _ _ | .rsgen _ _ | .rsfrn _ _ _
  | .mxtim | .mxpen _ => .finish (.bind fun _ _ => .bind fun _ _ => .pure rfl)
  | .pmul _ _ _ | .pmulm _ _ _ _ | .pmod _ _ _ | .rssyn _ _ _ _ | .mxaln | .mxdat _ _ | .mxmsk _ _ _ _ =>
    .finish (.bind fun _ _ => .bind fun _ _ => .bind fun _ _ => .pure rfl)
  | .rsenc _ _ _ | .mxget _ _ _ | .mxout _ =>
    .finish (.bind fun _ _ => .bind fun _ _ => .bind fun _ _ => .bind fun _ _ => .pure rfl)
  | .rseuc _ _ _ _ _ =>
    .finish (.ite (fun _ => .raise) fun _ => .bind fun _ _ => .bind fun _ _ => .bind fun _ _ => .bind fun r _ =>
      match r with
      | .error _ | .ok _ => .pure rfl)
  | .rschn _ _ _ | .rscor _ _ _ _ _ =>
    .finish (.bind fun _ _ => .bind fun r _ =>
      match r with
      | .error _ | .ok _ => .pure rfl)
  | .rsdec _ _ _ _ _ =>
    .finish (.ite (fun _ => .raise) fun _ => .bind fun _ _ => .bind fun _ _ => .bind fun r _ =>
      match r with
      | .error _ | .ok _ => .pure rfl)
  | .bput _ _ =>
    .finish (.bind fun _ _ => .bind fun _ hu => .pure (congrArg (· + 1) (bbPut_extends hu).pc))
  | .bpad _ => endsAtNextPc_bpad
  | .bread _ _ => .finish (.bind fun _ _ => .ite (fun _ => .raise) fun _ => .bind fun _ _ => .bind fun _ _ => .pure rfl)
  | .cwenc _ _ => .finish (.bind fun _ _ => .bind fun _ _ => .bind fun _ _ => .bind fun _ _ => .bind fun _ _ =>
      .bind fun _ _ => .bind fun _ _ => .pure rfl)
  | .mxbld _ _ _ _ => .finish (.ite (fun _ => .raise) fun _ => .bind fun _ _ => .bind fun _ _ => .bind fun _ _ =>
      .bind fun _ _ => .bind fun _ _ => .pure rfl)

/-- Settles O15: a next state is a fault entry, or completes by `exec_ends` with the pc of `exec_endsAtNextPc`. -/
theorem commandsEndOneOfTwoWays : Obligations.CommandsEndOneOfTwoWays := by
  intro i s t h
  obtain ⟨c, n, rfl⟩ | hpc := exec_endsAtNextPc i s t h
  · exact .inl (State.exists_faultState_eq_enterFault c n)
  obtain ⟨c, n, rfl⟩ | hc := exec_ends i s t h
  · exact .inl (State.exists_faultState_eq_enterFault c n)
  · exact .inr ⟨hpc, hc.cause, hc.epc, hc.tval, hc.status⟩

end Sys2Proof.Machine
end

section
/-! The scalar integer commands: each word operation equals its exact integer result modulo 2^32 (41_scalar R130). -/

namespace Sys2Proof.Machine

open Sys2Proof.Claims

/-! ## Words as exact integers modulo 2^32 -/

theorem word_ofNat_toNat (x : Word) : BitVec.ofNat 32 x.toNat = x :=
  (BitVec.ofNat_toNat ..).trans (BitVec.setWidth_eq x)

theorem word_ofInt_toNat (x : Word) : BitVec.ofInt 32 x.toNat = x :=
  (BitVec.ofInt_natCast ..).trans (word_ofNat_toNat x)

theorem word_sub_eq_ofInt (x y : Word) : x - y = BitVec.ofInt 32 ((x.toNat : Int) - y.toNat) := by
  rw [Int.sub_eq_add_neg, BitVec.ofInt_add, BitVec.ofInt_neg, word_ofInt_toNat, word_ofInt_toNat, BitVec.sub_eq_add_neg]

theorem word_shiftLeft_eq_ofNat (x : Word) (n : Nat) : x <<< n = BitVec.ofNat 32 (x.toNat * 2 ^ n) :=
  congrArg (BitVec.ofNat 32) (Nat.shiftLeft_eq ..)

theorem word_shiftRight_eq_ofNat (x : Word) (n : Nat) : x >>> n = BitVec.ofNat 32 (x.toNat / 2 ^ n) := by
  rw [← Nat.shiftRight_eq_div_pow, ← BitVec.toNat_ushiftRight, word_ofNat_toNat]

/-- `sext32` keeps the signed value of the immediate (30_encoding R86). -/
theorem word_add_sext32_eq_ofInt (x : Word) (imm : BitVec 16) :
    x + sext32 imm = BitVec.ofInt 32 (x.toNat + imm.toInt) := by
  rw [BitVec.ofInt_add, word_ofInt_toNat, sext32, BitVec.signExtend]

/-- The result of LIH: the immediate above the kept low half (41_scalar R132). -/
theorem append_lowHalf_eq_ofNat (imm : BitVec 16) (x : Word) :
    (imm ++ x.setWidth 16 : BitVec 32) = BitVec.ofNat 32 (imm.toNat * 65536 + x.toNat % 65536) := by
  have hlow : x.toNat % 65536 < 2 ^ 16 := Nat.mod_lt _ (by decide)
  have hvalue : (imm ++ x.setWidth 16 : BitVec 32).toNat = imm.toNat * 65536 + x.toNat % 65536 := by
    rw [BitVec.toNat_append, BitVec.toNat_setWidth, ← Nat.shiftLeft_add_eq_or_of_lt hlow, Nat.shiftLeft_eq]
  rw [← hvalue, word_ofNat_toNat]

/-! ## The commands -/

/-- Writing `x[a]` and advancing the pc is `afterX`. -/
theorem next_setX_advance {s : State} {v w : Word} (a : XReg) (h : v = w) :
    (.next (s.setX a v).advance : Host.Outcome State Fault Refusal) = .next (afterX s a w) :=
  congrArg (Host.Outcome.next <| afterX s a ·) h

/-- Settles O23: each command writes one word operation's result, which is the exact integer modulo 2^32. -/
theorem scalarCommands : Obligations.ScalarCommands := by
  intro s a b c imm sh u v
  have hu : BitVec.ofNat 32 u = s.getX b := word_ofNat_toNat _
  have hv : BitVec.ofNat 32 v = s.getX c := word_ofNat_toNat _
  exact ⟨
    next_setX_advance a (BitVec.ofNat_toNat ..).symm,
    next_setX_advance a (append_lowHalf_eq_ofNat ..),
    next_setX_advance a (word_add_sext32_eq_ofInt ..),
    next_setX_advance a (by rw [BitVec.ofNat_add, hu, hv]),
    next_setX_advance a (word_sub_eq_ofInt ..),
    next_setX_advance a (by rw [BitVec.ofNat_and, hu, hv]),
    next_setX_advance a (by rw [BitVec.ofNat_or, hu, hv]),
    next_setX_advance a (by rw [BitVec.ofNat_xor, hu, hv]),
    next_setX_advance a (word_shiftLeft_eq_ofNat ..),
    next_setX_advance a (word_shiftRight_eq_ofNat ..)⟩

end Sys2Proof.Machine
end

section
/-! SUPPORT. The checks and accesses of data memory, answered from their conditions (00_scope R12, 20_memory R64, R66),
and the end of a command whose first check is known. -/

namespace Sys2Proof.Machine

open Sys2Proof.Claims

/-! ## Checks -/

theorem badOperandIf_of_not {p : Prop} [Decidable p] (h : ¬ p) (v : Nat) : badOperandIf (decide p) v = .ok () :=
  if_neg fun hp => h (of_decide_eq_true hp)

theorem badOperandIf_of {p : Prop} [Decidable p] (h : p) (v : Nat) :
    badOperandIf (decide p) v = raise .badOperand v :=
  if_pos (decide_eq_true h)

theorem checkRange_of_fits {a n : Nat} (h : n = 0 ∨ a + n ≤ Config.dmBytes) : checkRange a n = .ok () :=
  if_neg (by omega)

theorem checkRange_of_overrun {a n : Nat} (hn : 0 < n) (h : Config.dmBytes < a + n) :
    checkRange a n = raise .memRange (a + n - 1) :=
  if_pos ⟨hn, h⟩

/-! ## Accesses to data memory -/

variable {dm : Memory Byte} {a : Nat}

theorem writtenByte_of_read {v : Byte} (h : Memory.read dm a = some v) : writtenByte dm a = .ok v := by
  rw [writtenByte, h]

theorem memRead_of_read {v : Byte} (ha : a < Config.dmBytes) (h : Memory.read dm a = some v) : memRead dm a = .ok v :=
  (if_pos ha).trans (writtenByte_of_read h)

theorem memRead_of_outside (ha : Config.dmBytes ≤ a) : memRead dm a = raise .memRange a := if_neg ha.not_gt

theorem memWrite_of_inside (ha : a < Config.dmBytes) (v : Byte) : memWrite dm a v = .ok (Memory.write dm a v) :=
  if_pos ha

theorem memWrite_of_outside (ha : Config.dmBytes ≤ a) (v : Byte) : memWrite dm a v = raise .memRange a :=
  if_neg ha.not_gt

/-- Bytes that stand at ascending addresses are read in that order (20_memory R64). -/
theorem writtenBytes_of_read {bytes : List Byte} (h : ∀ k < bytes.length, Memory.read dm (a + k) = bytes[k]?) :
    writtenBytes dm a bytes.length = .ok bytes := by
  induction bytes generalizing a with
  | nil => rfl
  | cons v vs ih =>
    have hhead : Memory.read dm a = some v := h 0 (Nat.succ_pos _)
    have htail : ∀ k < vs.length, Memory.read dm (a + 1 + k) = vs[k]? := fun k hk => by
      rw [Nat.add_assoc, Nat.add_comm 1]
      exact h (k + 1) (Nat.succ_lt_succ hk)
    rw [List.length_cons, writtenBytes, writtenByte_of_read hhead, ok_bind, ih htail]
    rfl

theorem memReadSeq_of_read {bytes : List Byte} (hfit : bytes.length = 0 ∨ a + bytes.length ≤ Config.dmBytes)
    (h : ∀ k < bytes.length, Memory.read dm (a + k) = bytes[k]?) : memReadSeq dm a bytes.length = .ok bytes := by
  rw [memReadSeq, checkRange_of_fits hfit, ok_bind, writtenBytes_of_read h]

theorem memReadSeq_of_overrun {n : Nat} (hn : 0 < n) (h : Config.dmBytes < a + n) :
    memReadSeq dm a n = raise .memRange (a + n - 1) := by
  rw [memReadSeq, checkRange_of_overrun hn h]
  rfl

theorem memWriteSeq_of_fits {bytes : List Byte} (hfit : bytes.length = 0 ∨ a + bytes.length ≤ Config.dmBytes) :
    memWriteSeq dm a bytes = .ok (storeBytes dm a bytes) := by
  rw [memWriteSeq, checkRange_of_fits hfit]
  rfl

theorem memWriteSeq_of_overrun {bytes : List Byte} (hn : 0 < bytes.length) (h : Config.dmBytes < a + bytes.length) :
    memWriteSeq dm a bytes = raise .memRange (a + bytes.length - 1) := by
  rw [memWriteSeq, checkRange_of_overrun hn h]
  rfl

/-! ## The end of a command -/

variable {s : State} {α : Type} {x : Except Stop α} {f : α → Except Stop State}

theorem finish_bind_of_ok {v : α} {o : Host.Outcome State Fault Refusal} (hx : x = .ok v)
    (hf : finish s (f v) = o) : finish s (x >>= f) = o := by
  rw [hx, ok_bind, hf]

theorem finish_bind_of_raise {c : Cause} {code n : Nat} (hx : x = raise c n) (hcode : c.code.toNat = code := by rfl) :
    finish s (x >>= f) = .next (faultState s code n) := by
  rw [hx, ← hcode, ← State.enterFault_eq_faultState]
  rfl

end Sys2Proof.Machine
end

section
/-! The load, store, length and move commands (42_loadstore R150 to R156; 46_bitstream R264, R270). -/

namespace Sys2Proof.Machine

open Sys2Proof.Claims

/-! ## Vectors -/

section
variable {s : State} {q : PReg} {b c : XReg}

/-- PLD of a range whose bytes are written (42_loadstore R153). -/
theorem exec_pld_of_read {bytes : List Byte} (hlen : bytes.length = (s.getX c).toNat) (hmax : (s.getX c).toNat ≤ 256)
    (hfit : (s.getX c).toNat = 0 ∨ (s.getX b).toNat + (s.getX c).toNat ≤ 16384)
    (h : ∀ k < (s.getX c).toNat, Memory.read s.dm ((s.getX b).toNat + k) = bytes[k]?) :
    exec (.pld q b c) s = .next (afterP s q bytes) := by
  have hread : memReadSeq s.dm (s.getX b).toNat (s.getX c).toNat = .ok bytes := by
    rw [← hlen] at hfit h ⊢
    exact memReadSeq_of_read hfit h
  exact finish_bind_of_ok (badOperandIf_of_not hmax.not_gt _) (finish_bind_of_ok hread rfl)

/-- PST of a range inside DM (42_loadstore R154). -/
theorem exec_pst_of_fits (hfit : (s.getP q).length = 0 ∨ (s.getX b).toNat + (s.getP q).length ≤ 16384) :
    exec (.pst q b) s =
      .next { s with dm := storeBytes s.dm (s.getX b).toNat (s.getP q), pc := s.pc + 1 } :=
  finish_bind_of_ok (memWriteSeq_of_fits hfit) rfl

end

/-- Settles O25: the length is checked before the range, and the range before memory. -/
theorem vectorLoadStore : Obligations.VectorLoadStore := by
  intro s q b c base n len
  refine ⟨fun bytes => exec_pld_of_read, fun hn => ?pldLong, fun hpos hn hout => ?pldOutside, fun hfit => ?pst,
    fun hpos hout => ?pstOutside⟩
  case pldLong => exact finish_bind_of_raise (badOperandIf_of hn _)
  case pldOutside =>
    exact finish_bind_of_ok (badOperandIf_of_not hn.not_gt _) (finish_bind_of_raise (memReadSeq_of_overrun hpos hout))
  case pst =>
    refine ⟨_, exec_pst_of_fits hfit, fun k hk => ?_, fun k => read_storeBytes_outside _ _ _ _⟩
    rw [read_storeBytes_inside _ _ _ _ hk, List.getElem?_eq_getElem hk]
  case pstOutside => exact finish_bind_of_raise (memWriteSeq_of_overrun hpos hout)

/-! ## Bytes -/

/-- The effective address is the exact sum modulo 2^32 (42_loadstore R150). -/
theorem effectiveAddress_eq_emod (x : Word) (imm : BitVec 16) :
    (effectiveAddress x imm : Int) = ((x.toNat : Int) + imm.toInt) % 2 ^ 32 := by
  rw [effectiveAddress, word_add_sext32_eq_ofInt, BitVec.toNat_ofInt]
  exact Int.toNat_of_nonneg (Int.emod_nonneg _ (by decide))

/-- Settles O24: `memRead` and `memWrite` decide by the effective address alone. -/
theorem byteLoadStore : Obligations.ByteLoadStore := by
  intro s a b imm ea
  refine ⟨effectiveAddress_eq_emod _ _, fun v hin hread => ?load, fun hin => ?store, fun hout => ⟨?_, ?_⟩⟩
  case load =>
    exact finish_bind_of_ok (memRead_of_read hin hread) (next_setX_advance a (BitVec.ofNat_toNat ..).symm)
  case store =>
    refine ⟨_, finish_bind_of_ok (memWrite_of_inside hin _) rfl, ?_, fun k => Memory.read_write_ne _ _⟩
    rw [Memory.read_write_same, lowByte, BitVec.ofNat_toNat]
  · exact finish_bind_of_raise (memRead_of_outside hout)
  · exact finish_bind_of_raise (memWrite_of_outside hout _)

/-! ## Lengths and moves -/

/-- The bits available are counted by a subtraction that stops at 0 (46_bitstream R267). -/
theorem ofNat_available (s : State) : BitVec.ofNat 32 (available s) =
    if s.csr.rpos.toNat ≤ s.csr.rlim.toNat then BitVec.ofNat 32 (s.csr.rlim.toNat - s.csr.rpos.toNat) else 0 := by
  split
  · rfl
  · next h =>
    rw [available, Nat.sub_eq_zero_of_le (Nat.le_of_not_le h)]
    rfl

/-- Settles O26: each command is one register write and an advance of the pc. -/
theorem lengthAndMoveCommands : Obligations.LengthAndMoveCommands := fun s a _ _ =>
  ⟨rfl, rfl, rfl, next_setX_advance a (ofNat_available s)⟩

end Sys2Proof.Machine
end

section
/-! The field laws (43_gf256 R177). The nonzero elements multiply by adding exponents of 2; multiplying by `2^i` is `i`
turns of `xtime`, which respects XOR; and two maps that respect XOR are equal if they agree on the powers of 2. -/

namespace Sys2Proof.Machine

open Sys2Proof.Claims

/-! ## The multiplicative group -/

theorem gfMul_comm (a b : Byte) : gfMul a b = gfMul b a := by
  rw [gfMul, gfMul, Nat.add_comm (logAt a)]
  exact ite_congr (propext or_comm) (fun _ => rfl) fun _ => rfl

theorem gfMul_assoc (a b c : Byte) : gfMul (gfMul a b) c = gfMul a (gfMul b c) := by
  by_cases ha : a = 0
  · rw [ha, gfMul_zero_left, gfMul_zero_left, gfMul_zero_left]
  by_cases hb : b = 0
  · rw [hb, gfMul_zero_right, gfMul_zero_left, gfMul_zero_right]
  by_cases hc : c = 0
  · rw [hc, gfMul_zero_right, gfMul_zero_right, gfMul_zero_right]
  rw [gfMul_of_ne_zero (gfMul_ne_zero ha hb) hc, gfMul_of_ne_zero ha (gfMul_ne_zero hb hc), logAt_gfMul ha hb,
    logAt_gfMul hb hc, Nat.mod_add_mod, Nat.add_mod_mod, Nat.add_assoc]

theorem gfInv_of_ne_zero {a : Byte} (ha : a ≠ 0) : gfInv a = .ok (expAt (255 - logAt a)) := if_neg ha

theorem expAt_injective {i j : Nat} (hi : i ≤ 254) (hj : j ≤ 254) (h : expAt i = expAt j) : i = j := by
  rw [← logAt_expAt i (by omega), h, logAt_expAt j (by omega)]

theorem ne_zero_iff_exists_expAt {a : Byte} : a ≠ 0 ↔ ∃ i, i ≤ 254 ∧ expAt i = a := by
  constructor
  · intro ha
    obtain ⟨hlt, hexp⟩ := expAt_logAt ha
    exact ⟨logAt a, by omega, hexp⟩
  · rintro ⟨i, hi, rfl⟩
    exact expAt_ne_zero i (by omega)

/-! ## Multiplication by a power of 2 -/

theorem expAt_add_mod (i j : Nat) : expAt ((i + j) % 255) = xtime^[i] (expAt (j % 255)) := by
  induction i with
  | zero => rw [Nat.zero_add, Function.iterate_zero, id]
  | succ i ih =>
    rw [Function.iterate_succ_apply', ← ih, ← expAt_succ _ (Nat.mod_lt _ (by decide))]
    by_cases hlast : (i + j) % 255 = 254
    · rw [show (i + 1 + j) % 255 = 0 by omega, hlast]
      rfl
    · rw [show (i + 1 + j) % 255 = (i + j) % 255 + 1 by omega]

/-- Every nonzero element multiplies as repeated multiplication by 2. -/
theorem gfMul_eq_iterate_xtime {a : Byte} (ha : a ≠ 0) (b : Byte) : gfMul a b = xtime^[logAt a] b := by
  by_cases hb : b = 0
  · rw [hb, gfMul_zero_right, Function.iterate_fixed (by decide)]
  · obtain ⟨hlt, hexp⟩ := expAt_logAt hb
    rw [gfMul_of_ne_zero ha hb, expAt_add_mod, Nat.mod_eq_of_lt hlt, hexp]

theorem gfMul_one_left (a : Byte) : gfMul 1 a = a := gfMul_eq_iterate_xtime (by decide) a

theorem gfMul_two_left (a : Byte) : gfMul 2 a = xtime a := gfMul_eq_iterate_xtime (by decide) a

theorem gfMul_inv {a b : Byte} (h : gfInv a = .ok b) : gfMul a b = 1 := by
  rw [← gfMul_gfMul_inv 1 h, gfMul_one_left]

theorem foldl_gfMul_two {n : Nat} (hn : n ≤ 255) : (List.replicate n (2 : Byte)).foldl gfMul 1 = expAt n := by
  induction n with
  | zero => rfl
  | succ n ih =>
    rw [List.replicate_succ', List.foldl_concat, ih (by omega), gfMul_comm, gfMul_two_left, expAt_succ n hn]

/-! ## Distribution over XOR -/

/-- Multiplication by 2 is a shift, and an XOR of the polynomial if the top bit left the byte. -/
theorem xtime_eq_shiftLeft (a : Byte) : xtime a = a <<< 1 ^^^ (if a.msb then 0x1D else 0) := by
  have hdouble : BitVec.ofNat 8 (a.toNat * 2) = a <<< 1 := by
    rw [BitVec.ofNat_mul, BitVec.ofNat_toNat, BitVec.setWidth_eq]
    exact (BitVec.shiftLeft_eq_mul_twoPow a 1).symm
  have hmsb : a.msb = decide (128 ≤ a.toNat) := BitVec.msb_eq_decide a
  rw [xtime, BitVec.ofNat_xor, hdouble, hmsb]
  by_cases h : a.toNat < 128
  · simp [h, h.not_ge]
  · simp [h, Nat.le_of_not_lt h, Config.prim]

theorem xtime_xor (a b : Byte) : xtime (a ^^^ b) = xtime a ^^^ xtime b := by
  have hcarry : ∀ p q : Bool,
      (if p ^^ q then 0x1D else 0 : Byte) = (if p then 0x1D else 0) ^^^ (if q then 0x1D else 0) := by decide
  rw [xtime_eq_shiftLeft, BitVec.msb_xor, BitVec.shiftLeft_xor_distrib, hcarry, xtime_eq_shiftLeft, xtime_eq_shiftLeft]
  ac_rfl

theorem iterate_xtime_xor (i : Nat) (a b : Byte) : xtime^[i] (a ^^^ b) = xtime^[i] a ^^^ xtime^[i] b :=
  Function.Semiconj₂.iterate xtime_xor i a b

theorem gfMul_xor (a b c : Byte) : gfMul a (b ^^^ c) = gfMul a b ^^^ gfMul a c := by
  by_cases ha : a = 0
  · rw [ha, gfMul_zero_left, gfMul_zero_left, gfMul_zero_left]
    rfl
  · simp only [gfMul_eq_iterate_xtime ha, iterate_xtime_xor]

/-! ## The carry-less product -/

/-- The map is linear over XOR, the addition of 43_gf256 R171. -/
def RespectsXor (f : Nat → Nat) : Prop := ∀ x y, f (x ^^^ y) = f x ^^^ f y

theorem RespectsXor.map_zero {f : Nat → Nat} (hf : RespectsXor f) : f 0 = 0 := by
  rw [show f 0 = f 0 ^^^ f 0 from hf 0 0, Nat.xor_self]

theorem xor_two_pow_lt {a n : Nat} (h : a < 2 ^ (n + 1)) (hn : 2 ^ n ≤ a) : a ^^^ 2 ^ n < 2 ^ n := by
  have hquot : a / 2 ^ n = 1 := Nat.div_eq_of_lt_le (by omega) (by omega)
  rw [← Nat.div_eq_zero_iff_lt (Nat.two_pow_pos n), Nat.xor_div_two_pow, hquot, Nat.div_self (Nat.two_pow_pos n)]
  rfl

/-- Two maps that respect XOR and agree on the first `n` powers of 2 agree below `2^n`. -/
theorem RespectsXor.eq_of_two_pow {f g : Nat → Nat} (hf : RespectsXor f) (hg : RespectsXor g) {n : Nat}
    (h : ∀ i < n, f (2 ^ i) = g (2 ^ i)) {a : Nat} (ha : a < 2 ^ n) : f a = g a := by
  induction n generalizing a with
  | zero => rw [Nat.lt_one_iff.mp ha, hf.map_zero, hg.map_zero]
  | succ n ih =>
    have below {b : Nat} (hb : b < 2 ^ n) : f b = g b := ih (fun i hi => h i (by omega)) hb
    by_cases hn : a < 2 ^ n
    · exact below hn
    · have hsplit : a = a ^^^ 2 ^ n ^^^ 2 ^ n := (Nat.xor_xor_cancel_right a (2 ^ n)).symm
      rw [hsplit, hf, hg, below (xor_two_pow_lt ha (Nat.le_of_not_lt hn)), h n (by omega)]

/-- One turn of a loop that XORs `u` into `x` if the bit is set: the turn of an XOR is the XOR of the turns. -/
theorem xor_if_bit (p q : Bool) (x y u : Nat) :
    (if p ^^ q then x ^^^ y ^^^ u else x ^^^ y) = (if p then x ^^^ u else x) ^^^ (if q then y ^^^ u else y) := by
  cases p with
  | false =>
    cases q with
    | false => rfl
    | true => exact Nat.xor_assoc x y u
  | true =>
    cases q with
    | false => exact Nat.xor_right_comm x y u
    | true =>
      calc x ^^^ y = x ^^^ u ^^^ u ^^^ y := by rw [Nat.xor_xor_cancel_right]
        _ = x ^^^ u ^^^ (y ^^^ u) := by rw [Nat.xor_assoc (x ^^^ u), Nat.xor_comm u]

theorem foldl_xor {f g h : Nat → Nat → Nat} (hturn : ∀ x y i, f (x ^^^ y) i = g x i ^^^ h y i) (l : List Nat)
    (x y : Nat) : l.foldl f (x ^^^ y) = l.foldl g x ^^^ l.foldl h y := by
  induction l generalizing x y with
  | nil => rfl
  | cons i l ih => rw [List.foldl_cons, List.foldl_cons, List.foldl_cons, hturn, ih]

/-- One turn of the product. -/
def addShifted (a b acc i : Nat) : Nat := if b.testBit i then acc ^^^ (a <<< i) else acc

/-- One turn of the reduction modulo 0x11D. -/
def reduceBit (acc i : Nat) : Nat := if acc.testBit i then acc ^^^ (0x11D <<< (i - 8)) else acc

theorem fieldProduct_eq_foldl (a b : Nat) : fieldProduct a b =
    [14, 13, 12, 11, 10, 9, 8].foldl reduceBit ((List.range 8).foldl (addShifted a b) 0) := rfl

theorem reduceBit_xor (x y i : Nat) : reduceBit (x ^^^ y) i = reduceBit x i ^^^ reduceBit y i := by
  rw [reduceBit, Nat.testBit_xor, xor_if_bit]
  rfl

theorem addShifted_xor_right (a b c x y i : Nat) :
    addShifted a (b ^^^ c) (x ^^^ y) i = addShifted a b x i ^^^ addShifted a c y i := by
  rw [addShifted, Nat.testBit_xor, xor_if_bit]
  rfl

theorem addShifted_xor_left (a b c x y i : Nat) :
    addShifted (a ^^^ b) c (x ^^^ y) i = addShifted a c x i ^^^ addShifted b c y i := by
  simp only [addShifted, Nat.shiftLeft_xor_distrib]
  split
  · ac_rfl
  · rfl

theorem respectsXor_fieldProduct_right (a : Nat) : RespectsXor (fieldProduct a) := fun b c => by
  simp only [fieldProduct_eq_foldl, ← foldl_xor reduceBit_xor, ← foldl_xor (addShifted_xor_right a b c), Nat.xor_self]

theorem respectsXor_fieldProduct_left (c : Nat) : RespectsXor (fieldProduct · c) := fun a b => by
  simp only [fieldProduct_eq_foldl, ← foldl_xor reduceBit_xor, ← foldl_xor (addShifted_xor_left a b c), Nat.xor_self]

/-- `gfMul` on the numbers of its bytes, to be compared with `fieldProduct`. -/
def natMul (x y : Nat) : Nat := (gfMul (BitVec.ofNat 8 x) (BitVec.ofNat 8 y)).toNat

theorem respectsXor_natMul_right (x : Nat) : RespectsXor (natMul x) := fun y z => by
  rw [natMul, BitVec.ofNat_xor, gfMul_xor, BitVec.toNat_xor, natMul, natMul]

theorem respectsXor_natMul_left (y : Nat) : RespectsXor (natMul · y) := fun x z => by
  simp only [natMul, gfMul_comm _ (BitVec.ofNat 8 y), BitVec.ofNat_xor, gfMul_xor, BitVec.toNat_xor]

theorem natMul_two_pow : ∀ i < 8, ∀ j < 8, natMul (2 ^ i) (2 ^ j) = fieldProduct (2 ^ i) (2 ^ j) := by decide +kernel

theorem natMul_eq_fieldProduct {x y : Nat} (hx : x < 2 ^ 8) (hy : y < 2 ^ 8) : natMul x y = fieldProduct x y :=
  (respectsXor_natMul_left y).eq_of_two_pow (respectsXor_fieldProduct_left y)
    (fun i hi => (respectsXor_natMul_right (2 ^ i)).eq_of_two_pow (respectsXor_fieldProduct_right (2 ^ i))
      (natMul_two_pow i hi) hy) hx

theorem gfMul_toNat (a b : Byte) : (gfMul a b).toNat = fieldProduct a.toNat b.toNat := by
  rw [← natMul_eq_fieldProduct a.isLt b.isLt, natMul, BitVec.ofNat_toNat, BitVec.ofNat_toNat, BitVec.setWidth_eq,
    BitVec.setWidth_eq]

/-- Settles O28: the multiplicative laws by exponents of 2, distribution and the carry-less product by linearity. -/
theorem fieldLaws : Obligations.FieldLaws :=
  ⟨gfMul_comm, gfMul_assoc, gfMul_one_left, fun _ ha => ⟨_, gfInv_of_ne_zero ha, gfMul_inv (gfInv_of_ne_zero ha)⟩,
    gfMul_xor, gfMul_toNat, fun _ _ => expAt_injective, fun _ => ne_zero_iff_exists_expAt, fun _ => foldl_gfMul_two, rfl⟩

end Sys2Proof.Machine
end

section
/-! The field commands (43_gf256 R176, R178 to R182): the operands are checked before the field function is applied. -/

namespace Sys2Proof.Machine

open Sys2Proof.Claims

/-! ## Operands -/

theorem ofByte_eq_ofNat (b : Byte) : ofByte b = BitVec.ofNat 32 b.toNat := (BitVec.ofNat_toNat ..).symm

theorem fieldElement_of_le {x : Word} (h : x.toNat ≤ 255) : fieldElement x = .ok (BitVec.ofNat 8 x.toNat) := by
  rw [fieldElement, if_neg h.not_gt, lowByte, BitVec.ofNat_toNat]

theorem fieldElement_of_gt {x : Word} (h : 255 < x.toNat) : fieldElement x = raise .domainError 3 := if_pos h

theorem fieldElements_of_le {x y : Word} (hx : x.toNat ≤ 255) (hy : y.toNat ≤ 255) :
    fieldElements x y = .ok (BitVec.ofNat 8 x.toNat, BitVec.ofNat 8 y.toNat) := by
  rw [fieldElements, fieldElement_of_le hx, fieldElement_of_le hy]
  rfl

theorem fieldElements_of_gt {x y : Word} (h : 255 < x.toNat ∨ 255 < y.toNat) :
    fieldElements x y = raise .domainError 3 := by
  by_cases hx : 255 < x.toNat
  · rw [fieldElements, fieldElement_of_gt hx]
    rfl
  · rw [fieldElements, fieldElement_of_le (Nat.le_of_not_lt hx), fieldElement_of_gt (h.resolve_left hx)]
    rfl

theorem byte_toNat_ofNat {n : Nat} (h : n ≤ 255) : (BitVec.ofNat 8 n).toNat = n :=
  (BitVec.toNat_ofNat ..).trans (Nat.mod_eq_of_lt (Nat.lt_succ_of_le h))

theorem byte_ofNat_ne_zero {n : Nat} (h1 : 1 ≤ n) (h : n ≤ 255) : BitVec.ofNat 8 n ≠ 0 := fun h0 => by
  have hn : n = 0 := (byte_toNat_ofNat h).symm.trans (congrArg BitVec.toNat h0)
  omega

theorem byte_toNat_gfAdd_ofNat {m n : Nat} (hm : m ≤ 255) (hn : n ≤ 255) :
    (gfAdd (BitVec.ofNat 8 m) (BitVec.ofNat 8 n)).toNat = m ^^^ n := by
  rw [gfAdd, BitVec.toNat_xor, byte_toNat_ofNat hm, byte_toNat_ofNat hn]

theorem gfLog_of_ne_zero {a : Byte} (ha : a ≠ 0) : gfLog a = .ok (logAt a) := if_neg ha

/-! ## Commands -/

section
variable {s : State} {a b c : XReg}

/-- GFADD of two field elements (43_gf256 R178). -/
theorem exec_gfadd_of_le (hb : (s.getX b).toNat ≤ 255) (hc : (s.getX c).toNat ≤ 255) :
    exec (.gfadd a b c) s = .next (afterX s a (BitVec.ofNat 32 ((s.getX b).toNat ^^^ (s.getX c).toNat))) :=
  finish_bind_of_ok (fieldElements_of_le hb hc)
    (next_setX_advance a (by rw [ofByte_eq_ofNat, byte_toNat_gfAdd_ofNat hb hc]))

/-- GFMUL of two field elements (43_gf256 R179). -/
theorem exec_gfmul_of_le (hb : (s.getX b).toNat ≤ 255) (hc : (s.getX c).toNat ≤ 255) :
    exec (.gfmul a b c) s = .next (afterX s a
      (BitVec.ofNat 32 (gfMul (BitVec.ofNat 8 (s.getX b).toNat) (BitVec.ofNat 8 (s.getX c).toNat)).toNat)) :=
  finish_bind_of_ok (fieldElements_of_le hb hc) (next_setX_advance a (ofByte_eq_ofNat _))

/-- GFINV of a field element with an inverse (43_gf256 R180). -/
theorem exec_gfinv_of_ok {r : Byte} (hb : (s.getX b).toNat ≤ 255)
    (hr : gfInv (BitVec.ofNat 8 (s.getX b).toNat) = .ok r) :
    exec (.gfinv a b) s = .next (afterX s a (BitVec.ofNat 32 r.toNat)) :=
  finish_bind_of_ok (fieldElement_of_le hb) (finish_bind_of_ok hr (next_setX_advance a (ofByte_eq_ofNat r)))

/-- GFLOG of a field element with a logarithm (43_gf256 R182). -/
theorem exec_gflog_of_ok {n : Nat} (hb : (s.getX b).toNat ≤ 255)
    (hn : gfLog (BitVec.ofNat 8 (s.getX b).toNat) = .ok n) :
    exec (.gflog a b) s = .next (afterX s a (BitVec.ofNat 32 n)) :=
  finish_bind_of_ok (fieldElement_of_le hb) (finish_bind_of_ok hn rfl)

end

/-- Settles O29: an operand above 255 stops a command before its field function, which itself stops at 0 alone. -/
theorem fieldCommands : Obligations.FieldCommands := by
  intro s a b c u v
  refine ⟨fun hu hv => ⟨exec_gfadd_of_le hu hv, exec_gfmul_of_le hu hv⟩, fun h => ⟨?_, ?_⟩, fun h1 hu => ?inv,
    fun h1 hu => ?log, next_setX_advance a (ofByte_eq_ofNat _), fun h => ⟨?_, ?_⟩, fun h0 => ?zero⟩
  case inv =>
    have hr := gfInv_of_ne_zero (byte_ofNat_ne_zero h1 hu)
    exact ⟨_, exec_gfinv_of_ok hu hr, gfMul_inv hr⟩
  case log =>
    have hne := byte_ofNat_ne_zero h1 hu
    obtain ⟨hlt, hexp⟩ := expAt_logAt hne
    exact ⟨_, Nat.le_of_lt_succ hlt, exec_gflog_of_ok hu (gfLog_of_ne_zero hne), by rw [hexp, byte_toNat_ofNat hu]⟩
  case zero =>
    have hzero : fieldElement (s.getX b) = .ok 0 := by
      rw [fieldElement_of_le (by omega), show (s.getX b).toNat = 0 from h0]
      rfl
    exact ⟨finish_bind_of_ok hzero (finish_bind_of_raise rfl), finish_bind_of_ok hzero (finish_bind_of_raise rfl)⟩
  · exact finish_bind_of_raise (fieldElements_of_gt h)
  · exact finish_bind_of_raise (fieldElements_of_gt h)
  · exact finish_bind_of_raise (fieldElement_of_gt h)
  · exact finish_bind_of_raise (fieldElement_of_gt h)

end Sys2Proof.Machine
end

section
/-! SUPPORT. The coefficients of a list of bytes and its normal form (44_polynomial R190, R192): what each list
operation of the polynomial unit does to them. -/

namespace Sys2Proof.Claims

open Sys2Proof.Machine

/-! ## XOR of bytes, with zero spelt as the model spells it -/

theorem byte_xor_zero (a : Byte) : a ^^^ 0 = a := BitVec.xor_zero

theorem byte_zero_xor (a : Byte) : 0 ^^^ a = a := BitVec.zero_xor

theorem byte_xor_self (a : Byte) : a ^^^ a = 0 := BitVec.xor_self

/-! ## Coefficients -/

theorem coef_of_length_le {f : List Byte} {d : Nat} (h : f.length ≤ d) : coef f d = 0 := by
  simp [coef, List.getD_eq_getElem?_getD, h]

theorem coef_append (f g : List Byte) (d : Nat) :
    coef (f ++ g) d = if d < g.length then coef g d else coef f (d - g.length) := by
  simp only [coef, List.getD_eq_getElem?_getD, List.reverse_append, List.getElem?_append, List.length_reverse]
  split <;> rfl

theorem coef_singleton (c : Byte) (d : Nat) : coef [c] d = if d = 0 then c else 0 := by
  cases d with
  | zero => rfl
  | succ d => rfl

theorem coef_cons (c : Byte) (f : List Byte) (d : Nat) :
    coef (c :: f) d = if d = f.length then c else coef f d := by
  rw [← List.singleton_append, coef_append, coef_singleton]
  by_cases hlt : d < f.length
  · rw [if_pos hlt, if_neg hlt.ne]
  · rw [if_neg hlt, coef_of_length_le (Nat.le_of_not_lt hlt)]
    exact if_congr (by omega) rfl rfl

theorem coef_replicate_zero (n d : Nat) : coef (List.replicate n 0) d = 0 := by
  by_cases hd : d < n <;> simp [coef, hd]

/-- The coefficients of `c * X^n` (44_polynomial R197). -/
theorem coef_monomial (c : Byte) (n d : Nat) : coef (c :: List.replicate n 0) d = if d = n then c else 0 := by
  rw [coef_cons, List.length_replicate, coef_replicate_zero]

theorem coef_zero (d : Nat) : coef [0] d = 0 := (coef_singleton 0 d).trans (ite_self 0)

theorem coef_map {h : Byte → Byte} (h0 : h 0 = 0) (f : List Byte) (d : Nat) : coef (f.map h) d = h (coef f d) := by
  have hget := List.getD_map (l := f.reverse) (d := 0) (n := d) h
  rwa [h0, List.map_reverse] at hget

/-- The coefficients of a list scaled by `h` and shifted by `n` places. -/
theorem coef_map_shift {h : Byte → Byte} (h0 : h 0 = 0) (f : List Byte) (n d : Nat) :
    coef (f.map h ++ List.replicate n 0) d = if d < n then 0 else h (coef f (d - n)) := by
  rw [coef_append, List.length_replicate, coef_replicate_zero, coef_map h0]

/-- The coefficient at the degree is the leading one. -/
theorem coef_degree (f : List Byte) : coef f (f.length - 1) = f.headD 0 := by
  cases f with
  | nil => rfl
  | cons c cs => exact (coef_cons c cs cs.length).trans (if_pos rfl)

theorem coef_zipWith_gfAdd {f g : List Byte} (h : f.length = g.length) (d : Nat) :
    coef (List.zipWith gfAdd f g) d = coef f d ^^^ coef g d := by
  simp only [coef, List.getD_eq_getElem?_getD, List.reverse_zipWith h, List.getElem?_zipWith]
  by_cases hd : d < f.reverse.length
  · have hd' : d < g.reverse.length := by simpa [h] using hd
    rw [List.getElem?_eq_getElem hd, List.getElem?_eq_getElem hd']
    rfl
  · have hd' : g.reverse.length ≤ d := by simpa [h] using hd
    rw [List.getElem?_eq_none (Nat.le_of_not_lt hd), List.getElem?_eq_none hd']
    rfl

theorem coef_xorAligned {f g : List Byte} (h : g.length ≤ f.length) (d : Nat) :
    coef (xorAligned f g) d = coef f d ^^^ coef g d := by
  have hlow : (f.drop (f.length - g.length)).length = g.length := by
    rw [List.length_drop]
    omega
  have hsum : (List.zipWith gfAdd (f.drop (f.length - g.length)) g).length = g.length := by
    rw [List.length_zipWith, hlow, Nat.min_self]
  have hf := coef_append (f.take (f.length - g.length)) (f.drop (f.length - g.length)) d
  rw [List.take_append_drop, hlow] at hf
  rw [xorAligned, coef_append, hsum, coef_zipWith_gfAdd hlow, hf]
  split
  · rfl
  · next hd => rw [coef_of_length_le (Nat.le_of_not_lt hd), byte_xor_zero]

/-! ## The normal form -/

theorem normalForm_cons_of_ne_zero {c : Byte} (hc : c ≠ 0) (cs : List Byte) : normalForm (c :: cs) = c :: cs := by
  have hb : (c == 0) = false := beq_false_of_ne hc
  rw [normalForm, List.all_cons, hb, Bool.false_and, List.dropWhile_cons, hb]
  rfl

theorem stripZeros_eq_normalForm {f : List Byte} (hf : f ≠ []) : stripZeros f = normalForm f := by
  fun_induction stripZeros f with
  | case1 => exact absurd rfl hf
  | case2 c =>
    by_cases hc : c = 0
    · rw [hc]; rfl
    · exact (normalForm_cons_of_ne_zero hc []).symm
  | case3 d cs ih => simpa [normalForm] using ih (List.cons_ne_nil d cs)
  | case4 c d cs hc => exact (normalForm_cons_of_ne_zero hc (d :: cs)).symm

theorem coef_stripZeros (f : List Byte) (d : Nat) : coef (stripZeros f) d = coef f d := by
  fun_induction stripZeros f with
  | case1 => rfl
  | case2 => rfl
  | case3 e cs ih =>
    rw [ih, coef_cons 0]
    split
    · next hd => exact coef_of_length_le hd.ge
    · rfl
  | case4 => rfl

theorem normalForm_length_le {f : List Byte} (hf : f ≠ []) : (normalForm f).length ≤ f.length := by
  rw [← stripZeros_eq_normalForm hf]
  exact stripZeros_length_le f

theorem coef_normalForm {f : List Byte} (hf : f ≠ []) (d : Nat) : coef (normalForm f) d = coef f d := by
  rw [← stripZeros_eq_normalForm hf, coef_stripZeros]

theorem normal_of_headD_ne_zero {f : List Byte} (h : f.headD 0 ≠ 0) : Normal f := by
  match f with
  | [] => exact absurd rfl h
  | c :: cs => exact .inr ⟨c, cs, rfl, h⟩

theorem Normal.headD_ne_zero {f : List Byte} (hf : Normal f) (h0 : f ≠ [0]) : f.headD 0 ≠ 0 := by
  obtain rfl | ⟨c, cs, rfl, hc⟩ := hf
  · exact absurd rfl h0
  · exact hc

theorem Normal.ne_nil {f : List Byte} (hf : Normal f) : f ≠ [] := by
  obtain rfl | ⟨c, cs, rfl, -⟩ := hf
  · exact List.cons_ne_nil 0 []
  · exact List.cons_ne_nil c cs

theorem normal_stripZeros {f : List Byte} (hf : f ≠ []) : Normal (stripZeros f) := by
  fun_induction stripZeros f with
  | case1 => exact absurd rfl hf
  | case2 c =>
    by_cases hc : c = 0
    · exact .inl (by rw [hc])
    · exact normal_of_headD_ne_zero hc
  | case3 d cs ih => exact ih (List.cons_ne_nil d cs)
  | case4 c d cs hc => exact normal_of_headD_ne_zero hc

theorem normal_normalForm {f : List Byte} (hf : f ≠ []) : Normal (normalForm f) := by
  rw [← stripZeros_eq_normalForm hf]
  exact normal_stripZeros hf

/-- A polynomial whose coefficients vanish from `X^n` on is zero or has a degree below `n`. -/
theorem Normal.length_le_of_coef {f : List Byte} {n : Nat} (hf : Normal f) (h : ∀ d, n ≤ d → coef f d = 0) :
    f = [0] ∨ f.length ≤ n := by
  by_cases h0 : f = [0]
  · exact .inl h0
  · refine .inr (Nat.le_of_not_lt fun hlt => hf.headD_ne_zero h0 ?_)
    rw [← coef_degree]
    exact h _ (by omega)

end Sys2Proof.Claims
end

section
/-! SUPPORT. The coefficients of a product as XOR sums (44_polynomial R195): they are linear in the first factor, and a
monomial shifts and scales the second. -/

namespace Sys2Proof.Claims

open Sys2Proof.Machine

/-- The sum in GF(2^8) of the first `n` values of `f` (43_gf256 R171). -/
def xorSum (f : Nat → Byte) (n : Nat) : Byte := (List.range n).foldl (fun acc i => acc ^^^ f i) 0

theorem productCoef_eq_xorSum (f g : List Byte) (d : Nat) :
    productCoef f g d = xorSum (fun i => gfMul (coef f i) (coef g (d - i))) (d + 1) := rfl

theorem xorSum_succ (f : Nat → Byte) (n : Nat) : xorSum f (n + 1) = xorSum f n ^^^ f n := by
  rw [xorSum, List.range_succ, List.foldl_concat, xorSum]

theorem xorSum_xor (f g : Nat → Byte) (n : Nat) :
    xorSum (fun i => f i ^^^ g i) n = xorSum f n ^^^ xorSum g n := by
  induction n with
  | zero => exact (byte_xor_self 0).symm
  | succ n ih =>
    rw [xorSum_succ, xorSum_succ, xorSum_succ, ih]
    ac_rfl

/-- A sum with one term. -/
theorem xorSum_ite_eq (k : Nat) (c : Byte) (n : Nat) :
    xorSum (fun i => if i = k then c else 0) n = if k < n then c else 0 := by
  induction n with
  | zero => rfl
  | succ n ih =>
    rw [xorSum_succ, ih]
    obtain hlt | rfl | hgt := Nat.lt_trichotomy k n
    · rw [if_pos hlt, if_neg hlt.ne', if_pos (by omega), byte_xor_zero]
    · rw [if_neg (lt_irrefl k), if_pos rfl, if_pos (Nat.lt_succ_self k), byte_zero_xor]
    · rw [if_neg (by omega), if_neg hgt.ne, if_neg (by omega), byte_xor_zero]

theorem productCoef_xor_left {f f' g h : List Byte} (hh : ∀ i, coef h i = coef f i ^^^ coef f' i) (d : Nat) :
    productCoef h g d = productCoef f g d ^^^ productCoef f' g d := by
  simp only [productCoef_eq_xorSum, hh, gfMul_comm _ (coef g _), gfMul_xor, xorSum_xor]

theorem productCoef_monomial_left {m : List Byte} {c : Byte} {n : Nat} (hm : ∀ i, coef m i = if i = n then c else 0)
    (g : List Byte) (d : Nat) : productCoef m g d = if d < n then 0 else gfMul c (coef g (d - n)) := by
  have hterm : ∀ i, gfMul (coef m i) (coef g (d - i)) = if i = n then gfMul c (coef g (d - n)) else 0 := fun i => by
    rw [hm]
    split
    · next hi => rw [hi]
    · exact gfMul_zero_left _
  simp only [productCoef_eq_xorSum, hterm, xorSum_ite_eq, Nat.lt_succ_iff, ← Nat.not_lt, ite_not]

/-- The product with a list splits off the monomial of its leading coefficient. -/
theorem productCoef_cons_left (c : Byte) (f g : List Byte) (d : Nat) : productCoef (c :: f) g d =
    (if d < f.length then 0 else gfMul c (coef g (d - f.length))) ^^^ productCoef f g d := by
  have hsplit : ∀ i, coef (c :: f) i = coef (c :: List.replicate f.length 0) i ^^^ coef f i := fun i => by
    rw [coef_cons, coef_monomial]
    split
    · next hi => rw [coef_of_length_le hi.ge, byte_xor_zero]
    · rw [byte_zero_xor]
  rw [productCoef_xor_left hsplit, productCoef_monomial_left (coef_monomial c f.length)]

theorem productCoef_zero_left {f : List Byte} (hf : ∀ i, coef f i = 0) (g : List Byte) (d : Nat) :
    productCoef f g d = 0 := by
  rw [productCoef_monomial_left (c := 0) (n := 0) fun i => (hf i).trans (ite_self 0).symm, gfMul_zero_left, ite_self]

theorem productCoef_zero_right (f : List Byte) (d : Nat) : productCoef f [0] d = 0 := by
  have hzero := xorSum_ite_eq 0 0 (d + 1)
  simp only [ite_self] at hzero
  simp only [productCoef_eq_xorSum, coef_zero, gfMul_zero_right, hzero]

theorem productCoef_congr {f f' g g' : List Byte} (hf : ∀ i, coef f i = coef f' i) (hg : ∀ i, coef g i = coef g' i)
    (d : Nat) : productCoef f g d = productCoef f' g' d := by
  simp only [productCoef_eq_xorSum, hf, hg]

end Sys2Proof.Claims
end

section
/-! SUPPORT. What each function of the polynomial unit answers: a polynomial in normal form, given by its coefficients
(44_polynomial R190 to R198). -/

namespace Sys2Proof.Machine

open Sys2Proof.Claims

/-! ## Reads (44_polynomial R190 to R193) -/

theorem poly_of_ne_nil {f : List Byte} (hf : f ≠ []) : poly f = .ok (normalForm f) := by
  rw [poly, if_neg hf, stripZeros_eq_normalForm hf]

theorem poly_of_eq_nil {f : List Byte} (hf : f = []) : poly f = raise .domainError 4 := if_pos hf

theorem coefAt_eq_coef (f : List Byte) (d : Nat) : coefAt f d = coef f d := by
  rw [coefAt, degree]
  by_cases hd : d < f.length
  · rw [if_pos (by omega), coef, List.getD_eq_getElem?_getD, List.getD_eq_getElem?_getD, List.getElem?_reverse hd]
  · rw [coef_of_length_le (Nat.le_of_not_lt hd)]
    split
    · next hle => rw [List.eq_nil_of_length_eq_zero (l := f) (by omega)]; rfl
    · rfl

theorem polyEval_eq_horner (f : List Byte) (x : Byte) : polyEval f x = horner f x := rfl

theorem horner_stripZeros (f : List Byte) (x : Byte) : horner (stripZeros f) x = horner f x := by
  fun_induction stripZeros f with
  | case1 => rfl
  | case2 => rfl
  | case3 d cs ih =>
    have hstart : gfMul 0 x ^^^ 0 = 0 := by rw [gfMul_zero_left, byte_xor_self]
    rw [ih, horner, horner, List.foldl_cons (l := d :: cs), hstart]
  | case4 => rfl

theorem horner_normalForm {f : List Byte} (hf : f ≠ []) (x : Byte) : horner (normalForm f) x = horner f x := by
  rw [← stripZeros_eq_normalForm hf, horner_stripZeros]

theorem degree_le_degree_iff {f g : List Byte} (hf : f ≠ []) (hg : g ≠ []) :
    degree g ≤ degree f ↔ g.length ≤ f.length := by
  have hfpos := List.length_pos_iff.mpr hf
  have hgpos := List.length_pos_iff.mpr hg
  simp only [degree]
  omega

theorem isZero_iff {f : List Byte} : isZero f = true ↔ f = [0] := beq_iff_eq

/-! ## Sums (44_polynomial R194) -/

theorem coef_polyAdd (f g : List Byte) (d : Nat) : coef (polyAdd f g) d = coef f d ^^^ coef g d := by
  rw [polyAdd, coef_stripZeros]
  split
  · next h => exact coef_xorAligned h d
  · next h => rw [coef_xorAligned (by omega), BitVec.xor_comm]

theorem normal_polyAdd {f : List Byte} (hf : f ≠ []) (g : List Byte) : Normal (polyAdd f g) := by
  have hpos := List.length_pos_iff.mpr hf
  refine normal_stripZeros (List.length_pos_iff.mp ?_)
  split
  · next h => rwa [xorAligned_length h]
  · next h => rw [xorAligned_length (by omega)]; omega

/-! ## Products (44_polynomial R195) -/

/-- The first row is longer than the sum of the others. -/
theorem mulRows_tail_length_lt (c e : Byte) (cs g : List Byte) :
    (mulRows (e :: cs) g).length < (g.map (gfMul c) ++ List.replicate (cs.length + 1) 0).length := by
  rw [mulRows_length g (List.cons_ne_nil e cs), List.length_append, List.length_map, List.length_replicate,
    List.length_cons]
  omega

/-- The rows of `mulRows` are the products with the monomials of the first factor. -/
theorem coef_mulRows (f g : List Byte) (d : Nat) : coef (mulRows f g) d = productCoef f g d := by
  induction f generalizing d with
  | nil => exact (productCoef_zero_left (fun _ => rfl) g d).symm
  | cons c cs ih =>
    match cs, ih with
    | [], _ =>
      rw [productCoef_monomial_left (coef_singleton c), mulRows, coef_map (gfMul_zero_right c), if_neg d.not_lt_zero,
        Nat.sub_zero]
    | e :: cs, ih =>
      rw [mulRows, coef_xorAligned (mulRows_tail_length_lt c e cs g).le, ih, coef_map_shift (gfMul_zero_right c),
        productCoef_cons_left c, List.length_cons]

theorem mulRows_headD {f g : List Byte} (hf : f ≠ []) (hg : g ≠ []) :
    (mulRows f g).headD 0 = gfMul (f.headD 0) (g.headD 0) := by
  match f, g with
  | [c], b :: bs => rfl
  | c :: e :: cs, b :: bs =>
    have hrow := mulRows_tail_length_lt c e cs (b :: bs)
    have hne : mulRows (e :: cs) (b :: bs) ≠ [] := by
      rw [← List.length_pos_iff, mulRows_length _ (List.cons_ne_nil e cs), List.length_cons, List.length_cons]
      omega
    rw [mulRows, xorAligned_headD hrow.le hne, if_neg hrow.ne]
    rfl

theorem polyMul_spec {f g : List Byte} (hf : Normal f) (hg : Normal g)
    (h : f.length + g.length - 1 ≤ 256 ∨ f = [0] ∨ g = [0]) :
    ∃ r, polyMul f g = .ok r ∧ Normal r ∧ ∀ d, coef r d = productCoef f g d := by
  by_cases hz : f = [0] ∨ g = [0]
  · refine ⟨[0], if_pos (by simpa [isZero_iff] using hz), .inl rfl, fun d => ?_⟩
    obtain rfl | rfl := hz
    · rw [coef_zero, productCoef_zero_left coef_zero]
    · rw [coef_zero, productCoef_zero_right]
  · have hfit : ¬ Config.pMax < f.length + g.length - 1 := (h.resolve_right hz).not_gt
    obtain ⟨hf0, hg0⟩ := not_or.mp hz
    refine ⟨mulRows f g, ?_, normal_of_headD_ne_zero ?_, coef_mulRows f g⟩
    · rw [polyMul, if_neg (by simpa [isZero_iff] using hz), if_neg hfit]
    · rw [mulRows_headD hf.ne_nil hg.ne_nil]
      exact gfMul_ne_zero (hf.headD_ne_zero hf0) (hg.headD_ne_zero hg0)

theorem polyMul_of_overlong {f g : List Byte} (hz : ¬ (f = [0] ∨ g = [0])) (h : 256 < f.length + g.length - 1) :
    polyMul f g = raise .domainError 5 :=
  (if_neg (by simpa [isZero_iff] using hz)).trans (if_pos h)

/-! ## Monomials (44_polynomial R196, R197) -/

theorem polyMulm_spec {f : List Byte} {d : Nat} {c : Byte} (hf : Normal f)
    (h : f.length + d ≤ 256 ∨ c = 0 ∨ f = [0]) :
    ∃ r, polyMulm f d c = .ok r ∧ Normal r ∧ ∀ j, coef r j = if j < d then 0 else gfMul (coef f (j - d)) c := by
  by_cases hz : c = 0 ∨ f = [0]
  · refine ⟨[0], if_pos (by simpa [isZero_iff] using hz), .inl rfl, fun j => ?_⟩
    have hterm : gfMul (coef f (j - d)) c = 0 := by
      obtain rfl | rfl := hz
      · exact gfMul_zero_right _
      · rw [coef_zero, gfMul_zero_left]
    rw [coef_zero, hterm, ite_self]
  · have hfit : ¬ Config.pMax < f.length + d := (h.resolve_right hz).not_gt
    obtain ⟨hc, hf0⟩ := not_or.mp hz
    refine ⟨f.map (fun u => gfMul u c) ++ List.replicate d 0, ?_, normal_of_headD_ne_zero ?_,
      coef_map_shift (gfMul_zero_left c) f d⟩
    · rw [polyMulm, if_neg (by simpa [isZero_iff] using hz), if_neg hfit]
    · obtain ⟨b, bs, rfl⟩ := List.exists_cons_of_ne_nil hf.ne_nil
      exact gfMul_ne_zero (hf.headD_ne_zero hf0) hc

theorem polyMulm_of_overlong {f : List Byte} {d : Nat} {c : Byte} (hz : ¬ (c = 0 ∨ f = [0]))
    (h : 256 < f.length + d) : polyMulm f d c = raise .domainError 5 :=
  (if_neg (by simpa [isZero_iff] using hz)).trans (if_pos h)

theorem polyMono_spec {d : Nat} {c : Byte} (h : d ≤ 255 ∨ c = 0) :
    ∃ r, polyMono d c = .ok r ∧ Normal r ∧ ∀ j, coef r j = if j = d then c else 0 := by
  by_cases hc : c = 0
  · exact ⟨[0], if_pos hc, .inl rfl, fun j => by rw [coef_zero, hc, ite_self]⟩
  · have hfit : ¬ Config.pMax < d + 1 := by
      have := h.resolve_right hc
      simp only [Config.pMax]
      omega
    exact ⟨c :: List.replicate d 0, by rw [polyMono, if_neg hc, if_neg hfit], normal_of_headD_ne_zero hc,
      coef_monomial c d⟩

theorem polyMono_of_overlong {d : Nat} {c : Byte} (hc : c ≠ 0) (h : 256 < d + 1) :
    polyMono d c = raise .domainError 5 := (if_neg hc).trans (if_pos h)

/-! ## Division (44_polynomial R198) -/

/-- The state of a division of `f` by `g`: `f = q * g + r`, with `q` and `r` in normal form. -/
structure Division (f g q r : List Byte) : Prop where
  quotient : Normal q
  remainder : Normal r
  identity : ∀ d, coef f d = productCoef q g d ^^^ coef r d

section
variable {f g q r : List Byte} {li : Byte}

/-- Adding a term to the quotient and its product with the divisor to the remainder keeps the identity. -/
theorem Division.add {m gm : List Byte} (h : Division f g q r) (hm : ∀ d, productCoef m g d = coef gm d) :
    Division f g (polyAdd q m) (polyAdd r gm) where
  quotient := normal_polyAdd h.quotient.ne_nil m
  remainder := normal_polyAdd h.remainder.ne_nil gm
  identity d := by
    rw [h.identity, productCoef_xor_left (coef_polyAdd q m), hm, coef_polyAdd]
    calc productCoef q g d ^^^ coef r d
        = productCoef q g d ^^^ coef r d ^^^ (coef gm d ^^^ coef gm d) := by rw [byte_xor_self, byte_xor_zero]
      _ = productCoef q g d ^^^ coef gm d ^^^ (coef r d ^^^ coef gm d) := by ac_rfl

/-- One turn of the division keeps the identity and clears the leading coefficient of the remainder. -/
theorem divTurn_spec (hli : gfInv (g.headD 0) = .ok li) (hg : Normal g) (h : Division f g q r)
    (hr : r.length ≤ 256) (hle : g.length ≤ r.length) :
    ∃ m gm, polyMono (degree r - degree g) (gfMul (r.headD 0) li) = .ok m ∧
      polyMulm g (degree r - degree g) (gfMul (r.headD 0) li) = .ok gm ∧
      Division f g (polyAdd q m) (polyAdd r gm) ∧ (polyAdd r gm = [0] ∨ (polyAdd r gm).length < r.length) := by
  have hgpos := List.length_pos_iff.mpr hg.ne_nil
  have hshift : degree r - degree g = r.length - g.length := by simp only [degree]; omega
  rw [hshift]
  obtain ⟨m, hm, -, hmcoef⟩ :=
    polyMono_spec (d := r.length - g.length) (c := gfMul (r.headD 0) li) (.inl (by omega))
  obtain ⟨gm, hgm, -, hgmcoef⟩ :=
    polyMulm_spec (d := r.length - g.length) (c := gfMul (r.headD 0) li) hg (.inl (by omega))
  have hnext : Division f g (polyAdd q m) (polyAdd r gm) :=
    h.add fun d => by rw [productCoef_monomial_left hmcoef, hgmcoef, gfMul_comm]
  refine ⟨m, gm, hm, hgm, hnext,
    (hnext.remainder.length_le_of_coef (n := r.length - 1) fun d hd => ?_).imp_right (by omega)⟩
  rw [coef_polyAdd, hgmcoef, if_neg (by omega)]
  obtain rfl | hlt := hd.eq_or_lt
  · rw [show r.length - 1 - (r.length - g.length) = g.length - 1 by omega, coef_degree, coef_degree,
      gfMul_gfMul_inv _ hli, byte_xor_self]
  · rw [coef_of_length_le (f := r) (by omega), coef_of_length_le (f := g) (by omega), gfMul_zero_left, byte_xor_self]

/-- With a turn for every coefficient, the division ends in a remainder of lower degree than the divisor. -/
theorem divLoop_spec (hli : gfInv (g.headD 0) = .ok li) (hg : Normal g) {fuel : Nat} (h : Division f g q r)
    (hr : r.length ≤ 256) (hfuel : r = [0] ∨ r.length ≤ fuel) :
    ∃ q' r', divLoop g li fuel q r = .ok (q', r') ∧ Division f g q' r' ∧ (r' = [0] ∨ r'.length < g.length) := by
  have hgpos := List.length_pos_iff.mpr hg.ne_nil
  induction fuel generalizing q r with
  | zero => exact ⟨q, r, rfl, h, hfuel.imp_right (by omega)⟩
  | succ fuel ih =>
    by_cases hc : degree g ≤ degree r ∧ isZero r = false
    · have hr0 : r ≠ [0] := by
        rintro rfl
        exact Bool.noConfusion hc.right
      have hle := (degree_le_degree_iff h.remainder.ne_nil hg.ne_nil).mp hc.left
      obtain ⟨m, gm, hm, hgm, hnext, hshort⟩ := divTurn_spec hli hg h hr hle
      have hfit : (polyAdd r gm).length ≤ 256 := by
        obtain h0 | hlt := hshort
        · rw [h0]; decide
        · omega
      have hturn := hfuel.resolve_left hr0
      obtain ⟨q', r', hloop, hend⟩ := ih hnext hfit (hshort.imp_right (by omega))
      exact ⟨q', r', (if_pos hc).trans (by simp only [hm, hgm, ok_bind, hloop]), hend⟩
    · refine ⟨q, r, if_neg hc, h, or_iff_not_imp_left.mpr fun hr0 => Nat.lt_of_not_le fun hle => hc ⟨?_, ?_⟩⟩
      · exact (degree_le_degree_iff h.remainder.ne_nil hg.ne_nil).mpr hle
      · exact beq_false_of_ne hr0

theorem polyDivmod_spec (hf : Normal f) (hlen : f.length ≤ 256) (hg : Normal g) (hg0 : g ≠ [0]) :
    ∃ q r, polyDivmod f g = .ok (q, r) ∧ Division f g q r ∧ (r = [0] ∨ r.length < g.length) := by
  have hli := gfInv_of_ne_zero (hg.headD_ne_zero hg0)
  have hstart : Division f g [0] f :=
    ⟨.inl rfl, hf, fun d => by rw [productCoef_zero_left coef_zero, byte_zero_xor]⟩
  rw [polyDivmod, hli, ok_bind]
  exact divLoop_spec hli hg hstart hlen (.inr le_rfl)

theorem polyMod_spec (hf : Normal f) (hlen : f.length ≤ 256) (hg : Normal g) (hg0 : g ≠ [0]) :
    ∃ q r, polyMod f g = .ok r ∧ Division f g q r ∧ (r = [0] ∨ r.length < g.length) := by
  obtain ⟨q, r, hqr, hend⟩ := polyDivmod_spec hf hlen hg hg0
  exact ⟨q, r, by rw [polyMod, hqr]; rfl, hend⟩

end

theorem polyMod_zero (f : List Byte) : polyMod f [0] = raise .domainError 2 := rfl

end Sys2Proof.Machine
end

section
/-! The polynomial commands (44_polynomial R200 to R208): the operands are checked in the order of their rules, and the
function of the unit is applied to their normal forms. -/

namespace Sys2Proof.Machine

open Sys2Proof.Claims

variable {s : State}

/-- Settles O30: each command reads the normal form, whose coefficients and values are those of the register. -/
theorem polynomialReads : Obligations.PolynomialReads := by
  intro s a q r c f x
  refine ⟨fun hf => ?reads, fun hf => ?empty, fun hx => finish_bind_of_raise (fieldElement_of_gt hx)⟩
  case reads =>
    have hpoly := poly_of_ne_nil hf
    refine ⟨finish_bind_of_ok hpoly rfl, finish_bind_of_ok hpoly rfl, finish_bind_of_ok hpoly ?coef, fun hx =>
      finish_bind_of_ok (fieldElement_of_le hx) (finish_bind_of_ok hpoly ?eval)⟩
    case coef => exact next_setX_advance a (by rw [ofByte_eq_ofNat, coefAt_eq_coef, coef_normalForm hf])
    case eval => exact next_setX_advance a (by rw [ofByte_eq_ofNat, polyEval_eq_horner, horner_normalForm hf])
  case empty =>
    have hpoly := poly_of_eq_nil hf
    exact ⟨finish_bind_of_raise hpoly, finish_bind_of_raise hpoly, finish_bind_of_raise hpoly, fun hx =>
      finish_bind_of_ok (fieldElement_of_le hx) (finish_bind_of_raise hpoly)⟩

/-- Two p operands, of which one is empty, stop a command before its function (44_polynomial R190). -/
theorem finish_polys_of_empty {k : List Byte → List Byte → Except Stop State} {f g : List Byte}
    (h : f = [] ∨ g = []) :
    finish s (poly f >>= fun u => poly g >>= k u) = .next (faultState s 3 4) := by
  by_cases hf : f = []
  · exact finish_bind_of_raise (poly_of_eq_nil hf)
  · exact finish_bind_of_ok (poly_of_ne_nil hf) (finish_bind_of_raise (poly_of_eq_nil (h.resolve_left hf)))

/-- Two p operands, none of them empty, reach a command's function in normal form. -/
theorem finish_polys_of_ne_nil {k : List Byte → List Byte → Except Stop State} {f g : List Byte} (hf : f ≠ [])
    (hg : g ≠ []) :
    finish s (poly f >>= fun u => poly g >>= k u) = finish s (k (normalForm f) (normalForm g)) :=
  finish_bind_of_ok (poly_of_ne_nil hf) (finish_bind_of_ok (poly_of_ne_nil hg) rfl)

/-- Settles O31: the sum and the product of the normal forms have the coefficients of those of the registers. -/
theorem polynomialSumAndProduct : Obligations.PolynomialSumAndProduct := by
  intro s q r v f g size
  refine ⟨fun hf hg => ⟨?sum, fun hsize => ?product, fun hsize hf0 hg0 => ?overlong⟩,
    fun h => ⟨finish_polys_of_empty h, finish_polys_of_empty h⟩⟩
  case sum =>
    exact ⟨_, finish_polys_of_ne_nil hf hg, normal_polyAdd (normal_normalForm hf).ne_nil _,
      fun d => by rw [coef_polyAdd, coef_normalForm hf, coef_normalForm hg]⟩
  case product =>
    obtain ⟨h, hh, hnormal, hcoef⟩ := polyMul_spec (normal_normalForm hf) (normal_normalForm hg) hsize
    exact ⟨h, (finish_polys_of_ne_nil hf hg).trans (finish_bind_of_ok hh rfl), hnormal,
      fun d => by rw [hcoef, productCoef_congr (coef_normalForm hf) (coef_normalForm hg)]⟩
  case overlong =>
    exact (finish_polys_of_ne_nil hf hg).trans
      (finish_bind_of_raise (polyMul_of_overlong (not_or.mpr ⟨hf0, hg0⟩) hsize))

/-- Settles O32: the factor is checked first, then the polynomial, then the size of the product. -/
theorem polynomialMonomials : Obligations.PolynomialMonomials := by
  intro s q r c e f d k
  have hk0 : k = 0 → BitVec.ofNat 8 k = 0 := congrArg (BitVec.ofNat 8)
  refine ⟨fun hk hf hfit => ?product, fun hk hfit => ?monomial, fun hk => ?factor, fun hk hf => ?empty,
    fun h1 hk hf hf0 hsize => ?overlongProduct, fun h1 hk hsize => ?overlongMonomial⟩
  case product =>
    obtain ⟨h, hh, hnormal, hcoef⟩ := polyMulm_spec (normal_normalForm hf) (hfit.imp_right (Or.imp_left hk0))
    exact ⟨h,
      finish_bind_of_ok (fieldElement_of_le hk) (finish_bind_of_ok (poly_of_ne_nil hf) (finish_bind_of_ok hh rfl)),
      hnormal, fun j => by rw [hcoef, coef_normalForm hf]⟩
  case monomial =>
    obtain ⟨h, hh, hnormal, hcoef⟩ := polyMono_spec (hfit.imp_right hk0)
    exact ⟨h, finish_bind_of_ok (fieldElement_of_le hk) (finish_bind_of_ok hh rfl), hnormal, hcoef⟩
  case factor =>
    exact ⟨finish_bind_of_raise (fieldElement_of_gt hk), finish_bind_of_raise (fieldElement_of_gt hk)⟩
  case empty => exact finish_bind_of_ok (fieldElement_of_le hk) (finish_bind_of_raise (poly_of_eq_nil hf))
  case overlongProduct =>
    have hz := not_or.mpr ⟨byte_ofNat_ne_zero h1 hk, hf0⟩
    exact finish_bind_of_ok (fieldElement_of_le hk) (finish_bind_of_ok (poly_of_ne_nil hf)
      (finish_bind_of_raise (polyMulm_of_overlong hz hsize)))
  case overlongMonomial =>
    exact finish_bind_of_ok (fieldElement_of_le hk)
      (finish_bind_of_raise (polyMono_of_overlong (byte_ofNat_ne_zero h1 hk) hsize))

/-- Settles O33: the loop of the division keeps the identity and lowers the degree of the remainder (`Division`). -/
theorem polynomialRemainder : Obligations.PolynomialRemainder := by
  intro s q r v hflen _ f g
  refine ⟨fun hf hg hg0 => ?remainder, fun hf hg hg0 => ?zeroDivisor, fun h => finish_polys_of_empty h⟩
  case remainder =>
    have hlen : (normalForm f).length ≤ 256 := (normalForm_length_le hf).trans hflen
    obtain ⟨quotient, h, hh, hdiv, hdeg⟩ := polyMod_spec (normal_normalForm hf) hlen (normal_normalForm hg) hg0
    refine ⟨quotient, h, (finish_polys_of_ne_nil hf hg).trans (finish_bind_of_ok hh rfl), hdiv.remainder, hdeg,
      fun d => ?_⟩
    rw [← coef_normalForm hf, hdiv.identity, productCoef_congr (fun _ => rfl) (coef_normalForm hg)]
  case zeroDivisor =>
    have hzero : polyMod (normalForm f) (normalForm g) = raise .domainError 2 := by rw [hg0, polyMod_zero]
    exact (finish_polys_of_ne_nil hf hg).trans (finish_bind_of_raise hzero)

end Sys2Proof.Machine
end

section
/-! SUPPORT. GF(2^8) as a field of Mathlib, and the polynomial over it that a list of bytes stands for (43_gf256 R170 to
R177, 44_polynomial R190 to R198). The proofs about Reed-Solomon calculate with this polynomial. -/

namespace Sys2Proof.Claims

open Sys2Proof.Machine Polynomial

/-! ## The field -/

/-- In the field `F` the bytes add by XOR and multiply by `gfMul`; `φ` names the element of a byte. -/
structure ByteField {F : Type} [Field F] (φ : Byte → F) : Prop where
  injective : Function.Injective φ
  map_one : φ 1 = 1
  map_xor : ∀ a b, φ (a ^^^ b) = φ a + φ b
  map_mul : ∀ a b, φ (gfMul a b) = φ a * φ b

/-- The inverse of a byte, 0 for 0 (43_gf256 R173). -/
def byteInv (a : Byte) : Byte := if a = 0 then 0 else expAt (255 - logAt a)

theorem gfInv_eq_byteInv {a : Byte} (ha : a ≠ 0) : gfInv a = .ok (byteInv a) := by
  rw [gfInv_of_ne_zero ha, byteInv, if_neg ha]

theorem gfMul_byteInv {a : Byte} (ha : a ≠ 0) : gfMul a (byteInv a) = 1 := gfMul_inv (gfInv_eq_byteInv ha)

/-- The bytes with XOR and `gfMul` are a field (43_gf256 R177). -/
@[reducible] def byteField : Field Byte :=
  @Field.ofMinimalAxioms Byte ⟨(· ^^^ ·)⟩ ⟨gfMul⟩ ⟨id⟩ ⟨byteInv⟩ ⟨0⟩ ⟨1⟩ BitVec.xor_assoc byte_zero_xor byte_xor_self
    gfMul_assoc gfMul_comm gfMul_one_left (fun _ => gfMul_byteInv) rfl gfMul_xor ⟨0, 1, by decide⟩

theorem exists_byteField : ∃ (F : Type) (_ : Field F) (φ : Byte → F), ByteField φ :=
  ⟨Byte, byteField, id,
    @ByteField.mk Byte byteField id Function.injective_id rfl (fun _ _ => rfl) fun _ _ => rfl⟩

section
variable {F : Type} [Field F] {φ : Byte → F} (hφ : ByteField φ)
include hφ

theorem ByteField.map_zero : φ 0 = 0 := by
  have h := hφ.map_xor 0 0
  rwa [byte_xor_self, left_eq_add] at h

theorem ByteField.charP : CharP F 2 := by
  refine CharTwo.of_one_ne_zero_of_two_eq_zero one_ne_zero ?_
  rw [← one_add_one_eq_two, ← hφ.map_one, ← hφ.map_xor, byte_xor_self, hφ.map_zero]

theorem ByteField.map_eq_zero_iff {a : Byte} : φ a = 0 ↔ a = 0 := by
  rw [← hφ.map_zero, hφ.injective.eq_iff]

theorem ByteField.map_byteInv (a : Byte) : φ (byteInv a) = (φ a)⁻¹ := by
  by_cases ha : a = 0
  · rw [byteInv, if_pos ha, ha, hφ.map_zero, inv_zero]
  · rw [eq_comm, inv_eq_of_mul_eq_one_right]
    rw [← hφ.map_mul, gfMul_byteInv ha, hφ.map_one]

theorem ByteField.map_foldl_gfMul (a : Byte) (l : List Byte) : φ (l.foldl gfMul a) = φ a * (l.map φ).prod := by
  induction l generalizing a with
  | nil => exact (mul_one _).symm
  | cons b bs ih => rw [List.foldl_cons, ih, hφ.map_mul, List.map_cons, List.prod_cons, mul_assoc]

theorem ByteField.map_xorSum (f : Nat → Byte) (n : Nat) : φ (xorSum f n) = ∑ i ∈ Finset.range n, φ (f i) := by
  induction n with
  | zero => exact hφ.map_zero
  | succ n ih => rw [xorSum_succ, hφ.map_xor, ih, Finset.sum_range_succ]

/-- Exponents of 2 add (43_gf256 R174). -/
theorem ByteField.map_gfExp (n : Nat) : φ (gfExp n) = φ 2 ^ n := by
  induction n with
  | zero => rw [pow_zero, ← hφ.map_one]; rfl
  | succ n ih =>
    have hstep : gfExp (n + 1) = gfMul 2 (gfExp n) := by
      rw [gfMul_two_left, gfExp, Nat.add_comm, expAt_add_mod, Function.iterate_one, gfExp]
    rw [hstep, hφ.map_mul, ih, pow_succ']

end

/-! ## Polynomials -/

section
variable {F : Type} [Field F]

/-- The polynomial of a coefficient list, highest degree first (44_polynomial R190). -/
noncomputable def polyOf (φ : Byte → F) (f : List Byte) : F[X] := f.foldl (fun p c => p * X + C (φ c)) 0

theorem polyOf_concat (φ : Byte → F) (f : List Byte) (c : Byte) :
    polyOf φ (f ++ [c]) = polyOf φ f * X + C (φ c) := List.foldl_concat ..

theorem polyOf_singleton (φ : Byte → F) (c : Byte) : polyOf φ [c] = C (φ c) := by
  rw [← List.nil_append [c], polyOf_concat, polyOf, List.foldl_nil, zero_mul, zero_add]

variable {φ : Byte → F} (hφ : ByteField φ)
include hφ

theorem coeff_polyOf (f : List Byte) (d : Nat) : (polyOf φ f).coeff d = φ (coef f d) := by
  induction f using List.reverseRecOn generalizing d with
  | nil => exact hφ.map_zero.symm
  | append_singleton f c ih =>
    rw [polyOf_concat, coef_append, List.length_singleton]
    cases d with
    | zero => simp [coef]
    | succ d => simp [ih]

/-- Horner's rule evaluates the polynomial (44_polynomial R193). -/
theorem eval_polyOf (f : List Byte) (x : Byte) : (polyOf φ f).eval (φ x) = φ (horner f x) := by
  induction f using List.reverseRecOn with
  | nil => exact eval_zero.trans hφ.map_zero.symm
  | append_singleton f c ih =>
    rw [polyOf_concat, horner, List.foldl_concat, hφ.map_xor, hφ.map_mul, eval_add, eval_mul, ih, eval_X, eval_C,
      horner]

theorem horner_eq_zero_iff {f : List Byte} {x : Byte} : horner f x = 0 ↔ (polyOf φ f).eval (φ x) = 0 := by
  rw [eval_polyOf hφ, hφ.map_eq_zero_iff]

theorem coeff_polyOf_mul (f g : List Byte) (d : Nat) :
    (polyOf φ f * polyOf φ g).coeff d = φ (productCoef f g d) := by
  rw [coeff_mul, Finset.Nat.sum_antidiagonal_eq_sum_range_succ_mk, productCoef_eq_xorSum, hφ.map_xorSum]
  exact Finset.sum_congr rfl fun i _ => by rw [coeff_polyOf hφ, coeff_polyOf hφ, hφ.map_mul]

theorem polyOf_congr {f g : List Byte} (h : ∀ d, coef f d = coef g d) : polyOf φ f = polyOf φ g := by
  ext d
  rw [coeff_polyOf hφ, coeff_polyOf hφ, h]

theorem polyOf_normalForm {f : List Byte} (hf : f ≠ []) : polyOf φ (normalForm f) = polyOf φ f :=
  polyOf_congr hφ (coef_normalForm hf)

theorem polyOf_eq_mul {f g h : List Byte} (hh : ∀ d, coef h d = productCoef f g d) :
    polyOf φ h = polyOf φ f * polyOf φ g := by
  ext d
  rw [coeff_polyOf hφ, coeff_polyOf_mul hφ, hh]

theorem polyOf_eq_mul_add {f g h k : List Byte} (hk : ∀ d, coef k d = productCoef f g d ^^^ coef h d) :
    polyOf φ k = polyOf φ f * polyOf φ g + polyOf φ h := by
  ext d
  rw [coeff_add, coeff_polyOf hφ, coeff_polyOf hφ, coeff_polyOf_mul hφ, hk, hφ.map_xor]

theorem polyOf_append (f g : List Byte) : polyOf φ (f ++ g) = polyOf φ f * X ^ g.length + polyOf φ g := by
  ext d
  rw [coeff_add, coeff_mul_X_pow', coeff_polyOf hφ, coeff_polyOf hφ, coeff_polyOf hφ, coef_append]
  by_cases hd : d < g.length
  · rw [if_pos hd, if_neg hd.not_ge, zero_add]
  · rw [if_neg hd, if_pos (Nat.le_of_not_lt hd), coef_of_length_le (Nat.le_of_not_lt hd), hφ.map_zero, add_zero]

theorem polyOf_replicate_zero (n : Nat) : polyOf φ (List.replicate n 0) = 0 := by
  ext d
  rw [coeff_polyOf hφ, coef_replicate_zero, hφ.map_zero, coeff_zero]

/-- Two normal lists of one polynomial have the same length: its degree and one more (44_polynomial R191). -/
theorem natDegree_polyOf {f : List Byte} (hf : Normal f) : (polyOf φ f).natDegree = f.length - 1 := by
  by_cases h0 : f = [0]
  · rw [h0, show [(0 : Byte)] = List.replicate 1 0 from rfl, polyOf_replicate_zero hφ]
    rfl
  · refine natDegree_eq_of_le_of_coeff_ne_zero ?_ ?_
    · refine natDegree_le_iff_coeff_eq_zero.mpr fun d hd => ?_
      rw [coeff_polyOf hφ, coef_of_length_le (by omega), hφ.map_zero]
    · rw [coeff_polyOf hφ, coef_degree, Ne, hφ.map_eq_zero_iff]
      exact hf.headD_ne_zero h0

end

end Sys2Proof.Claims
end

section
/-! SUPPORT. The generator polynomial and the encoder (45_reed_solomon R220 to R223), calculated in the field. -/

namespace Sys2Proof.Machine

open Sys2Proof.Claims Polynomial

section
variable {F : Type} [Field F] {φ : Byte → F} (hφ : ByteField φ)

/-- The polynomial whose roots are the first `t` powers of 2 (45_reed_solomon R220). -/
noncomputable def generatorOf (φ : Byte → F) (t : Nat) : F[X] := ∏ i ∈ Finset.range t, (X - C (φ (gfExp i)))

theorem eval_generatorOf_eq_zero_iff {t : Nat} {y : F} :
    (generatorOf φ t).eval y = 0 ↔ ∃ i, i < t ∧ y = φ (gfExp i) := by
  simp [generatorOf, eval_prod, Finset.prod_eq_zero_iff, sub_eq_zero]

include hφ

theorem polyOf_linear (a : Byte) : polyOf φ [1, a] = X - C (φ a) := by
  have := hφ.charP
  rw [← List.singleton_append, polyOf_concat, polyOf_singleton, hφ.map_one, C_1, one_mul, CharTwo.sub_eq_add]

/-- Every turn multiplies by one factor. -/
theorem rsGenFrom_spec {g : List Byte} {i n : Nat} (hg : Normal g) (h0 : g ≠ [0]) (hlen : g.length + n ≤ 256) :
    ∃ h, rsGenFrom g i n = .ok h ∧ Normal h ∧
      polyOf φ h = polyOf φ g * ∏ j ∈ Finset.range n, (X - C (φ (gfExp (i + j)))) := by
  induction n generalizing g i with
  | zero => exact ⟨g, rfl, hg, by rw [Finset.prod_range_zero, mul_one]⟩
  | succ n ih =>
    have hpos := List.length_pos_iff.mpr hg.ne_nil
    have hfactor : Normal [1, gfExp i] := normal_of_headD_ne_zero (show (1 : Byte) ≠ 0 by decide)
    obtain ⟨h, hh, hnormal, hcoef⟩ :=
      polyMul_spec hg hfactor (.inl (by simp only [List.length_cons, List.length_nil]; omega))
    have hgrow : h.length = g.length + 1 :=
      polyMul_length hg.ne_nil (beq_false_of_ne h0) (isZero_false_of_length (by simp)) hh
    have hh0 : h ≠ [0] := by
      rintro rfl
      rw [List.length_singleton] at hgrow
      omega
    obtain ⟨k, hk, hkn, hkp⟩ := ih (i := i + 1) hnormal hh0 (by omega)
    refine ⟨k, by rw [rsGenFrom, hh, ok_bind, hk], hkn, ?_⟩
    rw [hkp, polyOf_eq_mul hφ hcoef, polyOf_linear hφ, Finset.prod_range_succ', mul_assoc, mul_comm (X - C _)]
    simp only [Nat.add_right_comm i 1, ← Nat.add_assoc, Nat.add_zero]

theorem rsGen_spec {t : Nat} (ht : t ≤ 255) :
    ∃ g, rsGen t = .ok g ∧ Normal g ∧ g.length = t + 1 ∧ polyOf φ g = generatorOf φ t := by
  obtain ⟨g, hg, hnormal, hp⟩ :=
    rsGenFrom_spec hφ (g := [1]) (i := 0) (n := t) (normal_of_headD_ne_zero (by decide)) (by decide)
      (by rw [List.length_singleton]; omega)
  have hone : polyOf φ [1] = 1 := by rw [polyOf_singleton, hφ.map_one, C_1]
  refine ⟨g, hg, hnormal, rsGen_length hg, ?_⟩
  simpa only [hone, one_mul, Nat.zero_add, generatorOf] using hp

/-- The leading coefficient of the generator is that of a product of monic factors. -/
theorem head?_of_polyOf_eq_generatorOf {t : Nat} {g : List Byte} (hlen : g.length = t + 1)
    (hg : polyOf φ g = generatorOf φ t) : g.head? = some 1 := by
  have hcoeff : (generatorOf φ t).coeff t = 1 := by
    have hmonic := monic_prod_X_sub_C (fun i => φ (gfExp i)) (Finset.range t)
    have hdeg := natDegree_finsetProd_X_sub_C_eq_card (Finset.range t) fun i => φ (gfExp i)
    rw [Finset.card_range] at hdeg
    rw [generatorOf, ← hmonic.coeff_natDegree, hdeg]
  have hhead := coef_degree g
  rw [hlen, Nat.add_sub_cancel] at hhead
  rw [← hg, coeff_polyOf hφ, hhead, ← hφ.map_one] at hcoeff
  obtain ⟨c, cs, rfl⟩ := List.exists_cons_of_length_eq_add_one hlen
  exact congrArg some (hφ.injective hcoeff)

/-- The generator divides every encoded word, the data times `X^t` less the remainder (45_reed_solomon R223). -/
theorem rsEncode_spec {d : List Byte} {t : Nat} (hd : d ≠ []) (ht : 1 ≤ t) (hlen : d.length + t ≤ 255) :
    ∃ ecc, rsEncode d t = .ok (d ++ ecc) ∧ ecc.length = t ∧ generatorOf φ t ∣ polyOf φ (d ++ ecc) := by
  have := hφ.charP
  have hne : d ++ List.replicate t 0 ≠ [] := List.append_ne_nil_of_left_ne_nil hd _
  have hfit : (normalForm (d ++ List.replicate t 0)).length ≤ 256 :=
    (normalForm_length_le hne).trans (by rw [List.length_append, List.length_replicate]; omega)
  obtain ⟨g, hg, hnormal, hglen, hgp⟩ := rsGen_spec hφ (t := t) (by omega)
  have hg0 : g ≠ [0] := by
    rintro rfl
    rw [List.length_singleton] at hglen
    omega
  obtain ⟨q, rem, hrem, hdiv, -⟩ := polyMod_spec (normal_normalForm hne) hfit hnormal hg0
  have hdata := polyOf_eq_mul_add hφ hdiv.identity
  rw [polyOf_normalForm hφ hne, polyOf_append hφ, polyOf_replicate_zero hφ, add_zero, List.length_replicate] at hdata
  obtain ⟨ecc, hecc, hpad⟩ : ∃ ecc, rsEcc d t = .ok ecc ∧ polyOf φ ecc = polyOf φ rem := by
    refine ⟨_, by rw [rsEcc, poly_of_ne_nil hne, ok_bind, hg, ok_bind, hrem, ok_bind]; rfl, ?_⟩
    split
    · next hz => rw [isZero_iff.mp hz, polyOf_replicate_zero hφ]; exact (polyOf_replicate_zero hφ 1).symm
    · rw [polyOf_append hφ, polyOf_replicate_zero hφ, zero_mul, zero_add]
  have hecclen := rsEcc_length ht ecc hecc
  refine ⟨ecc, by rw [rsEncode, hecc]; rfl, hecclen, ?_⟩
  rw [polyOf_append hφ, hecclen, hpad, hdata, add_assoc, CharTwo.add_self_eq_zero, add_zero, hgp]
  exact dvd_mul_left _ _

/-- A word that the generator divides is 0 at the first `t` powers of 2. -/
theorem horner_eq_zero_of_generatorOf_dvd {t : Nat} {f : List Byte} (h : generatorOf φ t ∣ polyOf φ f) {i : Nat}
    (hi : i < t) : horner f (gfExp i) = 0 :=
  (horner_eq_zero_iff hφ).mpr (eval_eq_zero_of_dvd_of_eval_eq_zero h (eval_generatorOf_eq_zero_iff.mpr ⟨i, hi, rfl⟩))

end

end Sys2Proof.Machine
end

section
/-! The commands that encode and check words (45_reed_solomon R223, R232 to R234): the operands are checked in the order
of their rules, and the function of the unit is applied. -/

namespace Sys2Proof.Machine

open Sys2Proof.Claims

/-- Settles O34: the generator is the product of the factors of its roots (`rsGen_spec`). -/
theorem generatorPolynomial : Obligations.GeneratorPolynomial := by
  intro s q b t
  obtain ⟨F, _, φ, hφ⟩ := exists_byteField
  refine ⟨fun ht => ?_, fun ht => finish_bind_of_raise (badOperandIf_of ht t)⟩
  obtain ⟨g, hg, -, hlen, hgp⟩ := rsGen_spec hφ ht
  refine ⟨g, finish_bind_of_ok (badOperandIf_of_not ht.not_gt t) (finish_bind_of_ok hg rfl), hlen,
    head?_of_polyOf_eq_generatorOf hφ hlen hgp, fun x => ?_⟩
  simp only [horner_eq_zero_iff hφ, hgp, eval_generatorOf_eq_zero_iff, hφ.injective.eq_iff]

/-- Settles O35: the encoded word is a multiple of the generator (`rsEncode_spec`). -/
theorem encoderCommand : Obligations.EncoderCommand := by
  intro s q r c data t
  obtain ⟨F, _, φ, hφ⟩ := exists_byteField
  have hrange (h1 : 1 ≤ t) (h2 : t ≤ 254) : badOperandIf (decide (t = 0 ∨ 254 < t)) t = .ok () :=
    badOperandIf_of_not (by omega) t
  have hdata (hd : data ≠ []) : badOperandIf (decide (data.length = 0)) 0 = .ok () :=
    badOperandIf_of_not (fun h => hd (List.eq_nil_of_length_eq_zero h)) 0
  refine ⟨fun h1 h2 hd hlen => ?_, fun h => finish_bind_of_raise (badOperandIf_of h t), fun h1 h2 hd =>
    finish_bind_of_ok (hrange h1 h2) (finish_bind_of_raise (badOperandIf_of (List.length_eq_zero_iff.mpr hd) 0)),
    fun h1 h2 hd hlen => finish_bind_of_ok (hrange h1 h2) (finish_bind_of_ok (hdata hd)
      (finish_bind_of_raise (badOperandIf_of hlen _)))⟩
  obtain ⟨ecc, hword, hecc, hdvd⟩ := rsEncode_spec hφ hd h1 hlen
  exact ⟨ecc, hecc, finish_bind_of_ok (hrange h1 h2) (finish_bind_of_ok (hdata hd)
    (finish_bind_of_ok (badOperandIf_of_not hlen.not_gt _) (finish_bind_of_ok hword rfl))),
    fun i hi => horner_eq_zero_of_generatorOf_dvd hφ hdvd hi⟩

/-- Settles O36: the value of the word is that of its normal form. -/
theorem codewordInvariant : Obligations.CodewordInvariant := by
  intro d t hd ht hlen
  obtain ⟨F, _, φ, hφ⟩ := exists_byteField
  have hne : d ≠ [] := List.length_pos_iff.mp hd
  obtain ⟨ecc, hword, -, hdvd⟩ := rsEncode_spec hφ hne ht hlen
  have hwne : d ++ ecc ≠ [] := List.append_ne_nil_of_left_ne_nil hne _
  refine ⟨d ++ ecc, normalForm (d ++ ecc), hword, poly_of_ne_nil hwne, fun i hi => ?_⟩
  rw [polyEval_eq_horner, horner_normalForm hwne, horner_eq_zero_of_generatorOf_dvd hφ hdvd hi]

theorem syndromesDown_eq (f : List Byte) (t : Nat) :
    syndromesDown f t = (List.range t).reverse.map fun i => horner f (gfExp i) := by
  induction t with
  | zero => rfl
  | succ t ih => rw [syndromesDown, ih, List.range_succ, List.reverse_concat, List.map_cons, polyEval_eq_horner]

/-- The values of a word at the first `t` powers of 2, the highest first: the coefficients of its syndrome polynomial
(45_reed_solomon R224). -/
def syndromes (word : List Byte) (t : Nat) : List Byte := (List.range t).reverse.map fun i => horner word (gfExp i)

theorem syndromes_length (word : List Byte) (t : Nat) : (syndromes word t).length = t := by
  rw [syndromes, List.length_map, List.length_reverse, List.length_range]

theorem rsSyndromes_eq {word : List Byte} {t : Nat} (hw : word ≠ []) (ht : 1 ≤ t) :
    rsSyndromes word t = .ok (normalForm (syndromes word t), !(syndromes word t).all (· == 0)) := by
  have hss : syndromesDown (normalForm word) t = syndromes word t := by
    simp only [syndromesDown_eq, horner_normalForm hw, syndromes]
  have hne : syndromes word t ≠ [] := List.length_pos_iff.mp (by rwa [syndromes_length])
  have hany : (syndromes word t).any (· != 0) = !(syndromes word t).all (· == 0) := List.not_all_eq_any_not.symm
  rw [rsSyndromes, poly_of_ne_nil hw, ok_bind]
  dsimp only
  rw [hss, poly_of_ne_nil hne, ok_bind, hany]
  rfl

/-! ### Received words -/

section
variable {s : State} {k : Except Stop State} {t n : Nat}

/-- The checks of RSSYN and RSDEC let 1 to 255 syndromes of 1 to 255 bytes pass (45_reed_solomon R234, R239). -/
theorem finish_received_of_fits {o : Host.Outcome State Fault Refusal} (h1 : 1 ≤ t) (h2 : t ≤ 255) (hn1 : 1 ≤ n)
    (hn2 : n ≤ 255) (hk : finish s k = o) :
    finish s (badOperandIf (decide (t = 0 ∨ 255 < t)) t >>= fun _ =>
      badOperandIf (decide (n = 0 ∨ Config.rsNMax < n)) n >>= fun _ => k) = o :=
  finish_bind_of_ok (badOperandIf_of_not (by omega) t)
    (finish_bind_of_ok (badOperandIf_of_not (not_or.mpr ⟨by omega, hn2.not_gt⟩) n) hk)

theorem finish_received_of_bad_count (h : t = 0 ∨ 255 < t) :
    finish s (badOperandIf (decide (t = 0 ∨ 255 < t)) t >>= fun _ =>
      badOperandIf (decide (n = 0 ∨ Config.rsNMax < n)) n >>= fun _ => k) = .next (faultState s 7 t) :=
  finish_bind_of_raise (badOperandIf_of h t)

theorem finish_received_of_bad_length (h1 : 1 ≤ t) (h2 : t ≤ 255) (h : n = 0 ∨ 255 < n) :
    finish s (badOperandIf (decide (t = 0 ∨ 255 < t)) t >>= fun _ =>
      badOperandIf (decide (n = 0 ∨ Config.rsNMax < n)) n >>= fun _ => k) = .next (faultState s 7 n) :=
  finish_bind_of_ok (badOperandIf_of_not (by omega) t) (finish_bind_of_raise (badOperandIf_of h n))

end

theorem boolWord_not (b : Bool) : boolWord (!b) = if b then 0 else 1 := by cases b <;> rfl

/-- Settles O37: the unit reads the normal form of the word, whose values are those of the word. -/
theorem syndromeCommand : Obligations.SyndromeCommand := by
  intro s a q r e word t ss
  refine ⟨fun h1 h2 hw1 hw2 => finish_received_of_fits h1 h2 hw1 hw2 ?_, finish_received_of_bad_count,
    finish_received_of_bad_length⟩
  refine finish_bind_of_ok (rsSyndromes_eq (List.length_pos_iff.mp hw1) h1) ?_
  dsimp only
  rw [boolWord_not]
  rfl

end Sys2Proof.Machine
end

section
/-! SUPPORT. The stages of the decoder after the key equation, in closed form: the root search, the magnitudes and the
correction (45_reed_solomon R227 to R229). -/

namespace Sys2Proof.Machine

open Sys2Proof.Claims

/-! ## The root search (45_reed_solomon R227) -/

theorem gfExp_of_lt {j : Nat} (hj : j < 255) : gfExp j = expAt j := by rw [gfExp, Nat.mod_eq_of_lt hj]

theorem gfExp_ne_zero (n : Nat) : gfExp n ≠ 0 := expAt_ne_zero _ (by omega)

theorem gfInv_expAt {j : Nat} (hj : j < 255) : gfInv (expAt j) = .ok (gfExp (255 - j)) := by
  rw [gfInv_of_ne_zero (expAt_ne_zero j (by omega)), logAt_expAt j hj]
  cases j with
  | zero => rfl
  | succ j => rw [gfExp_of_lt (by omega)]

theorem chienFrom_eq {sigma : List Byte} {j n : Nat} (h : j + n ≤ 255) : chienFrom sigma j n =
    .ok (((List.range' j n).filter fun i => horner sigma (gfExp i) == 0).map fun i => gfExp (255 - i)) := by
  induction n generalizing j with
  | zero => rfl
  | succ n ih =>
    have hj : j < 255 := by omega
    rw [chienFrom, ih (by omega), gfInv_expAt hj, List.range'_succ, polyEval_eq_horner, ← gfExp_of_lt hj]
    by_cases hroot : horner sigma (gfExp j) = 0
    · rw [if_pos hroot, List.filter_cons, if_pos (beq_iff_eq.mpr hroot)]
      rfl
    · rw [if_neg hroot, List.filter_cons, if_neg (by rwa [beq_iff_eq])]

theorem rsChien_eq (sigma : List Byte) : rsChien sigma =
    .ok (if (rootLocations sigma).length = degree sigma then .ok (rootLocations sigma) else .error 1) := by
  rw [rsChien, chienFrom_eq (by decide), ← List.range_eq_range', ok_bind]
  exact congrArg Except.ok (ite_not ..)

theorem rootLocations_normalForm {sigma : List Byte} (h : sigma ≠ []) :
    rootLocations (normalForm sigma) = rootLocations sigma := by
  simp only [rootLocations, horner_normalForm h]

/-! ## The magnitudes (45_reed_solomon R228) -/

theorem foldl_gfMul_eq_zero_iff {a : Byte} {l : List Byte} : l.foldl gfMul a = 0 ↔ a = 0 ∨ 0 ∈ l := by
  obtain ⟨F, _, φ, hφ⟩ := exists_byteField
  rw [← hφ.map_eq_zero_iff, hφ.map_foldl_gfMul, mul_eq_zero, hφ.map_eq_zero_iff, List.prod_eq_zero_iff, List.mem_map]
  simp only [hφ.map_eq_zero_iff, exists_eq_right]

theorem eq_byteInv_of_gfMul_eq_one {a b : Byte} (h : gfMul a b = 1) : b = byteInv a := by
  obtain ⟨F, _, φ, hφ⟩ := exists_byteField
  apply hφ.injective
  rw [hφ.map_byteInv]
  exact eq_inv_of_mul_eq_one_right (by rw [← hφ.map_mul, h, hφ.map_one])

theorem gfMul_byteInv_eq_one_iff {a x : Byte} (hx : x ≠ 0) : gfMul a (byteInv x) = 1 ↔ a = x := by
  obtain ⟨F, _, φ, hφ⟩ := exists_byteField
  rw [← hφ.injective.eq_iff, hφ.map_mul, hφ.map_byteInv, hφ.map_one,
    mul_inv_eq_one₀ (hφ.map_eq_zero_iff.not.mpr hx), hφ.injective.eq_iff]

/-- The denominator of a location is 0 exactly if the location stands a second time in the list. -/
theorem forneyProduct_eq_zero_iff {locs : List Byte} {i : Nat} {x : Byte} (hx : x ≠ 0) :
    forneyProduct locs i (byteInv x) = 0 ↔ x ∈ locs.eraseIdx i := by
  have hfactor (a : Byte) : 1 ^^^ gfMul a (byteInv x) = 0 ↔ a = x :=
    BitVec.xor_eq_zero_iff.trans (eq_comm.trans (gfMul_byteInv_eq_one_iff hx))
  simp only [forneyProduct, foldl_gfMul_eq_zero_iff, List.mem_map, hfactor, exists_eq_right]
  exact or_iff_right (by decide)

theorem forneyDenominator_eq (locs : List Byte) (i : Nat) (xin : Byte) :
    forneyDenominator locs i xin = forneyProduct locs i xin := List.foldl_map.symm

/-- The location of index `k` is not 0 and stands once in the list. -/
def DistinctAt (locs : List Byte) (k : Nat) : Prop := locs.getD k 0 ≠ 0 ∧ locs.getD k 0 ∉ locs.eraseIdx k

theorem forall_distinctAt_iff {locs : List Byte} : (∀ k < locs.length, DistinctAt locs k) ↔ 0 ∉ locs ∧ locs.Nodup := by
  have hget {k : Nat} (hk : k < locs.length) : locs.getD k 0 = locs[k] := by
    rw [List.getD_eq_getElem?_getD, List.getElem?_eq_getElem hk, Option.getD_some]
  simp only [DistinctAt, forall_and]
  refine and_congr ⟨fun h h0 => ?_, fun h k hk h0 => h ?_⟩ ⟨fun h => ?_, fun h k hk hmem => ?_⟩
  · obtain ⟨k, hk, hk0⟩ := List.getElem_of_mem h0
    exact h k hk ((hget hk).trans hk0)
  · rw [← h0, hget hk]
    exact List.getElem_mem hk
  · refine List.nodup_iff_getElem?_ne_getElem?.mpr fun i j hij hj heq => h i (by omega) ?_
    rw [hget (by omega), List.mem_eraseIdx_iff_getElem]
    rw [List.getElem?_eq_getElem (by omega), List.getElem?_eq_getElem hj, Option.some_inj] at heq
    exact ⟨j, hj, hij.ne', heq.symm⟩
  · rw [hget hk, List.mem_eraseIdx_iff_getElem] at hmem
    obtain ⟨j, hj, hne, heq⟩ := hmem
    exact hne ((h.getElem_inj_iff).mp heq)

theorem getD_map_range {f : Nat → Byte} {n i : Nat} (hi : i < n) : ((List.range n).map f).getD i 0 = f i := by
  simp [hi]

/-- The magnitude of location `i` (45_reed_solomon R228). -/
def magnitude (omega locs : List Byte) (i : Nat) : Byte :=
  gfMul (horner omega (byteInv (locs.getD i 0))) (byteInv (forneyProduct locs i (byteInv (locs.getD i 0))))

/-- Forney's equation: a magnitude times its denominator is the value of the error evaluator. -/
theorem gfMul_magnitude {omega locs : List Byte} {i : Nat} (h : DistinctAt locs i) :
    gfMul (magnitude omega locs i) (forneyProduct locs i (byteInv (locs.getD i 0))) =
      horner omega (byteInv (locs.getD i 0)) := by
  obtain ⟨h0, hmem⟩ := h
  have hden := (forneyProduct_eq_zero_iff h0).not.mpr hmem
  rw [magnitude, gfMul_comm, gfMul_gfMul_inv _ (gfInv_eq_byteInv hden)]

theorem forneyFrom_of_distinct {omega locs : List Byte} {i n : Nat} (h : ∀ k, i ≤ k → k < i + n → DistinctAt locs k) :
    forneyFrom omega locs i n = .ok ((List.range' i n).map (magnitude omega locs)) := by
  induction n generalizing i with
  | zero => rfl
  | succ n ih =>
    obtain ⟨h0, hmem⟩ := h i le_rfl (by omega)
    have hden := (forneyProduct_eq_zero_iff h0).not.mpr hmem
    rw [forneyFrom, gfInv_eq_byteInv h0, ok_bind, forneyDenominator_eq, gfInv_eq_byteInv hden, ok_bind,
      ih fun k h1 h2 => h k (by omega) (by omega)]
    rfl

theorem forneyFrom_of_not_distinct {omega locs : List Byte} {i n k : Nat} (h1 : i ≤ k) (h2 : k < i + n)
    (hk : ¬ DistinctAt locs k) : forneyFrom omega locs i n = raise .domainError 2 := by
  induction n generalizing i with
  | zero => omega
  | succ n ih =>
    by_cases h0 : locs.getD i 0 = 0
    · rw [forneyFrom, h0]
      rfl
    rw [forneyFrom, gfInv_eq_byteInv h0, ok_bind, forneyDenominator_eq]
    by_cases hmem : locs.getD i 0 ∈ locs.eraseIdx i
    · rw [(forneyProduct_eq_zero_iff h0).mpr hmem]
      rfl
    have hden := (forneyProduct_eq_zero_iff h0).not.mpr hmem
    have hne : i ≠ k := by
      rintro rfl
      exact hk ⟨h0, hmem⟩
    rw [gfInv_eq_byteInv hden, ok_bind, ih (by omega) (by omega)]
    rfl

/-- The magnitudes of different non-zero locations. -/
theorem rsForney_of_distinct {locs : List Byte} (omega : List Byte) (h0 : 0 ∉ locs) (hn : locs.Nodup) :
    rsForney omega locs = .ok ((List.range locs.length).map (magnitude omega locs)) := by
  have h := forall_distinctAt_iff.mpr ⟨h0, hn⟩
  rw [rsForney, forneyFrom_of_distinct fun k _ hk => h k (by omega), List.range_eq_range']

theorem rsForney_of_not_distinct {locs : List Byte} (omega : List Byte) (h : 0 ∈ locs ∨ ¬ locs.Nodup) :
    rsForney omega locs = raise .domainError 2 := by
  have hbad : ¬ ∀ k < locs.length, DistinctAt locs k := by
    rw [forall_distinctAt_iff, not_and_or, not_not]
    exact h
  push Not at hbad
  obtain ⟨k, hk, hkd⟩ := hbad
  exact forneyFrom_of_not_distinct k.zero_le (by omega) hkd

/-! ## The correction (45_reed_solomon R229) -/

/-- Locations inside the word are passed over. -/
theorem positions_append {n : Nat} {good : List Byte} (tail : List Byte) (h : ∀ g ∈ good, g ≠ 0 ∧ logAt g < n) :
    positions n (good ++ tail) =
      (positions n tail >>= fun r => .ok (r.map (good.map (fun g => n - 1 - logAt g) ++ ·))) := by
  induction good with
  | nil =>
    cases ht : positions n tail with
    | error e => simp [ht]
    | ok r => simp [ht]
  | cons g good ih =>
    obtain ⟨h0, hlog⟩ := h g List.mem_cons_self
    rw [List.cons_append, positions, gfLog_of_ne_zero h0, ok_bind, if_neg (by omega),
      ih fun g hg => h g (List.mem_cons_of_mem _ hg)]
    cases positions n tail with
    | error e => rfl
    | ok r => cases r <;> rfl

section
variable {word locs mags : List Byte}

theorem rsCorrect_of_inside (h : ∀ l ∈ locs, l ≠ 0 ∧ logAt l < word.length) : rsCorrect word locs mags =
    .ok (.ok (xorAt word ((locs.map fun l => word.length - 1 - logAt l).zip mags))) := by
  have hpos := positions_append (n := word.length) [] h
  rw [List.append_nil] at hpos
  rw [rsCorrect, hpos]
  simp only [positions, ok_bind, Option.map_some, List.append_nil]
  rfl

variable {good rest : List Byte} {l : Byte}

theorem rsCorrect_of_zero (h : ∀ g ∈ good, g ≠ 0 ∧ logAt g < word.length) :
    rsCorrect word (good ++ 0 :: rest) mags = raise .domainError 1 := by
  rw [rsCorrect, positions_append _ h]
  rfl

theorem rsCorrect_of_outside (h : ∀ g ∈ good, g ≠ 0 ∧ logAt g < word.length) (hl : l ≠ 0)
    (hlog : word.length ≤ logAt l) : rsCorrect word (good ++ l :: rest) mags = .ok (.error 1) := by
  rw [rsCorrect, positions_append _ h, positions, gfLog_of_ne_zero hl, ok_bind, if_pos (by omega)]
  rfl

end

/-- The bytes of a word after a list of changes: each position takes the changes made there. -/
theorem xorAt_eq_map (out : List Byte) (ms : List (Nat × Byte)) : xorAt out ms = (List.range out.length).map fun k =>
    (ms.filter fun m => m.1 == k).foldl (fun v m => v ^^^ m.2) (out.getD k 0) := by
  induction ms generalizing out with
  | nil =>
    refine List.ext_getElem (by simp [xorAt]) fun k h1 h2 => ?_
    simp [xorAt, List.getElem?_eq_getElem (show k < out.length from h1)]
  | cons m ms ih =>
    rw [xorAt, ih, List.length_modify]
    refine List.map_congr_left fun k hk => ?_
    have hk : k < out.length := List.mem_range.mp hk
    by_cases hm : m.1 = k <;> simp [hm, hk, gfAdd]

theorem xorAt_eq_corrected (word locs mags : List Byte) :
    xorAt word ((locs.map fun l => word.length - 1 - logAt l).zip mags) = corrected word locs mags := by
  rw [xorAt_eq_map, List.zip_map_left]
  simp only [List.filter_map, List.foldl_map]
  rfl

/-- The correction, answered from the locations alone when none of them is 0. -/
theorem rsCorrect_eq {word locs mags : List Byte} (h0 : 0 ∉ locs) : rsCorrect word locs mags =
    .ok (if locs.all (fun l => decide (logAt l < word.length)) then .ok (corrected word locs mags) else .error 1) := by
  have hne {l : Byte} (hl : l ∈ locs) : l ≠ 0 := fun h => h0 (h ▸ hl)
  cases hall : locs.all (fun l => decide (logAt l < word.length)) with
  | true =>
    rw [List.all_eq_true] at hall
    rw [rsCorrect_of_inside fun l hl => ⟨hne hl, of_decide_eq_true (hall l hl)⟩, xorAt_eq_corrected]
    rfl
  | false =>
    obtain ⟨l, hl⟩ : ∃ l, locs.find? (fun l => !decide (logAt l < word.length)) = some l := by
      rw [← Option.isSome_iff_exists, List.find?_isSome]
      simpa using hall
    obtain ⟨hlog, good, rest, rfl, hgood⟩ := List.find?_eq_some_iff_append.mp hl
    refine rsCorrect_of_outside (fun g hg => ⟨hne (List.mem_append_left _ hg), ?_⟩) (hne (by simp)) ?_
    · simpa using hgood g hg
    · simpa using hlog

end Sys2Proof.Machine
end

section
/-! The commands of the decoder's later stages (45_reed_solomon R236 to R238), from the closed forms of those stages. -/

namespace Sys2Proof.Machine

open Sys2Proof.Claims

/-- Settles O39: the search tries every non-zero element in ascending exponent (`rsChien_eq`). -/
theorem chienCommand : Obligations.ChienCommand := by
  intro s a q r sigma
  refine ⟨fun hs => finish_bind_of_ok (poly_of_ne_nil hs) (finish_bind_of_ok (rsChien_eq _) ?_), fun hs =>
    finish_bind_of_raise (poly_of_eq_nil hs)⟩
  rw [rootLocations_normalForm hs, degree]
  by_cases hcount : (rootLocations sigma).length = (normalForm sigma).length - 1
  · rw [if_pos hcount, if_pos hcount]
    rfl
  · rw [if_neg hcount, if_neg hcount]
    rfl

/-- Settles O40: the magnitudes divide by non-zero denominators, and the locations before the first one that RSCOR
refuses are passed over. -/
theorem forneyAndCorrection : Obligations.ForneyAndCorrection := by
  intro s a q r v w locs
  have hlengths (h : locs.length = (s.getP w).length) :
      badOperandIf (decide (locs.length ≠ (s.getP w).length)) (s.getP w).length = .ok () :=
    badOperandIf_of_not (not_not.mpr h) _
  refine ⟨fun hr h0 hn => ?magnitudes, fun hr hbad => finish_bind_of_ok (poly_of_ne_nil hr)
    (finish_bind_of_raise (rsForney_of_not_distinct _ hbad)), fun hr => finish_bind_of_raise (poly_of_eq_nil hr),
    fun hlen h0 => ?correction, fun hlen => finish_bind_of_raise (badOperandIf_of hlen _),
    fun good l rest hlocs hlen hgood => ⟨fun hl => ?zero, fun hl hlog => ?outside⟩⟩
  case magnitudes =>
    refine ⟨_, finish_bind_of_ok (poly_of_ne_nil hr) (finish_bind_of_ok (rsForney_of_distinct _ h0 hn) rfl),
      by rw [List.length_map, List.length_range], fun i xin hi hxin => ?_⟩
    have hdist := forall_distinctAt_iff.mpr ⟨h0, hn⟩ i hi
    rw [getD_map_range hi, eq_byteInv_of_gfMul_eq_one hxin, ← horner_normalForm hr, ← gfMul_magnitude hdist]
  case correction =>
    refine finish_bind_of_ok (hlengths hlen) (finish_bind_of_ok (rsCorrect_eq h0) ?_)
    by_cases hin : locs.all (fun l => decide (logAt l < (s.getP r).length)) = true
    · rw [if_pos hin, if_pos hin]
      rfl
    · rw [if_neg hin, if_neg hin]
      rfl
  case zero =>
    have hstop : rsCorrect (s.getP r) locs (s.getP w) = raise .domainError 1 := by
      rw [hlocs, hl, rsCorrect_of_zero hgood]
    exact finish_bind_of_ok (hlengths hlen) (finish_bind_of_raise hstop)
  case outside =>
    have hstatus : rsCorrect (s.getP r) locs (s.getP w) = .ok (.error 1) := by
      rw [hlocs, rsCorrect_of_outside hgood hl hlog]
    exact finish_bind_of_ok (hlengths hlen) (finish_bind_of_ok hstatus rfl)

end Sys2Proof.Machine
end

section
/-! SUPPORT. The extended Euclidean algorithm on `X^t` and `S` over a field of characteristic 2: its invariant. -/

namespace Sys2Proof.Claims

open Sys2Proof.Machine Polynomial

/-! ## The algorithm over a field -/

section
variable {F : Type} [Field F]

/-- What every turn of the algorithm keeps: the remainders `r` are combinations of `S` and `X^t` with cofactors `u` and
`v` of determinant 1, and the degree of a `u` never exceeds what the remainder before it has lost. -/
structure EuclidInvariant (t : Nat) (S r0 r1 u0 u1 : F[X]) : Prop where
  half : t ≤ 2 * r0.natDegree
  falls : r1.natDegree < r0.natDegree
  degree0 : u0.natDegree + r0.natDegree ≤ t
  degree1 : u1.natDegree + r0.natDegree ≤ t
  bezout : ∃ v0 v1, r0 = u0 * S + v0 * X ^ t ∧ r1 = u1 * S + v1 * X ^ t ∧ u0 * v1 + u1 * v0 = 1

variable {t : Nat} {S r0 r1 u0 u1 q r2 u2 : F[X]}

theorem EuclidInvariant.start (h : S.natDegree < t) : EuclidInvariant t S (X ^ t) S 0 1 where
  half := by rw [natDegree_X_pow]; omega
  falls := by rwa [natDegree_X_pow]
  degree0 := by rw [natDegree_X_pow, natDegree_zero, zero_add]
  degree1 := by rw [natDegree_X_pow, natDegree_one, zero_add]
  bezout := ⟨1, 0, by ring, by ring, by ring⟩

/-- The degree of a quotient. -/
theorem natDegree_quotient_add_le (hr2 : r2.natDegree < r1.natDegree) (hr1 : r1.natDegree < r0.natDegree)
    (h : r0 = q * r1 + r2) : q.natDegree + r1.natDegree ≤ r0.natDegree := by
  by_cases hq : q = 0
  · rw [hq, natDegree_zero, zero_add]
    exact hr1.le
  · have hr1' : r1 ≠ 0 := ne_zero_of_natDegree_gt hr2
    have hsub := natDegree_sub_le r0 r2
    rwa [h, add_sub_cancel_right, ← h, natDegree_mul hq hr1', max_eq_left (by omega)] at hsub

theorem EuclidInvariant.turn [CharP F 2] (h : EuclidInvariant t S r0 r1 u0 u1) (hhalf : t ≤ 2 * r1.natDegree)
    (hr2 : r2.natDegree < r1.natDegree) (hr : r0 = q * r1 + r2) (hu : u2 = q * u1 + u0) :
    EuclidInvariant t S r1 r2 u1 u2 := by
  obtain ⟨-, hfalls, hd0, hd1, v0, v1, h0, h1, hdet⟩ := h
  have hq := natDegree_quotient_add_le hr2 hfalls hr
  have hdeg : u2.natDegree ≤ max (q.natDegree + u1.natDegree) u0.natDegree :=
    hu ▸ (natDegree_add_le _ _).trans (max_le_max_right _ natDegree_mul_le)
  have hsub : r2 = r0 + q * r1 := by rw [hr, add_right_comm, CharTwo.add_self_eq_zero, zero_add]
  refine ⟨hhalf, hr2, by omega, by omega, v1, v0 + q * v1, h1, ?_, ?_⟩
  · rw [hsub, hu, h0, h1]
    ring
  · calc u1 * (v0 + q * v1) + u2 * v1
        = u0 * v1 + u1 * v0 + (q * u1 * v1 + q * u1 * v1) := by rw [hu]; ring
      _ = 1 := by rw [CharTwo.add_self_eq_zero, add_zero, hdet]

/-- Below the half, the second cofactor has at most half the degree. -/
theorem EuclidInvariant.natDegree_le (h : EuclidInvariant t S r0 r1 u0 u1) : 2 * u1.natDegree ≤ t := by
  have := h.half
  have := h.degree1
  omega

/-- The key equation modulo `X^t`. -/
theorem EuclidInvariant.coeff_eq (h : EuclidInvariant t S r0 r1 u0 u1) {d : Nat} (hd : d < t) :
    (u1 * S).coeff d = r1.coeff d := by
  obtain ⟨v0, v1, -, h1, -⟩ := h.bezout
  rw [h1, coeff_add, coeff_mul_X_pow', if_neg hd.not_ge, add_zero]

end

/-! ## The algorithm on lists -/

section
variable {F : Type} [Field F] {φ : Byte → F} {t : Nat} {sx r0 r1 u0 u1 : List Byte}

theorem EuclidReaches.normal (h : EuclidReaches t sx r0 r1 u0 u1) (hsx : sx ≠ []) :
    Normal r0 ∧ Normal r1 ∧ Normal u0 ∧ Normal u1 := by
  induction h with
  | start =>
    exact ⟨normal_of_headD_ne_zero (show (1 : Byte) ≠ 0 by decide), normal_normalForm hsx, .inl rfl,
      normal_of_headD_ne_zero (show (1 : Byte) ≠ 0 by decide)⟩
  | turn _ _ hr2 _ _ hu2 _ ih =>
    obtain ⟨-, hr1, -, hu1⟩ := ih
    exact ⟨hr1, hr2, hu1, hu2⟩

/-- A remainder is of lower degree than a divisor of positive degree (44_polynomial R198). -/
theorem natDegree_remainder_lt (hφ : ByteField φ) (hr0 : Normal r0) (hr1 : Normal r1) (h2 : 2 ≤ r0.length)
    (h : r1 = [0] ∨ r1.length < r0.length) : (polyOf φ r1).natDegree < (polyOf φ r0).natDegree := by
  have hpos := List.length_pos_iff.mpr hr1.ne_nil
  rw [natDegree_polyOf hφ hr0, natDegree_polyOf hφ hr1]
  obtain rfl | hlt := h
  · rw [List.length_singleton]
    omega
  · omega

theorem EuclidReaches.invariant (hφ : ByteField φ) (h : EuclidReaches t sx r0 r1 u0 u1) (hsx : sx ≠ []) (ht : 1 ≤ t)
    (hlen : (normalForm sx).length ≤ t) :
    EuclidInvariant t (polyOf φ sx) (polyOf φ r0) (polyOf φ r1) (polyOf φ u0) (polyOf φ u1) := by
  have := hφ.charP
  induction h with
  | start =>
    have hone : polyOf φ [1] = 1 := by rw [polyOf_singleton, hφ.map_one, C_1]
    have hzero : polyOf φ [0] = 0 := by rw [polyOf_singleton, hφ.map_zero, C_0]
    have hxt : polyOf φ (1 :: List.replicate t 0) = X ^ t := by
      rw [← List.singleton_append, polyOf_append hφ, hone, polyOf_replicate_zero hφ, List.length_replicate, one_mul,
        add_zero]
    rw [hxt, polyOf_normalForm hφ hsx, hzero, hone]
    refine EuclidInvariant.start ?_
    rw [← polyOf_normalForm hφ hsx, natDegree_polyOf hφ (normal_normalForm hsx)]
    omega
  | turn h hhalf hr2 hlt hr _ hu ih =>
    obtain ⟨-, hr1, -, -⟩ := h.normal hsx
    have hfall := natDegree_remainder_lt hφ hr1 hr2 (by omega) hlt
    rw [← natDegree_polyOf hφ hr1] at hhalf
    exact ih.turn hhalf hfall (polyOf_eq_mul_add hφ hr) (polyOf_eq_mul_add hφ hu)

/-- The invariant in lengths of lists. -/
theorem EuclidReaches.lengths (h : EuclidReaches t sx r0 r1 u0 u1) (hsx : sx ≠ []) (ht : 1 ≤ t)
    (hlen : (normalForm sx).length ≤ t) :
    r1.length < r0.length ∧ u1.length + r0.length ≤ t + 2 ∧ 2 * (u1.length - 1) ≤ t := by
  obtain ⟨F, _, φ, hφ⟩ := exists_byteField
  obtain ⟨hr0, hr1, -, hu1⟩ := h.normal hsx
  have hinv := h.invariant hφ hsx ht hlen
  have hfalls := hinv.falls
  have hdegree := hinv.degree1
  have hhalf := hinv.natDegree_le
  rw [natDegree_polyOf hφ hr0, natDegree_polyOf hφ hr1] at hfalls
  rw [natDegree_polyOf hφ hu1, natDegree_polyOf hφ hr0] at hdegree
  rw [natDegree_polyOf hφ hu1] at hhalf
  omega

theorem quotient_length_le {q r2 : List Byte} (hr0 : Normal r0) (hr1 : Normal r1) (h2 : 2 ≤ r1.length)
    (hfalls : r1.length < r0.length) (h : Division r0 r1 q r2) (hlt : r2 = [0] ∨ r2.length < r1.length) :
    q.length + r1.length ≤ r0.length + 1 := by
  obtain ⟨F, _, φ, hφ⟩ := exists_byteField
  have hdegree : (polyOf φ r1).natDegree < (polyOf φ r0).natDegree := by
    rw [natDegree_polyOf hφ hr0, natDegree_polyOf hφ hr1]
    omega
  have hquotient := natDegree_quotient_add_le (natDegree_remainder_lt hφ hr1 h.remainder h2 hlt) hdegree
    (polyOf_eq_mul_add hφ h.identity)
  rw [natDegree_polyOf hφ hr0, natDegree_polyOf hφ hr1, natDegree_polyOf hφ h.quotient] at hquotient
  omega

end

end Sys2Proof.Claims
end

section
/-! The key equation (45_reed_solomon R225, R226, R235): the unit's loop is the Euclidean algorithm, and it always ends
below the half. -/

namespace Sys2Proof.Machine

open Sys2Proof.Claims Polynomial

/-- `sigma` and `omega` are `tau` and `rho` divided by the constant term of `tau`. -/
structure Normalised (tau rho sigma omega : List Byte) : Prop where
  locator : Normal sigma
  evaluator : Normal omega
  coef_locator : ∀ d, gfMul (coef tau 0) (coef sigma d) = coef tau d
  coef_evaluator : ∀ d, gfMul (coef tau 0) (coef omega d) = coef rho d

/-- What the unit answers where the algorithm ends with the remainder `rho` beside `tau`. -/
inductive EuclidEnds (tau rho : List Byte) : Soft (List Byte × List Byte) → Prop
  | ambiguous : coef tau 0 = 0 → EuclidEnds tau rho (.error 2)
  | solved {sigma omega : List Byte} : coef tau 0 ≠ 0 → Normalised tau rho sigma omega →
      EuclidEnds tau rho (.ok (sigma, omega))

theorem polyMulm_inv_spec {f : List Byte} {c : Byte} (hf : Normal f) (hlen : f.length ≤ 256) (hc : c ≠ 0) :
    ∃ r, polyMulm f 0 (byteInv c) = .ok r ∧ Normal r ∧ ∀ d, gfMul c (coef r d) = coef f d := by
  obtain ⟨r, hr, hnormal, hcoef⟩ := polyMulm_spec (d := 0) (c := byteInv c) hf (.inl hlen)
  refine ⟨r, hr, hnormal, fun d => ?_⟩
  rw [hcoef, if_neg d.not_lt_zero, Nat.sub_zero, gfMul_gfMul_inv _ (gfInv_eq_byteInv hc)]

section
variable {t fuel : Nat} {sx r0 r1 u0 u1 : List Byte}

/-- The end of the loop divides by the constant term, unless that is 0. -/
theorem euclidLoop_end (hr1 : Normal r1) (hu1 : Normal u1) (hrlen : r1.length ≤ 256) (hulen : u1.length ≤ 256)
    (hend : ¬ t ≤ 2 * degree r1) : ∃ res, euclidLoop t fuel r0 r1 u0 u1 = .ok res ∧ EuclidEnds u1 r1 res := by
  rw [euclidLoop.eq_def]
  dsimp only
  rw [if_neg hend]
  rw [coefAt_eq_coef]
  by_cases hc : coef u1 0 = 0
  · exact ⟨.error 2, if_pos hc, .ambiguous hc⟩
  · obtain ⟨sigma, hs, hsn, hsc⟩ := polyMulm_inv_spec hu1 hulen hc
    obtain ⟨omega, ho, hon, hoc⟩ := polyMulm_inv_spec hr1 hrlen hc
    refine ⟨.ok (sigma, omega), ?_, .solved hc ⟨hsn, hon, hsc, hoc⟩⟩
    rw [if_neg hc, gfInv_eq_byteInv hc, ok_bind, hs, ok_bind, ho, ok_bind]
    rfl

section
variable (hsx : sx ≠ []) (h1 : 1 ≤ t) (h2 : t ≤ 255) (hlen : (normalForm sx).length ≤ t)
include hsx h1 h2 hlen

/-- A turn of the loop is a turn of the algorithm: the division answers, and the product fits a p register. -/
theorem euclidLoop_turn (h : EuclidReaches t sx r0 r1 u0 u1) (hturn : t ≤ 2 * degree r1) :
    ∃ r2 u2, euclidLoop t (fuel + 1) r0 r1 u0 u1 = euclidLoop t fuel r1 r2 u1 u2 ∧
      EuclidReaches t sx r1 r2 u1 u2 ∧ (r2 = [0] ∨ r2.length < r1.length) := by
  obtain ⟨hr0, hr1, -, hu1⟩ := h.normal hsx
  obtain ⟨hfalls, hsum, -⟩ := h.lengths hsx h1 hlen
  have hpos := List.length_pos_iff.mpr hu1.ne_nil
  have hlong : 2 ≤ r1.length := by
    simp only [degree] at hturn
    omega
  have hr10 : ¬ isZero r1 = true := Bool.not_eq_true _ ▸ isZero_false_of_length hlong
  obtain ⟨q, r2, hqr, hdiv, hlt⟩ := polyDivmod_spec hr0 (by omega) hr1 fun h0 => hr10 (isZero_iff.mpr h0)
  have hquotient := quotient_length_le hr0 hr1 hlong hfalls hdiv hlt
  obtain ⟨m, hm, hmn, hmc⟩ := polyMul_spec hdiv.quotient hu1 (.inl (by omega))
  refine ⟨r2, polyAdd m u0, ?_, h.turn hturn hdiv.remainder hlt hdiv.identity (normal_polyAdd hmn.ne_nil u0) fun d => by
    rw [coef_polyAdd, hmc], hlt⟩
  rw [euclidLoop, if_pos hturn]
  dsimp only
  rw [if_neg hr10, hqr, ok_bind]
  dsimp only
  rw [hm, ok_bind]

/-- With a turn for every coefficient of the remainder, the loop follows the algorithm to its end. -/
theorem euclidLoop_spec (h : EuclidReaches t sx r0 r1 u0 u1) (hfuel : r1.length ≤ fuel) :
    ∃ res r rho u tau, euclidLoop t fuel r0 r1 u0 u1 = .ok res ∧ EuclidReaches t sx r rho u tau ∧
      2 * (rho.length - 1) < t ∧ EuclidEnds tau rho res := by
  induction fuel generalizing r0 r1 u0 u1 with
  | zero =>
    obtain ⟨-, hr1, -, -⟩ := h.normal hsx
    exact absurd (List.eq_nil_of_length_eq_zero (Nat.le_zero.mp hfuel)) hr1.ne_nil
  | succ fuel ih =>
    by_cases hturn : t ≤ 2 * degree r1
    · obtain ⟨r2, u2, hloop, hnext, hlt⟩ := euclidLoop_turn (fuel := fuel) hsx h1 h2 hlen h hturn
      rw [hloop]
      refine ih hnext ?_
      simp only [degree] at hturn
      obtain rfl | hlt := hlt
      · rw [List.length_singleton]
        omega
      · omega
    · obtain ⟨-, hr1, -, hu1⟩ := h.normal hsx
      obtain ⟨hfalls, hsum, -⟩ := h.lengths hsx h1 hlen
      obtain ⟨res, hres, hends⟩ :=
        euclidLoop_end (fuel := fuel + 1) (r0 := r0) (u0 := u0) hr1 hu1 (by omega) (by omega) hturn
      exact ⟨res, r0, r1, u0, u1, hres, h, Nat.lt_of_not_le hturn, hends⟩

/-- The unit answers, and by the algorithm. -/
theorem rsEuclid_spec :
    ∃ res r rho u tau, rsEuclid (normalForm sx) t = .ok res ∧ EuclidReaches t sx r rho u tau ∧
      2 * (rho.length - 1) < t ∧ EuclidEnds tau rho res := by
  have hxt : polyMono t 1 = .ok (1 :: List.replicate t 0) := by
    rw [polyMono, if_neg (by decide), if_neg (by simp only [Config.pMax]; omega)]
  rw [rsEuclid, hxt, ok_bind]
  exact euclidLoop_spec hsx h1 h2 hlen .start hlen

end
end

section
variable {F : Type} [Field F] {φ : Byte → F} (hφ : ByteField φ) {tau rho sigma omega : List Byte}
include hφ

theorem Normalised.polyOf_locator (h : Normalised tau rho sigma omega) :
    polyOf φ tau = C (φ (coef tau 0)) * polyOf φ sigma := by
  ext d
  rw [coeff_C_mul, coeff_polyOf hφ, coeff_polyOf hφ, ← hφ.map_mul, h.coef_locator]

theorem Normalised.polyOf_evaluator (h : Normalised tau rho sigma omega) :
    polyOf φ rho = C (φ (coef tau 0)) * polyOf φ omega := by
  ext d
  rw [coeff_C_mul, coeff_polyOf hφ, coeff_polyOf hφ, ← hφ.map_mul, h.coef_evaluator]

end

/-- The key equation and the bounds on the degrees pass from `tau` and `rho` to the polynomials divided by the constant
term (45_reed_solomon R225). -/
theorem Normalised.key_equation {t : Nat} {sx r u tau rho sigma omega : List Byte}
    (hreach : EuclidReaches t sx r rho u tau) (hsx : sx ≠ []) (h1 : 1 ≤ t) (hlen : (normalForm sx).length ≤ t)
    (hc : coef tau 0 ≠ 0) (h : Normalised tau rho sigma omega) :
    coef sigma 0 = 1 ∧ sigma.length = tau.length ∧ omega.length = rho.length ∧
      ∀ d, d < t → productCoef sigma sx d = coef omega d := by
  obtain ⟨F, _, φ, hφ⟩ := exists_byteField
  have hc' : φ (coef tau 0) ≠ 0 := hφ.map_eq_zero_iff.not.mpr hc
  have hlocator := h.polyOf_locator hφ
  have hevaluator := h.polyOf_evaluator hφ
  obtain ⟨-, hrho, -, htau⟩ := hreach.normal hsx
  have hlength {f g : List Byte} (hf : Normal f) (hg : Normal g)
      (hfg : polyOf φ f = C (φ (coef tau 0)) * polyOf φ g) : g.length = f.length := by
    have hdeg := congrArg natDegree hfg
    rw [natDegree_C_mul hc', natDegree_polyOf hφ hf, natDegree_polyOf hφ hg] at hdeg
    have := List.length_pos_iff.mpr hf.ne_nil
    have := List.length_pos_iff.mpr hg.ne_nil
    omega
  refine ⟨hφ.injective (mul_left_cancel₀ hc' ?_), hlength htau h.locator hlocator, hlength hrho h.evaluator hevaluator,
    fun d hd => hφ.injective (mul_left_cancel₀ hc' ?_)⟩
  · rw [← hφ.map_mul, h.coef_locator, hφ.map_one, mul_one]
  · rw [← coeff_polyOf_mul hφ, ← coeff_polyOf hφ omega, ← coeff_C_mul, ← coeff_C_mul, ← mul_assoc, ← hlocator,
      ← hevaluator]
    exact (hreach.invariant hφ hsx h1 hlen).coeff_eq hd

/-- A check that a command passes (30_encoding R93). -/
theorem finish_ite_of_not {c : Prop} [Decidable c] {s : State} {x y : Except Stop State}
    {o : Host.Outcome State Fault Refusal} (hc : ¬ c) (h : finish s y = o) : finish s (if c then x else y) = o := by
  rwa [if_neg hc]

/-- Settles O38: the loop reaches the end of the algorithm (`rsEuclid_spec`), whose invariant gives the degrees and the
key equation. -/
theorem keyEquationCommand : Obligations.KeyEquationCommand := by
  intro s a q r v e sx t
  have hcount (h1 : 1 ≤ t) (h2 : t ≤ 255) : badOperandIf (decide (t = 0 ∨ 255 < t)) t = .ok () :=
    badOperandIf_of_not (by omega) t
  refine ⟨fun hqr hsx h1 h2 hlen => ?solve, fun hqr hsx => finish_ite_of_not hqr ?_, fun hqr hsx ht =>
    finish_ite_of_not hqr ?_, fun hqr hsx h1 h2 hlen => finish_ite_of_not hqr ?_⟩
  case solve =>
    have hchecks {k : List Byte → Except Stop State} {o : Host.Outcome State Fault Refusal}
        (h : finish s (k (normalForm sx)) = o) : finish s (poly sx >>= fun f =>
          badOperandIf (decide (t = 0 ∨ 255 < t)) t >>= fun _ =>
          badOperandIf (decide (t ≤ degree f)) (degree f) >>= fun _ => k f) = o := by
      have hpos := List.length_pos_iff.mpr (normal_normalForm hsx).ne_nil
      exact finish_bind_of_ok (poly_of_ne_nil hsx) (finish_bind_of_ok (hcount h1 h2)
        (finish_bind_of_ok (badOperandIf_of_not (by simp only [degree]; omega) _) h))
    obtain ⟨res, r0, rho, u0, tau, hres, hreach, hhalf, hends⟩ := rsEuclid_spec hsx h1 h2 hlen
    obtain ⟨-, -, htau⟩ := hreach.lengths hsx h1 hlen
    cases hends with
    | ambiguous hc =>
      exact ⟨afterX s a 2, finish_ite_of_not hqr (hchecks (finish_bind_of_ok hres rfl)), r0, rho, u0, tau, hreach,
        hhalf, htau, fun _ => rfl, fun h => absurd hc h⟩
    | @solved sigma omega hc hn =>
      obtain ⟨hone, hs, ho, hkey⟩ := hn.key_equation hreach hsx h1 hlen hc
      exact ⟨_, finish_ite_of_not hqr (hchecks (finish_bind_of_ok hres rfl)), r0, rho, u0, tau, hreach, hhalf, htau,
        fun h => absurd h hc, fun _ => ⟨sigma, omega, rfl, hn.locator, hn.coef_locator, hn.evaluator,
          hn.coef_evaluator, hone, by rwa [hs], by rwa [ho], hkey⟩⟩
  · exact finish_bind_of_raise (poly_of_eq_nil hsx)
  · exact finish_bind_of_ok (poly_of_ne_nil hsx) (finish_bind_of_raise (badOperandIf_of ht t))
  · exact finish_bind_of_ok (poly_of_ne_nil hsx) (finish_bind_of_ok (hcount h1 h2)
      (finish_bind_of_raise (badOperandIf_of (Nat.le_sub_one_of_lt hlen) _)))

end Sys2Proof.Machine
end

section
/-! The decoder (45_reed_solomon R230, R239): what its stages answer one after the other. -/

namespace Sys2Proof.Machine

open Sys2Proof.Claims

/-! ## The locations of a root search (45_reed_solomon R227) -/

theorem byteInv_gfExp {j : Nat} (hj : j < 255) : byteInv (gfExp j) = gfExp (255 - j) := by
  have h := gfInv_expAt hj
  rw [← gfExp_of_lt hj, gfInv_eq_byteInv (gfExp_ne_zero j)] at h
  injection h

theorem byteInv_byteInv (a : Byte) : byteInv (byteInv a) = a := by
  obtain ⟨F, _, φ, hφ⟩ := exists_byteField
  exact hφ.injective (by rw [hφ.map_byteInv, hφ.map_byteInv, inv_inv])

theorem byteInv_ne_zero {a : Byte} (ha : a ≠ 0) : byteInv a ≠ 0 := fun h => ha <| by
  rw [← byteInv_byteInv a, h]
  rfl

theorem mem_rootLocations {sigma : List Byte} {x : Byte} :
    x ∈ rootLocations sigma ↔ x ≠ 0 ∧ horner sigma (byteInv x) = 0 := by
  simp only [rootLocations, List.mem_map, List.mem_filter, List.mem_range, beq_iff_eq]
  constructor
  · rintro ⟨j, ⟨hj, hroot⟩, rfl⟩
    rw [← byteInv_gfExp hj, byteInv_byteInv]
    exact ⟨byteInv_ne_zero (gfExp_ne_zero j), hroot⟩
  · rintro ⟨hx, hroot⟩
    obtain ⟨hlt, hexp⟩ := expAt_logAt (byteInv_ne_zero hx)
    rw [← gfExp_of_lt hlt] at hexp
    exact ⟨logAt (byteInv x), ⟨hlt, by rwa [hexp]⟩, by rw [← byteInv_gfExp hlt, hexp, byteInv_byteInv]⟩

theorem zero_notMem_rootLocations (sigma : List Byte) : 0 ∉ rootLocations sigma := fun h =>
  (mem_rootLocations.mp h).left rfl

theorem gfExp_injOn {i j : Nat} (hi : i < 255) (hj : j < 255) (h : gfExp i = gfExp j) : i = j := by
  rw [gfExp_of_lt hi, gfExp_of_lt hj] at h
  exact expAt_injective (by omega) (by omega) h

theorem nodup_rootLocations (sigma : List Byte) : (rootLocations sigma).Nodup := by
  refine List.Nodup.map_on (fun i hi j hj h => ?_) (List.nodup_range.filter _)
  have hi := List.mem_range.mp (List.mem_filter.mp hi).left
  have hj := List.mem_range.mp (List.mem_filter.mp hj).left
  rw [← byteInv_gfExp hi, ← byteInv_gfExp hj] at h
  exact gfExp_injOn hi hj (by rw [← byteInv_byteInv (gfExp i), h, byteInv_byteInv])

theorem rootLocations_length_le (sigma : List Byte) : (rootLocations sigma).length ≤ 255 := by
  rw [rootLocations, List.length_map]
  exact (List.length_filter_le ..).trans List.length_range.le

/-! ## The corrected word (45_reed_solomon R229) -/

theorem corrected_length (word locs mags : List Byte) : (corrected word locs mags).length = word.length := by
  rw [corrected, List.length_map, List.length_range]

/-- A byte that no location names is kept. -/
theorem corrected_getD_of_notMem {word locs mags : List Byte} {k : Nat} (hk : k < word.length)
    (h : k ∉ locs.map fun l => word.length - 1 - logAt l) : (corrected word locs mags).getD k 0 = word.getD k 0 := by
  have hnone : ((locs.zip mags).filter fun lm => word.length - 1 - logAt lm.1 == k) = [] := by
    refine List.filter_eq_nil_iff.mpr fun lm hlm heq => h ?_
    exact List.mem_map.mpr ⟨lm.1, (List.of_mem_zip hlm).left, beq_iff_eq.mp heq⟩
  rw [corrected, getD_map_range hk, hnone, List.foldl_nil]

theorem differences_corrected_le (word locs mags : List Byte) :
    differences word (corrected word locs mags) ≤ locs.length := by
  rw [← List.length_map (as := locs) fun l => word.length - 1 - logAt l]
  refine (List.subperm_of_subset (List.nodup_range.filter _) fun k hk => ?_).length_le
  obtain ⟨hk, hne⟩ := List.mem_filter.mp hk
  by_contra hnot
  rw [corrected_getD_of_notMem (List.mem_range.mp hk) hnot] at hne
  simp at hne

theorem differences_self (word : List Byte) : differences word word = 0 := by simp [differences]

/-! ## The stages -/

section
variable {word sigma omega : List Byte} {t : Nat}

theorem syndromes_all_zero_iff : (syndromes word t).all (· == 0) = true ↔ ∀ i, i < t → horner word (gfExp i) = 0 := by
  simp only [syndromes, List.all_map, List.all_eq_true, List.mem_reverse, List.mem_range, Function.comp_apply,
    beq_iff_eq]

theorem rsDecode_of_clean (hw : word ≠ []) (ht : 1 ≤ t) (h : (syndromes word t).all (· == 0) = true) :
    rsDecode word t = .ok (.ok (0, word)) := by
  rw [rsDecode, rsSyndromes_eq hw ht, h]
  rfl

/-- The magnitudes of the locations of `sigma` (45_reed_solomon R228). -/
def magnitudes (sigma omega : List Byte) : List Byte :=
  (List.range (rootLocations sigma).length).map (magnitude omega (rootLocations sigma))

theorem rsDecode_of_ambiguous {st : Nat} (hw : word ≠ []) (ht : 1 ≤ t) (h : (syndromes word t).all (· == 0) = false)
    (heuclid : rsEuclid (normalForm (syndromes word t)) t = .ok (.error st)) : rsDecode word t = .ok (.error st) := by
  rw [rsDecode, rsSyndromes_eq hw ht, h, ok_bind]
  dsimp only
  rw [if_neg (by decide), heuclid]
  rfl

/-- The stages after the key equation: the count of the roots, then the places of the locations, decide. -/
theorem rsDecode_of_solved (hw : word ≠ []) (ht : 1 ≤ t) (h : (syndromes word t).all (· == 0) = false)
    (heuclid : rsEuclid (normalForm (syndromes word t)) t = .ok (.ok (sigma, omega))) : rsDecode word t =
      .ok (if (rootLocations sigma).length = degree sigma then
        if (rootLocations sigma).all (fun l => decide (logAt l < word.length)) then
          .ok ((rootLocations sigma).length, corrected word (rootLocations sigma) (magnitudes sigma omega))
        else .error 4
      else .error 3) := by
  rw [rsDecode, rsSyndromes_eq hw ht, h, ok_bind]
  dsimp only
  rw [if_neg (by decide), heuclid, ok_bind]
  dsimp only
  rw [rsChien_eq, ok_bind]
  by_cases hcount : (rootLocations sigma).length = degree sigma
  · rw [if_pos hcount, if_pos hcount]
    dsimp only
    rw [rsForney_of_distinct _ (zero_notMem_rootLocations sigma) (nodup_rootLocations sigma), ok_bind,
      rsCorrect_eq (zero_notMem_rootLocations sigma), ok_bind]
    by_cases hin : (rootLocations sigma).all (fun l => decide (logAt l < word.length)) = true
    · rw [if_pos hin, if_pos hin]
      rfl
    · rw [if_neg hin, if_neg hin]
      rfl
  · rw [if_neg hcount, if_neg hcount]
    rfl

/-- What the decoder answers for every received word (45_reed_solomon R230). -/
inductive DecodeEnds (word : List Byte) (t : Nat) : Soft (Nat × List Byte) → Prop
  | clean : (∀ i, i < t → horner word (gfExp i) = 0) → DecodeEnds word t (.ok (0, word))
  | corrected {count : Nat} {out : List Byte} : (∃ i, i < t ∧ horner word (gfExp i) ≠ 0) → out.length = word.length →
      count ≤ 255 → differences word out ≤ count → DecodeEnds word t (.ok (count, out))
  | failed {st : Nat} : (∃ i, i < t ∧ horner word (gfExp i) ≠ 0) → 1 ≤ st → st ≤ 4 → DecodeEnds word t (.error st)

theorem rsDecode_ends (hw : word ≠ []) (h1 : 1 ≤ t) (h2 : t ≤ 255) :
    ∃ res, rsDecode word t = .ok res ∧ DecodeEnds word t res := by
  cases hall : (syndromes word t).all (· == 0) with
  | true => exact ⟨_, rsDecode_of_clean hw h1 hall, .clean (syndromes_all_zero_iff.mp hall)⟩
  | false =>
    have hdirty : ∃ i, i < t ∧ horner word (gfExp i) ≠ 0 := by
      have := syndromes_all_zero_iff.not.mp (Bool.eq_false_iff.mp hall)
      push Not at this
      exact this
    have hss : syndromes word t ≠ [] := List.length_pos_iff.mp (by rwa [syndromes_length])
    obtain ⟨res, -, rho, -, tau, hres, -, -, hends⟩ :=
      rsEuclid_spec hss h1 h2 ((normalForm_length_le hss).trans (syndromes_length word t).le)
    cases hends with
    | ambiguous _ => exact ⟨_, rsDecode_of_ambiguous hw h1 hall hres, .failed hdirty (by decide) (by decide)⟩
    | solved _ _ =>
      refine ⟨_, rsDecode_of_solved hw h1 hall hres, ?_⟩
      split
      · split
        · exact .corrected hdirty (corrected_length ..) (rootLocations_length_le _) (differences_corrected_le ..)
        · exact .failed hdirty (by decide) (by decide)
      · exact .failed hdirty (by decide) (by decide)

end

/-- Settles O41: each stage answers, since the locations that the search finds are different and not 0. -/
theorem decoderCommand : Obligations.DecoderCommand := by
  intro s a b q r e hab word t
  refine ⟨fun h1 h2 hw1 hw2 => ?_, fun ht => finish_ite_of_not hab (finish_received_of_bad_count ht),
    fun h1 h2 hw => finish_ite_of_not hab (finish_received_of_bad_length h1 h2 hw)⟩
  obtain ⟨res, hres, hends⟩ := rsDecode_ends (List.length_pos_iff.mp hw1) h1 h2
  cases hends with
  | clean hclean =>
    exact ⟨_, finish_ite_of_not hab (finish_received_of_fits h1 h2 hw1 hw2 (finish_bind_of_ok hres rfl)),
      .inl ⟨word, 0, rfl, rfl, by decide, (differences_self word).le, fun _ => ⟨rfl, rfl⟩⟩⟩
  | @corrected count out hdirty hlen hcount hdiff =>
    obtain ⟨i, hi, hne⟩ := hdirty
    exact ⟨_, finish_ite_of_not hab (finish_received_of_fits h1 h2 hw1 hw2 (finish_bind_of_ok hres rfl)),
      .inl ⟨out, count, rfl, hlen, hcount, hdiff, fun hclean => absurd (hclean i hi) hne⟩⟩
  | @failed st hdirty hst1 hst4 =>
    exact ⟨_, finish_ite_of_not hab (finish_received_of_fits h1 h2 hw1 hw2 (finish_bind_of_ok hres rfl)),
      .inr ⟨hdirty, st, hst1, hst4, rfl⟩⟩

end Sys2Proof.Machine
end

section
/-! SUPPORT. The error locator and the error evaluator over a field, and that the Euclidean algorithm finds them
(45_reed_solomon R225, R231). -/

namespace Sys2Proof.Claims

open Polynomial

section
variable {F : Type} [Field F]

/-- The polynomial with the roots `1 / x k` and constant term 1. -/
noncomputable def locatorOf (x : Nat → F) (E : Finset Nat) : F[X] := ∏ k ∈ E, (1 - C (x k) * X)

/-- The polynomial that Forney's formula evaluates. -/
noncomputable def evaluatorOf (x e : Nat → F) (E : Finset Nat) : F[X] := ∑ k ∈ E, C (e k) * locatorOf x (E.erase k)

/-- The first `t` syndromes of the errors `e k` at the locations `x k`, as a polynomial (45_reed_solomon R224). -/
noncomputable def syndromeOf (x e : Nat → F) (E : Finset Nat) (t : Nat) : F[X] :=
  ∑ i ∈ Finset.range t, C (∑ k ∈ E, e k * x k ^ i) * X ^ i

variable {x e : Nat → F} {E : Finset Nat} {t : Nat}

theorem locatorOf_eq_mul_erase {k : Nat} (hk : k ∈ E) :
    locatorOf x E = (1 - C (x k) * X) * locatorOf x (E.erase k) := (Finset.mul_prod_erase E _ hk).symm

theorem eval_locatorOf (y : F) : (locatorOf x E).eval y = ∏ k ∈ E, (1 - x k * y) := by simp [locatorOf, eval_prod]

theorem eval_locatorOf_eq_zero_iff {y : F} : (locatorOf x E).eval y = 0 ↔ ∃ k ∈ E, x k * y = 1 := by
  rw [eval_locatorOf, Finset.prod_eq_zero_iff]
  simp only [sub_eq_zero, eq_comm (a := (1 : F))]

theorem coeff_zero_locatorOf : (locatorOf x E).coeff 0 = 1 := by
  rw [coeff_zero_eq_eval_zero, eval_locatorOf]
  exact Finset.prod_eq_one fun k _ => by rw [mul_zero, sub_zero]

theorem locatorOf_ne_zero : locatorOf x E ≠ 0 := fun h => one_ne_zero (α := F) <| by
  rw [← coeff_zero_locatorOf (x := x) (E := E), h, coeff_zero]

/-- Each location contributes a geometric series to the syndromes. -/
theorem syndromeOf_eq_sum : syndromeOf x e E t = ∑ k ∈ E, C (e k) * ∑ i ∈ Finset.range t, (C (x k) * X) ^ i := by
  simp only [syndromeOf, map_sum, Finset.sum_mul, Finset.mul_sum]
  rw [Finset.sum_comm]
  refine Finset.sum_congr rfl fun k _ => Finset.sum_congr rfl fun i _ => ?_
  rw [C_mul, C_pow, mul_pow, mul_assoc]

/-- The key equation of the errors. -/
theorem X_pow_dvd_evaluatorOf_sub : X ^ t ∣ evaluatorOf x e E - locatorOf x E * syndromeOf x e E t := by
  rw [evaluatorOf, syndromeOf_eq_sum, Finset.mul_sum, ← Finset.sum_sub_distrib]
  refine Finset.dvd_sum fun k hk => ⟨C (e k) * locatorOf x (E.erase k) * C (x k) ^ t, ?_⟩
  calc C (e k) * locatorOf x (E.erase k) - locatorOf x E * (C (e k) * ∑ i ∈ Finset.range t, (C (x k) * X) ^ i)
      = C (e k) * locatorOf x (E.erase k) *
          (1 - (1 - C (x k) * X) * ∑ i ∈ Finset.range t, (C (x k) * X) ^ i) := by rw [locatorOf_eq_mul_erase hk]; ring
    _ = C (e k) * locatorOf x (E.erase k) * (C (x k) * X) ^ t := by rw [mul_neg_geom_sum, sub_sub_cancel]
    _ = X ^ t * (C (e k) * locatorOf x (E.erase k) * C (x k) ^ t) := by rw [mul_pow]; ring

theorem natDegree_factor {a : F} (ha : a ≠ 0) : (1 - C a * X).natDegree = 1 := by
  have h := natDegree_linear (b := 1) (neg_ne_zero.mpr ha)
  rwa [C_neg, C_1, neg_mul, neg_add_eq_sub] at h

theorem natDegree_locatorOf (hx : ∀ k ∈ E, x k ≠ 0) : (locatorOf x E).natDegree = E.card := by
  rw [locatorOf, natDegree_prod _ _ fun k hk => ne_zero_of_natDegree_gt ((natDegree_factor (hx k hk)).symm ▸ one_pos),
    Finset.sum_congr rfl fun k hk => natDegree_factor (hx k hk), Finset.card_eq_sum_ones]

theorem natDegree_evaluatorOf_le (hx : ∀ k ∈ E, x k ≠ 0) : (evaluatorOf x e E).natDegree ≤ E.card - 1 := by
  refine natDegree_sum_le_of_forall_le _ _ fun k hk => (natDegree_C_mul_le _ _).trans ?_
  rw [natDegree_locatorOf fun l hl => hx l (Finset.mem_of_mem_erase hl), Finset.card_erase_of_mem hk]

section
variable (hx : ∀ k ∈ E, x k ≠ 0)
include hx

/-- At the root that belongs to a location, only the term of that location is left. -/
theorem eval_evaluatorOf {k : Nat} (hk : k ∈ E) :
    (evaluatorOf x e E).eval (x k)⁻¹ = e k * (locatorOf x (E.erase k)).eval (x k)⁻¹ := by
  have hroot {l : Nat} (hl : l ≠ k) : (locatorOf x (E.erase l)).eval (x k)⁻¹ = 0 :=
    eval_locatorOf_eq_zero_iff.mpr ⟨k, Finset.mem_erase.mpr ⟨hl.symm, hk⟩, mul_inv_cancel₀ (hx k hk)⟩
  rw [evaluatorOf, eval_finsetSum, Finset.sum_eq_single_of_mem k hk, eval_mul, eval_C]
  exact fun l _ hl => by rw [eval_mul, hroot hl, mul_zero]

variable (hinj : Set.InjOn x E)
include hinj

theorem eval_locatorOf_erase_ne_zero {k : Nat} (hk : k ∈ E) : (locatorOf x (E.erase k)).eval (x k)⁻¹ ≠ 0 := by
  rw [Ne, eval_locatorOf_eq_zero_iff]
  rintro ⟨l, hl, h⟩
  obtain ⟨hlk, hl⟩ := Finset.mem_erase.mp hl
  exact hlk (hinj hl hk ((mul_inv_eq_one₀ (hx k hk)).mp h))

theorem eval_evaluatorOf_ne_zero (he : ∀ k ∈ E, e k ≠ 0) {k : Nat} (hk : k ∈ E) :
    (evaluatorOf x e E).eval (x k)⁻¹ ≠ 0 := by
  rw [eval_evaluatorOf hx hk]
  exact mul_ne_zero (he k hk) (eval_locatorOf_erase_ne_zero hx hinj hk)

theorem isCoprime_locatorOf_evaluatorOf (he : ∀ k ∈ E, e k ≠ 0) : IsCoprime (locatorOf x E) (evaluatorOf x e E) := by
  refine IsCoprime.prod_left fun k hk => ?_
  have hirr : Irreducible (1 - C (x k) * X) := irreducible_of_degree_eq_one
    ((degree_eq_iff_natDegree_eq_of_pos one_pos).mpr (natDegree_factor (hx k hk)))
  refine (hirr.coprime_iff_not_dvd).mpr fun hdvd => eval_evaluatorOf_ne_zero hx hinj he hk ?_
  refine eval_eq_zero_of_dvd_of_eval_eq_zero hdvd ?_
  simp [hx k hk]

/-- Few errors without a syndrome are none. -/
theorem eq_empty_of_syndromeOf_eq_zero (he : ∀ k ∈ E, e k ≠ 0) (ht : E.card ≤ t) (h : syndromeOf x e E t = 0) :
    E = ∅ := by
  by_contra hne
  obtain ⟨k, hk⟩ := Finset.nonempty_iff_ne_empty.mpr hne
  have hdvd := X_pow_dvd_evaluatorOf_sub (x := x) (e := e) (E := E) (t := t)
  rw [h, mul_zero, sub_zero] at hdvd
  have hpos := Finset.card_pos.mpr ⟨k, hk⟩
  have hzero : evaluatorOf x e E = 0 := eq_zero_of_dvd_of_natDegree_lt hdvd (by
    rw [natDegree_X_pow]
    exact lt_of_le_of_lt (natDegree_evaluatorOf_le hx) (by omega))
  exact eval_evaluatorOf_ne_zero hx hinj he hk (by rw [hzero, eval_zero])

/-- Where the algorithm ends it has found the locator and the evaluator of at most t/2 errors, up to one constant. -/
theorem EuclidInvariant.eq_C_mul {r0 rho u0 tau : F[X]} (h : EuclidInvariant t (syndromeOf x e E t) r0 rho u0 tau)
    (hrho : 2 * rho.natDegree < t) (he : ∀ k ∈ E, e k ≠ 0) (hcard : 2 * E.card ≤ t) :
    ∃ c, c ≠ 0 ∧ tau = C c * locatorOf x E ∧ rho = C c * evaluatorOf x e E := by
  have hL := natDegree_locatorOf hx
  have hW := natDegree_evaluatorOf_le (e := e) hx
  have htau := h.natDegree_le
  obtain ⟨v0, v, -, hcomb, hdet⟩ := h.bezout
  obtain ⟨m, hm⟩ := X_pow_dvd_evaluatorOf_sub (x := x) (e := e) (E := E) (t := t)
  set S := syndromeOf x e E t
  set L := locatorOf x E
  set W := evaluatorOf x e E
  have hkey : W = L * S + X ^ t * m := eq_add_of_sub_eq' hm
  have hcross : tau * W = L * rho := by
    refine sub_eq_zero.mp (eq_zero_of_dvd_of_natDegree_lt (p := X ^ t) ⟨tau * m - L * v, ?_⟩ ?_)
    · rw [hkey, hcomb]
      ring
    · have h1 := natDegree_mul_le (p := tau) (q := W)
      have h2 := natDegree_mul_le (p := L) (q := rho)
      rw [natDegree_X_pow]
      exact lt_of_le_of_lt (natDegree_sub_le _ _) (by omega)
  obtain ⟨c, hc⟩ : L ∣ tau := (isCoprime_locatorOf_evaluatorOf hx hinj he).dvd_of_dvd_mul_right ⟨rho, hcross⟩
  have hrhoc : rho = c * W := by
    refine mul_left_cancel₀ (a := L) locatorOf_ne_zero ?_
    rw [← hcross, hc, mul_assoc]
  have hv : v = c * m := by
    refine mul_left_cancel₀ (pow_ne_zero t X_ne_zero) ?_
    calc X ^ t * v = rho - tau * S := by rw [hcomb]; ring
      _ = c * (W - L * S) := by rw [hrhoc, hc]; ring
      _ = X ^ t * (c * m) := by rw [hm]; ring
  have hunit : IsUnit c := isUnit_of_dvd_one ⟨u0 * m + L * v0, by rw [← hdet, hv, hc]; ring⟩
  obtain ⟨a, ha, rfl⟩ := Polynomial.isUnit_iff.mp hunit
  exact ⟨a, ha.ne_zero, by rw [hc, mul_comm], hrhoc⟩

end
end

end Sys2Proof.Claims
end

section
/-! The decoder repairs up to half of `t` errors (45_reed_solomon R231 (a)): the Euclidean algorithm finds the locator
of the errors, the search its roots, Forney's formula their values. -/

namespace Sys2Proof.Machine

open Sys2Proof.Claims Polynomial

/-! ## The errors of a received word -/

/-- The error of a received word at a position. -/
def errorAt (word recv : List Byte) (k : Nat) : Byte := word.getD k 0 ^^^ recv.getD k 0

/-- The positions with an error. -/
def errorPositions (word recv : List Byte) : Finset Nat := {k ∈ Finset.range word.length | errorAt word recv k ≠ 0}

/-- The location of position `k` in a word of `n` bytes (45_reed_solomon, preamble). -/
def locationOf (n k : Nat) : Byte := gfExp (n - 1 - k)

theorem mem_errorPositions {word recv : List Byte} {k : Nat} :
    k ∈ errorPositions word recv ↔ k < word.length ∧ errorAt word recv k ≠ 0 := by
  rw [errorPositions, Finset.mem_filter, Finset.mem_range]

theorem card_errorPositions (word recv : List Byte) : (errorPositions word recv).card = differences word recv := by
  have hpred : (fun k => word.getD k 0 != recv.getD k 0) = fun k => decide (errorAt word recv k ≠ 0) := by
    funext k
    rw [Bool.eq_iff_iff, bne_iff_ne, decide_eq_true_iff]
    exact BitVec.xor_eq_zero_iff.not.symm
  rw [differences, hpred]
  rfl

section
variable {word recv : List Byte}

/-- The error turns the received byte into that of the codeword. -/
theorem getD_xor_errorAt (k : Nat) : recv.getD k 0 ^^^ errorAt word recv k = word.getD k 0 := by
  rw [errorAt, BitVec.xor_comm (word.getD k 0), ← BitVec.xor_assoc, byte_xor_self, byte_zero_xor]

theorem getD_eq_of_notMem_errorPositions {k : Nat} (hk : k < word.length) (h : k ∉ errorPositions word recv) :
    recv.getD k 0 = word.getD k 0 := by
  have h0 : errorAt word recv k = 0 := by
    by_contra hne
    exact h (mem_errorPositions.mpr ⟨hk, hne⟩)
  rw [← getD_xor_errorAt (word := word) (recv := recv), h0, byte_xor_zero]

theorem eq_of_getD_eq {u v : List Byte} (hlen : u.length = v.length) (h : ∀ k < v.length, u.getD k 0 = v.getD k 0) :
    u = v := by
  refine List.ext_getElem hlen fun k h1 h2 => ?_
  have := h k h2
  rwa [List.getD_eq_getElem _ _ h1, List.getD_eq_getElem _ _ h2] at this

theorem locationOf_ne_zero (n k : Nat) : locationOf n k ≠ 0 := gfExp_ne_zero _

theorem locationOf_injOn {n i j : Nat} (hn : n ≤ 255) (hi : i < n) (hj : j < n) (h : locationOf n i = locationOf n j) :
    i = j := by
  have := gfExp_injOn (by omega) (by omega) h
  omega

theorem logAt_locationOf {n k : Nat} (hn : n ≤ 255) (hk : k < n) : logAt (locationOf n k) = n - 1 - k := by
  rw [locationOf, gfExp_of_lt (by omega), logAt_expAt _ (by omega)]

end

/-! ## Syndromes -/

theorem coef_syndromes (word : List Byte) (t d : Nat) :
    coef (syndromes word t) d = if d < t then horner word (gfExp d) else 0 := by
  by_cases hd : d < t
  · rw [if_pos hd, coef, syndromes, ← List.map_reverse, List.reverse_reverse, getD_map_range hd]
  · rw [if_neg hd, coef_of_length_le (by rw [syndromes_length]; omega)]

section
variable {F : Type} [Field F]

/-- The location of a position as an element of the field. -/
abbrev fieldLocation (φ : Byte → F) (word : List Byte) (k : Nat) : F := φ (locationOf word.length k)

/-- The error at a position as an element of the field. -/
abbrev fieldError (φ : Byte → F) (word recv : List Byte) (k : Nat) : F := φ (errorAt word recv k)

variable {φ : Byte → F} (hφ : ByteField φ)
include hφ

theorem map_horner_eq_sum (f : List Byte) (y : Byte) :
    φ (horner f y) = ∑ k ∈ Finset.range f.length, φ (f.getD k 0) * φ y ^ (f.length - 1 - k) := by
  induction f using List.reverseRecOn with
  | nil => exact hφ.map_zero
  | append_singleton f c ih =>
    rw [← eval_polyOf hφ, polyOf_concat, eval_add, eval_mul, eval_polyOf hφ, ih, eval_X, eval_C, List.length_append,
      List.length_singleton, Finset.sum_range_succ, Finset.sum_mul]
    refine congrArg₂ _ (Finset.sum_congr rfl fun k hk => ?_) ?_
    · have hk := Finset.mem_range.mp hk
      rw [List.getD_append _ _ _ _ hk, mul_assoc, ← pow_succ]
      congr 2
      omega
    · simp

variable {word recv : List Byte} {t : Nat}

/-- The syndromes are those of the errors alone (45_reed_solomon R224). -/
theorem map_horner_of_codeword (hlen : recv.length = word.length) {i : Nat} (hzero : horner word (gfExp i) = 0) :
    φ (horner recv (gfExp i)) = ∑ k ∈ errorPositions word recv,
      fieldError φ word recv k * fieldLocation φ word k ^ i := by
  have hpow (m : Nat) : φ (gfExp i) ^ m = φ (gfExp m) ^ i := by
    rw [hφ.map_gfExp, hφ.map_gfExp, ← pow_mul, ← pow_mul, mul_comm]
  have hsum : φ (horner recv (gfExp i)) = ∑ k ∈ Finset.range word.length,
      fieldError φ word recv k * fieldLocation φ word k ^ i := by
    rw [← zero_add (φ (horner recv _)), ← hφ.map_zero, ← hzero, map_horner_eq_sum hφ, map_horner_eq_sum hφ, hlen,
      ← Finset.sum_add_distrib]
    exact Finset.sum_congr rfl fun k _ => by
      rw [fieldError, errorAt, hφ.map_xor, add_mul, hpow, fieldLocation, locationOf]
  rw [hsum, errorPositions, Finset.sum_filter_of_ne]
  intro k _ hne h0
  exact hne (by rw [fieldError, h0, hφ.map_zero, zero_mul])

theorem polyOf_syndromes (hlen : recv.length = word.length) (hzero : ∀ i, i < t → horner word (gfExp i) = 0) :
    polyOf φ (syndromes recv t) = syndromeOf (fieldLocation φ word) (fieldError φ word recv)
      (errorPositions word recv) t := by
  ext d
  rw [coeff_polyOf hφ, coef_syndromes, syndromeOf, finsetSum_coeff]
  simp only [coeff_C_mul_X_pow, Finset.sum_ite_eq, Finset.mem_range]
  split
  · next hd => exact map_horner_of_codeword hφ hlen (hzero d hd)
  · exact hφ.map_zero

end

/-! ## The correction of the errors -/

section
variable {word recv sigma omega : List Byte}

/-- Locations that stand once change each its own byte. -/
theorem corrected_getD_of_mem {locs : List Byte} {f : Byte → Byte} {k : Nat} {l : Byte} (hk : k < recv.length)
    (hn : locs.Nodup) (hl : l ∈ locs) (hpos : ∀ a ∈ locs, recv.length - 1 - logAt a = k ↔ a = l) :
    (corrected recv locs (locs.map f)).getD k 0 = recv.getD k 0 ^^^ f l := by
  have hzip : locs.zip (locs.map f) = locs.map fun a => (a, f a) := by
    rw [← List.zip_map', List.map_id']
  have hfilter : locs.filter (fun a => recv.length - 1 - logAt a == k) = [l] := by
    rw [List.filter_congr (q := (· == l)) fun a ha => by rw [Bool.eq_iff_iff, beq_iff_eq, beq_iff_eq, hpos a ha],
      List.filter_beq, List.count_eq_one_of_mem hn hl, List.replicate_one]
  rw [corrected, getD_map_range hk, hzip, List.filter_map, List.foldl_map]
  exact congrArg (List.foldl _ _) hfilter

/-- The search has found the locations of the errors. -/
def LocatesErrors (word recv locs : List Byte) : Prop :=
  ∀ a, a ∈ locs ↔ ∃ k ∈ errorPositions word recv, a = locationOf word.length k

/-- With the locations and the values of the errors, the correction gives the codeword. -/
theorem corrected_eq_of_locates {locs : List Byte} (hlen : recv.length = word.length) (h255 : word.length ≤ 255)
    (hn : locs.Nodup) (hlocs : LocatesErrors word recv locs) :
    corrected recv locs (locs.map fun a => errorAt word recv (word.length - 1 - logAt a)) = word := by
  refine eq_of_getD_eq ((corrected_length ..).trans hlen) fun k hk => ?_
  have hpos {j : Nat} (hj : j ∈ errorPositions word recv) :
      word.length - 1 - logAt (locationOf word.length j) = j := by
    have hj := (mem_errorPositions.mp hj).left
    rw [logAt_locationOf h255 hj]
    omega
  by_cases herr : k ∈ errorPositions word recv
  · have honce : ∀ a ∈ locs, recv.length - 1 - logAt a = k ↔ a = locationOf word.length k := fun a ha => by
      obtain ⟨j, hj, rfl⟩ := (hlocs a).mp ha
      rw [hlen, hpos hj]
      exact ⟨congrArg _, locationOf_injOn h255 (mem_errorPositions.mp hj).left hk⟩
    rw [corrected_getD_of_mem (hlen ▸ hk) hn ((hlocs _).mpr ⟨k, herr, rfl⟩) honce, hpos herr, getD_xor_errorAt]
  · rw [corrected_getD_of_notMem (hlen ▸ hk), getD_eq_of_notMem_errorPositions hk herr]
    intro hmem
    obtain ⟨a, ha, hak⟩ := List.mem_map.mp hmem
    obtain ⟨j, hj, rfl⟩ := (hlocs a).mp ha
    rw [hlen, hpos hj] at hak
    exact herr (hak ▸ hj)

theorem LocatesErrors.inside {locs : List Byte} (hlen : recv.length = word.length) (h255 : word.length ≤ 255)
    (hlocs : LocatesErrors word recv locs) : locs.all (fun l => decide (logAt l < recv.length)) = true := by
  refine List.all_eq_true.mpr fun a ha => decide_eq_true ?_
  obtain ⟨k, hk, rfl⟩ := (hlocs a).mp ha
  have hk := (mem_errorPositions.mp hk).left
  rw [logAt_locationOf h255 hk, hlen]
  omega

theorem LocatesErrors.length_eq {locs : List Byte} (h255 : word.length ≤ 255) (hn : locs.Nodup)
    (hlocs : LocatesErrors word recv locs) : locs.length = (errorPositions word recv).card := by
  have himage : locs.toFinset = (errorPositions word recv).image (locationOf word.length) := by
    ext a
    rw [List.mem_toFinset, hlocs a, Finset.mem_image]
    simp only [eq_comm]
  rw [← List.toFinset_card_of_nodup hn, himage, Finset.card_image_of_injOn]
  exact fun i hi j hj => locationOf_injOn h255 (mem_errorPositions.mp hi).left (mem_errorPositions.mp hj).left

end

/-! ## What the stages find -/

section
variable {F : Type} [Field F] {φ : Byte → F} (hφ : ByteField φ) {word recv sigma omega : List Byte}
include hφ

/-- The roots of the locator are the inverses of the locations (45_reed_solomon R227). -/
theorem locatesErrors_rootLocations
    (hsigma : polyOf φ sigma = locatorOf (fieldLocation φ word) (errorPositions word recv)) :
    LocatesErrors word recv (rootLocations sigma) := by
  intro a
  rw [mem_rootLocations, horner_eq_zero_iff hφ, hsigma, eval_locatorOf_eq_zero_iff, hφ.map_byteInv]
  constructor
  · rintro ⟨ha, k, hk, hone⟩
    exact ⟨k, hk, hφ.injective ((mul_inv_eq_one₀ (hφ.map_eq_zero_iff.not.mpr ha)).mp hone).symm⟩
  · rintro ⟨k, hk, rfl⟩
    have hne := locationOf_ne_zero word.length k
    exact ⟨hne, k, hk, mul_inv_cancel₀ (hφ.map_eq_zero_iff.not.mpr hne)⟩

theorem fieldLocation_ne_zero : ∀ k ∈ errorPositions word recv, fieldLocation φ word k ≠ 0 := fun _ _ =>
  hφ.map_eq_zero_iff.not.mpr (locationOf_ne_zero _ _)

theorem fieldError_ne_zero : ∀ k ∈ errorPositions word recv, fieldError φ word recv k ≠ 0 := fun _ hk =>
  hφ.map_eq_zero_iff.not.mpr (mem_errorPositions.mp hk).right

theorem fieldLocation_injOn (h255 : word.length ≤ 255) :
    Set.InjOn (fieldLocation φ word) (errorPositions word recv) := fun _ hi _ hj h =>
  locationOf_injOn h255 (mem_errorPositions.mp hi).left (mem_errorPositions.mp hj).left (hφ.injective h)

/-- The denominator of a location is the value of the locator without its factor (45_reed_solomon R228). -/
theorem map_forneyProduct {locs : List Byte} {i k : Nat} {xin : Byte} (h255 : word.length ≤ 255) (hn : locs.Nodup)
    (hlocs : LocatesErrors word recv locs) (hi : i < locs.length) (hk : k ∈ errorPositions word recv)
    (hik : locs[i] = locationOf word.length k) : φ (forneyProduct locs i xin) =
      (locatorOf (fieldLocation φ word) ((errorPositions word recv).erase k)).eval (φ xin) := by
  have := hφ.charP
  have hothers : (locs.eraseIdx i).toFinset = ((errorPositions word recv).erase k).image (locationOf word.length) := by
    ext a
    rw [List.mem_toFinset, ← hn.erase_getElem i hi, hn.mem_erase_iff, hlocs a, hik, Finset.mem_image]
    constructor
    · rintro ⟨hne, j, hj, rfl⟩
      exact ⟨j, Finset.mem_erase.mpr ⟨fun h => hne (congrArg _ h), hj⟩, rfl⟩
    · rintro ⟨j, hj, rfl⟩
      obtain ⟨hne, hj⟩ := Finset.mem_erase.mp hj
      exact ⟨fun h => hne (fieldLocation_injOn hφ h255 hj hk (congrArg φ h)), j, hj, rfl⟩
  have hinj : Set.InjOn (locationOf word.length) ((errorPositions word recv).erase k) := fun l hl j hj h =>
    fieldLocation_injOn hφ h255 (Finset.mem_of_mem_erase hl) (Finset.mem_of_mem_erase hj) (congrArg φ h)
  calc φ (forneyProduct locs i xin)
      = ((locs.eraseIdx i).map fun a => 1 - φ a * φ xin).prod := by
        rw [forneyProduct, hφ.map_foldl_gfMul, hφ.map_one, one_mul, List.map_map]
        congr 2
        funext a
        rw [Function.comp_apply, hφ.map_xor, hφ.map_mul, hφ.map_one, CharTwo.sub_eq_add]
    _ = ∏ a ∈ (locs.eraseIdx i).toFinset, (1 - φ a * φ xin) := (List.prod_toFinset _ (hn.eraseIdx i)).symm
    _ = _ := by rw [hothers, Finset.prod_image hinj, eval_locatorOf]

/-- Forney's formula gives the values of the errors (45_reed_solomon R228). -/
theorem magnitudes_eq (h255 : word.length ≤ 255) (hlocs : LocatesErrors word recv (rootLocations sigma))
    (homega : polyOf φ omega = evaluatorOf (fieldLocation φ word) (fieldError φ word recv)
      (errorPositions word recv)) :
    magnitudes sigma omega =
      (rootLocations sigma).map fun a => errorAt word recv (word.length - 1 - logAt a) := by
  have hn := nodup_rootLocations sigma
  have hx := fieldLocation_ne_zero (word := word) (recv := recv) hφ
  refine List.ext_getElem (by rw [magnitudes, List.length_map, List.length_map, List.length_range]) fun i _ hi => ?_
  rw [List.length_map] at hi
  obtain ⟨k, hk, hik⟩ := (hlocs _).mp (List.getElem_mem hi)
  have hkn := (mem_errorPositions.mp hk).left
  have hforney := congrArg φ (gfMul_magnitude (omega := omega)
    (forall_distinctAt_iff.mpr ⟨zero_notMem_rootLocations sigma, hn⟩ i hi))
  rw [List.getD_eq_getElem _ _ hi, hik, hφ.map_mul, map_forneyProduct hφ h255 hn hlocs hi hk hik,
    ← eval_polyOf hφ, homega, hφ.map_byteInv, eval_evaluatorOf hx hk] at hforney
  have hvalue := hφ.injective
    (mul_right_cancel₀ (eval_locatorOf_erase_ne_zero hx (fieldLocation_injOn hφ h255) hk) hforney)
  have hposition : word.length - 1 - (word.length - 1 - k) = k := by omega
  rw [List.getElem_map, hik, logAt_locationOf h255 hkn, hposition, ← hvalue]
  simp [magnitudes]

end

/-! ## The repair -/

section
variable {word recv : List Byte} {t : Nat} (h255 : word.length ≤ 255) (hlen : recv.length = word.length)
  (hzero : ∀ i, i < t → horner word (gfExp i) = 0) (hnear : 2 * (errorPositions word recv).card ≤ t)
include h255 hlen hzero hnear

/-- A received word near a codeword whose syndromes are all 0 is that codeword. -/
theorem eq_of_syndromes_all_zero (hall : (syndromes recv t).all (· == 0) = true) : recv = word := by
  obtain ⟨F, _, φ, hφ⟩ := exists_byteField
  have hS : polyOf φ (syndromes recv t) = 0 := by
    ext d
    rw [coeff_polyOf hφ, coef_syndromes, coeff_zero, hφ.map_eq_zero_iff]
    exact ite_eq_right_iff.mpr (syndromes_all_zero_iff.mp hall d)
  rw [polyOf_syndromes hφ hlen hzero] at hS
  have hnone := eq_empty_of_syndromeOf_eq_zero (fieldLocation_ne_zero hφ) (fieldLocation_injOn hφ h255)
    (fieldError_ne_zero hφ) (by omega) hS
  exact eq_of_getD_eq hlen fun k hk => getD_eq_of_notMem_errorPositions hk (hnone ▸ Finset.notMem_empty k)

variable (h1 : 1 ≤ t) (h2 : t ≤ 255)
include h1 h2

/-- The key equation has been solved by the locator and the evaluator of the errors (45_reed_solomon R225). -/
theorem rsEuclid_of_near {F : Type} [Field F] {φ : Byte → F} (hφ : ByteField φ) :
    ∃ sigma omega, rsEuclid (normalForm (syndromes recv t)) t = .ok (.ok (sigma, omega)) ∧ Normal sigma ∧
      polyOf φ sigma = locatorOf (fieldLocation φ word) (errorPositions word recv) ∧
      polyOf φ omega = evaluatorOf (fieldLocation φ word) (fieldError φ word recv) (errorPositions word recv) := by
  have hss : syndromes recv t ≠ [] := List.length_pos_iff.mp (by rwa [syndromes_length])
  have hfit := (normalForm_length_le hss).trans (syndromes_length recv t).le
  obtain ⟨res, r0, rho, u0, tau, hres, hreach, hhalf, hends⟩ := rsEuclid_spec hss h1 h2 hfit
  obtain ⟨-, hrho, -, -⟩ := hreach.normal hss
  have hinv := hreach.invariant hφ hss h1 hfit
  rw [polyOf_syndromes hφ hlen hzero] at hinv
  rw [← natDegree_polyOf hφ hrho] at hhalf
  obtain ⟨c, hc, htau, hrhoc⟩ := hinv.eq_C_mul (fieldLocation_ne_zero hφ) (fieldLocation_injOn hφ h255) hhalf
    (fieldError_ne_zero hφ) hnear
  have hc0 : φ (coef tau 0) = c := by
    rw [← coeff_polyOf hφ, htau, coeff_C_mul, coeff_zero_locatorOf, mul_one]
  cases hends with
  | ambiguous h0 => exact absurd (by rw [← hc0, h0, hφ.map_zero]) hc
  | @solved sigma omega _ hsolved =>
    have hC : C c ≠ 0 := C_ne_zero.mpr hc
    exact ⟨sigma, omega, hres, hsolved.locator,
      mul_left_cancel₀ hC ((hc0 ▸ hsolved.polyOf_locator hφ).symm.trans htau),
      mul_left_cancel₀ hC ((hc0 ▸ hsolved.polyOf_evaluator hφ).symm.trans hrhoc)⟩

/-- At most half of `t` errors are found and undone. -/
theorem rsDecode_of_near (hw : recv ≠ []) :
    rsDecode recv t = .ok (.ok ((errorPositions word recv).card, word)) := by
  cases hall : (syndromes recv t).all (· == 0) with
  | true =>
    obtain rfl := eq_of_syndromes_all_zero h255 hlen hzero hnear hall
    rw [rsDecode_of_clean hw h1 hall, card_errorPositions, differences_self]
  | false =>
    obtain ⟨F, _, φ, hφ⟩ := exists_byteField
    obtain ⟨sigma, omega, hres, hnormal, hsigma, homega⟩ := rsEuclid_of_near h255 hlen hzero hnear h1 h2 hφ
    have hlocs := locatesErrors_rootLocations hφ hsigma
    have hn := nodup_rootLocations sigma
    have hcount := hlocs.length_eq h255 hn
    have hdegree : degree sigma = (errorPositions word recv).card := by
      rw [degree, ← natDegree_polyOf hφ hnormal, hsigma, natDegree_locatorOf (fieldLocation_ne_zero hφ)]
    rw [rsDecode_of_solved hw h1 hall hres, if_pos (hcount.trans hdegree.symm), if_pos (hlocs.inside hlen h255),
      magnitudes_eq hφ h255 hlocs homega, corrected_eq_of_locates hlen h255 hn hlocs, hcount]

end

/-- Settles O42: the encoded word is 0 at the first `t` powers of 2 (`rsEncode_spec`), and has at most 255 bytes. -/
theorem decoderCorrectsHalfDistance : Obligations.DecoderCorrectsHalfDistance := by
  intro s a b q r e data word hab t h1 hdata hlen hword hrecv hnear
  obtain ⟨F, _, φ, hφ⟩ := exists_byteField
  obtain ⟨ecc, hecc, hecclen, hdvd⟩ := rsEncode_spec hφ (List.length_pos_iff.mp hdata) h1 hlen
  obtain rfl : data ++ ecc = word := Except.ok.inj (hecc.symm.trans hword)
  have hwlen : (data ++ ecc).length = data.length + t := by rw [List.length_append, hecclen]
  have hdecode := rsDecode_of_near (by omega) hrecv (fun i hi => horner_eq_zero_of_generatorOf_dvd hφ hdvd hi)
    (by rw [card_errorPositions]; omega) h1 (by omega) (List.length_pos_iff.mp (by omega))
  rw [card_errorPositions] at hdecode
  exact finish_ite_of_not hab
    (finish_received_of_fits h1 (by omega) (by omega) (by omega) (finish_bind_of_ok hdecode rfl))

end Sys2Proof.Machine
end

section
/-! BPUT bit by bit: what stands at each position of the stream after an append (46_bitstream R260 to R263). -/

namespace Sys2Proof.Machine

open Sys2Proof.Claims

/-- The byte of position `q` may be OR-ed into: a new byte, or one that is written (46_bitstream R262). -/
def ByteBegun (dm : Memory Byte) (base q : Nat) : Prop := q % 8 = 0 ∨ (Memory.read dm (base + q / 8)).isSome

/-- `dm'` is `dm` with the `n` low bits of `value` appended at position `q` (46_bitstream R261, R262). -/
structure BitsPut (value : Word) (base n q : Nat) (dm dm' : Memory Byte) : Prop where
  frame : ∀ k, k < base + q / 8 ∨ n = 0 ∨ base + (q + n - 1) / 8 < k → Memory.read dm' k = Memory.read dm k
  bits : ∀ j, 0 < n → q / 8 ≤ j / 8 → j / 8 ≤ (q + n - 1) / 8 → streamBit dm' base j = some
    ((decide (q ≤ j ∧ j < q + n) && value.getLsbD (q + n - 1 - j)) ||
      (decide (q % 8 ≠ 0 ∧ j / 8 = q / 8) && (streamBit dm base j).getD false))

/-- DM after one more bit, OR-ed into the byte `old` of position `q` (R261). -/
def appendBit (dm : Memory Byte) (base q : Nat) (old : Byte) (b : Bool) : Memory Byte :=
  Memory.write dm (streamByte base q) (old ||| ((if b then 1 else 0 : Byte) <<< (7 - q % 8)))

variable {dm dm' : Memory Byte} {base n q j : Nat} {old : Byte} {b : Bool}

theorem streamBit_congr (h : Memory.read dm' (base + j / 8) = Memory.read dm (base + j / 8)) :
    streamBit dm' base j = streamBit dm base j := by
  rw [streamBit, h, streamBit]

/-- The bit of position `q` in its byte stands at position `q` alone (R260). -/
theorem getLsbD_shiftedBit (h : j / 8 = q / 8) :
    ((if b then 1 else 0 : Byte) <<< (7 - q % 8)).getLsbD (7 - j % 8) = (b && decide (j = q)) := by
  cases b with
  | false => simp
  | true =>
    rw [if_pos rfl, BitVec.getLsbD_shiftLeft, show (1 : Byte) = 1#8 from rfl, BitVec.getLsbD_one, Bool.eq_iff_iff]
    simp only [Bool.and_eq_true, Bool.not_eq_true', decide_eq_true_eq, decide_eq_false_iff_not, true_and]
    omega

theorem streamBit_appendBit_same (h : j / 8 = q / 8) : streamBit (appendBit dm base q old b) base j =
    some (old.getLsbD (7 - j % 8) || (b && decide (j = q))) := by
  rw [streamBit, h, appendBit, streamByte, Memory.read_write_same, Option.map_some, BitVec.getLsbD_or,
    getLsbD_shiftedBit h]

theorem read_appendBit_ne {k : Nat} (h : k ≠ base + q / 8) :
    Memory.read (appendBit dm base q old b) k = Memory.read dm k :=
  Memory.read_write_ne _ _ h

/-- The byte a bit is OR-ed into: all zero for a new byte, else the byte that stands there (R262). -/
theorem begunByte_of_begun (h : ByteBegun dm base q) : ∃ old, begunByte dm base q = .ok old ∧
    ∀ j, j / 8 = q / 8 → old.getLsbD (7 - j % 8) = (decide (q % 8 ≠ 0) && (streamBit dm base j).getD false) := by
  by_cases hq : q % 8 = 0
  · exact ⟨0, if_pos hq, by simp [hq]⟩
  · obtain ⟨v, hv⟩ := Option.isSome_iff_exists.mp (h.resolve_left hq)
    refine ⟨v, (if_neg hq).trans (writtenByte_of_read hv), fun j hj => ?_⟩
    simp [streamBit, hj, hv, hq]

theorem putBits_succ (value : Word) (h : begunByte dm base q = .ok old) :
    putBits value base (n + 1) q dm = putBits value base n (q + 1) (appendBit dm base q old (value.getLsbD n)) := by
  rw [putBits, h]
  rfl

theorem byteBegun_appendBit : ByteBegun (appendBit dm base q old b) base (q + 1) := by
  by_cases hq : (q + 1) % 8 = 0
  · exact .inl hq
  · rw [ByteBegun, show (q + 1) / 8 = q / 8 by omega]
    exact .inr (Option.isSome_of_eq_some (Memory.read_write_same ..))

/-- Appending at a new byte or at a byte begun answers, bit by bit as R261 and R262 say. -/
theorem putBits_of_begun (value : Word) (h : n = 0 ∨ ByteBegun dm base q) :
    ∃ dm', putBits value base n q dm = .ok dm' ∧ BitsPut value base n q dm dm' := by
  induction n generalizing q dm with
  | zero => exact ⟨dm, rfl, fun _ _ => rfl, fun _ h => absurd h (Nat.lt_irrefl 0)⟩
  | succ n ih =>
    obtain ⟨old, hold, hbit⟩ := begunByte_of_begun (h.resolve_left n.succ_ne_zero)
    obtain ⟨dm', hput, hframe, hbits⟩ := ih (.inr (byteBegun_appendBit (old := old) (b := value.getLsbD n)))
    rw [← putBits_succ value hold] at hput
    refine ⟨dm', hput, fun k hk => read_putBits_outside hput (by omega), fun j _ hlo hhi => ?_⟩
    by_cases hj : n = 0 ∨ j / 8 < (q + 1) / 8
    · -- the later bits are in other bytes, so the first bit alone decides
      have hjq : j / 8 = q / 8 := by omega
      rw [streamBit_congr (hframe _ (by omega)), streamBit_appendBit_same hjq, hbit j hjq]
      obtain rfl | hne := eq_or_ne j q
      · simp [Bool.or_comm]
      · simp [hjq, hne, show ¬ (q ≤ j ∧ j < q + (n + 1)) by omega]
    · -- the later bits, OR-ed into the byte of the first where that byte goes on
      rw [hbits j (by omega) (by omega) (by omega), show q + 1 + n - 1 - j = q + (n + 1) - 1 - j by omega]
      obtain rfl | hne := eq_or_ne j q
      · rw [streamBit_appendBit_same rfl, hbit j rfl]
        simp [show (j + 1) % 8 ≠ 0 ∧ j / 8 = (j + 1) / 8 by omega, Bool.or_comm]
      · simp only [show (q + 1 ≤ j ∧ j < q + 1 + n) ↔ (q ≤ j ∧ j < q + (n + 1)) by omega]
        by_cases hjq : j / 8 = q / 8
        · rw [streamBit_appendBit_same hjq, hbit j hjq]
          simp [hjq, hne, show (q + 1) % 8 ≠ 0 ∧ q / 8 = (q + 1) / 8 by omega]
        · simp [hjq, show ¬ ((q + 1) % 8 ≠ 0 ∧ j / 8 = (q + 1) / 8) by omega]

/-! ## The commands' steps -/

theorem checkStream_of_fits (h : n = 0 ∨ base + (q + n - 1) / 8 < Config.dmBytes) : checkStream base q n = .ok () :=
  if_neg (by rw [streamByte]; omega)

theorem checkStream_of_overrun (hn : 0 < n) (h : Config.dmBytes ≤ base + (q + n - 1) / 8) :
    checkStream base q n = raise .memRange (base + (q + n - 1) / 8) :=
  if_pos ⟨hn, h⟩

/-- `bb_put` of a range inside DM that starts a byte or goes on in a written one (R261, R262). -/
theorem bbPut_of_begun {s : State} (value : Word)
    (hfit : n = 0 ∨ s.csr.wbase.toNat + (s.csr.wlen.toNat + n - 1) / 8 < Config.dmBytes)
    (hbegun : n = 0 ∨ ByteBegun s.dm s.csr.wbase.toNat s.csr.wlen.toNat) :
    ∃ dm, bbPut value n s =
        .ok { s with dm := dm, csr := { s.csr with wlen := BitVec.ofNat 32 (s.csr.wlen.toNat + n) } } ∧
      BitsPut value s.csr.wbase.toNat n s.csr.wlen.toNat s.dm dm := by
  obtain ⟨dm, hput, hbits⟩ := putBits_of_begun value hbegun
  refine ⟨dm, ?_, hbits⟩
  rw [bbPut, checkStream_of_fits hfit, ok_bind, hput]
  rfl

theorem bbPut_of_overrun {s : State} (value : Word) (hn : 0 < n)
    (h : Config.dmBytes ≤ s.csr.wbase.toNat + (s.csr.wlen.toNat + n - 1) / 8) :
    bbPut value n s = raise .memRange (s.csr.wbase.toNat + (s.csr.wlen.toNat + n - 1) / 8) := by
  rw [bbPut, checkStream_of_overrun hn h]
  rfl

/-- BPUT of a range inside DM that starts a byte or goes on in a written one (R263). -/
theorem exec_bput_of_begun {s : State} {a c : XReg} (h32 : (s.getX c).toNat ≤ 32)
    (hfit : (s.getX c).toNat = 0 ∨
      s.csr.wbase.toNat + (s.csr.wlen.toNat + (s.getX c).toNat - 1) / 8 < Config.dmBytes)
    (hbegun : (s.getX c).toNat = 0 ∨ ByteBegun s.dm s.csr.wbase.toNat s.csr.wlen.toNat) :
    ∃ dm, exec (.bput a c) s = .next { s with
        dm := dm
        csr := { s.csr with wlen := BitVec.ofNat 32 (s.csr.wlen.toNat + (s.getX c).toNat) }
        pc := s.pc + 1 } ∧
      BitsPut (s.getX a) s.csr.wbase.toNat (s.getX c).toNat s.csr.wlen.toNat s.dm dm := by
  obtain ⟨dm, hput, hbits⟩ := bbPut_of_begun (s.getX a) hfit hbegun
  exact ⟨dm, finish_bind_of_ok (badOperandIf_of_not h32.not_gt _) (finish_bind_of_ok hput rfl), hbits⟩

/-- Settles O43: the count is checked before the range, and the append is `putBits_of_begun`. -/
theorem bitPutCommand : Obligations.BitPutCommand := by
  intro s a b n w base
  refine ⟨fun h32 hfit hbegun => ?put, fun hn => ?tooMany, fun hpos h32 hout => ?outside⟩
  case put =>
    obtain ⟨dm, hexec, hframe, hbits⟩ := exec_bput_of_begun (a := a) h32 hfit hbegun
    exact ⟨dm, hexec, hframe, hbits⟩
  case tooMany => exact finish_bind_of_raise (badOperandIf_of hn _)
  case outside =>
    exact finish_bind_of_ok (badOperandIf_of_not h32.not_gt _) (finish_bind_of_raise (bbPut_of_overrun _ hpos hout))

end Sys2Proof.Machine
end

section
/-! BPAD byte by byte: the terminator and the alignment are one stretch of zero bits, the pad bytes follow it
(46_bitstream R265, R266). -/

namespace Sys2Proof.Machine

open Sys2Proof.Claims

variable {dm dm' : Memory Byte} {base n q : Nat} {value : Word} {s : State}

/-! ## From bits to bytes -/

/-- Eight known bits are one byte (46_bitstream R260). -/
theorem read_of_streamBits {k : Nat} {v : Byte}
    (h : ∀ j, j / 8 = k → streamBit dm base j = some (v.getLsbD (7 - j % 8))) : Memory.read dm (base + k) = some v := by
  obtain ⟨u, hu, -⟩ := Option.map_eq_some_iff.mp (h (8 * k) (by omega))
  rw [show 8 * k / 8 = k by omega] at hu
  rw [hu, Option.some_inj]
  refine BitVec.eq_of_getLsbD_eq fun i hi => ?_
  have hbit := h (8 * k + (7 - i)) (by omega)
  rw [streamBit, show (8 * k + (7 - i)) / 8 = k by omega, show 7 - (8 * k + (7 - i)) % 8 = i by omega, hu] at hbit
  exact Option.some.inj hbit

/-- After an append the next position may be appended to. -/
theorem BitsPut.byteBegun (h : BitsPut value base n q dm dm') (hbegun : ByteBegun dm base q) :
    ByteBegun dm' base (q + n) := by
  obtain rfl | hn := Nat.eq_zero_or_pos n
  · rwa [ByteBegun, Nat.add_zero, h.frame _ (.inr (.inl rfl))]
  · refine or_iff_not_imp_left.mpr fun hq => ?_
    obtain ⟨v, hv, -⟩ := Option.map_eq_some_iff.mp (h.bits (q + n) hn (by omega) (by omega))
    exact Option.isSome_of_eq_some hv

/-- Zero bits leave a byte begun as it is and fill the bytes they begin with 0. -/
theorem BitsPut.read_zero (h : BitsPut 0 base n q dm dm') (hbegun : ByteBegun dm base q) (k : Nat) :
    Memory.read dm' (base + k) =
      if (q + 7) / 8 ≤ k ∧ k < (q + n + 7) / 8 then some 0 else Memory.read dm (base + k) := by
  split
  · refine read_of_streamBits fun j hj => ?_
    rw [h.bits j (by omega) (by omega) (by omega)]
    simp [show ¬ (q % 8 ≠ 0 ∧ j / 8 = q / 8) by omega]
  · by_cases hk : 0 < n ∧ k = q / 8
    · have hq : q % 8 ≠ 0 := by omega
      obtain ⟨v, hv⟩ := Option.isSome_iff_exists.mp (hbegun.resolve_left hq)
      rw [hk.2, hv]
      refine read_of_streamBits fun j hj => ?_
      rw [h.bits j hk.1 hj.ge (by omega)]
      simp [streamBit, hj, hq, hv]
    · exact h.frame _ (by omega)

/-- Eight bits at a byte boundary are one byte. -/
theorem BitsPut.read_byte (h : BitsPut value base 8 q dm dm') (hq : q % 8 = 0) :
    Memory.read dm' (base + q / 8) = some (value.setWidth 8) := by
  refine read_of_streamBits fun j hj => ?_
  rw [h.bits j (by omega) hj.ge (by omega), show q + 8 - 1 - j = 7 - j % 8 by omega]
  simp [hq, show q ≤ j ∧ j < q + 8 by omega, show 7 - j % 8 < 8 by omega]

/-! ## The steps of `bb_pad` -/

theorem bbPut_zero (hfit : n = 0 ∨ s.csr.wbase.toNat + (s.csr.wlen.toNat + n - 1) / 8 < Config.dmBytes)
    (hbegun : ByteBegun s.dm s.csr.wbase.toNat s.csr.wlen.toNat) :
    ∃ t, bbPut 0 n s = .ok t ∧ StreamExtended s t (s.csr.wlen.toNat + n) ∧
      ByteBegun t.dm s.csr.wbase.toNat (s.csr.wlen.toNat + n) ∧
      ∀ k, Memory.read t.dm (s.csr.wbase.toNat + k) =
        if (s.csr.wlen.toNat + 7) / 8 ≤ k ∧ k < (s.csr.wlen.toNat + n + 7) / 8 then some 0
        else Memory.read s.dm (s.csr.wbase.toNat + k) := by
  obtain ⟨dm, hput, hbits⟩ := bbPut_of_begun 0 hfit (.inr hbegun)
  exact ⟨_, hput, bbPut_extends hput, hbits.byteBegun hbegun, hbits.read_zero hbegun⟩

/-- The pad byte number `k` (46_bitstream R265). -/
def padByte (k : Nat) : Byte := if k % 2 = 0 then 0xEC else 0x11

theorem setWidth_pad (k : Nat) : (if k % 2 = 0 then Config.pad0 else Config.pad1).setWidth 8 = padByte k := by
  unfold padByte
  split <;> rfl

/-- The pad bytes alternate from the byte of WLEN on. -/
theorem padBytes_of_fits {count k : Nat} (h8 : s.csr.wlen.toNat % 8 = 0)
    (hfit : count = 0 ∨ s.csr.wbase.toNat + s.csr.wlen.toNat / 8 + count ≤ Config.dmBytes) :
    ∃ t, padBytes count k s = .ok t ∧
      ∀ i < count, Memory.read t.dm (s.csr.wbase.toNat + s.csr.wlen.toNat / 8 + i) = some (padByte (k + i)) := by
  induction count generalizing k s with
  | zero => exact ⟨s, rfl, fun _ hi => absurd hi (Nat.not_lt_zero _)⟩
  | succ count ih =>
    have hd : Config.dmBytes = 16384 := rfl
    obtain ⟨dm, hput, hbits⟩ := bbPut_of_begun (n := 8) (if k % 2 = 0 then Config.pad0 else Config.pad1) (by omega)
      (.inr (.inl h8))
    have hext := bbPut_extends hput
    have hfirst := hbits.read_byte h8
    rw [setWidth_pad] at hfirst
    generalize hu : ({ s with dm := dm, csr := _ } : State) = u at hput hext
    have hlen := hext.wlen (by omega)
    obtain ⟨t, hpad, hrest⟩ := ih (s := u) (k := k + 1) (by omega) (by rw [hlen, hext.wbase]; omega)
    have hframe := (padBytes_extends (by omega) hpad).frame
    rw [hlen, hext.wbase] at hrest hframe
    refine ⟨t, by rw [padBytes, hput, ok_bind, hpad], fun i hi => ?_⟩
    cases i with
    | zero =>
      rw [hframe _ (by omega), ← hu]
      exact hfirst
    | succ i =>
      rw [← Nat.add_assoc k, Nat.add_right_comm k, ← hrest i (by omega)]
      congr 1
      omega

/-- The number of the first pad byte: the byte after the terminator and the alignment (46_bitstream R265). -/
def firstPad (w m : Nat) : Nat := (w + min 4 (m - w) + 7) / 8

theorem ite_adjacent {α : Type} {a b c k : Nat} {x y : α} (hab : a ≤ b) (hbc : b ≤ c) :
    (if b ≤ k ∧ k < c then x else if a ≤ k ∧ k < b then x else y) = if a ≤ k ∧ k < c then x else y := by
  by_cases hk : b ≤ k
  · simp [hk, hk.not_gt, hab.trans hk]
  · simp [hk, Nat.lt_of_not_le hk, (Nat.lt_of_not_le hk).trans_le hbc]

section
variable {m : Nat} (h8 : m % 8 = 0) (hm : m < 2 ^ 32) (hle : s.csr.wlen.toNat ≤ m)
  (hfit : s.csr.wlen.toNat = m ∨ s.csr.wbase.toNat + m / 8 ≤ Config.dmBytes)
  (hbegun : ByteBegun s.dm s.csr.wbase.toNat s.csr.wlen.toNat)

include h8 hm hle hfit hbegun

/-- The terminator and the alignment: zero bytes up to the first pad byte. -/
theorem bbPut_zeros : ∃ t u, bbPut 0 (min 4 (m - s.csr.wlen.toNat)) s = .ok t ∧
    bbPut 0 ((8 - t.csr.wlen.toNat % 8) % 8) t = .ok u ∧ u.csr.wbase = s.csr.wbase ∧
    u.csr.wlen.toNat = 8 * firstPad s.csr.wlen.toNat m ∧
    ∀ k, Memory.read u.dm (s.csr.wbase.toNat + k) =
      if (s.csr.wlen.toNat + 7) / 8 ≤ k ∧ k < firstPad s.csr.wlen.toNat m then some 0
      else Memory.read s.dm (s.csr.wbase.toNat + k) := by
  obtain ⟨t, ht, htx, htbegun, htread⟩ := bbPut_zero (n := min 4 (m - s.csr.wlen.toNat)) (by omega) hbegun
  have htlen := htx.wlen (by omega)
  rw [← htlen] at htbegun htread
  obtain ⟨u, hu, hux, -, huread⟩ := bbPut_zero (s := t) (n := (8 - t.csr.wlen.toNat % 8) % 8)
    (by rw [htx.wbase]; omega) (by rwa [htx.wbase])
  have hend : t.csr.wlen.toNat + (8 - t.csr.wlen.toNat % 8) % 8 = 8 * firstPad s.csr.wlen.toNat m := by
    rw [firstPad, htlen]
    omega
  have hulen := hux.wlen (by omega)
  rw [hend] at hulen huread
  refine ⟨t, u, ht, hu, hux.wbase.trans htx.wbase, hulen, fun k => ?_⟩
  rw [htx.wbase] at huread
  rw [huread, htread, show (8 * firstPad s.csr.wlen.toNat m + 7) / 8 = firstPad s.csr.wlen.toNat m by omega]
  exact ite_adjacent (by omega) (by omega)

/-- `bb_pad(M)` of a whole number of bytes, no shorter than the stream and inside DM (R265). -/
theorem bbPad_of_begun : ∃ t, bbPad m s = .ok t ∧
    (∀ k < firstPad s.csr.wlen.toNat m, Memory.read t.dm (s.csr.wbase.toNat + k) =
      if (s.csr.wlen.toNat + 7) / 8 ≤ k then some 0 else Memory.read s.dm (s.csr.wbase.toNat + k)) ∧
    ∀ k, firstPad s.csr.wlen.toNat m + k < m / 8 →
      Memory.read t.dm (s.csr.wbase.toNat + firstPad s.csr.wlen.toNat m + k) = some (padByte k) := by
  obtain ⟨t, u, ht, hu, hbase, hlen, hzeros⟩ := bbPut_zeros h8 hm hle hfit hbegun
  obtain ⟨v, hv, hpads⟩ := padBytes_of_fits (s := u) (count := (m - u.csr.wlen.toNat) / 8) (k := 0) (by omega)
    (by rw [hbase, hlen, firstPad]; omega)
  have hframe := (padBytes_extends (by omega) hv).frame
  rw [hbase, show u.csr.wlen.toNat / 8 = firstPad s.csr.wlen.toNat m by omega] at hpads hframe
  refine ⟨v, ?_, fun k hk => ?zeros, fun k hk => ?pads⟩
  · rw [bbPad, ht]
    refine (if_neg hle.not_gt).trans ((if_neg (by omega)).trans ?_)
    rw [ok_bind, hu, ok_bind, hv]
  case zeros =>
    rw [hframe _ (by omega), hzeros]
    simp [hk]
  case pads => rw [hpads k (by omega), Nat.zero_add]

end

theorem bbPad_of_short {m : Nat} (h : m < s.csr.wlen.toNat) : bbPad m s = raise .dataOverflow s.csr.wlen.toNat :=
  if_pos h

theorem bbPad_of_overrun {m : Nat} (h : s.csr.wlen.toNat < m) (hout : Config.dmBytes < s.csr.wbase.toNat + m / 8) :
    bbPad m s = raise .memRange (s.csr.wbase.toNat + m / 8 - 1) :=
  (if_neg h.le.not_gt).trans (if_pos ⟨h, hout⟩)

/-- Settles O44: the checks come in the rule's order, and what is stored is `bbPad_of_begun` inside the frame of
`bbPad_extends`. -/
theorem bitPadCommand : Obligations.BitPadCommand := by
  intro s a m w base first
  have hwhole (h8 : m % 8 = 0) : badOperandIf (decide (m % 8 ≠ 0)) m = .ok () := badOperandIf_of_not (not_not.mpr h8) m
  refine ⟨fun h8 hle hfit hbegun => ?pad, fun h8 => ?oddCount, fun h8 hlt => ?short, fun h8 hlt hout => ?outside⟩
  case pad =>
    have hm : m < 2 ^ 32 := (s.getX a).isLt
    have hbegun : ByteBegun s.dm base w := hbegun.elim (fun hw => .inl (hw ▸ h8)) id
    obtain ⟨t, ht, hzeros, hpads⟩ := bbPad_of_begun h8 hm hle hfit hbegun
    obtain ⟨⟨hstate, -, hframe⟩, -⟩ := bbPad_extends hm h8 ht
    have hexec : exec (.bpad a) s = .next t.advance :=
      finish_bind_of_ok (hwhole h8) (finish_bind_of_ok ht rfl)
    refine ⟨t.dm, hexec.trans ?state, fun k hk => ?kept, fun k hlo hhi _ => ?zeros, hpads⟩
    case state =>
      conv_lhs => rw [hstate]
      rw [word_ofNat_toNat]
      rfl
    case kept =>
      by_cases hin : base + w / 8 ≤ k ∧ k < base + (w + 7) / 8
      · obtain ⟨i, rfl⟩ := Nat.exists_eq_add_of_le (Nat.le_of_add_right_le hin.1)
        exact (hzeros i (by rw [firstPad]; omega)).trans (if_neg (by omega))
      · exact hframe k (by omega)
    case zeros =>
      obtain ⟨i, rfl⟩ := Nat.exists_eq_add_of_le (Nat.le_of_add_right_le hlo)
      exact (hzeros i (Nat.lt_of_add_lt_add_left hhi)).trans (if_pos (by omega))
  case oddCount => exact finish_bind_of_raise (badOperandIf_of h8 _)
  case short => exact finish_bind_of_ok (hwhole h8) (finish_bind_of_raise (bbPad_of_short hlt))
  case outside => exact finish_bind_of_ok (hwhole h8) (finish_bind_of_raise (bbPad_of_overrun hlt hout))

end Sys2Proof.Machine
end

section
/-! BREAD reads the word whose bits stand in the stream (46_bitstream R268, R269). -/

namespace Sys2Proof.Machine

open Sys2Proof.Claims

/-- The `n` low bits of `u` stand from position `q` on, the most significant first (46_bitstream R260, R268). -/
def Stands (dm : Memory Byte) (base q n : Nat) (u : Word) : Prop :=
  ∀ i < n, streamBit dm base (q + i) = some (u.getLsbD (n - 1 - i))

variable {dm : Memory Byte} {base n q : Nat} {u : Word}

/-- A position whose bit is known lies in a written byte. -/
theorem writtenByte_of_streamBit {bit : Bool} (h : streamBit dm base q = some bit) :
    ∃ v, writtenByte dm (streamByte base q) = .ok v ∧ v.getLsbD (7 - q % 8) = bit := by
  obtain ⟨v, hv, hbit⟩ := Option.map_eq_some_iff.mp h
  exact ⟨v, writtenByte_of_read hv, hbit⟩

theorem shiftRight_succ_shiftLeft_or (u : Word) (n : Nat) :
    ((u >>> (n + 1)) <<< 1 ||| if u.getLsbD n then 1 else 0) = u >>> n := by
  ext i hi
  cases i with
  | zero => cases h : u.getLsbD n <;> simp [h]
  | succ i => cases u.getLsbD n <;> simp [Nat.add_comm, Nat.add_left_comm]

/-- Reading on from the high bits of `u` gives `u` where its low bits stand. -/
theorem readBits_of_stands (h : Stands dm base q n u) : readBits dm base n q (u >>> n) = .ok u := by
  induction n generalizing q with
  | zero => rw [readBits, BitVec.ushiftRight_zero]
  | succ n ih =>
    obtain ⟨v, hv, hbit⟩ := writtenByte_of_streamBit (h 0 n.succ_pos)
    have hrest : Stands dm base (q + 1) n u := fun i hi => by
      rw [Nat.add_assoc, Nat.add_comm 1, h (i + 1) (Nat.succ_lt_succ hi), show n + 1 - 1 - (i + 1) = n - 1 - i by omega]
    rw [Nat.add_zero] at hv hbit
    rw [readBits, hv, ok_bind, hbit]
    exact (congrArg _ (shiftRight_succ_shiftLeft_or u n)).trans (ih hrest)

/-- Written positions hold the bits of some word. -/
theorem exists_stands (hn : n ≤ 32) (h : ∀ i < n, (streamBit dm base (q + i)).isSome) :
    ∃ u : Word, u.toNat < 2 ^ n ∧ Stands dm base q n u := by
  refine ⟨(BitVec.ofFnLE fun i : Fin n => (streamBit dm base (q + (n - 1 - i))).getD false).setWidth 32, ?_,
    fun i hi => ?_⟩
  · rw [BitVec.toNat_setWidth]
    exact (Nat.mod_le ..).trans_lt (BitVec.isLt _)
  · obtain ⟨b, hb⟩ := Option.isSome_iff_exists.mp (h i hi)
    have hlast : n - 1 - i < n := by omega
    have hin : n - 1 - i < 32 := by omega
    simp [hb, hlast, hin, show n - 1 - (n - 1 - i) = i by omega]

/-- BREAD of a range inside the stream and inside DM (R269). -/
theorem exec_bread_of_stands {s : State} {a c : XReg} (h1 : 1 ≤ (s.getX c).toNat) (h32 : (s.getX c).toNat ≤ 32)
    (hlim : s.csr.rpos.toNat + (s.getX c).toNat ≤ s.csr.rlim.toNat)
    (hfit : s.csr.rbase.toNat + (s.csr.rpos.toNat + (s.getX c).toNat - 1) / 8 < Config.dmBytes)
    (hu : u.toNat < 2 ^ (s.getX c).toNat)
    (h : Stands s.dm s.csr.rbase.toNat s.csr.rpos.toNat (s.getX c).toNat u) :
    exec (.bread a c) s = .next { s with
      x := s.x.set a.val u
      csr := { s.csr with rpos := BitVec.ofNat 32 (s.csr.rpos.toNat + (s.getX c).toNat) }
      pc := s.pc + 1 } := by
  have hzero : u >>> (s.getX c).toNat = 0 := BitVec.eq_of_toNat_eq <| by
    rw [BitVec.toNat_ushiftRight, Nat.shiftRight_eq_div_pow, Nat.div_eq_of_lt hu]
    rfl
  have hread := readBits_of_stands h
  rw [hzero] at hread
  exact finish_bind_of_ok (badOperandIf_of_not (by omega) _) <| finish_ite_of_not (by rw [available]; omega) <|
    finish_bind_of_ok (checkStream_of_fits (.inr hfit)) (finish_bind_of_ok hread rfl)

/-- Settles O45: the count is checked first, then the end of the stream, then the range; nothing is consumed before the
word is read. -/
theorem bitReadCommand : Obligations.BitReadCommand := by
  intro s a b n q base
  refine ⟨fun h1 h32 hlim hfit hbits => ?read, fun hn => ?badCount, fun h1 h32 hend => ?pastEnd,
    fun h1 h32 hlim hout => ?outside⟩
  case read =>
    obtain ⟨u, hu, hstands⟩ := exists_stands h32 hbits
    exact ⟨u, exec_bread_of_stands h1 h32 hlim hfit hu hstands, hu, hstands⟩
  case badCount => exact finish_bind_of_raise (badOperandIf_of hn _)
  all_goals refine finish_bind_of_ok (badOperandIf_of_not (by omega) _) ?_
  case pastEnd =>
    have hshort : available s < n := by rw [available]; omega
    exact (congrArg (finish s) (if_pos hshort)).trans (congrArg _ (State.enterFault_eq_faultState ..))
  case outside =>
    exact finish_ite_of_not (by rw [available]; omega) (finish_bind_of_raise (checkStream_of_overrun h1 hout))

end Sys2Proof.Machine
end

section
/-! What BPUT wrote into a fresh buffer, BREAD reads back (46_bitstream R271). -/

namespace Sys2Proof.Machine

open Sys2Proof.Claims

variable {dm dm' : Memory Byte} {base n q : Nat} {value : Word}

/-- The byte of position `q`, where it is begun, is written and holds no bit from `q` on: what every BPUT leaves behind
in a buffer started at WLEN = 0 (46_bitstream R261). -/
def CleanFrom (dm : Memory Byte) (base q : Nat) : Prop :=
  q % 8 ≠ 0 → ∀ j, q ≤ j → j / 8 = q / 8 → streamBit dm base j = some false

theorem isSome_read_of_streamBit {j : Nat} {bit : Bool} (h : streamBit dm base j = some bit) :
    (Memory.read dm (base + j / 8)).isSome := by
  obtain ⟨v, hv, -⟩ := Option.map_eq_some_iff.mp h
  exact Option.isSome_of_eq_some hv

theorem CleanFrom.byteBegun (h : CleanFrom dm base q) : ByteBegun dm base q :=
  or_iff_not_imp_left.mpr fun hq => isSome_read_of_streamBit (h hq q le_rfl rfl)

/-- An append changes no bit before its position. -/
theorem BitsPut.before (h : BitsPut value base n q dm dm') (hclean : CleanFrom dm base q) {j : Nat} (hj : j < q) :
    streamBit dm' base j = streamBit dm base j := by
  by_cases hout : n = 0 ∨ j / 8 < q / 8
  · exact streamBit_congr (h.frame _ (by omega))
  · have hjq : j / 8 = q / 8 := by omega
    have hq : q % 8 ≠ 0 := by omega
    obtain ⟨v, hv⟩ := Option.isSome_iff_exists.mp (hclean.byteBegun.resolve_left hq)
    rw [h.bits j (by omega) (by omega) (by omega)]
    simp [streamBit, hjq, hq, hv, hj.not_ge]

/-- From its position on, an append into a clean byte leaves its own bits and zeros. -/
theorem BitsPut.after (h : BitsPut value base n q dm dm') (hclean : CleanFrom dm base q) {j : Nat} (hn : 0 < n)
    (hlo : q ≤ j) (hhi : j / 8 ≤ (q + n - 1) / 8) :
    streamBit dm' base j = some (decide (j < q + n) && value.getLsbD (q + n - 1 - j)) := by
  rw [h.bits j hn (by omega) hhi]
  by_cases hsame : q % 8 ≠ 0 ∧ j / 8 = q / 8
  · simp [hclean hsame.1 j hlo hsame.2, hlo]
  · simp [hsame, hlo]

theorem BitsPut.stands (h : BitsPut value base n q dm dm') (hclean : CleanFrom dm base q) :
    Stands dm' base q n value := fun i hi => by
  rw [h.after hclean (by omega) (by omega) (by omega)]
  simp [hi, show q + n - 1 - (q + i) = n - 1 - i by omega]

theorem BitsPut.cleanFrom (h : BitsPut value base n q dm dm') (hclean : CleanFrom dm base q) :
    CleanFrom dm' base (q + n) := fun hq j hlo hj => by
  obtain rfl | hn := Nat.eq_zero_or_pos n
  · rw [streamBit_congr (h.frame _ (.inr (.inl rfl))), hclean hq j hlo hj]
  · rw [h.after hclean hn (by omega) (by omega)]
    simp [hlo.not_gt]

/-! ## A sequence of appends -/

/-- The values of `items` stand one after the other from position `q` on. -/
def StandInTurn (dm : Memory Byte) (base : Nat) : Nat → List (Word × Nat) → Prop
  | _, [] => True
  | q, it :: rest => Stands dm base q it.2 it.1 ∧ StandInTurn dm base (q + it.2) rest

theorem Stands.congr (h : Stands dm base q n value)
    (heq : ∀ j < q + n, streamBit dm' base j = streamBit dm base j) : Stands dm' base q n value :=
  fun i hi => (heq _ (by omega)).trans (h i hi)

theorem toNat_word_ofNat {k : Nat} (h : k < 2 ^ 32) : (BitVec.ofNat 32 k).toNat = k :=
  (BitVec.toNat_ofNat ..).trans (Nat.mod_eq_of_lt h)

theorem putAll_cons_of_exec {s t : State} {v : Word} (rest : List (Word × Nat))
    (h : exec (.bput 0 1) ((s.setX 0 v).setX 1 (BitVec.ofNat 32 n)) = .next t) (hf : t.status.fault = false) :
    putAll ((v, n) :: rest) s = putAll rest t := by
  rw [putAll, h]
  exact if_neg (Bool.eq_false_iff.mp hf)

/-- A BPUT of a sequence that has room in its clean buffer leaves the rest to a state with the bits appended. -/
theorem putAll_cons {s : State} {v : Word} (rest : List (Word × Nat)) (hf : s.status.fault = false) (h32 : n ≤ 32)
    (hfit : n = 0 ∨ s.csr.wbase.toNat + (s.csr.wlen.toNat + n - 1) / 8 < Config.dmBytes)
    (hclean : CleanFrom s.dm s.csr.wbase.toNat s.csr.wlen.toNat) :
    ∃ t, putAll ((v, n) :: rest) s = putAll rest t ∧ t.status.fault = false ∧ t.csr.wbase = s.csr.wbase ∧
      t.csr.wlen.toNat = s.csr.wlen.toNat + n ∧ BitsPut v s.csr.wbase.toNat n s.csr.wlen.toNat s.dm t.dm := by
  have hd : Config.dmBytes = 16384 := rfl
  let u := (s.setX 0 v).setX 1 (BitVec.ofNat 32 n)
  have hcount : (u.getX 1).toNat = n := by rw [State.getX_setX_same, toNat_word_ofNat (by omega)]
  have hvalue : u.getX 0 = v := (State.getX_setX_ne _ _ (by decide)).trans (State.getX_setX_same ..)
  obtain ⟨dm, hexec, hput⟩ := exec_bput_of_begun (s := u) (a := 0) (c := 1) (by rwa [hcount]) (by rwa [hcount])
    (.inr hclean.byteBegun)
  rw [hvalue, hcount] at hput
  rw [hcount] at hexec
  refine ⟨_, putAll_cons_of_exec rest hexec hf, hf, rfl, toNat_word_ofNat ?_, hput⟩
  show s.csr.wlen.toNat + n < 2 ^ 32
  omega

/-- What a sequence of BPUT does to a clean buffer that has room for it. -/
theorem putAll_of_clean {items : List (Word × Nat)} {s : State} (hf : s.status.fault = false)
    (h32 : ∀ it ∈ items, it.2 ≤ 32)
    (hfit : s.csr.wbase.toNat + (s.csr.wlen.toNat + (items.map Prod.snd).sum + 7) / 8 ≤ Config.dmBytes)
    (hclean : CleanFrom s.dm s.csr.wbase.toNat s.csr.wlen.toNat) :
    ∃ t, putAll items s = some t ∧ t.status.fault = false ∧
      t.csr.wlen.toNat = s.csr.wlen.toNat + (items.map Prod.snd).sum ∧
      (∀ j < s.csr.wlen.toNat, streamBit t.dm s.csr.wbase.toNat j = streamBit s.dm s.csr.wbase.toNat j) ∧
      StandInTurn t.dm s.csr.wbase.toNat s.csr.wlen.toNat items := by
  induction items generalizing s with
  | nil => exact ⟨s, rfl, hf, rfl, fun _ _ => rfl, trivial⟩
  | cons it rest ih =>
    obtain ⟨v, n⟩ := it
    obtain ⟨hn, h32⟩ := List.forall_mem_cons.mp h32
    rw [List.map_cons, List.sum_cons] at hfit ⊢
    obtain ⟨u, hu, huf, hbase, hlen, hput⟩ := putAll_cons (v := v) rest hf hn (by omega) hclean
    obtain ⟨t, ht, htf, htlen, hbefore, hstand⟩ := ih huf h32 (by rw [hbase, hlen]; omega)
      (by rw [hbase, hlen]; exact hput.cleanFrom hclean)
    rw [hbase, hlen] at hbefore hstand
    refine ⟨t, hu.trans ht, htf, by omega, fun j hj => ?_, (hput.stands hclean).congr hbefore, hstand⟩
    rw [hbefore j (by omega), hput.before hclean hj]

/-! ## A sequence of reads -/

/-- The `n` low bits of a word. -/
def lowBits (v : Word) (n : Nat) : Word := BitVec.ofNat 32 (v.toNat % 2 ^ n)

theorem toNat_lowBits (v : Word) (n : Nat) : (lowBits v n).toNat = v.toNat % 2 ^ n :=
  toNat_word_ofNat ((Nat.mod_le ..).trans_lt v.isLt)

theorem Stands.lowBits {v : Word} (h : Stands dm base q n v) : Stands dm base q n (lowBits v n) := fun i hi => by
  rw [h i hi, BitVec.getLsbD, BitVec.getLsbD, toNat_lowBits, Nat.testBit_mod_two_pow]
  simp [show n - 1 - i < n by omega]

theorem readAll_succ_of_exec {s t : State} {v : Word} (counts : List Nat)
    (h : exec (.bread 2 1) (s.setX 1 (BitVec.ofNat 32 (n + 1))) = .next t) (hf : t.status.fault = false)
    (hv : t.getX 2 = v) : readAll ((n + 1) :: counts) s = (readAll counts t).map (v :: ·) := by
  rw [readAll, h, ← hv]
  exact if_neg (Bool.eq_false_iff.mp hf)

/-- A BREAD of a sequence whose values stand in the stream reads the first and leaves the rest. -/
theorem readAll_succ {s : State} {v : Word} (counts : List Nat) (hf : s.status.fault = false) (h32 : n + 1 ≤ 32)
    (hlim : s.csr.rpos.toNat + (n + 1) ≤ s.csr.rlim.toNat)
    (hfit : s.csr.rbase.toNat + (s.csr.rpos.toNat + n) / 8 < Config.dmBytes)
    (h : Stands s.dm s.csr.rbase.toNat s.csr.rpos.toNat (n + 1) v) :
    ∃ t, readAll ((n + 1) :: counts) s = (readAll counts t).map (lowBits v (n + 1) :: ·) ∧ t.status.fault = false ∧
      t.dm = s.dm ∧ t.csr.rbase = s.csr.rbase ∧ t.csr.rlim = s.csr.rlim ∧
      t.csr.rpos.toNat = s.csr.rpos.toNat + (n + 1) := by
  let u := s.setX 1 (BitVec.ofNat 32 (n + 1))
  have hcount : (u.getX 1).toNat = n + 1 := by rw [State.getX_setX_same, toNat_word_ofNat (by omega)]
  have hexec := exec_bread_of_stands (s := u) (a := 2) (c := 1) (u := lowBits v (n + 1)) (by omega) (by omega)
    (by rwa [hcount]) (by rwa [hcount])
    (by rw [hcount, toNat_lowBits]; exact Nat.mod_lt _ (Nat.two_pow_pos _)) (by rw [hcount]; exact h.lowBits)
  rw [hcount] at hexec
  exact ⟨_, readAll_succ_of_exec counts hexec hf (by simp [State.getX]), hf, rfl, rfl, rfl,
    toNat_word_ofNat (hlim.trans_lt s.csr.rlim.isLt)⟩

/-- A sequence of BREAD returns the values that stand in turn, those of no bits left out. -/
theorem readAll_of_standInTurn {items : List (Word × Nat)} {s : State} (hf : s.status.fault = false)
    (h32 : ∀ it ∈ items, it.2 ≤ 32)
    (hlim : s.csr.rpos.toNat + (items.map Prod.snd).sum ≤ s.csr.rlim.toNat)
    (hfit : s.csr.rbase.toNat + (s.csr.rpos.toNat + (items.map Prod.snd).sum + 7) / 8 ≤ Config.dmBytes)
    (h : StandInTurn s.dm s.csr.rbase.toNat s.csr.rpos.toNat items) :
    readAll (items.map Prod.snd) s = some ((items.filter fun it => it.2 != 0).map fun it => lowBits it.1 it.2) := by
  induction items generalizing s with
  | nil => rfl
  | cons it rest ih =>
    obtain ⟨v, n⟩ := it
    obtain ⟨hn, hrest32⟩ := List.forall_mem_cons.mp h32
    obtain ⟨hv, hrest⟩ := h
    rw [List.map_cons, List.sum_cons] at hlim hfit
    rw [List.map_cons]
    cases n with
    | zero =>
      rw [readAll, ih hf hrest32 (by omega) (by omega) hrest]
      rfl
    | succ n =>
      obtain ⟨t, ht, htf, hdm, hbase, hrlim, hpos⟩ := readAll_succ (rest.map Prod.snd) hf hn (by omega) (by omega) hv
      rw [ht, ih htf hrest32 (by rw [hpos, hrlim]; omega) (by rw [hpos, hbase]; omega) (by rwa [hdm, hbase, hpos])]
      rfl

/-- Settles O46: after `putAll` the values stand in turn, and a sequence of BREAD reads what stands in turn. -/
theorem bitStreamRoundTrip : Obligations.BitStreamRoundTrip := by
  intro s items hf h32 hfit
  have hfit : s.csr.wbase.toNat + (0 + (items.map Prod.snd).sum + 7) / 8 ≤ Config.dmBytes := by rwa [Nat.zero_add]
  obtain ⟨t, ht, htf, hlen, -, hstand⟩ := putAll_of_clean (s := { s with csr := { s.csr with wlen := 0 } }) hf h32 hfit
    fun h => absurd rfl h
  have hlen : t.csr.wlen.toNat = (items.map Prod.snd).sum := hlen.trans (Nat.zero_add _)
  exact ⟨t, ht, hlen, readAll_of_standInTurn htf h32 ((Nat.zero_add _).trans_le hlen.ge) hfit hstand⟩

end Sys2Proof.Machine
end

section
/-! BCHF and BCHV (47_codeword_bch R283 to R288). The operands are 5 and 6 bits wide, so the words are compared with the
rules' tables number by number. -/

namespace Sys2Proof.Machine

open Sys2Proof.Claims

/-! ## The words -/

theorem bchFormat_eq_formatWords : ∀ fd < 32, bchFormat fd = formatWords.getD fd 0 := by decide +kernel

theorem bchVersion_eq_versionWords : ∀ v < 41, 7 ≤ v → bchVersion v = versionWords.getD (v - 7) 0 := by decide +kernel

/-- A version word is its number above a remainder of 12 bits, and the generator divides it (R287). -/
theorem bchVersion_codeword : ∀ v < 64,
    bchVersion v < 2 ^ 18 ∧ bchVersion v / 4096 = v ∧ gf2Rem (bchVersion v) 0x1F25 12 = 0 := by decide +kernel

theorem formatWords_distance : formatWords.Pairwise fun u v => 7 ≤ distance u v := by decide +kernel

theorem versionWords_distance : versionWords.Pairwise fun u v => 8 ≤ distance u v := by decide +kernel

/-! ## The commands -/

section
variable {s : State} {a b : XReg}

theorem exec_bchf_of_le (h : (s.getX b).toNat ≤ 31) :
    exec (.bchf a b) s = .next (afterX s a (BitVec.ofNat 32 (bchFormat (s.getX b).toNat))) :=
  finish_bind_of_ok (badOperandIf_of_not h.not_gt _) rfl

theorem exec_bchv_of_le (h : (s.getX b).toNat ≤ 63) :
    exec (.bchv a b) s = .next (afterX s a (BitVec.ofNat 32 (bchVersion (s.getX b).toNat))) :=
  finish_bind_of_ok (badOperandIf_of_not h.not_gt _) rfl

end

/-- Settles O49: an operand in range gives the word of its number, which the tables list. -/
theorem bchCommands : Obligations.BchCommands := by
  refine ⟨?_, formatWords_distance, versionWords_distance⟩
  intro s a b v
  refine ⟨fun h => ?format, fun h => finish_bind_of_raise (badOperandIf_of h _), fun h => ?version,
    fun h7 h40 => ?table, fun h => finish_bind_of_raise (badOperandIf_of h _)⟩
  case format => rw [exec_bchf_of_le h, bchFormat_eq_formatWords _ (Nat.lt_succ_of_le h)]
  case version =>
    obtain ⟨hlt, hnumber, hrem⟩ := bchVersion_codeword v (Nat.lt_succ_of_le h)
    exact ⟨bchVersion v, hlt, hnumber, hrem, exec_bchv_of_le h⟩
  case table =>
    rw [exec_bchv_of_le (h40.trans (by decide)), bchVersion_eq_versionWords _ (Nat.lt_succ_of_le h40) h7]

end Sys2Proof.Machine
end

section
/-! The codeword sequence (47_codeword_bch R280): column-major order, and the blocks of a layout with their ECC. -/

namespace Sys2Proof.Machine

open Sys2Proof.Claims

/-! ## Column-major order -/

/-- The elements of a column come from the sequences long enough for it. -/
theorem column_length_eq_filter (seqs : List (List Byte)) (i : Nat) :
    (seqs.filterMap fun q => q[i]?).length = (seqs.filter fun q => decide (i < q.length)).length := by
  rw [List.length_filterMap_eq_countP, List.countP_eq_length_filter]
  exact congrArg List.length <| List.filter_congr fun q _ => Bool.eq_iff_iff.mpr (by simp)

/-- The first `m` columns hold the first `m` elements of every sequence. -/
theorem columns_length_eq_min (seqs : List (List Byte)) (m : Nat) :
    ((List.range m).flatMap fun i => seqs.filterMap fun q => q[i]?).length =
      (seqs.map fun q => min q.length m).sum := by
  rw [List.length_flatMap]
  induction seqs with
  | nil => simp
  | cons q qs ih =>
    simp only [column_cons_length]
    rw [List.sum_map_add, sum_range_lt, ih, Nat.min_comm m, List.map_cons, List.sum_cons]

/-- In its column, the element of sequence `j` stands after those of the sequences before `j`. -/
theorem getElem?_column {seqs : List (List Byte)} {j i : Nat} {q : List Byte} (hj : seqs[j]? = some q)
    (hi : i < q.length) :
    (seqs.filterMap fun u => u[i]?)[((seqs.take j).filter fun u => decide (i < u.length)).length]? = q[i]? := by
  obtain ⟨hlt, rfl⟩ := List.getElem?_eq_some_iff.mp hj
  have hsplit : seqs.filterMap (fun u => u[i]?) =
      (seqs.take j).filterMap (fun u => u[i]?) ++ seqs[j][i] :: (seqs.drop (j + 1)).filterMap fun u => u[i]? := by
    conv_lhs => rw [← List.take_append_drop j seqs, List.drop_eq_getElem_cons hlt]
    rw [List.filterMap_append, List.filterMap_cons_some (f := fun u => u[i]?) (List.getElem?_eq_getElem hi)]
  rw [hsplit, ← column_length_eq_filter, List.getElem?_append_right le_rfl, Nat.sub_self, List.getElem?_cons_zero,
    List.getElem?_eq_getElem hi]

/-- Part `i` of a concatenation stands after the parts before it. -/
theorem getElem?_flatMap_range {f : Nat → List Byte} {m i k : Nat} (hi : i < m) (hk : k < (f i).length) :
    ((List.range m).flatMap f)[((List.range i).flatMap f).length + k]? = (f i)[k]? := by
  obtain ⟨d, rfl⟩ := Nat.exists_eq_add_of_lt hi
  rw [Nat.add_assoc, List.range_add, List.range_succ_eq_map, List.flatMap_append, List.map_cons, List.flatMap_cons,
    List.getElem?_append_right (Nat.le_add_right ..), Nat.add_sub_cancel_left, Nat.add_zero,
    List.getElem?_append_left hk]

theorem getElem?_interleave {seqs : List (List Byte)} {j i : Nat} {q : List Byte} (hj : seqs[j]? = some q)
    (hi : i < q.length) :
    (interleave seqs)[(seqs.map fun u => min u.length i).sum +
      ((seqs.take j).filter fun u => decide (i < u.length)).length]? = q[i]? := by
  have hcolumn := getElem?_column hj hi
  have hrow : i < seqs.foldl (fun m u => max m u.length) 0 :=
    hi.trans_le (foldl_max_length_le.2 q (List.mem_of_getElem? hj))
  rw [List.getElem?_eq_getElem hi] at hcolumn ⊢
  obtain ⟨hk, -⟩ := List.getElem?_eq_some_iff.mp hcolumn
  rw [← columns_length_eq_min, interleave, getElem?_flatMap_range hrow hk, hcolumn]

/-! ## The blocks of a layout -/

/-- A block the encoder accepts: data, ECC, and at most 255 bytes (R281, 45_reed_solomon R223). -/
def BlockOk (shape : Nat × Nat) : Prop := 0 < shape.2 ∧ shape.2 < shape.1 ∧ shape.1 ≤ 255

theorem blockShapes_layout (f : ParamCsrs) : blockShapes (layout f) =
    List.replicate f.g1cnt.toNat (f.g1tot.toNat, f.g1dat.toNat) ++
      List.replicate f.g2cnt.toNat (f.g2tot.toNat, f.g2dat.toNat) := by
  unfold blockShapes layout
  split
  · simp
  · next h => simp [Nat.eq_zero_of_not_pos h]

theorem blockOk_of_layoutOk {f : ParamCsrs} (h : layoutOk f) : ∀ shape ∈ blockShapes (layout f), BlockOk shape := by
  obtain ⟨-, hk1, hn1, h2⟩ := h
  intro shape hshape
  rw [blockShapes_layout, List.mem_append, List.mem_replicate, List.mem_replicate] at hshape
  obtain ⟨-, rfl⟩ | ⟨hc2, rfl⟩ := hshape
  · exact ⟨hk1, hn1, Nat.le_of_lt_succ (BitVec.isLt _)⟩
  · obtain ⟨hk2, hn2⟩ := h2 (Nat.pos_of_ne_zero hc2)
    exact ⟨hk2, hn2, Nat.le_of_lt_succ (BitVec.isLt _)⟩

/-- The ECC of a block, beside the word it ends (45_reed_solomon R222). -/
theorem rsEcc_of_blockOk {d : List Byte} {n k : Nat} (hd : d.length = k) (h : BlockOk (n, k)) :
    ∃ ecc, rsEcc d (n - k) = .ok ecc ∧ ecc.length = n - k ∧ rsEncode d (n - k) = .ok (d ++ ecc) := by
  obtain ⟨hk, hkn, hn⟩ : 0 < k ∧ k < n ∧ n ≤ 255 := h
  obtain ⟨F, _, φ, hφ⟩ := exists_byteField
  obtain ⟨ecc, hword, hlen, -⟩ := rsEncode_spec hφ (d := d) (t := n - k) (List.length_pos_iff.mp (hd ▸ hk)) (by omega)
    (by omega)
  obtain ⟨ecc', hecc, happend⟩ := bind_ok hword
  injection happend with happend
  exact ⟨ecc, List.append_cancel_left happend ▸ hecc, hlen, hword⟩

/-- Pairs of data and ECC: the data in order, the shapes of the blocks, every pair a word of the encoder (R280). -/
structure SplitInto (shapes : List (Nat × Nat)) (data : List Byte) (pairs : List (List Byte × List Byte)) : Prop where
  data_eq : (pairs.map Prod.fst).flatten = data
  shapes_eq : pairs.map (fun p => (p.1.length + p.2.length, p.1.length)) = shapes
  encoded : ∀ p ∈ pairs, rsEncode p.1 p.2.length = .ok (p.1 ++ p.2)

theorem splitBlocks_spec {shapes : List (Nat × Nat)} {data : List Byte} (hs : ∀ shape ∈ shapes, BlockOk shape)
    (hd : data.length = (shapes.map Prod.snd).sum) :
    ∃ pairs, splitBlocks shapes data = .ok pairs ∧ SplitInto shapes data pairs := by
  induction shapes generalizing data with
  | nil => exact ⟨[], rfl, (List.eq_nil_of_length_eq_zero hd).symm, rfl, by simp⟩
  | cons shape shapes ih =>
    obtain ⟨n, k⟩ := shape
    rw [List.map_cons, List.sum_cons] at hd
    have hblock : BlockOk (n, k) := hs _ List.mem_cons_self
    have hlen : (data.take k).length = k := by rw [List.length_take]; omega
    obtain ⟨ecc, hecc, hecclen, hword⟩ := rsEcc_of_blockOk hlen hblock
    obtain ⟨pairs, hsplit, htail⟩ := ih (data := data.drop k) (fun t ht => hs t (List.mem_cons_of_mem _ ht))
      (by rw [List.length_drop]; omega)
    refine ⟨(data.take k, ecc) :: pairs, by rw [splitBlocks, hecc, ok_bind, hsplit]; rfl, ?_, ?_, ?_⟩
    · rw [List.map_cons, List.flatten_cons, htail.data_eq, List.take_append_drop]
    · obtain ⟨-, hkn, -⟩ : 0 < k ∧ k < n ∧ n ≤ 255 := hblock
      rw [List.map_cons, htail.shapes_eq, hlen, hecclen, Nat.add_sub_cancel' hkn.le]
    · exact List.forall_mem_cons.mpr ⟨hecclen ▸ hword, htail.encoded⟩

theorem cwSequence_of_layoutOk {f : ParamCsrs} {data : List Byte} (h : layoutOk f) (hd : data.length = sourceLength f) :
    ∃ pairs, cwSequence data (layout f) = .ok (interleave (pairs.map Prod.fst) ++ interleave (pairs.map Prod.snd)) ∧
      SplitInto (blockShapes (layout f)) data pairs := by
  obtain ⟨pairs, hsplit, hpairs⟩ := splitBlocks_spec (blockOk_of_layoutOk h)
    (by rw [hd, (sum_blockShapes _).1, (sum_layout f).1])
  exact ⟨pairs, by rw [cwSequence, hsplit]; rfl, hpairs⟩

/-- Settles O48: the place of an element is counted by columns, and each block is a word of the encoder
(`splitBlocks_spec`). -/
theorem codewordOrder : Obligations.CodewordOrder := by
  refine ⟨fun seqs j i q => getElem?_interleave, interleave_length, fun data f hlayout hd => ?_⟩
  obtain ⟨pairs, hsequence, hpairs⟩ := cwSequence_of_layoutOk hlayout hd
  exact ⟨pairs, hsequence, hpairs.data_eq, hpairs.shapes_eq.trans (blockShapes_layout f), hpairs.encoded⟩

end Sys2Proof.Machine
end

section
/-! CWENC (47_codeword_bch R281): the layout is checked first, then the source, the destination, and that they are
disjoint. -/

namespace Sys2Proof.Machine

open Sys2Proof.Claims

/-! ## The layout -/

theorem bind_of_ok {α β : Type} {x : Except Stop α} {f : α → Except Stop β} {v : α} {r : Except Stop β} (hx : x = .ok v)
    (hf : f v = r) : (x >>= f) = r := by
  rw [hx, ok_bind, hf]

theorem bind_of_raise {α β : Type} {x : Except Stop α} {f : α → Except Stop β} {c : Cause} {n : Nat}
    (hx : x = raise c n) : (x >>= f) = raise c n := by
  rw [hx]
  rfl

theorem badOperandIf_of_eq {p : Prop} [Decidable p] {v n : Nat} (h : p) (hv : v = n) :
    badOperandIf (decide p) v = raise .badOperand n :=
  hv ▸ badOperandIf_of h v

/-- The checks of a layout whose first group is legal are those of the second (R281). -/
theorem checkLayout_of_group1 {f : ParamCsrs} {r : Except Stop Unit} (hcnt : 0 < f.g1cnt.toNat)
    (hdat : 0 < f.g1dat.toNat) (htot : f.g1dat.toNat < f.g1tot.toNat)
    (hr : (badOperandIf (decide (0 < f.g2cnt.toNat ∧ f.g2dat.toNat = 0)) f.g2dat.toNat >>= fun _ =>
      badOperandIf (decide (0 < f.g2cnt.toNat ∧ f.g2tot.toNat ≤ f.g2dat.toNat)) f.g2tot.toNat) = r) :
    checkLayout f = r :=
  bind_of_ok (badOperandIf_of_not hcnt.ne' _) <| bind_of_ok (badOperandIf_of_not hdat.ne' _) <|
    bind_of_ok (badOperandIf_of_not htot.not_ge _) hr

theorem checkLayout_of_layoutOk {f : ParamCsrs} (h : layoutOk f) : checkLayout f = .ok () := by
  obtain ⟨hcnt, hdat, htot, h2⟩ := h
  exact checkLayout_of_group1 hcnt hdat htot <|
    bind_of_ok (badOperandIf_of_not (fun ⟨hc2, hdat2⟩ => (h2 hc2).1.ne' hdat2) _) <|
      badOperandIf_of_not (fun ⟨hc2, htot2⟩ => (h2 hc2).2.not_ge htot2) _

theorem sourceLength_pos {f : ParamCsrs} (h : layoutOk f) : 0 < sourceLength f := by
  obtain ⟨hcnt, hdat, -⟩ := h
  exact Nat.add_pos_left (Nat.mul_pos hcnt hdat) _

theorem streamLength_pos {f : ParamCsrs} (h : layoutOk f) : 0 < streamLength f := by
  obtain ⟨hcnt, -, htot, -⟩ := h
  exact Nat.add_pos_left (Nat.mul_pos hcnt (Nat.zero_lt_of_lt htot)) _

/-! ## The command -/

section
variable {s : State} {a b : XReg}

/-- CWENC with a legal layout of two disjoint ranges inside DM, the source written. -/
theorem exec_cwenc_of_fits {data out : List Byte} (hlayout : layoutOk s.csr)
    (hsrc : (s.getX b).toNat + sourceLength s.csr ≤ 16384) (hdst : (s.getX a).toNat + streamLength s.csr ≤ 16384)
    (hdisjoint : ¬((s.getX b).toNat < (s.getX a).toNat + streamLength s.csr ∧
      (s.getX a).toNat < (s.getX b).toNat + sourceLength s.csr))
    (hdata : data.length = sourceLength s.csr)
    (hread : ∀ k < sourceLength s.csr, Memory.read s.dm ((s.getX b).toNat + k) = data[k]?)
    (hout : cwSequence data (layout s.csr) = .ok out) (houtlen : out.length = streamLength s.csr) :
    exec (.cwenc a b) s = .next { s with dm := storeBytes s.dm (s.getX a).toNat out, pc := s.pc + 1 } := by
  have hmem : memReadSeq s.dm (s.getX b).toNat (sourceLength s.csr) = .ok data := by
    rw [← hdata] at hsrc hread ⊢
    exact memReadSeq_of_read (.inr hsrc) hread
  exact finish_bind_of_ok (checkLayout_of_layoutOk hlayout) <| finish_bind_of_ok (checkRange_of_fits (.inr hsrc)) <|
    finish_bind_of_ok (checkRange_of_fits (.inr hdst)) <| finish_bind_of_ok (badOperandIf_of_not hdisjoint _) <|
    finish_bind_of_ok hmem <| finish_bind_of_ok hout <|
    finish_bind_of_ok (memWriteSeq_of_fits (.inr (houtlen ▸ hdst))) rfl

end

/-- The first of the five layout faults that applies (R281). -/
theorem exec_cwenc_of_badLayout {s : State} {n : Nat} (a b : XReg) (h : checkLayout s.csr = raise .badOperand n) :
    exec (.cwenc a b) s = .next (faultState s 7 n) :=
  finish_bind_of_raise h

/-- Settles O47: the stream has the length that was checked (`cwSequence_length`), and every fault is the first check
that fails. -/
theorem codewordCommand : Obligations.CodewordCommand := by
  intro s a b data src dst c1 n1 k1 c2 n2 k2 slen dlen
  refine ⟨fun hlayout => ?legal, fun hc1 => ?noBlocks, fun hc1 hk1 => ?noData1, fun hc1 hk1 hn1 => ?noEcc1,
    fun hc1 hk1 hn1 hc2 hk2 => ?noData2, fun hc1 hk1 hn1 hc2 hk2 hn2 => ?noEcc2⟩
  case legal =>
    have hcheck := checkLayout_of_layoutOk hlayout
    have hslen : 0 < slen := sourceLength_pos hlayout
    have hdlen : 0 < dlen := streamLength_pos hlayout
    refine ⟨fun hsrc hdst hdisjoint hdata hread => ?stored, fun hsrc => ?source, fun hsrc hdst => ?destination,
      fun hsrc hdst h1 h2 => ?overlap⟩
    case stored =>
      obtain ⟨pairs, hout, -⟩ := cwSequence_of_layoutOk hlayout hdata
      have houtlen := cwSequence_length hcheck hdata _ hout
      have hapart : ¬(src < dst + dlen ∧ dst < src + slen) := by omega
      refine ⟨_, _, hout, houtlen, exec_cwenc_of_fits hlayout hsrc hdst hapart hdata hread hout houtlen, fun k hk => ?_,
        fun k hk => read_storeBytes_outside _ _ _ _ (hk.imp_right fun h => (congrArg (dst + ·) houtlen).trans_le h)⟩
      have hk := hk.trans_eq houtlen.symm
      rw [read_storeBytes_inside _ _ _ _ hk, List.getElem?_eq_getElem hk]
    case source => exact finish_bind_of_ok hcheck (finish_bind_of_raise (checkRange_of_overrun hslen hsrc))
    case destination =>
      exact finish_bind_of_ok hcheck <| finish_bind_of_ok (checkRange_of_fits (.inr hsrc)) <|
        finish_bind_of_raise (checkRange_of_overrun hdlen hdst)
    case overlap =>
      exact finish_bind_of_ok hcheck <| finish_bind_of_ok (checkRange_of_fits (.inr hsrc)) <|
        finish_bind_of_ok (checkRange_of_fits (.inr hdst)) <| finish_bind_of_raise (badOperandIf_of ⟨h1, h2⟩ _)
  case noBlocks => exact exec_cwenc_of_badLayout a b (bind_of_raise (badOperandIf_of_eq hc1 hc1))
  case noData1 =>
    exact exec_cwenc_of_badLayout a b <| bind_of_ok (badOperandIf_of_not hc1.ne' _) <|
      bind_of_raise (badOperandIf_of_eq hk1 hk1)
  case noEcc1 =>
    exact exec_cwenc_of_badLayout a b <| bind_of_ok (badOperandIf_of_not hc1.ne' _) <|
      bind_of_ok (badOperandIf_of_not hk1.ne' _) <| bind_of_raise (badOperandIf_of hn1 _)
  case noData2 =>
    exact exec_cwenc_of_badLayout a b <| checkLayout_of_group1 hc1 hk1 hn1 <|
      bind_of_raise (badOperandIf_of_eq ⟨hc2, hk2⟩ hk2)
  case noEcc2 =>
    exact exec_cwenc_of_badLayout a b <| checkLayout_of_group1 hc1 hk1 hn1 <|
      bind_of_ok (badOperandIf_of_not (fun ⟨_, hzero⟩ => hk2.ne' hzero) _) (badOperandIf_of ⟨hc2, hn2⟩ _)

end Sys2Proof.Machine
end

section
/-! The step of the engine and the fault entry (60_exceptions R356 to R363). -/

namespace Sys2Proof.Machine

open Sys2Proof.Claims

variable {s : State}

/-! ## The step -/

section
variable (hrun : s.status.run = true) (hstop : s.stopReq = false)
include hrun hstop

/-- While a run goes on without a stop request, a step is the command of the fetch (60_exceptions R363). -/
theorem step_of_fetch_ok {i : Instr} (hf : fetch s = .ok i) : step s = settleOutcome (exec i s) := by
  rw [step, if_neg (by simp [hrun]), if_neg (by simp [hstop]), hf]

theorem step_of_fetch_error {e : Stop} (hf : fetch s = .error e) : step s = settleOutcome (finish s (.error e)) := by
  rw [step, if_neg (by simp [hrun]), if_neg (by simp [hstop]), hf]

/-- A fault of the fetch is taken by a step without a stop request (60_exceptions R363). -/
theorem step_of_fetch_raises {c : Cause} {n : Nat} (hf : fetch s = raise c n) :
    step s = .next (faultState s c.code.toNat n) := by
  rw [step_of_fetch_error hrun hstop hf, ← State.enterFault_eq_faultState]
  exact congrArg _ ((s.enterFault c n).settle_of_no_request hstop)

end

theorem fetch_of_read {w : Word} (hpc : s.pc.toNat < Config.cmWords) (hw : Memory.read s.cm s.pc.toNat = some w) :
    fetch s = commandOf w := by
  rw [fetch, fetchWord, if_neg hpc.not_ge, hw, ok_bind]

theorem fetch_of_outside (hpc : Config.cmWords ≤ s.pc.toNat) : fetch s = raise .pcRange s.pc.toNat := by
  rw [fetch, fetchWord, if_pos hpc]
  rfl

theorem fetch_of_unwritten (hpc : s.pc.toNat < Config.cmWords) (hw : Memory.read s.cm s.pc.toNat = none) :
    fetch s = .error (.sticks (.unwrittenCommand s.pc.toNat)) := by
  rw [fetch, fetchWord, if_neg hpc.not_ge, hw]
  rfl

theorem commandOf_of_ok {w : Word} {i : Instr} (h : decode w = .ok i) : commandOf w = .ok i := by
  rw [commandOf, h]

theorem commandOf_of_refused {w : Word} (h : ∀ i, decode w ≠ .ok i) : commandOf w = raise .illegalCommand w.toNat := by
  rw [commandOf]
  split
  · next i hi => exact absurd hi (h i)
  · rfl

theorem settleOutcome_eq (o : Host.Outcome State Fault Refusal) :
    settleOutcome o = match o with
      | .next t => .next (if t.status.run = true then t else { t with stopReq := false })
      | .fault f => .fault f
      | .refused r => .refused r := by
  cases o <;> rfl

/-- Settles O5: the fetch gives the command, and the last line of the step is `State.settle`. -/
theorem stepRunsDecodedCommand : Obligations.StepRunsDecodedCommand := by
  intro s w i hrun hstop hpc hw hi
  rw [step_of_fetch_ok hrun hstop ((fetch_of_read hpc hw).trans (commandOf_of_ok hi))]
  exact settleOutcome_eq _

/-- Settles O6: RUN, the stop request and the fetch are examined in this order. -/
theorem stepWithoutCommand : Obligations.StepWithoutCommand := by
  intro s
  refine ⟨fun hrun => if_pos hrun, fun hrun hstop => ?stop, fun hrun hstop hpc => ?range,
    fun w hrun hstop hpc hw hi => ?illegal, fun hrun hstop hpc hw => ?unwritten⟩
  case stop =>
    rw [step, if_neg (by simp [hrun]), if_pos hstop]
    rfl
  case range => exact step_of_fetch_raises hrun hstop (fetch_of_outside hpc)
  case illegal =>
    exact step_of_fetch_raises hrun hstop ((fetch_of_read hpc hw).trans (commandOf_of_refused hi))
  case unwritten => exact step_of_fetch_error hrun hstop (fetch_of_unwritten hpc hw)

/-! ## Fault entry -/

/-- STATUS after a fault during a run has FAULT alone set (60_exceptions R356). -/
theorem csrValue_status_faultState {code info : Nat}
    (h : s.status = { run := true, done := false, fault := false, stopped := false }) :
    csrValue (faultState s code info) .status = 4 := by
  simp [csrValue, faultState, h]

theorem irq_faultState {code info : Nat} (h : s.ie.getLsbD 1 = true) : (faultState s code info).irq = true := by
  simp [State.irq, faultState, h]

/-- Settles O17: `finish` takes a fault by `State.enterFault`, which is `faultState`. -/
theorem faultEntry : Obligations.FaultEntry := by
  refine ⟨fun s c info => ?entry, rfl, fun s code info h => ⟨csrValue_status_faultState h, rfl, rfl, irq_faultState⟩,
    fun s => ⟨rfl, ?tval⟩⟩
  case entry =>
    rw [← State.enterFault_eq_faultState]
    rfl
  case tval => exact congrArg BitVec.toNat ((BitVec.ofNat_toNat ..).trans (BitVec.setWidth_eq _))

end Sys2Proof.Machine
end

section
/-! SUPPORT. The geometry of the symbol and the reads of its cells, answered from their conditions (48_matrix R300,
R302), and the commands that read one cell or none. -/

namespace Sys2Proof.Machine

open Sys2Proof.Claims

variable {s : State}

/-! ## The dimension -/

theorem dim_of_versionOk {f : ParamCsrs} {d : Nat} (h : versionOk f d) : dim f = .ok d := by
  obtain ⟨hlo, hhi, rfl⟩ := h
  exact if_neg (by simp only [Config.vMax]; omega)

theorem dim_of_noVersion {f : ParamCsrs} (h : f.version.toNat = 0 ∨ 40 < f.version.toNat) :
    dim f = raise .badOperand f.version.toNat :=
  if_pos h

/-- MXBLD with two destinations begins with the dimension (30_encoding R93, 48_matrix R300). -/
theorem exec_mxbld_of_noVersion {a b c e : XReg} (hab : a ≠ b) {n : Nat} (h : dim s.csr = raise .badOperand n) :
    exec (.mxbld a b c e) s = .next (faultState s 7 n) :=
  (congrArg (finish s) (if_neg hab)).trans (finish_bind_of_raise h)

/-- Settles O60: each of the commands asks for the dimension first, MXBLD after its destinations. -/
theorem versionChecked : Obligations.VersionChecked := by
  intro s a b c e test v hv i hi
  have hdim := dim_of_noVersion hv
  refine ⟨?_, fun hab => exec_mxbld_of_noVersion hab hdim⟩
  simp only [List.mem_cons, List.not_mem_nil, or_false] at hi
  obtain rfl | rfl | rfl | rfl | rfl | rfl | rfl | rfl | rfl | rfl := hi <;> exact finish_bind_of_raise hdim

/-! ## Cells -/

variable {mm : Memory ModuleCell} {r c : Nat}

theorem writtenCell_of_read {m : ModuleCell} (h : Memory.read mm (cellKey r c) = some m) :
    writtenCell mm r c = .ok m := by
  rw [writtenCell, h]

theorem isDark_of_shade {dark : Bool} (h : Memory.read mm (cellKey r c) = some (shade dark)) :
    isDark mm r c = .ok dark := by
  rw [isDark, writtenCell_of_read h]
  cases dark <;> rfl

theorem isDark_of_unset (h : Memory.read mm (cellKey r c) = some .unset) :
    isDark mm r c = raise .unsetModule (r * 256 + c) := by
  rw [isDark, writtenCell_of_read h]
  rfl

/-! ## One cell, and the masks -/

/-- The mask predicates one by one (48_matrix R304). -/
theorem maskPred_eq_true_iff {m : Nat} (hm : m ≤ 7) : maskPred m r c = true ↔
    (m = 0 ∧ (r + c) % 2 = 0) ∨ (m = 1 ∧ r % 2 = 0) ∨ (m = 2 ∧ c % 3 = 0) ∨ (m = 3 ∧ (r + c) % 3 = 0) ∨
      (m = 4 ∧ (r / 2 + c / 3) % 2 = 0) ∨ (m = 5 ∧ r * c % 2 + r * c % 3 = 0) ∨
      (m = 6 ∧ (r * c % 2 + r * c % 3) % 2 = 0) ∨ (m = 7 ∧ (r * c % 3 + (r + c) % 2) % 2 = 0) := by
  interval_cases m <;> simp [maskPred]

/-- Settles O57: the operands are checked before the cell is read, and MXMSK reads none. -/
theorem cellAndMaskReads : Obligations.CellAndMaskReads := by
  intro s a b c e u r k
  refine ⟨fun d hv => ?get, fun hu hr hk => ?mask, fun hu => ?_, fun hu hr => ?_, fun hu hr hk => ?_⟩
  case get =>
    have hdim := dim_of_versionOk hv
    refine ⟨fun dark hr hk hcell => ?_, fun hr hk hcell => ?_, fun hr => ?_, fun hr hk => ?_⟩
    · refine finish_bind_of_ok hdim <| finish_bind_of_ok (badOperandIf_of_not hr.not_ge _) <|
        finish_bind_of_ok (badOperandIf_of_not hk.not_ge _) <| finish_bind_of_ok (isDark_of_shade hcell) ?_
      exact next_setX_advance a rfl
    · exact finish_bind_of_ok hdim <| finish_bind_of_ok (badOperandIf_of_not hr.not_ge _) <|
        finish_bind_of_ok (badOperandIf_of_not hk.not_ge _) <| finish_bind_of_raise (isDark_of_unset hcell)
    · exact finish_bind_of_ok hdim <| finish_bind_of_raise (badOperandIf_of hr _)
    · exact finish_bind_of_ok hdim <| finish_bind_of_ok (badOperandIf_of_not hr.not_ge _) <|
        finish_bind_of_raise (badOperandIf_of hk _)
  case mask =>
    refine finish_bind_of_ok (badOperandIf_of_not hu.not_gt _) <| finish_bind_of_ok (badOperandIf_of_not hr.not_gt _) <|
      finish_bind_of_ok (badOperandIf_of_not hk.not_gt _) <| next_setX_advance a ?_
    exact if_congr (maskPred_eq_true_iff hu) rfl rfl
  · exact finish_bind_of_raise (badOperandIf_of hu _)
  · exact finish_bind_of_ok (badOperandIf_of_not hu.not_gt _) <| finish_bind_of_raise (badOperandIf_of hr _)
  · exact finish_bind_of_ok (badOperandIf_of_not hu.not_gt _) <|
      finish_bind_of_ok (badOperandIf_of_not hr.not_gt _) <| finish_bind_of_raise (badOperandIf_of hk _)

end Sys2Proof.Machine
end

section
/-! The function patterns (48_matrix R306 to R319): what each pattern sets, as a colour of a row and a column, and
that its command sets just that. -/

namespace Sys2Proof.Machine

open Sys2Proof.Claims

variable {mm : Memory ModuleCell} {stamps : List Stamp} {d r c k : Nat} {dark : Bool}

/-! ## The commands -/

/-- The end of a command that sets cells of MM. -/
theorem finish_paint {s : State} (mm : Memory ModuleCell) :
    finish s (pure (State.advance { s with mm := mm })) = .next { s with mm := mm, pc := s.pc + 1 } := rfl

section
variable {s : State} (hdim : dim s.csr = .ok d)
include hdim

theorem exec_mxclr_of_dim : exec .mxclr s = .next { s with mm := clearMatrix d s.mm, pc := s.pc + 1 } :=
  finish_bind_of_ok hdim (finish_paint _)

theorem exec_mxfnd_of_dim : exec .mxfnd s = .next { s with mm := placeFinders d s.mm, pc := s.pc + 1 } :=
  finish_bind_of_ok hdim (finish_paint _)

theorem exec_mxfmt_of_dim (test : Bool) :
    exec (.mxfmt test) s = .next { s with mm := setAll s.mm (formatStamps d s.csr test), pc := s.pc + 1 } :=
  finish_bind_of_ok hdim (finish_paint _)

theorem exec_mxver_of_dim (test : Bool) :
    exec (.mxver test) s = .next { s with mm := setAll s.mm (versionStamps d s.csr test), pc := s.pc + 1 } :=
  finish_bind_of_ok hdim (finish_paint _)

theorem exec_mxtim_of_placeTiming {mm : Memory ModuleCell} (h : placeTiming d s.mm = .ok mm) :
    exec .mxtim s = .next { s with mm := mm, pc := s.pc + 1 } :=
  finish_bind_of_ok hdim (finish_bind_of_ok h (finish_paint _))

end

/-! ## Setting a pattern -/

/-- The cells of the pattern are those to which `colour` gives a colour, each with that colour. -/
def Draws (stamps : List Stamp) (colour : Nat → Nat → Option Bool) : Prop :=
  ∀ r c dark, (r, c, dark) ∈ stamps ↔ colour r c = some dark

theorem read_setCell_same : Memory.read (setCell mm r c dark) (cellKey r c) = some (shade dark) :=
  Memory.read_write_same ..

/-- A covered cell takes the colour on which its stamps agree. -/
theorem read_setAll_inside (hall : ∀ t ∈ stamps, cellKey t.1 t.2.1 = k → t.2.2 = dark) (hk : covers stamps k = true) :
    Memory.read (setAll mm stamps) k = some (shade dark) := by
  induction stamps generalizing mm with
  | nil => cases hk
  | cons t ts ih =>
    obtain ⟨r, c, v⟩ := t
    rw [setAll]
    by_cases hts : covers ts k = true
    · exact ih (fun u hu => hall u (List.mem_cons_of_mem _ hu)) hts
    · rw [covers_cons, Bool.or_eq_true, or_iff_left hts, beq_iff_eq] at hk
      rw [read_setAll_outside (Bool.eq_false_iff.mpr hts), ← hk, ← hall _ List.mem_cons_self hk]
      exact read_setCell_same

section
variable {colour : Nat → Nat → Option Bool} (hdraws : Draws stamps colour) (hin : StampsIn d stamps)
  (hd : d ≤ Config.mmDim) (hc : c < Config.mmDim)
include hdraws hin hd hc

/-- The stamps of a pattern on one cell are its colour there. -/
theorem Draws.colour_of_mem {t : Stamp} (ht : t ∈ stamps) (hk : cellKey t.1 t.2.1 = cellKey r c) :
    colour r c = some t.2.2 := by
  obtain ⟨rfl, rfl⟩ := cellKey_inj ((hin t ht).2.trans_le hd) hc hk
  exact (hdraws _ _ _).mp ht

theorem Draws.covers_iff : covers stamps (cellKey r c) = true ↔ (colour r c).isSome := by
  rw [Machine.covers_iff, Option.isSome_iff_exists]
  constructor
  · rintro ⟨t, ht, hk⟩
    exact ⟨_, hdraws.colour_of_mem hin hd hc ht hk⟩
  · rintro ⟨v, hv⟩
    exact ⟨_, (hdraws _ _ _).mpr hv, rfl⟩

/-- Setting a pattern gives a cell its colour in the pattern. -/
theorem Draws.read_setAll_of_some (h : colour r c = some dark) :
    Memory.read (setAll mm stamps) (cellKey r c) = some (shade dark) := by
  refine read_setAll_inside (fun t ht hk => ?_) ((hdraws.covers_iff hin hd hc).mpr (h ▸ rfl))
  exact Option.some.inj ((hdraws.colour_of_mem hin hd hc ht hk).symm.trans h)

/-- Setting a pattern leaves the cells it gives no colour. -/
theorem Draws.read_setAll_of_none (h : colour r c = none) :
    Memory.read (setAll mm stamps) (cellKey r c) = Memory.read mm (cellKey r c) := by
  refine read_setAll_outside (Bool.eq_false_iff.mpr fun hk => ?_)
  rw [hdraws.covers_iff hin hd hc, h] at hk
  cases hk

end

/-! ## Clearing (R306) -/

theorem read_unsetAll_inside {cs : List (Nat × Nat)} (h : ∃ t ∈ cs, cellKey t.1 t.2 = k) :
    Memory.read (unsetAll mm cs) k = some .unset := by
  induction cs generalizing mm with
  | nil => simp at h
  | cons t ts ih =>
    rw [unsetAll]
    by_cases hts : ∃ u ∈ ts, cellKey u.1 u.2 = k
    · exact ih hts
    · rw [List.exists_mem_cons_iff, or_iff_left hts] at h
      rw [read_unsetAll_outside fun u hu he => hts ⟨u, hu, he⟩, ← h, Memory.read_write_same]

theorem read_clearMatrix_inside (hr : r < d) (hc : c < d) :
    Memory.read (clearMatrix d mm) (cellKey r c) = some .unset :=
  read_unsetAll_inside ⟨(r, c), mem_cells hr hc, rfl⟩

theorem inSymbol_cellKey_iff (hc : c < Config.mmDim) : inSymbol d (cellKey r c) = true ↔ r < d ∧ c < d := by
  obtain ⟨hdiv, hmod⟩ := cellKey_div_mod (r := r) hc
  simp [inSymbol, hdiv, hmod]

theorem read_clearMatrix (hd : d ≤ Config.mmDim) (hc : c < Config.mmDim) :
    Memory.read (clearMatrix d mm) (cellKey r c) =
      if r < d ∧ c < d then some .unset else Memory.read mm (cellKey r c) := by
  split
  · next h => exact read_clearMatrix_inside h.1 h.2
  · next h => exact read_clearMatrix_outside hd (Bool.eq_false_iff.mpr (mt (inSymbol_cellKey_iff hc).mp h))

/-! ## Finders (R310 to R312) -/

theorem mem_finderOffsets {x : Int} : x ∈ finderOffsets ↔ -1 ≤ x ∧ x ≤ 7 := by
  simp only [finderOffsets, List.mem_cons, List.not_mem_nil, or_false]
  omega

/-- The finder stamp with its separator, ring by ring round its centre. -/
theorem finderDark_eq_ring : ∀ x < 9, ∀ y < 9,
    finderDark ((x : Nat) - 1) ((y : Nat) - 1) = (ring 4 x y != 2 && ring 4 x y != 4) := by decide

theorem mem_finderStamps {r0 c0 : Nat} : (r, c, dark) ∈ finderStamps d r0 c0 ↔
    (r < d ∧ r0 ≤ r + 1 ∧ r ≤ r0 + 7) ∧ (c < d ∧ c0 ≤ c + 1 ∧ c ≤ c0 + 7) ∧
      dark = (ring 4 (r + 1 - r0) (c + 1 - c0) != 2 && ring 4 (r + 1 - r0) (c + 1 - c0) != 4) := by
  simp only [finderStamps, List.mem_flatMap, List.mem_filterMap, mem_finderOffsets, Option.ite_none_left_eq_some,
    Option.some.injEq, Prod.mk.injEq]
  constructor
  · rintro ⟨x, hx, y, hy, hin, rfl, rfl, rfl⟩
    refine ⟨by omega, by omega, ?_⟩
    rw [← finderDark_eq_ring _ (by omega) _ (by omega)]
    congr 1 <;> omega
  · rintro ⟨hr, hc, rfl⟩
    refine ⟨(r : Int) - r0, by omega, (c : Int) - c0, by omega, by omega, by omega, by omega, ?_⟩
    rw [← finderDark_eq_ring _ (by omega) _ (by omega)]
    congr 1 <;> omega

theorem finderPattern_draws (hd : 21 ≤ d) : Draws (finderPattern d) (finderColour d) := by
  intro r c dark
  have hshift : ∀ i, i + 8 - d = i + 1 - (d - 7) := by omega
  simp only [finderPattern, List.mem_append, mem_finderStamps, finderColour, hshift]
  constructor
  · rintro ((⟨hr, hc, rfl⟩ | ⟨hr, hc, rfl⟩) | ⟨hr, hc, rfl⟩)
    · exact if_pos (by omega)
    · exact (if_neg (by omega)).trans (if_pos (by omega))
    · exact (if_neg (by omega)).trans ((if_neg (by omega)).trans (if_pos (by omega)))
  · intro h
    split_ifs at h <;> cases h
    · exact .inl (.inl ⟨by omega, by omega, rfl⟩)
    · exact .inl (.inr ⟨by omega, by omega, rfl⟩)
    · exact .inr ⟨by omega, by omega, rfl⟩

/-- Settles O50: clearing writes every cell of the symbol, and the three finders are the rings of `finderColour`. -/
theorem clearAndFinders : Obligations.ClearAndFinders := by
  intro s d hv
  have hdim := dim_of_versionOk hv
  obtain ⟨h21, hle, -⟩ := dim_bounds hdim
  refine ⟨⟨_, exec_mxclr_of_dim hdim, fun r c => read_clearMatrix hle⟩, _, exec_mxfnd_of_dim hdim, fun r c hc => ?_⟩
  have hdraws := finderPattern_draws h21
  split
  · next h => exact hdraws.read_setAll_of_some (finderPattern_in d) hle hc h
  · next h => exact hdraws.read_setAll_of_none (finderPattern_in d) hle hc h

/-! ## Format and version words (R317 to R319) -/

/-- The colour MXFMT gives a cell: its bit of the format word, and the dark module at (D-8, 8) (R317). -/
def formatColour (d word : Nat) (test : Bool) (r c : Nat) : Option Bool :=
  match formatBit d r c with
  | some i => some (!test && word.testBit i)
  | none => if r = d - 8 ∧ c = 8 then some (!test) else none

/-- The colour MXVER gives a cell from version 7 on: its bit of the version word (R317). -/
def versionColour (d word : Nat) (test : Bool) (r c : Nat) : Option Bool :=
  (versionBit d r c).map fun i => !test && word.testBit i

/-- Both copies of the format word are where `formatBit` says. -/
theorem formatBit_eq_some_iff (hd : 21 ≤ d) {i : Nat} : formatBit d r c = some i ↔
    i < 15 ∧ ((r, c) = (formatCells d i).1 ∨ (r, c) = (formatCells d i).2) := by
  simp only [formatBit, formatCells]
  constructor
  · intro h
    split_ifs at h <;> cases h <;> grind
  · grind

theorem versionBit_eq_some_iff (hd : 21 ≤ d) {i : Nat} : versionBit d r c = some i ↔
    i < 18 ∧ ((r, c) = (i / 3, d - 11 + i % 3) ∨ (r, c) = (d - 11 + i % 3, i / 3)) := by
  simp only [versionBit]
  constructor
  · intro h
    split_ifs at h <;> cases h
    · exact ⟨by omega, .inl (Prod.ext (by dsimp only; omega) (by dsimp only; omega))⟩
    · exact ⟨by omega, .inr (Prod.ext (by dsimp only; omega) (by dsimp only; omega))⟩
  · rintro ⟨hi, h | h⟩ <;> cases h
    · rw [if_pos (by omega)]
      congr 1
      omega
    · rw [if_neg (by omega), if_pos (by omega)]
      congr 1
      omega

/-- The dark module stands beside the bits of the format word (R317). -/
theorem formatBit_darkModule (hd : 21 ≤ d) : formatBit d (d - 8) 8 = none := by
  rw [formatBit, if_pos rfl, if_neg (by omega), if_neg (by omega), if_neg (by omega), if_neg (by omega)]

theorem mem_formatStamps (hd : 21 ≤ d) {f : ParamCsrs} {test : Bool} : (r, c, dark) ∈ formatStamps d f test ↔
    (∃ i, formatBit d r c = some i ∧ dark = (!test && (bchFormat (formatData f)).testBit i)) ∨
      ((r = d - 8 ∧ c = 8) ∧ dark = !test) := by
  simp only [formatStamps, List.mem_append, List.mem_flatMap, List.mem_range, List.mem_cons, List.not_mem_nil, or_false,
    formatBit_eq_some_iff hd, Prod.ext_iff, ← and_assoc, ← or_and_right]

theorem formatStamps_draws (hd : 21 ≤ d) (f : ParamCsrs) (test : Bool) :
    Draws (formatStamps d f test) (formatColour d (bchFormat (formatData f)) test) := by
  intro r c dark
  rw [mem_formatStamps hd, formatColour]
  cases h : formatBit d r c with
  | none => simp [eq_comm]
  | some i =>
    have hother : ¬ (r = d - 8 ∧ c = 8) := by
      rintro ⟨rfl, rfl⟩
      rw [formatBit_darkModule hd] at h
      cases h
    simp [hother, eq_comm]

theorem versionStamps_draws (hd : 21 ≤ d) {f : ParamCsrs} (hv : 7 ≤ f.version.toNat) (test : Bool) :
    Draws (versionStamps d f test) (versionColour d (bchVersion f.version.toNat) test) := by
  intro r c dark
  rw [versionStamps, if_neg hv.not_gt, versionColour, Option.map_eq_some_iff]
  simp only [List.mem_flatMap, List.mem_range, List.mem_cons, List.not_mem_nil, or_false, versionBit_eq_some_iff hd,
    Prod.ext_iff, ← and_assoc, ← or_and_right, eq_comm (a := dark)]

theorem versionStamps_of_lt {f : ParamCsrs} (hv : f.version.toNat < 7) (test : Bool) : versionStamps d f test = [] :=
  if_pos hv

/-- The number of a format word in the table of 47_codeword_bch R286. -/
theorem formatData_eq (f : ParamCsrs) : formatData f = 8 * f.ecl.toNat + f.mask.toNat := by
  rw [formatData, Nat.shiftLeft_eq_mul_pow, Nat.mul_comm, Nat.two_pow_add_eq_or_of_lt (i := 3) f.mask.isLt]

theorem bchFormat_formatData (f : ParamCsrs) :
    bchFormat (formatData f) = formatWords.getD (8 * f.ecl.toNat + f.mask.toNat) 0 := by
  have hecl := f.ecl.isLt
  have hmask := f.mask.isLt
  rw [formatData_eq]
  exact bchFormat_eq_formatWords _ (by omega)

/-- Settles O53: the stamps of both commands are the colours of `formatColour` and `versionColour`. -/
theorem formatAndVersion : Obligations.FormatAndVersion := by
  intro s d test hv v format
  have hdim := dim_of_versionOk hv
  obtain ⟨h21, hle, -⟩ := dim_bounds hdim
  refine ⟨⟨_, exec_mxfmt_of_dim hdim test, fun r c hc => ?format⟩,
    ⟨_, exec_mxver_of_dim hdim test, fun h7 => ?_, fun h7 r c hc => ?version⟩⟩
  case format =>
    have hdraws := formatStamps_draws h21 s.csr test
    have hin := formatStamps_in h21 s.csr test
    rw [bchFormat_formatData] at hdraws
    cases hi : formatBit d r c with
    | some i => exact hdraws.read_setAll_of_some hin hle hc (by rw [formatColour, hi])
    | none =>
      have hcolour : formatColour d format test r c = if r = d - 8 ∧ c = 8 then some (!test) else none := by
        rw [formatColour, hi]
      by_cases hcell : r = d - 8 ∧ c = 8
      · exact (hdraws.read_setAll_of_some hin hle hc (hcolour.trans (if_pos hcell))).trans (if_pos hcell).symm
      · exact (hdraws.read_setAll_of_none hin hle hc (hcolour.trans (if_neg hcell))).trans (if_neg hcell).symm
  · rw [versionStamps_of_lt h7, setAll]
  case version =>
    have hdraws := versionStamps_draws h21 h7 test
    have hin := versionStamps_in h21 s.csr test
    rw [bchVersion_eq_versionWords _ (Nat.lt_succ_of_le hv.2.1) h7] at hdraws
    cases hi : versionBit d r c with
    | some i => exact hdraws.read_setAll_of_some hin hle hc (by rw [versionColour, hi]; rfl)
    | none => exact hdraws.read_setAll_of_none hin hle hc (by rw [versionColour, hi]; rfl)

end Sys2Proof.Machine
end

section
/-! The patterns that depend on what a cell holds (48_matrix R313 to R316): the timing cells that are UNSET, and the
alignment patterns round the UNSET centres. -/

namespace Sys2Proof.Machine

open Sys2Proof.Claims

variable {mm mm' : Memory ModuleCell} {stamps : List Stamp} {d r c k : Nat} {dark : Bool}

/-! ## Cells set where they are UNSET (R315) -/

theorem isSome_read_setAll (h : (Memory.read mm k).isSome) : (Memory.read (setAll mm stamps) k).isSome := by
  induction stamps generalizing mm with
  | nil => exact h
  | cons t ts ih => exact ih (Memory.isSome_read_write _ _ _ _ h)

theorem exists_writtenCell (h : (Memory.read mm (cellKey r c)).isSome) : ∃ m, writtenCell mm r c = .ok m := by
  obtain ⟨m, hm⟩ := Option.isSome_iff_exists.mp h
  exact ⟨m, writtenCell_of_read hm⟩

/-- A cell that is set if it is UNSET stays written. -/
theorem isSome_read_ite {p : Prop} [Decidable p] (h : (Memory.read mm k).isSome) (h' : (Memory.read mm' k).isSome) :
    (Memory.read (if p then mm' else mm) k).isSome := by
  split
  · exact h'
  · exact h

/-- A pass over written cells completes. -/
theorem exists_setWhereUnset (h : ∀ t ∈ stamps, (Memory.read mm (cellKey t.1 t.2.1)).isSome) :
    ∃ mm', setWhereUnset mm stamps = .ok mm' := by
  induction stamps generalizing mm with
  | nil => exact ⟨mm, rfl⟩
  | cons t ts ih =>
    obtain ⟨r, c, v⟩ := t
    obtain ⟨m, hm⟩ := exists_writtenCell (h _ List.mem_cons_self)
    rw [setWhereUnset, hm, ok_bind]
    refine ih fun u hu => ?_
    have hwritten := h u (List.mem_cons_of_mem _ hu)
    exact isSome_read_ite hwritten (Memory.isSome_read_write _ _ _ _ hwritten)

theorem mayBeUnset_of_shade (h : Memory.read mm k = some (shade dark)) : mayBeUnset mm k = false := by
  rw [mayBeUnset, h]
  cases dark <;> rfl

/-- A covered cell that is UNSET takes the colour on which its stamps agree. -/
theorem read_setWhereUnset_of_unset (h : setWhereUnset mm stamps = .ok mm')
    (hall : ∀ t ∈ stamps, cellKey t.1 t.2.1 = k → t.2.2 = dark) (hk : covers stamps k = true)
    (hunset : Memory.read mm k = some .unset) : Memory.read mm' k = some (shade dark) := by
  induction stamps generalizing mm with
  | nil => cases hk
  | cons t ts ih =>
    obtain ⟨r, c, v⟩ := t
    obtain ⟨m, hm, h⟩ := bind_ok h
    by_cases hrc : cellKey r c = k
    · subst hrc
      obtain rfl : m = .unset := Option.some.inj ((writtenCell_ok hm).symm.trans hunset)
      obtain rfl : v = dark := hall _ List.mem_cons_self rfl
      rw [if_pos rfl] at h
      have hset : Memory.read (setCell mm r c v) (cellKey r c) = some (shade v) := read_setCell_same
      rw [read_setWhereUnset_kept h fun _ => mayBeUnset_of_shade hset, hset]
    · rw [covers_cons, Bool.or_eq_true, beq_iff_eq, or_iff_right hrc] at hk
      refine ih h (fun u hu => hall u (List.mem_cons_of_mem _ hu)) hk ?_
      rw [read_setIfUnset hm fun he => absurd he hrc, hunset]

/-! ## Timing (R315, R316) -/

/-- The colour of a timing cell: dark at even index (R315). -/
def timingColour (d r c : Nat) : Option Bool :=
  if c = 6 ∧ 8 ≤ r ∧ r ≤ d - 9 then some (r % 2 == 0)
  else if r = 6 ∧ 8 ≤ c ∧ c ≤ d - 9 then some (c % 2 == 0)
  else none

theorem timingStamps_draws (hd : 21 ≤ d) : Draws (timingStamps d) (timingColour d) := by
  intro r c dark
  simp only [timingStamps, timingColour, List.map_map, List.mem_append, List.mem_map, List.mem_range, Function.comp,
    Prod.mk.injEq]
  constructor
  · rintro (⟨i, hi, rfl, rfl, rfl⟩ | ⟨i, hi, rfl, rfl, rfl⟩)
    · exact if_pos (by omega)
    · exact (if_neg (by omega)).trans (if_pos (by omega))
  · intro h
    split_ifs at h with hcol hrow <;> cases h
    · exact .inl ⟨r - 8, by omega, by omega, by omega, by rw [Nat.sub_add_cancel hcol.2.1]⟩
    · exact .inr ⟨c - 8, by omega, by omega, by omega, by rw [Nat.sub_add_cancel hrow.2.1]⟩

theorem timingColour_column {i : Nat} (hlo : 8 ≤ i) (hhi : i ≤ d - 9) : timingColour d i 6 = some (i % 2 == 0) :=
  if_pos ⟨rfl, hlo, hhi⟩

theorem timingColour_row {i : Nat} (hlo : 8 ≤ i) (hhi : i ≤ d - 9) : timingColour d 6 i = some (i % 2 == 0) :=
  (if_neg (by omega)).trans (if_pos ⟨rfl, hlo, hhi⟩)

theorem isSome_timingColour_iff : (timingColour d r c).isSome ↔
    c = 6 ∧ 8 ≤ r ∧ r ≤ d - 9 ∨ r = 6 ∧ 8 ≤ c ∧ c ≤ d - 9 := by
  unfold timingColour
  split_ifs with hcol hrow <;> simp [*]

section
variable (h : placeTiming d mm = .ok mm') (h21 : 21 ≤ d) (hle : d ≤ Config.mmDim) (hc : c < Config.mmDim)
include h h21 hle hc

/-- An UNSET timing cell takes its colour. -/
theorem read_placeTiming_of_unset (hcolour : timingColour d r c = some dark)
    (hunset : Memory.read mm (cellKey r c) = some .unset) : Memory.read mm' (cellKey r c) = some (shade dark) := by
  have hdraws := timingStamps_draws h21
  have hin := timingStamps_in h21
  refine read_setWhereUnset_of_unset h (fun t ht hk => ?_) ((hdraws.covers_iff hin hle hc).mpr (hcolour ▸ rfl)) hunset
  exact Option.some.inj ((hdraws.colour_of_mem hin hle hc ht hk).symm.trans hcolour)

/-- A cell that is no timing cell, or is not UNSET, stays. -/
theorem read_placeTiming_kept (hk : (timingColour d r c).isSome → mayBeUnset mm (cellKey r c) = false) :
    Memory.read mm' (cellKey r c) = Memory.read mm (cellKey r c) :=
  read_setWhereUnset_kept h fun hcov =>
    hk (((timingStamps_draws h21).covers_iff (timingStamps_in h21) hle hc).mp hcov)

end

/-- A written cell that is not UNSET has a colour. -/
theorem mayBeUnset_of_ne_unset (h : (Memory.read mm k).isSome) (hne : Memory.read mm k ≠ some .unset) :
    mayBeUnset mm k = false := by
  obtain ⟨m, hm⟩ := Option.isSome_iff_exists.mp h
  rw [mayBeUnset, hm]
  cases m
  · exact absurd hm hne
  · rfl
  · rfl

/-- The timing cells are written if those of column 6 and row 6 between the finders are. -/
theorem isSome_read_of_timingColour
    (h : ∀ i, 8 ≤ i → i ≤ d - 9 → (Memory.read mm (cellKey i 6)).isSome ∧ (Memory.read mm (cellKey 6 i)).isSome)
    (hcolour : (timingColour d r c).isSome) : (Memory.read mm (cellKey r c)).isSome := by
  obtain ⟨rfl, hlo, hhi⟩ | ⟨rfl, hlo, hhi⟩ := isSome_timingColour_iff.mp hcolour
  · exact (h r hlo hhi).1
  · exact (h c hlo hhi).2

/-- Settles O52: the pass sets the UNSET cells among those of `timingColour`. -/
theorem timingCommand : Obligations.TimingCommand := by
  intro s d hv hwritten
  have hdim := dim_of_versionOk hv
  obtain ⟨h21, hle, -⟩ := dim_bounds hdim
  have hcells : ∀ {r c}, (timingColour d r c).isSome → (Memory.read s.mm (cellKey r c)).isSome :=
    isSome_read_of_timingColour hwritten
  obtain ⟨mm, hmm⟩ : ∃ mm, placeTiming d s.mm = .ok mm := exists_setWhereUnset fun t ht =>
    hcells (Option.isSome_iff_exists.mpr ⟨_, (timingStamps_draws h21 _ _ _).mp ht⟩)
  refine ⟨mm, exec_mxtim_of_placeTiming hdim hmm, fun i hlo hhi => ⟨?column, ?row⟩, fun r c hc hkept => ?kept⟩
  case column => exact read_placeTiming_of_unset hmm h21 hle (by decide) (timingColour_column hlo hhi)
  case row =>
    have hi : i < Config.mmDim := by omega
    exact read_placeTiming_of_unset hmm h21 hle hi (timingColour_row hlo hhi)
  case kept =>
    refine read_placeTiming_kept hmm h21 hle hc fun hcolour => mayBeUnset_of_ne_unset (hcells hcolour) ?_
    exact fun hunset => hkept ⟨isSome_timingColour_iff.mp hcolour, hunset⟩

/-! ## Alignment patterns (R313) -/

/-- The colour of the pattern round the centre `(u, v)` (R313). -/
def alignColour (u v r c : Nat) : Bool := ring 2 (r + 2 - u) (c + 2 - v) != 1

theorem alignDark_eq_ring : ∀ i < 5, ∀ j < 5, alignDark i j = (ring 2 i j != 1) := by decide

theorem mem_alignStamps {u v : Nat} (hu : 2 ≤ u) (hv : 2 ≤ v) : (r, c, dark) ∈ alignStamps u v ↔
    (near r u ∧ near c v) ∧ dark = alignColour u v r c := by
  simp only [alignStamps, List.mem_flatMap, List.mem_map, List.mem_range, Prod.mk.injEq, near, alignColour]
  constructor
  · rintro ⟨i, hi, j, hj, rfl, rfl, rfl⟩
    refine ⟨by omega, ?_⟩
    rw [show u + i - 2 + 2 - u = i by omega, show v + j - 2 + 2 - v = j by omega, alignDark_eq_ring i hi j hj]
  · rintro ⟨hnear, rfl⟩
    refine ⟨r + 2 - u, by omega, c + 2 - v, by omega, by omega, by omega, ?_⟩
    exact alignDark_eq_ring _ (by omega) _ (by omega)

/-- The pattern round the centre `(u, v)`: its colour within two rows and two columns (R313). -/
def alignPattern (u v r c : Nat) : Option Bool :=
  if (r ≤ u + 2 ∧ u ≤ r + 2) ∧ c ≤ v + 2 ∧ v ≤ c + 2 then some (alignColour u v r c) else none

theorem alignStamps_draws {u v : Nat} (hu : 2 ≤ u) (hv : 2 ≤ v) : Draws (alignStamps u v) (alignPattern u v) := by
  intro r c dark
  rw [mem_alignStamps hu hv, alignPattern]
  split_ifs with hnear
  · rw [Option.some.injEq, eq_comm]
    exact and_iff_right hnear
  · exact iff_of_false (fun h => hnear h.1) (by simp)

/-! ## Alignment, centre by centre (R314) -/

/-- The cells after the turn of one centre. -/
def alignTurn (g : Nat → Nat → Option ModuleCell) (u v : Nat) : Nat → Nat → Option ModuleCell :=
  if g u v = some .unset then fun r c =>
    if (r ≤ u + 2 ∧ u ≤ r + 2) ∧ c ≤ v + 2 ∧ v ≤ c + 2 then some (shade (alignColour u v r c)) else g r c
  else g

theorem aligned_cons {g : Nat → Nat → Option ModuleCell} {u v : Nat} {rest : List (Nat × Nat)} :
    aligned ((u, v) :: rest) g = aligned rest (alignTurn g u v) := rfl

section
variable {g : Nat → Nat → Option ModuleCell} {u v : Nat}

theorem alignTurn_of_coloured (h : g u v ≠ some .unset) : alignTurn g u v = g := if_neg h

theorem alignTurn_of_near (h : g u v = some .unset) (hr : near r u) (hc : near c v) :
    alignTurn g u v r c = some (shade (alignColour u v r c)) := by
  rw [alignTurn, if_pos h]
  exact if_pos ⟨hr, hc⟩

theorem alignTurn_of_far (h : ¬ (near r u ∧ near c v)) : alignTurn g u v r c = g r c := by
  rw [alignTurn]
  split
  · exact if_neg h
  · rfl

/-- A turn either keeps a cell or gives it the colour of the pattern. -/
theorem alignTurn_cases (g : Nat → Nat → Option ModuleCell) (u v r c : Nat) : alignTurn g u v r c = g r c ∨
    (g u v = some .unset ∧ near r u ∧ near c v) ∧ alignTurn g u v r c = some (shade (alignColour u v r c)) := by
  by_cases hunset : g u v = some .unset
  · by_cases hnear : near r u ∧ near c v
    · exact .inr ⟨⟨hunset, hnear⟩, alignTurn_of_near hunset hnear.1 hnear.2⟩
    · exact .inl (alignTurn_of_far hnear)
  · exact .inl (congrFun (congrFun (alignTurn_of_coloured hunset) r) c)

theorem shade_ne_unset : some (shade dark) ≠ some ModuleCell.unset := by cases dark <;> decide

/-- No turn makes a cell UNSET. -/
theorem alignTurn_ne_unset (h : g r c ≠ some .unset) : alignTurn g u v r c ≠ some .unset := by
  obtain hkept | ⟨-, hset⟩ := alignTurn_cases g u v r c
  · rwa [hkept]
  · rw [hset]
    exact shade_ne_unset

theorem isSome_alignTurn (h : (g r c).isSome) : (alignTurn g u v r c).isSome := by
  obtain hkept | ⟨-, hset⟩ := alignTurn_cases g u v r c
  · rwa [hkept]
  · rw [hset]
    rfl

/-- Setting the pattern round an UNSET centre is that centre's turn. -/
theorem read_setAll_alignStamps (hle : d ≤ Config.mmDim) (hu : 2 ≤ u ∧ u ≤ d - 3) (hv : 2 ≤ v ∧ v ≤ d - 3)
    (hg : ∀ r c, c < Config.mmDim → Memory.read mm (cellKey r c) = g r c) (hunset : g u v = some .unset)
    (hc : c < Config.mmDim) : Memory.read (setAll mm (alignStamps u v)) (cellKey r c) = alignTurn g u v r c := by
  have hdraws := alignStamps_draws hu.1 hv.1
  have hin := alignStamps_in hu hv
  by_cases hnear : near r u ∧ near c v
  · rw [alignTurn_of_near hunset hnear.1 hnear.2]
    exact hdraws.read_setAll_of_some hin hle hc (if_pos hnear)
  · rw [alignTurn_of_far hnear, ← hg r c hc]
    exact hdraws.read_setAll_of_none hin hle hc (if_neg hnear)

/-- The stamping step completes, and leaves the cells of `aligned`. -/
theorem placeAlignAt_eq_aligned {cs : List (Nat × Nat)} (hle : d ≤ Config.mmDim)
    (hcs : ∀ t ∈ cs, (2 ≤ t.1 ∧ t.1 ≤ d - 3) ∧ 2 ≤ t.2 ∧ t.2 ≤ d - 3)
    (hg : ∀ r c, c < Config.mmDim → Memory.read mm (cellKey r c) = g r c) (hwritten : ∀ t ∈ cs, (g t.1 t.2).isSome) :
    ∃ mm', placeAlignAt mm cs = .ok mm' ∧
      ∀ r c, c < Config.mmDim → Memory.read mm' (cellKey r c) = aligned cs g r c := by
  induction cs generalizing mm g with
  | nil => exact ⟨mm, rfl, hg⟩
  | cons t ts ih =>
    obtain ⟨u, v⟩ := t
    obtain ⟨hu, hv⟩ := hcs _ List.mem_cons_self
    have hread : Memory.read mm (cellKey u v) = g u v := hg u v (by omega)
    obtain ⟨m, hm⟩ := Option.isSome_iff_exists.mp (hwritten _ List.mem_cons_self)
    rw [placeAlignAt, writtenCell_of_read (hread.trans hm), ok_bind, aligned_cons]
    refine ih (fun w hw => hcs w (List.mem_cons_of_mem _ hw)) (fun r c hc => ?_)
      (fun w hw => isSome_alignTurn (hwritten w (List.mem_cons_of_mem _ hw)))
    split
    · next hunset => exact read_setAll_alignStamps hle hu hv hg (hm.trans (congrArg some hunset)) hc
    · next hset =>
      rw [alignTurn_of_coloured fun hunset => hset (Option.some.inj (hm.symm.trans hunset))]
      exact hg r c hc

/-- A cell with no UNSET centre near it stays. -/
theorem aligned_of_no_unset_near {cs : List (Nat × Nat)}
    (h : ∀ t ∈ cs, near r t.1 → near c t.2 → g t.1 t.2 ≠ some .unset) : aligned cs g r c = g r c := by
  induction cs generalizing g with
  | nil => rfl
  | cons t ts ih =>
    obtain ⟨u, v⟩ := t
    have hturn : alignTurn g u v r c = g r c := by
      obtain hkept | ⟨⟨hunset, hr, hc⟩, -⟩ := alignTurn_cases g u v r c
      · exact hkept
      · exact absurd hunset (h _ List.mem_cons_self hr hc)
    rw [aligned_cons, ih fun w hw hr hc => alignTurn_ne_unset (h w (List.mem_cons_of_mem _ hw) hr hc), hturn]

/-- Where the centres near a cell are one centre, and that is UNSET, the cell takes the colour of its pattern. -/
theorem aligned_of_unset {cs : List (Nat × Nat)}
    (hapart : ∀ t ∈ cs, near r t.1 → near c t.2 → t = (u, v)) (hcentre : ∀ t ∈ cs, near u t.1 → near v t.2 → t = (u, v))
    (hmem : (u, v) ∈ cs) (hunset : g u v = some .unset) (hr : near r u) (hc : near c v) :
    aligned cs g r c = some (shade (alignColour u v r c)) := by
  induction cs generalizing g with
  | nil => cases hmem
  | cons t ts ih =>
    obtain ⟨u', v'⟩ := t
    rw [aligned_cons]
    by_cases hsame : (u', v') = (u, v)
    · cases hsame
      rw [aligned_of_no_unset_near fun w hw hr' hc' => ?_, alignTurn_of_near hunset hr hc]
      obtain rfl := hapart w (List.mem_cons_of_mem _ hw) hr' hc'
      rw [alignTurn_of_near hunset (by simp [near]) (by simp [near])]
      exact shade_ne_unset
    · refine ih (fun w hw => hapart w (List.mem_cons_of_mem _ hw)) (fun w hw => hcentre w (List.mem_cons_of_mem _ hw))
        ((List.mem_cons.mp hmem).resolve_left (Ne.symm hsame)) ?_
      rw [alignTurn_of_far fun hnear => hsame (hcentre _ List.mem_cons_self hnear.1 hnear.2), hunset]

end

/-! ## MXALN -/

theorem checkCentres_of_ok {cs : List Nat} (h : ∀ a ∈ cs, 2 ≤ a ∧ a ≤ d - 3) : checkCentres d cs = .ok () := by
  induction cs with
  | nil => rfl
  | cons a as ih =>
    obtain ⟨hlo, hhi⟩ := h a List.mem_cons_self
    rw [checkCentres, badOperandIf_of_not (by omega), ok_bind, ih fun b hb => h b (List.mem_cons_of_mem a hb)]

theorem checkCentres_of_bad {good rest : List Nat} {u : Nat} (hgood : ∀ a ∈ good, 2 ≤ a ∧ a ≤ d - 3)
    (hu : u < 2 ∨ d - 3 < u) : checkCentres d (good ++ u :: rest) = raise .badOperand u := by
  induction good with
  | nil =>
    rw [List.nil_append, checkCentres, badOperandIf_of hu]
    rfl
  | cons a as ih =>
    obtain ⟨hlo, hhi⟩ := hgood a List.mem_cons_self
    rw [List.cons_append, checkCentres, badOperandIf_of_not (by omega), ok_bind,
      ih fun b hb => hgood b (List.mem_cons_of_mem a hb)]

theorem mem_centrePairs {f : ParamCsrs} {u v : Nat} :
    (u, v) ∈ centrePairs f ↔ u ∈ alignCentres f ∧ v ∈ alignCentres f := by
  simp [centrePairs]

theorem exec_mxaln_of_placeAlign {s : State} (hdim : dim s.csr = .ok d) (hcentres : centresOk s.csr d)
    (h : placeAlign s.csr s.mm = .ok mm) : exec .mxaln s = .next { s with mm := mm, pc := s.pc + 1 } :=
  finish_bind_of_ok hdim (finish_bind_of_ok (checkCentres_of_ok hcentres) (finish_bind_of_ok h (finish_paint _)))

/-- Coordinates that are equal or at least 5 apart are equal when a third one is near both. -/
theorem eq_of_near_of_apart {a u v : Nat} (h : u = v ∨ u + 5 ≤ v ∨ v + 5 ≤ u) (hu : near a u) (hv : near a v) :
    u = v := by
  simp only [near] at *
  omega

/-- Settles O51: the stamping step is `aligned`, whose turns do not meet where the centres are apart. -/
theorem alignmentCommand : Obligations.AlignmentCommand := by
  intro s d hv
  have hdim := dim_of_versionOk hv
  obtain ⟨h21, hle, -⟩ := dim_bounds hdim
  refine ⟨fun hcentres hwritten => ?_, fun good u rest heq hgood hu => ?bad⟩
  case bad => exact finish_bind_of_ok hdim (finish_bind_of_raise (heq ▸ checkCentres_of_bad hgood hu))
  obtain ⟨mm, hmm, hread⟩ := placeAlignAt_eq_aligned (g := fun r c => Memory.read s.mm (cellKey r c)) hle
    (centrePairs_bounds hcentres) (fun _ _ _ => rfl)
    fun t ht => hwritten _ (mem_centrePairs.mp ht).1 _ (mem_centrePairs.mp ht).2
  refine ⟨mm, exec_mxaln_of_placeAlign hdim hcentres hmm, hread, fun hapart => ⟨?unset, ?kept⟩⟩
  case unset =>
    intro u hu v hv hunset r c hr hc
    have hone : ∀ {r' c'}, near r' u → near c' v → ∀ t ∈ centrePairs s.csr, near r' t.1 → near c' t.2 → t = (u, v) := by
      intro r' c' hru hcv t ht hrt hct
      obtain ⟨ht1, ht2⟩ := mem_centrePairs.mp ht
      exact Prod.ext (eq_of_near_of_apart (hapart _ ht1 u hu) hrt hru) (eq_of_near_of_apart (hapart _ ht2 v hv) hct hcv)
    have hc' : c < Config.mmDim := by
      have := (hcentres v hv).2
      simp only [near] at hc
      omega
    rw [hread r c hc']
    exact aligned_of_unset (hone hr hc) (hone (by simp [near]) (by simp [near])) (mem_centrePairs.mpr ⟨hu, hv⟩) hunset
      hr hc
  case kept =>
    intro r c hc hnear
    rw [hread r c hc]
    exact aligned_of_no_unset_near fun t ht => hnear _ (mem_centrePairs.mp ht).1 _ (mem_centrePairs.mp ht).2

end Sys2Proof.Machine
end

section
/-! The placement path (48_matrix R320), lane by lane. -/

namespace Sys2Proof.Machine

open Sys2Proof.Claims

variable {d k j r c : Nat}

/-! ## Lists of lanes -/

/-- A place in a chain of lists of one length is a place in one of them. -/
theorem getElem?_flatMap_of_length {α β : Type} {f : α → List β} {m : Nat} (hf : ∀ a, (f a).length = m) (l : List α)
    (i : Nat) (hj : j < m) : (l.flatMap f)[i * m + j]? = l[i]?.bind fun a => (f a)[j]? := by
  induction l generalizing i with
  | nil => rfl
  | cons a as ih =>
    rw [List.flatMap_cons]
    cases i with
    | zero => rw [Nat.zero_mul, Nat.zero_add, List.getElem?_append_left (by rw [hf]; exact hj)]; rfl
    | succ i =>
      rw [Nat.succ_mul, List.getElem?_append_right (by rw [hf]; omega), hf,
        show i * m + m + j - m = i * m + j by omega, ih]
      rfl

theorem length_flatMap_of_length {α β : Type} {f : α → List β} {m : Nat} (hf : ∀ a, (f a).length = m) (l : List α) :
    (l.flatMap f).length = l.length * m := by
  rw [List.length_flatMap, funext hf, List.map_const', List.sum_replicate, smul_eq_mul]

/-! ## Lanes (R320) -/

/-- The right column of lane `k`: two columns to a lane from the right, column 6 skipped. -/
def laneColumn (d k : Nat) : Nat := if d - 1 - 2 * k ≤ 6 then d - 2 - 2 * k else d - 1 - 2 * k

/-- The rows of lane `k`, the first lane upward. -/
def laneRows (d k : Nat) : List Nat := if k % 2 = 0 then (List.range d).reverse else List.range d

/-- The cells of lane `k`, the right cell before the left. -/
def laneCells (d k : Nat) : List (Nat × Nat) :=
  (laneRows d k).flatMap fun r => [(r, laneColumn d k), (r, laneColumn d k - 1)]

/-- The column the model starts lane `k` from, before it skips column 6. -/
def laneStart (d k : Nat) : Nat := if d - 1 - 2 * k < 6 then d - 2 - 2 * k else d - 1 - 2 * k

theorem lanes_eq_flatMap {n fuel : Nat} (hodd : 2 * (k + n) + 1 = d) (hfuel : n ≤ fuel) :
    lanes d fuel (laneStart d k) (decide (k % 2 = 0)) = (List.range' k n).flatMap (laneCells d) := by
  induction fuel generalizing k n with
  | zero =>
    obtain rfl : n = 0 := by omega
    rfl
  | succ fuel ih =>
    cases n with
    | zero =>
      rw [lanes, if_pos (by rw [laneStart, if_pos (by omega)]; omega)]
      rfl
    | succ n =>
      have hskip : (if laneStart d k = 6 then 5 else laneStart d k) = laneColumn d k := by
        unfold laneStart laneColumn
        split_ifs <;> omega
      have hnext : laneColumn d k - 2 = laneStart d (k + 1) := by
        unfold laneStart laneColumn
        split_ifs <;> omega
      have hturn : (!decide (k % 2 = 0)) = decide ((k + 1) % 2 = 0) := by
        rw [← decide_not]
        exact decide_eq_decide.mpr (by omega)
      rw [lanes, if_neg (by rw [laneStart]; split <;> omega)]
      simp only [hskip, hnext, hturn, decide_eq_true_eq]
      rw [ih (n := n) (by omega) (by omega), List.range'_succ, List.flatMap_cons]
      rfl

/-- The path is its lanes, from the right. -/
theorem path_eq_flatMap (hodd : d % 2 = 1) (h21 : 21 ≤ d) :
    path d = (List.range ((d - 1) / 2)).flatMap (laneCells d) := by
  have hstart : d - 1 = laneStart d 0 := by
    unfold laneStart
    split <;> omega
  rw [path, hstart, List.range_eq_range']
  exact lanes_eq_flatMap (by omega) (by omega)

theorem length_laneRows : (laneRows d k).length = d := by
  unfold laneRows
  split
  · rw [List.length_reverse, List.length_range]
  · rw [List.length_range]

theorem length_laneCells : (laneCells d k).length = d * 2 := by
  rw [laneCells, length_flatMap_of_length (m := 2) fun _ => rfl, length_laneRows]

theorem mem_laneRows : r ∈ laneRows d k ↔ r < d := by
  unfold laneRows
  split
  · rw [List.mem_reverse, List.mem_range]
  · rw [List.mem_range]

theorem getElem?_laneRows (hj : j < d) : (laneRows d k)[j]? = some (if k % 2 = 0 then d - 1 - j else j) := by
  unfold laneRows
  split
  · rw [List.getElem?_reverse (by rwa [List.length_range]), List.length_range, List.getElem?_range (by omega)]
  · rw [List.getElem?_range hj]

theorem mem_laneCells : (r, c) ∈ laneCells d k ↔ r < d ∧ (c = laneColumn d k ∨ c = laneColumn d k - 1) := by
  simp only [laneCells, List.mem_flatMap, mem_laneRows, List.mem_cons, List.not_mem_nil, or_false, Prod.mk.injEq]
  constructor
  · rintro ⟨x, hx, ⟨rfl, h⟩ | ⟨rfl, h⟩⟩
    · exact ⟨hx, .inl h⟩
    · exact ⟨hx, .inr h⟩
  · rintro ⟨hr, h | h⟩
    · exact ⟨r, hr, .inl ⟨rfl, h⟩⟩
    · exact ⟨r, hr, .inr ⟨rfl, h⟩⟩

/-- The columns of the lanes are all but column 6. -/
theorem exists_lane_iff (hodd : d % 2 = 1) (h21 : 21 ≤ d) :
    (∃ k < (d - 1) / 2, c = laneColumn d k ∨ c = laneColumn d k - 1) ↔ c < d ∧ c ≠ 6 := by
  constructor
  · rintro ⟨k, hk, h⟩
    unfold laneColumn at h
    split at h <;> omega
  · rintro ⟨hc, h6⟩
    refine ⟨if c < 6 then (d - 2 - c) / 2 else (d - 1 - c) / 2, ?_⟩
    unfold laneColumn
    split_ifs <;> omega

/-! ## The path -/

section
variable (hodd : d % 2 = 1) (h21 : 21 ≤ d)
include hodd h21

theorem mem_path : (r, c) ∈ path d ↔ r < d ∧ c < d ∧ c ≠ 6 := by
  simp only [path_eq_flatMap hodd h21, List.mem_flatMap, List.mem_range, mem_laneCells, ← exists_lane_iff hodd h21]
  constructor
  · rintro ⟨k, hk, hr, hc⟩
    exact ⟨hr, k, hk, hc⟩
  · rintro ⟨hr, k, hk, hc⟩
    exact ⟨k, hk, hr, hc⟩

theorem length_path : (path d).length = d * (d - 1) := by
  rw [path_eq_flatMap hodd h21, length_flatMap_of_length (fun _ => length_laneCells), List.length_range,
    Nat.mul_comm, Nat.mul_assoc, Nat.mul_div_cancel' (by omega)]

/-- The path has as many places as cells, so no cell stands twice. -/
theorem nodup_path : (path d).Nodup := by
  have hcells : (path d).toFinset = Finset.range d ×ˢ (Finset.range d).erase 6 := by
    ext ⟨r, c⟩
    rw [List.mem_toFinset, mem_path hodd h21, Finset.mem_product, Finset.mem_erase, Finset.mem_range, Finset.mem_range,
      and_comm (a := c ≠ 6)]
  refine Multiset.coe_nodup.mp (Multiset.toFinset_card_eq_card_iff_nodup.mp ?_)
  rw [Multiset.coe_card, length_path hodd h21]
  refine (congrArg Finset.card hcells).trans ?_
  rw [Finset.card_product, Finset.card_erase_of_mem (Finset.mem_range.mpr (by omega)), Finset.card_range]

/-- The two cells of row `j` of lane `k`. -/
theorem getElem?_path (hk : k < (d - 1) / 2) (hj : j < d) {b : Nat} (hb : b < 2) :
    (path d)[2 * (k * d + j) + b]? =
      [((if k % 2 = 0 then d - 1 - j else j), laneColumn d k),
        ((if k % 2 = 0 then d - 1 - j else j), laneColumn d k - 1)][b]? := by
  rw [path_eq_flatMap hodd h21, show 2 * (k * d + j) + b = k * (d * 2) + (j * 2 + b) by ring,
    getElem?_flatMap_of_length (fun _ => length_laneCells) _ _ (by omega), List.getElem?_range hk, Option.bind_some,
    laneCells, getElem?_flatMap_of_length (m := 2) (fun _ => rfl) _ _ hb, getElem?_laneRows hj, Option.bind_some]

end

/-- Settles O54: the path is the list of its lanes. -/
theorem placementPath : Obligations.PlacementPath := by
  intro v hlo hhi d
  have hodd : d % 2 = 1 := by omega
  have h21 : 21 ≤ d := by omega
  exact ⟨nodup_path hodd h21, length_path hodd h21, fun r c => mem_path hodd h21, fun k j hk hj =>
    ⟨getElem?_path hodd h21 hk hj (b := 0) (by decide), getElem?_path hodd h21 hk hj (b := 1) (by decide)⟩⟩

end Sys2Proof.Machine
end

section
/-! Data placement (48_matrix R321 to R323): the bits of the stream in the UNSET cells of the path. -/

namespace Sys2Proof.Machine

open Sys2Proof.Claims

variable {mm mm' : Memory ModuleCell} {bytes : List Byte} {m d j r c : Nat} {cs : List (Nat × Nat)}

/-- The listed cells that are UNSET. -/
def unsetCells (mm : Memory ModuleCell) (cs : List (Nat × Nat)) : List (Nat × Nat) :=
  cs.filter fun rc => decide (Memory.read mm (cellKey rc.1 rc.2) = some .unset)

theorem read_setCell_of_ne {r' c' : Nat} {dark : Bool} (hc : c < Config.mmDim) (hc' : c' < Config.mmDim)
    (h : (r', c') ≠ (r, c)) : Memory.read (setCell mm r c dark) (cellKey r' c') = Memory.read mm (cellKey r' c') := by
  refine Memory.read_write_ne _ _ fun he => h ?_
  obtain ⟨rfl, rfl⟩ := cellKey_inj hc' hc he
  rfl

theorem unsetCells_cons_of_unset (h : Memory.read mm (cellKey r c) = some .unset) :
    unsetCells mm ((r, c) :: cs) = (r, c) :: unsetCells mm cs := by
  simp [unsetCells, h]

theorem unsetCells_cons_of_ne (h : Memory.read mm (cellKey r c) ≠ some .unset) :
    unsetCells mm ((r, c) :: cs) = unsetCells mm cs := by
  simp [unsetCells, h]

/-- Setting a cell that is not listed leaves the listed ones UNSET or not. -/
theorem unsetCells_setCell {dark : Bool} (hc : c < Config.mmDim) (hcs : ∀ t ∈ cs, t.2 < Config.mmDim)
    (h : (r, c) ∉ cs) : unsetCells (setCell mm r c dark) cs = unsetCells mm cs := by
  refine List.filter_congr fun t ht => ?_
  rw [read_setCell_of_ne hc (hcs t ht) fun he => h (he ▸ ht)]

/-- Placement over written cells completes. -/
theorem exists_placeFrom (h : ∀ t ∈ cs, (Memory.read mm (cellKey t.1 t.2)).isSome) :
    ∃ mm', placeFrom bytes m mm j cs = .ok mm' := by
  induction cs generalizing mm j with
  | nil => exact ⟨mm, rfl⟩
  | cons t ts ih =>
    obtain ⟨r, c⟩ := t
    obtain ⟨cell, hcell⟩ := exists_writtenCell (h _ List.mem_cons_self)
    have hrest := fun u hu => h u (List.mem_cons_of_mem (r, c) hu)
    rw [placeFrom, hcell, ok_bind]
    split
    · exact ih fun u hu => Memory.isSome_read_write _ _ _ _ (hrest u hu)
    · exact ih hrest

/-- The `i`-th UNSET cell of the list takes bit `j + i` of the stream, XOR the mask (R322). -/
theorem read_placeFrom_of_unset (h : placeFrom bytes m mm j cs = .ok mm') (hcs : ∀ t ∈ cs, t.2 < Config.mmDim)
    (hnodup : cs.Nodup) {i : Nat} (hi : (unsetCells mm cs)[i]? = some (r, c)) :
    Memory.read mm' (cellKey r c) = some (shade (dataBit bytes (j + i) ^^ maskPred m r c)) := by
  induction cs generalizing mm j i with
  | nil => cases hi
  | cons t ts ih =>
    obtain ⟨r', c'⟩ := t
    obtain ⟨hnot, hnodup⟩ := List.nodup_cons.mp hnodup
    have hts : ∀ u ∈ ts, u.2 < Config.mmDim := fun u hu => hcs u (List.mem_cons_of_mem _ hu)
    have hc' : c' < Config.mmDim := hcs _ List.mem_cons_self
    obtain ⟨cell, hcell, h⟩ := bind_ok h
    have hread := writtenCell_ok hcell
    split at h
    · next hunset =>
      subst hunset
      rw [unsetCells_cons_of_unset hread] at hi
      cases i with
      | zero =>
        cases hi
        have hset := read_setCell_same (mm := mm) (r := r) (c := c) (dark := dataBit bytes j ^^ maskPred m r c)
        rw [read_placeFrom_kept h fun _ _ _ => mayBeUnset_of_shade hset, hset, Nat.add_zero]
      | succ i =>
        rw [← Nat.succ_add_eq_add_succ]
        refine ih h hts hnodup ?_
        rwa [unsetCells_setCell hc' hts hnot]
    · next hset =>
      rw [unsetCells_cons_of_ne fun hunset => hset (Option.some.inj (hread.symm.trans hunset))] at hi
      exact ih h hts hnodup hi

theorem read_placeFrom_of_not_unset (h : placeFrom bytes m mm j cs = .ok mm') (hcs : ∀ t ∈ cs, t.2 < Config.mmDim)
    (hwritten : ∀ t ∈ cs, (Memory.read mm (cellKey t.1 t.2)).isSome) (hc : c < Config.mmDim)
    (hnot : (r, c) ∉ unsetCells mm cs) : Memory.read mm' (cellKey r c) = Memory.read mm (cellKey r c) := by
  refine read_placeFrom_kept h fun t ht he => ?_
  obtain ⟨rfl, rfl⟩ := cellKey_inj (hcs t ht) hc he
  refine mayBeUnset_of_ne_unset (hwritten t ht) fun hunset => hnot ?_
  exact List.mem_filter.mpr ⟨ht, decide_eq_true hunset⟩

/-- A bit past the end of the stream is 0 (R321). -/
theorem dataBit_eq (bytes : List Byte) (j : Nat) :
    dataBit bytes j = (decide (j < 8 * bytes.length) && (bytes.getD (j / 8) 0).getLsbD (7 - j % 8)) := by
  by_cases hj : j < 8 * bytes.length
  · rw [decide_eq_true hj, Bool.true_and, dataBit]
  · rw [decide_eq_false hj, Bool.false_and, dataBit, List.getD_eq_default _ _ (by omega)]
    exact BitVec.getLsbD_zero

theorem exec_mxdat_of_placeData {s : State} {a b : XReg} (hdim : dim s.csr = .ok d)
    (hbytes : memReadSeq s.dm (s.getX a).toNat (s.getX b).toNat = .ok bytes)
    (h : placeData d bytes s.csr.mask.toNat s.mm = .ok mm) :
    exec (.mxdat a b) s = .next { s with mm := mm, pc := s.pc + 1 } :=
  finish_bind_of_ok hdim (finish_bind_of_ok hbytes (finish_bind_of_ok h (finish_paint _)))

/-- Settles O55: placement along the path, whose cells are different. -/
theorem dataPlacement : Obligations.DataPlacement := by
  intro s a b d hv base n free
  have hdim := dim_of_versionOk hv
  obtain ⟨h21, hle, hodd⟩ := dim_bounds hdim
  refine ⟨fun bytes hlen hfit hbytes hwritten => ?_, fun hpos hout =>
    finish_bind_of_ok hdim (finish_bind_of_raise (memReadSeq_of_overrun hpos hout))⟩
  have hread : memReadSeq s.dm base n = .ok bytes := by
    rw [← hlen] at hfit hbytes ⊢
    exact memReadSeq_of_read hfit hbytes
  have hcs : ∀ t ∈ path d, t.2 < Config.mmDim := fun t ht => (path_in (by omega) t ht).2.trans_le hle
  obtain ⟨mm, hmm⟩ : ∃ mm, placeData d bytes s.csr.mask.toNat s.mm = .ok mm := exists_placeFrom hwritten
  refine ⟨mm, exec_mxdat_of_placeData hdim hread hmm, fun j r c hj => ?_,
    fun r c hc hnot => read_placeFrom_of_not_unset hmm hcs hwritten hc hnot⟩
  rw [read_placeFrom_of_unset hmm hcs (nodup_path hodd h21) hj, Nat.zero_add, dataBit_eq, hlen]

end Sys2Proof.Machine
end

section
/-! SUPPORT. The colours of a symbol as its matrix (48_matrix R330): the rows a command reads, and the first cell that
has no colour. -/

namespace Sys2Proof.Machine

open Sys2Proof.Claims

variable {mm : Memory ModuleCell} {d r c : Nat}

/-- The cell is dark. -/
def cellDark (mm : Memory ModuleCell) (r c : Nat) : Bool := decide (Memory.read mm (cellKey r c) = some .dark)

/-- The rows of the `d x d` matrix of `g`. -/
def rowsOf (d : Nat) (g : Nat → Nat → Bool) : List (List Bool) := (List.range d).map fun r => (List.range d).map (g r)

theorem isDark_of_coloured
    (h : Memory.read mm (cellKey r c) = some .light ∨ Memory.read mm (cellKey r c) = some .dark) :
    isDark mm r c = .ok (cellDark mm r c) := by
  obtain h | h := h
  · rw [isDark, writtenCell_of_read h, cellDark, h]
    rfl
  · rw [isDark, writtenCell_of_read h, cellDark, h]
    rfl

section
variable {cs : List (Nat × Nat)}
  (h : ∀ t ∈ cs, Memory.read mm (cellKey t.1 t.2) = some .light ∨ Memory.read mm (cellKey t.1 t.2) = some .dark)
include h

theorem readColours_of_coloured : readColours mm cs = .ok (cs.map fun t => cellDark mm t.1 t.2) := by
  induction cs with
  | nil => rfl
  | cons t ts ih =>
    rw [readColours, isDark_of_coloured (h t List.mem_cons_self), ok_bind,
      ih fun u hu => h u (List.mem_cons_of_mem t hu)]
    rfl

/-- The first UNSET cell is the fault. -/
theorem readColours_of_unset {rest : List (Nat × Nat)} (hunset : Memory.read mm (cellKey r c) = some .unset) :
    readColours mm (cs ++ (r, c) :: rest) = raise .unsetModule (r * 256 + c) := by
  induction cs with
  | nil =>
    rw [List.nil_append, readColours, isDark_of_unset hunset]
    rfl
  | cons t ts ih =>
    rw [List.cons_append, readColours, isDark_of_coloured (h t List.mem_cons_self), ok_bind,
      ih fun u hu => h u (List.mem_cons_of_mem t hu)]
    rfl

end

theorem readRow_of_coloured
    (h : ∀ c < d, Memory.read mm (cellKey r c) = some .light ∨ Memory.read mm (cellKey r c) = some .dark) :
    readColours mm ((List.range d).map fun c => (r, c)) = .ok ((List.range d).map (cellDark mm r)) := by
  rw [readColours_of_coloured (by simpa using h), List.map_map]
  rfl

theorem readRows_of_coloured {n : Nat} (h : cellsColoured mm d) (hn : r + n ≤ d) :
    readRows d mm r n = .ok ((List.range' r n).map fun r => (List.range d).map (cellDark mm r)) := by
  induction n generalizing r with
  | zero => rfl
  | succ n ih =>
    rw [readRows, readRow_of_coloured (h r (by omega)), ok_bind, ih (by omega)]
    rfl

theorem readMatrix_of_coloured (h : cellsColoured mm d) : readMatrix d mm = .ok (rowsOf d (cellDark mm)) := by
  rw [readMatrix, readRows_of_coloured h (by omega), rowsOf, List.range_eq_range']

theorem readRows_of_unset {n r0 : Nat} (hr0 : r0 ≤ r) (hr : r < r0 + n) (hc : c < d)
    (hunset : Memory.read mm (cellKey r c) = some .unset)
    (hbefore : ∀ r' c', r0 ≤ r' → c' < d → (r' < r ∨ r' = r ∧ c' < c) →
      Memory.read mm (cellKey r' c') = some .light ∨ Memory.read mm (cellKey r' c') = some .dark) :
    readRows d mm r0 n = raise .unsetModule (r * 256 + c) := by
  induction n generalizing r0 with
  | zero => omega
  | succ n ih =>
    rw [readRows]
    by_cases hsame : r0 = r
    · subst hsame
      have hsplit : (List.range d).map (fun c => (r0, c)) =
          (List.range c).map (fun c => (r0, c)) ++
            (r0, c) :: (List.range' (c + 1) (d - c - 1)).map fun c => (r0, c) := by
        have hd : d = c + (d - c - 1 + 1) := by omega
        conv_lhs => rw [hd, List.range_eq_range', ← List.range'_append_1, List.map_append, ← List.range_eq_range',
          Nat.zero_add, List.range'_succ, List.map_cons]
      rw [hsplit, readColours_of_unset (fun t ht => ?_) hunset]
      · rfl
      · obtain ⟨c', hc', rfl⟩ := List.mem_map.mp ht
        have := List.mem_range.mp hc'
        exact hbefore r0 c' le_rfl (by omega) (.inr ⟨rfl, this⟩)
    · rw [readRow_of_coloured fun c' hc' => hbefore r0 c' le_rfl hc' (.inl (by omega)), ok_bind,
        ih (by omega) (by omega) fun r' c' hr' => hbefore r' c' (by omega)]
      rfl

/-- A cell comes before another in row-major order if its row does, or its column in the same row. -/
theorem rowMajor_lt {r' c' : Nat} (hc' : c' < d) (h : r' < r ∨ r' = r ∧ c' < c) : r' * d + c' < r * d + c := by
  obtain hr | ⟨rfl, hc⟩ := h
  · calc r' * d + c' < (r' + 1) * d := by rw [Nat.succ_mul]; omega
      _ ≤ r * d := Nat.mul_le_mul_right d hr
      _ ≤ r * d + c := Nat.le_add_right ..
  · omega

theorem readMatrix_of_unset (hr : r < d) (hc : c < d) (hunset : Memory.read mm (cellKey r c) = some .unset)
    (hbefore : ∀ r' c', r' < d → c' < d → r' * d + c' < r * d + c →
      Memory.read mm (cellKey r' c') = some .light ∨ Memory.read mm (cellKey r' c') = some .dark) :
    readMatrix d mm = raise .unsetModule (r * 256 + c) :=
  readRows_of_unset (Nat.zero_le r) (by omega) hc hunset fun r' c' _ hc' hlt =>
    hbefore r' c' (by omega) hc' (rowMajor_lt hc' hlt)

/-- The place of a cell in row-major order. -/
theorem getD_flatten_rowsOf {g : Nat → Nat → Bool} (hr : r < d) (hc : c < d) :
    (rowsOf d g).flatten.getD (r * d + c) false = g r c := by
  rw [rowsOf, ← List.flatMap_def, List.getD_eq_getElem?_getD,
    getElem?_flatMap_of_length (m := d) (by simp) _ _ hc, List.getElem?_range hr, Option.bind_some, List.getElem?_map,
    List.getElem?_range hc]
  rfl

theorem length_flatten_rowsOf {g : Nat → Nat → Bool} : (rowsOf d g).flatten.length = d * d := by
  rw [rowsOf, ← List.flatMap_def, length_flatMap_of_length (m := d) (by simp), List.length_range]

end Sys2Proof.Machine
end

section
/-! The packed symbol (48_matrix R338). -/

namespace Sys2Proof.Machine

open Sys2Proof.Claims

variable {s : State} {a : XReg} {d r c q k : Nat}

/-! ## Packed bits -/

theorem dataBit_cons_of_lt {b : Byte} {bytes : List Byte} (hq : q < 8) :
    dataBit (b :: bytes) q = b.getLsbD (7 - q) := by
  rw [dataBit, Nat.div_eq_of_lt hq, Nat.mod_eq_of_lt hq, List.getD_cons_zero]

theorem dataBit_cons_of_le {b : Byte} {bytes : List Byte} (hq : 8 ≤ q) :
    dataBit (b :: bytes) q = dataBit bytes (q - 8) := by
  rw [dataBit, dataBit, show q / 8 = (q - 8) / 8 + 1 by omega, show q % 8 = (q - 8) % 8 by omega, List.getD_cons_succ]

theorem dataBit_nil : dataBit [] q = false := BitVec.getLsbD_zero

/-- The bits of a byte after one more bit has come in from the right. -/
theorem getLsbD_shiftIn (acc : Byte) (g : Bool) (hk : k < 8) :
    ((acc <<< 1) ||| (if g then 1 else 0) : Byte).getLsbD k = if k = 0 then g else acc.getLsbD (k - 1) := by
  have hbit : (if g then 1 else 0 : Byte).getLsbD k = (g && decide (k = 0)) := by
    cases g
    · simp
    · simp [BitVec.getLsbD_one]
  rw [BitVec.getLsbD_or, BitVec.getLsbD_shiftLeft, hbit]
  by_cases h0 : k = 0
  · simp [h0]
  · simp [h0, hk]

/-- Bit `q` of the packed bits: the `k` bits begun, then the list, then zeros. -/
theorem dataBit_packBits (gs : List Bool) {acc : Byte} (hk : k ≤ 7) :
    dataBit (packBits acc k gs) q = if q < k then acc.getLsbD (k - 1 - q) else gs.getD (q - k) false := by
  induction gs generalizing acc k q with
  | nil =>
    rw [packBits, List.getD_nil]
    split
    · next h0 => rw [dataBit_nil, if_neg (by omega)]
    · next h0 =>
      by_cases hq : q < 8
      · rw [dataBit_cons_of_lt hq, BitVec.getLsbD_shiftLeft]
        split
        · next hqk =>
          simp [show ¬ 7 - q < 8 - k by omega, show 7 - q - (8 - k) = k - 1 - q by omega, show 7 - q < 8 by omega]
        · next hqk => simp [show 7 - q < 8 - k by omega]
      · rw [dataBit_cons_of_le (by omega), dataBit_nil, if_neg (by omega)]
  | cons g gs ih =>
    simp only [packBits]
    split
    · next h7 =>
      subst h7
      by_cases hq : q < 8
      · rw [dataBit_cons_of_lt hq, getLsbD_shiftIn acc g (by omega)]
        by_cases hq7 : q = 7
        · simp [hq7]
        · rw [if_neg (by omega), if_pos (by omega)]
          congr 1
          omega
      · rw [dataBit_cons_of_le (by omega), ih (by omega), if_neg (by omega), if_neg (by omega),
          show q - 7 = q - 8 - 0 + 1 by omega, List.getD_cons_succ]
    · next h7 =>
      rw [ih (by omega)]
      by_cases hqk : q < k + 1
      · rw [if_pos hqk, getLsbD_shiftIn acc g (by omega)]
        by_cases hlast : q = k
        · simp [hlast]
        · rw [if_neg (by omega), if_pos (by omega)]
          congr 1
          omega
      · rw [if_neg hqk, if_neg (by omega), show q - k = q - (k + 1) + 1 by omega, List.getD_cons_succ]

/-- A stored bit reads back. -/
theorem streamBit_storeBytes {dm : Memory Byte} {base : Nat} {bytes : List Byte} (hq : q < 8 * bytes.length) :
    streamBit (storeBytes dm base bytes) base q = some (dataBit bytes q) := by
  have hlt : q / 8 < bytes.length := by omega
  rw [streamBit, read_storeBytes_inside _ _ _ _ hlt, dataBit, List.getD_eq_getElem _ _ hlt]
  rfl

/-! ## MXOUT -/

/-- The bytes MXOUT stores. -/
def packedSymbol (d : Nat) (g : Nat → Nat → Bool) : List Byte := packBits 0 0 (rowsOf d g).flatten

theorem length_packedSymbol {g : Nat → Nat → Bool} : (packedSymbol d g).length = packedLength d := by
  rw [packedSymbol, packBits_length _ (by decide), length_flatten_rowsOf, Nat.zero_add, packedLength]

theorem dataBit_packedSymbol {g : Nat → Nat → Bool} :
    dataBit (packedSymbol d g) q = (rowsOf d g).flatten.getD q false := by
  rw [packedSymbol, dataBit_packBits _ (by decide), if_neg (by omega), Nat.sub_zero]

section
variable (hdim : dim s.csr = .ok d)
include hdim

theorem exec_mxout_of_coloured (hcoloured : cellsColoured s.mm d) (hfit : (s.getX a).toNat + packedLength d ≤ 16384) :
    exec (.mxout a) s = .next { s with
      dm := storeBytes s.dm (s.getX a).toNat (packedSymbol d (colours s)), pc := s.pc + 1 } := by
  refine finish_bind_of_ok hdim <| finish_bind_of_ok (readMatrix_of_coloured hcoloured) <|
    finish_bind_of_ok (checkRange_of_fits (.inr hfit)) <| finish_bind_of_ok (memWriteSeq_of_fits (.inr ?_)) rfl
  exact (congrArg _ length_packedSymbol).trans_le hfit

theorem exec_mxout_of_overrun (hcoloured : cellsColoured s.mm d) (hout : 16384 < (s.getX a).toNat + packedLength d)
    (hpos : 0 < packedLength d) :
    exec (.mxout a) s = .next (faultState s 6 ((s.getX a).toNat + packedLength d - 1)) :=
  finish_bind_of_ok hdim <| finish_bind_of_ok (readMatrix_of_coloured hcoloured) <|
    finish_bind_of_raise (checkRange_of_overrun hpos hout)

end

/-- Settles O59: the colours are read first, then the range of the packed symbol is checked. -/
theorem outputCommand : Obligations.OutputCommand := by
  intro s a d hv base n
  have hdim := dim_of_versionOk hv
  obtain ⟨h21, -, -⟩ := dim_bounds hdim
  have hpos : 0 < packedLength d := by
    have : 21 * 21 ≤ d * d := Nat.mul_le_mul h21 h21
    unfold packedLength
    omega
  refine ⟨fun hcoloured hfit => ⟨_, exec_mxout_of_coloured hdim hcoloured hfit, ?bits, ?zeros, ?frame⟩,
    fun hcoloured hout => exec_mxout_of_overrun hdim hcoloured hout hpos, fun r c hr hc hunset hbefore => ?unset⟩
  case bits =>
    intro r c hr hc
    have hlt : r * d + c < d * d := by
      have := Nat.mul_le_mul_right d (Nat.succ_le_of_lt hr)
      rw [Nat.succ_mul] at this
      omega
    rw [streamBit_storeBytes (by rw [length_packedSymbol, packedLength]; omega), dataBit_packedSymbol,
      getD_flatten_rowsOf hr hc]
  case zeros =>
    intro q hq hlt
    rw [streamBit_storeBytes (by rw [length_packedSymbol]; exact hlt), dataBit_packedSymbol,
      List.getD_eq_default _ _ (by rw [length_flatten_rowsOf]; exact hq)]
  case frame => exact fun k hk => read_storeBytes_outside _ _ _ _ (by rw [length_packedSymbol]; exact hk)
  case unset =>
    have hread := readMatrix_of_unset hr hc hunset hbefore
    exact ⟨finish_bind_of_ok hdim (finish_bind_of_raise hread), finish_bind_of_ok hdim (finish_bind_of_raise hread)⟩

end Sys2Proof.Machine
end

section
/-! The penalty score by windows (48_matrix R330 to R335). The model walks each line from the left; each walk is the
sum of what the windows from each place on add. -/

namespace Sys2Proof.Machine

open Sys2Proof.Claims

variable {d : Nat}

/-! ## Sums over windows -/

/-- A walk that adds `φ p` at place `p` when at least `w` places follow it is the sum of `φ` over those places. -/
theorem walk_eq_sum {L : Nat → Nat → Nat} {φ : Nat → Nat} {w : Nat} (hnil : ∀ p, L p 0 = 0)
    (hcons : ∀ p n, L p (n + 1) = (if w ≤ n then φ p else 0) + L (p + 1) n) (p n : Nat) :
    L p n = ((List.range' p (n - w)).map φ).sum := by
  induction n generalizing p with
  | zero => rw [hnil, Nat.zero_sub]; rfl
  | succ n ih =>
    rw [hcons, ih]
    split
    · next h => rw [Nat.succ_sub h, List.range'_succ, List.map_cons, List.sum_cons]
    · next h => rw [show n + 1 - w = 0 by omega, show n - w = 0 by omega]; rfl

/-- A window longer than the line does not match. -/
theorem take_ne_of_length_lt {l p : List Bool} {w : Nat} (h : l.length < w) (hp : p.length = w) : l.take w ≠ p :=
  fun he => by
    have := congrArg List.length he
    rw [List.length_take, hp] at this
    omega

/-! ## Rule 1 (R331) -/

/-- Rule 1 by windows on a line after the colour `prev`: five equal modules add 3 where a run begins, else 1. -/
def runWindows (prev : Option Bool) : List Bool → Nat
  | [] => 0
  | g :: gs =>
    (if (g :: gs).take 5 = List.replicate 5 g then (if prev = some g then 1 else 3) else 0) + runWindows (some g) gs

section
variable {colour : Bool} {tl : List Bool} (htl : tl.head? ≠ some colour)
include htl

/-- Five equal modules from the start of a run of `n + 1`. -/
theorem take_five_eq_replicate_iff {n : Nat} :
    (colour :: (List.replicate n colour ++ tl)).take 5 = List.replicate 5 colour ↔ 4 ≤ n := by
  constructor
  · intro h
    by_contra hn
    have hnext := congrArg (fun l => l[n + 1]?) h
    simp only [List.getElem?_take, List.getElem?_cons_succ, List.getElem?_append_right
      (List.length_replicate (n := n) (a := colour)).le, List.length_replicate, Nat.sub_self, List.getElem?_replicate,
      if_pos (show n + 1 < 5 by omega)] at hnext
    exact htl ((List.head?_eq_getElem? ..).trans hnext)
  · intro hn
    obtain ⟨m, rfl⟩ := Nat.exists_eq_add_of_le' hn
    rfl

/-- What the windows inside a run add once it has begun. -/
theorem runWindows_inside (n : Nat) :
    runWindows (some colour) (List.replicate n colour ++ tl) = (n - 4) + runWindows (some colour) tl := by
  induction n with
  | zero => rw [List.replicate_zero, List.nil_append, Nat.zero_sub, Nat.zero_add]
  | succ n ih =>
    rw [List.replicate_succ, List.cons_append, runWindows, ih, if_pos rfl]
    simp only [take_five_eq_replicate_iff htl]
    split <;> omega

/-- A run of length `L` adds `L - 2` from 5 on (R331). -/
theorem runWindows_run {prev : Option Bool} (hprev : prev ≠ some colour) (n : Nat) :
    runWindows prev (List.replicate (n + 1) colour ++ tl) = runScore (n + 1) + runWindows (some colour) tl := by
  rw [List.replicate_succ, List.cons_append, runWindows, runWindows_inside htl, if_neg hprev, runScore]
  simp only [take_five_eq_replicate_iff htl]
  split_ifs <;> omega

end

theorem runsFrom_eq_runWindows {colour : Bool} {prev : Option Bool} (hprev : prev ≠ some colour) (n : Nat)
    (gs : List Bool) : runsFrom colour (n + 1) gs = runWindows prev (List.replicate (n + 1) colour ++ gs) := by
  induction gs generalizing colour prev n with
  | nil =>
    rw [runWindows_run (by simp) hprev]
    rfl
  | cons g gs ih =>
    rw [runsFrom]
    split
    · next h =>
      subst h
      rw [ih hprev, List.replicate_succ' (n := n + 1), List.append_assoc]
      rfl
    · next h =>
      rw [runWindows_run (by simpa using h) hprev, ih (prev := some colour) (by simpa using Ne.symm h)]
      rfl

theorem lineRuns_eq_runWindows (l : List Bool) : lineRuns l = runWindows none l := by
  cases l with
  | nil => rfl
  | cons g gs => exact runsFrom_eq_runWindows (by simp) 0 gs

/-- What the window at place `i` of the line `f` adds by rule 1. -/
def runTerm (f : Nat → Bool) (i : Nat) : Nat :=
  if f (i + 1) = f i ∧ f (i + 2) = f i ∧ f (i + 3) = f i ∧ f (i + 4) = f i then
    if i = 0 ∨ f (i - 1) ≠ f i then 3 else 1
  else 0

/-- The colour before place `p` of the line `f`. -/
def before (f : Nat → Bool) (p : Nat) : Option Bool := if p = 0 then none else some (f (p - 1))

theorem before_eq_some_iff {f : Nat → Bool} {p : Nat} : before f p = some (f p) ↔ ¬ (p = 0 ∨ f (p - 1) ≠ f p) := by
  unfold before
  split <;> simp [*]

theorem runWindows_line (f : Nat → Bool) (p n : Nat) : runWindows (before f p) ((List.range' p n).map f) =
    ((List.range' p (n - 4)).map (runTerm f)).sum := by
  refine walk_eq_sum (L := fun p n => runWindows (before f p) ((List.range' p n).map f)) (fun _ => rfl) ?_ p n
  intro p n
  rw [List.range'_succ, List.map_cons, runWindows]
  congr 1
  by_cases hn : 4 ≤ n
  · obtain ⟨m, rfl⟩ := Nat.exists_eq_add_of_le' hn
    rw [if_pos hn, runTerm]
    refine if_congr ?_ ?_ rfl
    · simp [List.range'_succ, List.replicate_succ]
    · simp only [before_eq_some_iff, ite_not]
  · rw [if_neg hn, if_neg (take_ne_of_length_lt _ List.length_replicate)]
    simp only [List.length_cons, List.length_map, List.length_range']
    omega

theorem lineRuns_line (f : Nat → Bool) : lineRuns ((List.range d).map f) = windowRuns d f := by
  rw [lineRuns_eq_runWindows, List.range_eq_range']
  exact (runWindows_line f 0 d).trans (by rw [← List.range_eq_range']; rfl)

/-! ## Rule 3 (R333) -/

/-- What the window at place `i` of the line `f` adds by rule 3. -/
def finderTerm (f : Nat → Bool) (i : Nat) : Nat :=
  if f i = true ∧ f (i + 1) = false ∧ f (i + 2) = true ∧ f (i + 3) = true ∧ f (i + 4) = true ∧ f (i + 5) = false ∧
    f (i + 6) = true then 40 else 0

theorem lineFinders_line (f : Nat → Bool) : lineFinders ((List.range d).map f) = windowFinders d f := by
  rw [List.range_eq_range']
  refine (walk_eq_sum (L := fun p n => lineFinders ((List.range' p n).map f)) (φ := finderTerm f) (w := 6)
    (fun _ => rfl) (fun p n => ?_) 0 d).trans (by rw [← List.range_eq_range']; rfl)
  rw [List.range'_succ, List.map_cons, lineFinders]
  congr 1
  by_cases hn : 6 ≤ n
  · obtain ⟨m, rfl⟩ := Nat.exists_eq_add_of_le' hn
    rw [if_pos hn, finderTerm]
    exact if_congr (by simp [List.range'_succ, finderRatio]) rfl rfl
  · rw [if_neg hn, if_neg (take_ne_of_length_lt (w := 7) _ rfl)]
    simp only [List.length_cons, List.length_map, List.length_range']
    omega

/-! ## Rule 2 (R332) -/

theorem rowPairBlocks_line (f h : Nat → Bool) : rowPairBlocks ((List.range d).map f) ((List.range d).map h) =
    ((List.range (d - 1)).map fun c => if f c = f (c + 1) ∧ f c = h c ∧ f c = h (c + 1) then 3 else 0).sum := by
  simp only [List.range_eq_range']
  refine walk_eq_sum (L := fun p n => rowPairBlocks ((List.range' p n).map f) ((List.range' p n).map h))
    (fun _ => rfl) (fun p n => ?_) 0 d
  cases n with
  | zero => rfl
  | succ n =>
    have hblock : f p = f (p + 1) ∧ f (p + 1) = h p ∧ h p = h (p + 1) ↔
        f p = f (p + 1) ∧ f p = h p ∧ f p = h (p + 1) := by
      constructor
      · rintro ⟨h1, h2, h3⟩
        exact ⟨h1, h1.trans h2, (h1.trans h2).trans h3⟩
      · rintro ⟨h1, h2, h3⟩
        exact ⟨h1, h1.symm.trans h2, h2.symm.trans h3⟩
    rw [if_pos (by omega)]
    simp only [List.range'_succ, List.map_cons, rowPairBlocks, hblock]

theorem blockScore_rowsOf (g : Nat → Nat → Bool) : blockScore (rowsOf d g) = blocks d g := by
  have hwalk (row : Nat → List Bool) : blockScore ((List.range d).map row) =
      ((List.range (d - 1)).map fun r => rowPairBlocks (row r) (row (r + 1))).sum := by
    simp only [List.range_eq_range']
    refine walk_eq_sum (L := fun p n => blockScore ((List.range' p n).map row)) (fun _ => rfl) (fun p n => ?_) 0 d
    cases n with
    | zero => rfl
    | succ n =>
      rw [if_pos (by omega)]
      rfl
  rw [rowsOf, hwalk, blocks]
  simp only [rowPairBlocks_line]

/-! ## Rule 4 (R334) -/

theorem darkCount_rowsOf (g : Nat → Nat → Bool) :
    darkCount (rowsOf d g) = ((List.range d).map fun r => ((List.range d).filter fun c => g r c).length).sum := by
  rw [darkCount, rowsOf, List.map_map]
  congr 2
  funext r
  rw [Function.comp, List.count_eq_countP, List.countP_map, List.countP_eq_length_filter]
  congr 2
  funext c
  simp

/-- The distance of twice the dark modules from half of all, on either side (R334). -/
theorem balanceScore_eq_natAbs (n : Nat) :
    balanceScore d n = 10 * (((100 * n : Int) - 50 * (d * d)).natAbs / (5 * (d * d))) := by
  have hcast : ((d * d : Nat) : Int) = d * d := Nat.cast_mul d d
  rw [balanceScore]
  congr 2
  split <;> omega

theorem balanceScore_rowsOf (g : Nat → Nat → Bool) : balanceScore d (darkCount (rowsOf d g)) = balance d g := by
  rw [darkCount_rowsOf, balanceScore_eq_natAbs, balance]

/-! ## The score -/

theorem columns_rowsOf (g : Nat → Nat → Bool) : columns d (rowsOf d g) = rowsOf d fun c r => g r c := by
  refine List.map_congr_left fun c hc => ?_
  rw [rowsOf, List.map_map]
  refine List.map_congr_left fun r _ => ?_
  rw [Function.comp, List.getD_eq_getElem?_getD, List.getElem?_map, List.getElem?_range (List.mem_range.mp hc)]
  rfl

theorem penalty_rowsOf (g : Nat → Nat → Bool) : penalty d (rowsOf d g) = score d g := by
  rw [penalty, columns_rowsOf, blockScore_rowsOf, balanceScore_rowsOf]
  simp only [rowsOf, List.map_append, List.map_map, List.sum_append, Function.comp_def, lineRuns_line, lineFinders_line]
  rw [score]
  ring

/-! ### Its bound -/

theorem sum_map_range_le {n b : Nat} {f : Nat → Nat} (h : ∀ i, f i ≤ b) : ((List.range n).map f).sum ≤ n * b := by
  have := List.sum_le_card_nsmul ((List.range n).map f) b (by simpa using fun i _ => h i)
  simpa using this

theorem windowRuns_le (f : Nat → Bool) : windowRuns d f ≤ (d - 4) * 3 :=
  sum_map_range_le fun i => by split_ifs <;> decide

theorem windowFinders_le (f : Nat → Bool) : windowFinders d f ≤ (d - 6) * 40 :=
  sum_map_range_le fun i => by split_ifs <;> decide

theorem blocks_le (g : Nat → Nat → Bool) : blocks d g ≤ (d - 1) * ((d - 1) * 3) :=
  sum_map_range_le fun r => sum_map_range_le fun c => by split_ifs <;> decide

theorem balance_le (g : Nat → Nat → Bool) : balance d g ≤ 100 := by
  have hdark : ((List.range d).map fun r => ((List.range d).filter fun c => g r c).length).sum ≤ d * d :=
    sum_map_range_le fun r => (List.length_filter_le ..).trans_eq List.length_range
  have hcast : ((d * d : Nat) : Int) = d * d := Nat.cast_mul d d
  rw [balance]
  refine Nat.mul_le_mul_left 10 (m := 10) (Nat.div_le_of_le_mul ?_)
  omega

theorem score_lt {g : Nat → Nat → Bool} (hd : d ≤ Config.mmDim) : score d g < 2 ^ 22 := by
  have hmax : d ≤ 177 := hd
  have hruns (f : Nat → Bool) : windowRuns d f ≤ 519 := (windowRuns_le f).trans (by omega)
  have hfinders (f : Nat → Bool) : windowFinders d f ≤ 6840 := (windowFinders_le f).trans (by omega)
  have hblocks : blocks d g ≤ (d - 1) * 528 := (blocks_le g).trans (Nat.mul_le_mul_left _ (by omega))
  have h1 := sum_map_range_le (n := d) fun r => hruns (g r)
  have h2 := sum_map_range_le (n := d) fun c => hruns fun r => g r c
  have h3 := sum_map_range_le (n := d) fun r => hfinders (g r)
  have h4 := sum_map_range_le (n := d) fun c => hfinders fun r => g r c
  have h5 := balance_le (d := d) g
  rw [score]
  omega

/-- Settles O56: the model's walks over rows and columns are the sums over windows. -/
theorem penaltyCommand : Obligations.PenaltyCommand := by
  intro s a d hv hcoloured
  have hdim := dim_of_versionOk hv
  refine ⟨?_, score_lt (dim_bounds hdim).2.1⟩
  exact finish_bind_of_ok hdim <| finish_bind_of_ok (readMatrix_of_coloured hcoloured) <|
    next_setX_advance a (congrArg _ (penalty_rowsOf _))

end Sys2Proof.Machine
end

section
/-! SUPPORT. A construction pass (48_matrix R336): it completes, leaves every cell of the symbol coloured, depends on
the cells outside the symbol only, and is the seven commands run one after another. -/

namespace Sys2Proof.Machine

open Sys2Proof.Claims

/-! ## Equal memories -/

section
variable {α : Type} {lo hi a : Nat} {m m' : Memory α}

theorem Memory.read_eq_none_of_lt (hm : Memory.wfFrom lo hi m = true) (ha : a < lo) : Memory.read m a = none := by
  induction m generalizing lo with
  | nil => rfl
  | cons e m ih =>
    obtain ⟨k, v⟩ := e
    simp only [Memory.wfFrom, Bool.and_eq_true, decide_eq_true_eq] at hm
    obtain ⟨⟨hlo, -⟩, hm⟩ := hm
    rw [Memory.read, if_neg (by omega), ih hm (by omega)]

theorem Memory.read_cons_same {k : Nat} {v : α} : Memory.read ((k, v) :: m) k = some v := if_pos rfl

theorem Memory.read_cons_ne {k : Nat} {v : α} (h : k ≠ a) : Memory.read ((k, v) :: m) a = Memory.read m a := if_neg h

/-- Canonical memories that read alike are equal. -/
theorem Memory.ext_of_wfFrom (hm : Memory.wfFrom lo hi m = true) (hm' : Memory.wfFrom lo hi m' = true)
    (h : ∀ a, Memory.read m a = Memory.read m' a) : m = m' := by
  induction m generalizing lo m' with
  | nil =>
    cases m' with
    | nil => rfl
    | cons e _ => exact absurd ((h e.1).trans Memory.read_cons_same) (by simp [Memory.read])
  | cons e m ih =>
    obtain ⟨k, v⟩ := e
    cases m' with
    | nil => exact absurd ((h k).symm.trans Memory.read_cons_same) (by simp [Memory.read])
    | cons e' m' =>
      obtain ⟨k', v'⟩ := e'
      simp only [Memory.wfFrom, Bool.and_eq_true, decide_eq_true_eq] at hm hm'
      obtain ⟨⟨-, -⟩, hm⟩ := hm
      obtain ⟨⟨-, -⟩, hm'⟩ := hm'
      have hkey : k = k' := by
        by_contra hne
        obtain hlt | hlt := Nat.lt_or_gt_of_ne hne
        · have := h k
          rw [Memory.read_cons_same, Memory.read_cons_ne (Ne.symm hne),
            Memory.read_eq_none_of_lt hm' (by omega)] at this
          cases this
        · have := h k'
          rw [Memory.read_cons_same, Memory.read_cons_ne hne, Memory.read_eq_none_of_lt hm (by omega)] at this
          cases this
      subst hkey
      obtain rfl : v = v' := by
        have := h k
        rw [Memory.read_cons_same, Memory.read_cons_same] at this
        exact Option.some.inj this
      congr 1
      refine ih hm hm' fun a => ?_
      by_cases hka : k = a
      · subst hka
        rw [Memory.read_eq_none_of_lt hm (by omega), Memory.read_eq_none_of_lt hm' (by omega)]
      · have := h a
        rwa [Memory.read_cons_ne hka, Memory.read_cons_ne hka] at this

end

/-! ## What stays written, and what stays coloured -/

section
variable {mm mm' : Memory ModuleCell} {k d r c : Nat}

theorem mayBeUnset_eq_false_iff :
    mayBeUnset mm k = false ↔ Memory.read mm k = some .light ∨ Memory.read mm k = some .dark := by
  unfold mayBeUnset
  split <;> simp [*]

/-- A pattern leaves a coloured cell coloured. -/
theorem mayBeUnset_setAll {stamps : List Stamp} (h : mayBeUnset mm k = false) :
    mayBeUnset (setAll mm stamps) k = false := by
  induction stamps generalizing mm with
  | nil => exact h
  | cons t ts ih =>
    obtain ⟨r, c, dark⟩ := t
    refine ih ?_
    by_cases hk : k = cellKey r c
    · exact hk ▸ mayBeUnset_of_shade read_setCell_same
    · exact (mayBeUnset_congr (Memory.read_write_ne _ _ hk)).trans h

theorem isSome_read_placeAlignAt {cs : List (Nat × Nat)} (h : placeAlignAt mm cs = .ok mm')
    (hk : (Memory.read mm k).isSome) : (Memory.read mm' k).isSome := by
  induction cs generalizing mm with
  | nil =>
    injection h with h
    exact h ▸ hk
  | cons t ts ih =>
    obtain ⟨m, -, h⟩ := bind_ok h
    exact ih h (isSome_read_ite hk (isSome_read_setAll hk))

theorem mayBeUnset_placeAlignAt {cs : List (Nat × Nat)} (h : placeAlignAt mm cs = .ok mm')
    (hk : mayBeUnset mm k = false) : mayBeUnset mm' k = false := by
  induction cs generalizing mm with
  | nil =>
    injection h with h
    exact h ▸ hk
  | cons t ts ih =>
    obtain ⟨m, -, h⟩ := bind_ok h
    refine ih h ?_
    split
    · exact mayBeUnset_setAll hk
    · exact hk

theorem isSome_read_setWhereUnset {stamps : List Stamp} (h : setWhereUnset mm stamps = .ok mm')
    (hk : (Memory.read mm k).isSome) : (Memory.read mm' k).isSome := by
  induction stamps generalizing mm with
  | nil =>
    injection h with h
    exact h ▸ hk
  | cons t ts ih =>
    obtain ⟨m, -, h⟩ := bind_ok h
    exact ih h (isSome_read_ite hk (Memory.isSome_read_write _ _ _ _ hk))

theorem mayBeUnset_setWhereUnset {stamps : List Stamp} (h : setWhereUnset mm stamps = .ok mm')
    (hk : mayBeUnset mm k = false) : mayBeUnset mm' k = false :=
  (mayBeUnset_congr (read_setWhereUnset_kept h fun _ => hk)).trans hk

theorem mayBeUnset_placeFrom {bytes : List Byte} {m j : Nat} {cs : List (Nat × Nat)}
    (h : placeFrom bytes m mm j cs = .ok mm') (hk : mayBeUnset mm k = false) : mayBeUnset mm' k = false :=
  (mayBeUnset_congr (read_placeFrom_kept h fun _ _ _ => hk)).trans hk

/-- The timing pass colours every written timing cell. -/
theorem mayBeUnset_placeTiming (h : placeTiming d mm = .ok mm') (h21 : 21 ≤ d) (hle : d ≤ Config.mmDim)
    (hc : c < Config.mmDim) (hcolour : (timingColour d r c).isSome) (hwritten : (Memory.read mm (cellKey r c)).isSome) :
    mayBeUnset mm' (cellKey r c) = false := by
  by_cases hunset : Memory.read mm (cellKey r c) = some .unset
  · obtain ⟨dark, hdark⟩ := Option.isSome_iff_exists.mp hcolour
    exact mayBeUnset_of_shade (read_placeTiming_of_unset h h21 hle hc hdark hunset)
  · exact mayBeUnset_setWhereUnset h (mayBeUnset_of_ne_unset hwritten hunset)

/-- Data placement colours every written cell of the path. -/
theorem mayBeUnset_placeData {bytes : List Byte} {m : Nat} (h : placeData d bytes m mm = .ok mm') (h21 : 21 ≤ d)
    (hle : d ≤ Config.mmDim) (hodd : d % 2 = 1) (hmem : (r, c) ∈ path d)
    (hwritten : (Memory.read mm (cellKey r c)).isSome) : mayBeUnset mm' (cellKey r c) = false := by
  by_cases hunset : Memory.read mm (cellKey r c) = some .unset
  · have hfree : (r, c) ∈ unsetCells mm (path d) := List.mem_filter.mpr ⟨hmem, decide_eq_true hunset⟩
    obtain ⟨i, hi⟩ := List.mem_iff_getElem?.mp hfree
    exact mayBeUnset_of_shade (read_placeFrom_of_unset h
      (fun t ht => (path_in (by omega) t ht).2.trans_le hle) (nodup_path hodd h21) hi)
  · exact mayBeUnset_placeFrom h (mayBeUnset_of_ne_unset hwritten hunset)

/-- The finders colour column 6 outside the timing cells (R312). -/
theorem finderColour_column_six (h21 : 21 ≤ d) (hr : r < d) (hout : r < 8 ∨ d - 9 < r) :
    ∃ dark, finderColour d r 6 = some dark := by
  unfold finderColour
  by_cases htop : r ≤ 7
  · exact ⟨_, if_pos ⟨htop, by decide⟩⟩
  · exact ⟨_, (if_neg fun h => htop h.1).trans (if_pos ⟨by omega, hr, by decide⟩)⟩

end

/-! ## The pass -/

section
variable {d : Nat} {f : ParamCsrs} {bytes : List Byte} {m : BitVec 3} {test : Bool} {mm mm' : Memory ModuleCell}

/-- A pass completes and leaves every cell coloured: the finders and the timing colour column 6, the data the rest. -/
theorem exists_buildPass (h21 : 21 ≤ d) (hle : d ≤ Config.mmDim) (hodd : d % 2 = 1) (hcentres : centresOk f d) :
    ∃ mm', buildPass d f bytes m test mm = .ok mm' ∧ cellsColoured mm' d := by
  have h0 : ∀ {r c}, r < d → c < d → (Memory.read (placeFinders d (clearMatrix d mm)) (cellKey r c)).isSome :=
    fun hr hc => isSome_read_setAll (Option.isSome_of_eq_some (read_clearMatrix_inside hr hc))
  obtain ⟨m1, h1, -⟩ := placeAlignAt_eq_aligned (cs := centrePairs { f with mask := m }) hle
    (centrePairs_bounds hcentres) (fun _ _ _ => rfl) fun t ht => by
      obtain ⟨⟨-, hr⟩, -, hc⟩ := centrePairs_bounds hcentres t ht
      exact h0 (by omega) (by omega)
  have hw1 : ∀ {r c}, r < d → c < d → (Memory.read m1 (cellKey r c)).isSome :=
    fun hr hc => isSome_read_placeAlignAt h1 (h0 hr hc)
  obtain ⟨m2, h2⟩ : ∃ m2, placeTiming d m1 = .ok m2 := exists_setWhereUnset fun t ht => by
    obtain ⟨hr, hc⟩ := timingStamps_in h21 t ht
    exact hw1 hr hc
  let m3 := setAll (setAll m2 (formatStamps d { f with mask := m } test)) (versionStamps d { f with mask := m } test)
  have hw3 : ∀ {r c}, r < d → c < d → (Memory.read m3 (cellKey r c)).isSome :=
    fun hr hc => isSome_read_setAll (isSome_read_setAll (isSome_read_setWhereUnset h2 (hw1 hr hc)))
  obtain ⟨m4, h4⟩ : ∃ m4, placeData d bytes m.toNat m3 = .ok m4 := exists_placeFrom fun t ht => by
    obtain ⟨hr, hc⟩ := path_in (by omega) t ht
    exact hw3 hr hc
  refine ⟨m4, bind_of_ok h1 (bind_of_ok h2 h4), fun r hr c hc => mayBeUnset_eq_false_iff.mp ?_⟩
  by_cases h6 : c = 6
  · subst h6
    refine mayBeUnset_placeFrom h4 (mayBeUnset_setAll (mayBeUnset_setAll ?_))
    by_cases hout : r < 8 ∨ d - 9 < r
    · obtain ⟨dark, hdark⟩ := finderColour_column_six h21 hr hout
      refine mayBeUnset_setWhereUnset h2 (mayBeUnset_placeAlignAt h1 ?_)
      exact mayBeUnset_of_shade
        ((finderPattern_draws h21).read_setAll_of_some (finderPattern_in d) hle (by decide) hdark)
    · refine mayBeUnset_placeTiming h2 h21 hle (by decide) (isSome_timingColour_iff.mpr (.inl ⟨rfl, ?_⟩)) (hw1 hr hc)
      omega
  · exact mayBeUnset_placeData h4 h21 hle hodd ((mem_path hodd h21).mpr ⟨hr, hc, h6⟩) (hw3 hr hc)

/-- The memory is canonical and agrees with `mm0` outside the symbol. -/
structure SameOutside (d : Nat) (mm0 mm : Memory ModuleCell) : Prop where
  wf : Memory.wf (Config.mmDim * Config.mmDim) mm = true
  read : ∀ k, inSymbol d k = false → Memory.read mm k = Memory.read mm0 k

theorem SameOutside.refl (hm : Memory.wf (Config.mmDim * Config.mmDim) mm = true) : SameOutside d mm mm :=
  ⟨hm, fun _ _ => rfl⟩

/-- Of a key of the symbol, the cell. -/
theorem exists_cellKey_of_inSymbol {k : Nat} (h : inSymbol d k = true) : ∃ r c, r < d ∧ c < d ∧ cellKey r c = k := by
  simp only [inSymbol, Bool.and_eq_true, decide_eq_true_eq] at h
  exact ⟨_, _, h.1, h.2, Nat.div_add_mod' k Config.mmDim⟩

/-- Clearing forgets what the symbol held. -/
theorem SameOutside.clearMatrix_eq {mm0 : Memory ModuleCell} (hle : d ≤ Config.mmDim) (h : SameOutside d mm0 mm)
    (hm0 : Memory.wf (Config.mmDim * Config.mmDim) mm0 = true) : clearMatrix d mm = clearMatrix d mm0 := by
  refine Memory.ext_of_wfFrom (wf_clearMatrix hle h.wf) (wf_clearMatrix hle hm0) fun k => ?_
  by_cases hk : inSymbol d k = true
  · obtain ⟨r, c, hr, hc, rfl⟩ := exists_cellKey_of_inSymbol hk
    rw [read_clearMatrix_inside hr hc, read_clearMatrix_inside hr hc]
  · have hk := Bool.eq_false_iff.mpr hk
    rw [read_clearMatrix_outside hle hk, read_clearMatrix_outside hle hk, h.read k hk]

/-- A pass does not depend on what the symbol held. -/
theorem SameOutside.buildPass_eq {mm0 : Memory ModuleCell} (hle : d ≤ Config.mmDim) (h : SameOutside d mm0 mm)
    (hm0 : Memory.wf (Config.mmDim * Config.mmDim) mm0 = true) :
    buildPass d f bytes m test mm = buildPass d f bytes m test mm0 := by
  rw [buildPass, h.clearMatrix_eq hle hm0, ← buildPass]

theorem SameOutside.buildPass (hd : 21 ≤ d ∧ d ≤ Config.mmDim ∧ d % 2 = 1) (hcentres : centresOk f d)
    (hm : Memory.wf (Config.mmDim * Config.mmDim) mm = true) (h : buildPass d f bytes m test mm = .ok mm') :
    SameOutside d mm mm' :=
  ⟨wf_buildPass hd.2.1 hd.1 hcentres h hm, fun _ => read_buildPass_outside hd hcentres h⟩

end

/-! ## The seven commands -/

/-- The steps of a pass with MASK as it stands. -/
theorem buildPass_ok {d : Nat} {f : ParamCsrs} {bytes : List Byte} {test : Bool} {mm mm' : Memory ModuleCell}
    (h : buildPass d f bytes f.mask test mm = .ok mm') :
    ∃ m1 m2, placeAlign f (placeFinders d (clearMatrix d mm)) = .ok m1 ∧ placeTiming d m1 = .ok m2 ∧
      placeData d bytes f.mask.toNat (setAll (setAll m2 (formatStamps d f test)) (versionStamps d f test)) =
        .ok mm' := by
  obtain ⟨m1, h1, h⟩ := bind_ok h
  obtain ⟨m2, h2, h⟩ := bind_ok h
  exact ⟨m1, m2, h1, h2, h⟩

theorem exec_mxfmt_of_setAll {s : State} {d : Nat} {test : Bool} {mm : Memory ModuleCell} (hdim : dim s.csr = .ok d)
    (h : setAll s.mm (formatStamps d s.csr test) = mm) :
    exec (.mxfmt test) s = .next { s with mm := mm, pc := s.pc + 1 } :=
  h ▸ exec_mxfmt_of_dim hdim test

theorem exec_mxver_of_setAll {s : State} {d : Nat} {test : Bool} {mm : Memory ModuleCell} (hdim : dim s.csr = .ok d)
    (h : setAll s.mm (versionStamps d s.csr test) = mm) :
    exec (.mxver test) s = .next { s with mm := mm, pc := s.pc + 1 } :=
  h ▸ exec_mxver_of_dim hdim test

/-- The state after a command that sets cells of MM. -/
def painted (s : State) (mm : Memory ModuleCell) : State := { s with mm := mm, pc := s.pc + 1 }

section
variable (s : State) (mm : Memory ModuleCell)

@[simp] theorem painted_mm : (painted s mm).mm = mm := rfl
@[simp] theorem painted_dm : (painted s mm).dm = s.dm := rfl
@[simp] theorem painted_csr : (painted s mm).csr = s.csr := rfl
@[simp] theorem painted_status : (painted s mm).status = s.status := rfl
@[simp] theorem getX_painted (a : XReg) : (painted s mm).getX a = s.getX a := rfl

end

theorem runAll_cons {i : Instr} {rest : List Instr} {s : State} {mm : Memory ModuleCell} {o : Option State}
    (h : exec i s = .next (painted s mm)) (hf : s.status.fault = false) (hrest : runAll rest (painted s mm) = o) :
    runAll (i :: rest) s = o := by
  simp [runAll, h, hf, hrest]

section
variable {s : State} {c e : XReg} {d : Nat} {test : Bool} {bytes : List Byte} {mm : Memory ModuleCell}
  (hf : s.status.fault = false) (hdim : dim s.csr = .ok d) (hcentres : centresOk s.csr d)
  (hbytes : memReadSeq s.dm (s.getX c).toNat (s.getX e).toNat = .ok bytes)
include hf hdim hcentres hbytes

/-- The seven commands with MASK as it stands are a pass with that mask (R336). -/
theorem runAll_of_buildPass (h : buildPass d s.csr bytes s.csr.mask test s.mm = .ok mm) :
    ∃ t, runAll [.mxclr, .mxfnd, .mxaln, .mxtim, .mxfmt test, .mxver test, .mxdat c e] s = some t ∧ t.mm = mm := by
  obtain ⟨m1, m2, h1, h2, h⟩ := buildPass_ok h
  obtain ⟨m3, h3⟩ : ∃ m3, setAll m2 (formatStamps d s.csr test) = m3 := ⟨_, rfl⟩
  obtain ⟨m4, h4⟩ : ∃ m4, setAll m3 (versionStamps d s.csr test) = m4 := ⟨_, rfl⟩
  rw [h3, h4] at h
  refine ⟨_, runAll_cons (exec_mxclr_of_dim (d := d) ?_) ?_ <| runAll_cons (exec_mxfnd_of_dim (d := d) ?_) ?_ <|
    runAll_cons (exec_mxaln_of_placeAlign (d := d) ?_ ?_ (mm := m1) ?_) ?_ <|
    runAll_cons (exec_mxtim_of_placeTiming (d := d) ?_ (mm := m2) ?_) ?_ <|
    runAll_cons (exec_mxfmt_of_setAll (d := d) ?_ (mm := m3) ?_) ?_ <|
    runAll_cons (exec_mxver_of_setAll (d := d) ?_ (mm := m4) ?_) ?_ <|
    runAll_cons (exec_mxdat_of_placeData (d := d) ?_ (bytes := bytes) ?_ (mm := mm) ?_) ?_ rfl, rfl⟩
  all_goals simp only [painted_mm, painted_dm, painted_csr, painted_status, getX_painted, hf, hdim,
    hcentres, hbytes, h1, h2, h3, h4, h]

theorem buildCommands_of_buildPass {m : Nat} (h : buildPass d s.csr bytes (BitVec.ofNat 3 m) test s.mm = .ok mm) :
    ∃ t, buildCommands s m test c e = some t ∧ t.mm = mm :=
  runAll_of_buildPass (s := { s with csr := { s.csr with mask := BitVec.ofNat 3 m } }) hf hdim hcentres hbytes h

end

end Sys2Proof.Machine
end

section
/-! MXBLD (48_matrix R337): eight trials, the lowest mask of least penalty, and the last pass. -/

namespace Sys2Proof.Machine

open Sys2Proof.Claims

/-! ## The trials -/

/-- Of the masks below `n`, `b` is the lowest of least penalty. -/
def LeastBelow (pen : Nat → Nat) (n b : Nat) : Prop := b < n ∧ ∀ m < n, pen b ≤ pen m ∧ (m < b → pen b < pen m)

theorem LeastBelow.succ_of_lt {pen : Nat → Nat} {n b : Nat} (h : LeastBelow pen n b) (hlt : pen n < pen b) :
    LeastBelow pen (n + 1) n := by
  refine ⟨Nat.lt_succ_self n, fun m hm => ?_⟩
  obtain hm | rfl := Nat.lt_succ_iff_lt_or_eq.mp hm
  · have := (h.2 m hm).1
    exact ⟨by omega, fun _ => by omega⟩
  · exact ⟨le_rfl, fun h => absurd h (lt_irrefl m)⟩

theorem LeastBelow.succ_of_le {pen : Nat → Nat} {n b : Nat} (h : LeastBelow pen n b) (hle : pen b ≤ pen n) :
    LeastBelow pen (n + 1) b := by
  refine ⟨h.1.trans (Nat.lt_succ_self n), fun m hm => ?_⟩
  obtain hm | rfl := Nat.lt_succ_iff_lt_or_eq.mp hm
  · exact h.2 m hm
  · exact ⟨hle, fun hlt => absurd h.1 hlt.not_gt⟩

/-- What the trials below mask `m` have kept: nothing before the first, then the lowest mask of least penalty. -/
def KeptBelow (pen : Nat → Nat) (m : Nat) (best : Option (Nat × Nat)) : Prop :=
  (m = 0 ∧ best = none) ∨ ∃ b, best = some (b, pen b) ∧ LeastBelow pen m b

section
variable {d : Nat} {f : ParamCsrs} {bytes : List Byte} {mm0 mm : Memory ModuleCell} {trial : Nat → Memory ModuleCell}
  (hd : 21 ≤ d ∧ d ≤ Config.mmDim ∧ d % 2 = 1) (hcentres : centresOk f d)
  (hmm0 : Memory.wf (Config.mmDim * Config.mmDim) mm0 = true)
  (htrial : ∀ m, buildPass d f bytes (BitVec.ofNat 3 m) true mm0 = .ok (trial m) ∧ cellsColoured (trial m) d)
include hd hcentres hmm0 htrial

/-- Every trial builds on what the one before left, and gives what it would give on `mm0`. -/
theorem trialFrom_eq_ok {m : Nat} {best : Option (Nat × Nat)}
    (hbest : KeptBelow (fun m => score d (cellDark (trial m))) m best) (hmm : SameOutside d mm0 mm) (n : Nat) :
    ∃ best' mm', trialFrom d f bytes m n best mm = .ok (best', mm') ∧
      KeptBelow (fun m => score d (cellDark (trial m))) (m + n) best' ∧ SameOutside d mm0 mm' := by
  induction n generalizing m best mm with
  | zero => exact ⟨best, mm, rfl, hbest, hmm⟩
  | succ n ih =>
    obtain ⟨hbuild, hcoloured⟩ := htrial m
    rw [trialFrom, hmm.buildPass_eq hd.2.1 hmm0, hbuild, ok_bind, readMatrix_of_coloured hcoloured, ok_bind,
      penalty_rowsOf, show m + (n + 1) = m + 1 + n by omega]
    refine ih ?_ (.buildPass hd hcentres hmm0 hbuild)
    obtain ⟨rfl, rfl⟩ | ⟨b, rfl, hleast⟩ := hbest
    · exact .inr ⟨0, rfl, Nat.one_pos, fun m hm => by obtain rfl := Nat.lt_one_iff.mp hm; simp⟩
    · dsimp only
      split
      · next hlt => exact .inr ⟨m, rfl, hleast.succ_of_lt hlt⟩
      · next hle => exact .inr ⟨b, rfl, hleast.succ_of_le (not_lt.mp hle)⟩

/-- The eight trials keep the lowest mask of least penalty (R337). -/
theorem exists_trialFrom : ∃ b mm',
    trialFrom d f bytes 0 8 none mm0 = .ok (some (b, score d (cellDark (trial b))), mm') ∧
    LeastBelow (fun m => score d (cellDark (trial m))) 8 b ∧ SameOutside d mm0 mm' := by
  obtain ⟨best, mm', htrials, hbest, hmm'⟩ :=
    trialFrom_eq_ok hd hcentres hmm0 htrial (.inl ⟨rfl, rfl⟩) (.refl hmm0) 8
  obtain ⟨h, -⟩ | ⟨b, rfl, hleast⟩ := hbest
  · cases h
  · exact ⟨b, mm', htrials, hleast, hmm'⟩

end

/-! ## The command -/

theorem exists_memReadSeq {dm : Memory Byte} {a n : Nat} (h : bytesReady dm a n) :
    ∃ bytes, memReadSeq dm a n = .ok bytes := by
  obtain ⟨hfit, hread⟩ := h
  choose byte hbyte using fun k : Fin n => Option.isSome_iff_exists.mp (hread k k.isLt)
  refine ⟨List.ofFn byte, ?_⟩
  have hlen : (List.ofFn byte).length = n := List.length_ofFn
  conv_lhs => rw [← hlen]
  refine memReadSeq_of_read (by rw [hlen]; omega) fun k hk => ?_
  rw [hlen] at hk
  rw [hbyte ⟨k, hk⟩, List.getElem?_eq_getElem (by rwa [hlen]), List.getElem_ofFn]

/-- The end of MXBLD. -/
theorem finish_build {s : State} {a b : XReg} {m pen : Nat} {mm : Memory ModuleCell} :
    finish s (pure (((State.setX { s with mm := mm, csr := { s.csr with mask := BitVec.ofNat 3 m } } a
      (BitVec.ofNat 32 m)).setX b (BitVec.ofNat 32 pen)).advance)) =
    .next { s with
      mm := mm
      csr := { s.csr with mask := BitVec.ofNat 3 m }
      x := (s.x.set a.val (BitVec.ofNat 32 m)).set b.val (BitVec.ofNat 32 pen)
      pc := s.pc + 1 } := rfl

theorem exec_mxbld_of_trials {s : State} {a b c e : XReg} {d m pen : Nat} {bytes : List Byte}
    {mm mm' : Memory ModuleCell} (hab : a ≠ b) (hdim : dim s.csr = .ok d) (hcentres : centresOk s.csr d)
    (hbytes : memReadSeq s.dm (s.getX c).toNat (s.getX e).toNat = .ok bytes)
    (htrials : trialFrom d s.csr bytes 0 8 none s.mm = .ok (some (m, pen), mm))
    (hlast : buildPass d s.csr bytes (BitVec.ofNat 3 m) false mm = .ok mm') :
    exec (.mxbld a b c e) s = .next { s with
      mm := mm'
      csr := { s.csr with mask := BitVec.ofNat 3 m }
      x := (s.x.set a.val (BitVec.ofNat 32 m)).set b.val (BitVec.ofNat 32 pen)
      pc := s.pc + 1 } :=
  (congrArg (finish s) (if_neg hab)).trans <| finish_bind_of_ok hdim <|
    finish_bind_of_ok (checkCentres_of_ok hcentres) <| finish_bind_of_ok hbytes <| finish_bind_of_ok htrials <|
    finish_bind_of_ok hlast finish_build

/-- Settles O58: a pass is its seven commands, and gives the same on what an earlier pass left. -/
theorem buildCommand : Obligations.BuildCommand := by
  intro s a b c e d hinv hf hab hv hcentres hready
  have hdim := dim_of_versionOk hv
  have hd := dim_bounds hdim
  have hwf : Memory.wf (Config.mmDim * Config.mmDim) s.mm = true := by
    have := hinv.memories
    simp only [State.memoriesWf, Bool.and_eq_true] at this
    exact this.2
  obtain ⟨bytes, hbytes⟩ := exists_memReadSeq hready
  choose trial htrial using fun m : Nat =>
    exists_buildPass (bytes := bytes) (m := BitVec.ofNat 3 m) (test := true) (mm := s.mm) hd.1 hd.2.1 hd.2.2 hcentres
  choose state hstate using fun m => buildCommands_of_buildPass hf hdim hcentres hbytes (htrial m).1
  obtain ⟨m, mm, htrials, ⟨hm, hleast⟩, hmm⟩ := exists_trialFrom hd hcentres hwf htrial
  obtain ⟨last, hlast, hcoloured⟩ := exists_buildPass (bytes := bytes) (m := BitVec.ofNat 3 m) (test := false)
    (mm := s.mm) hd.1 hd.2.1 hd.2.2 hcentres
  obtain ⟨final, hfinal, rfl⟩ := buildCommands_of_buildPass hf hdim hcentres hbytes hlast
  have hscore (m : Nat) : score d (cellDark (trial m)) = score d (colours (state m)) := by
    rw [← (hstate m).2]
    rfl
  simp only [hscore] at hleast htrials
  refine ⟨m, state m, final, hm, (hstate m).1, hfinal, fun m' hm' => ⟨state m', (hstate m').1, ?_, hleast m' hm'⟩,
    hcoloured, exec_mxbld_of_trials hab hdim hcentres hbytes htrials ((hmm.buildPass_eq hd.2.1 hwf).trans hlast)⟩
  rw [(hstate m').2]
  exact (htrial m').2

end Sys2Proof.Machine
end

section
/-! The faults of each command are those of the tables (60_exceptions R350, R351). -/

namespace Sys2Proof.Machine

open Sys2Proof.Claims

/-! ## Chains of checks -/

/-- Every fault of the hardware in a chain satisfies `P`, and every answer of it `Q`. -/
def Faults {α : Type} (P : Cause → Nat → Prop) (Q : α → Prop) : Except Stop α → Prop
  | .ok a => Q a
  | .error (.raises c n) => P c n
  | .error (.sticks _) => True

/-- The chain raises only faults of which `P` holds. -/
abbrev FaultsOnly {α : Type} (P : Cause → Nat → Prop) (r : Except Stop α) : Prop := Faults P (fun _ => True) r

section
variable {α β : Type} {P : Cause → Nat → Prop} {Q : α → Prop} {R : β → Prop}

theorem Faults.pure {a : α} (h : Q a) : Faults P Q (pure a) := h

theorem Faults.raise {c : Cause} {n : Nat} (h : P c n) : Faults P Q (raise c n) := h

theorem Faults.of_ok {x : Except Stop α} (h : ∃ a, x = .ok a) : FaultsOnly P x := by
  obtain ⟨a, rfl⟩ := h
  trivial

theorem Faults.bind {x : Except Stop α} {f : α → Except Stop β} (hx : FaultsOnly P x)
    (hf : ∀ a, x = .ok a → Faults P R (f a)) : Faults P R (x >>= f) := by
  match x, hx with
  | .ok a, _ => exact hf a rfl
  | .error (.raises _ _), hx => exact hx
  | .error (.sticks _), _ => trivial

theorem Faults.ite {c : Prop} [Decidable c] {x y : Except Stop α} (hx : c → Faults P Q x) (hy : ¬ c → Faults P Q y) :
    Faults P Q (if c then x else y) := by
  split
  · next h => exact hx h
  · next h => exact hy h

end

variable {P : Cause → Nat → Prop}

/-! ## The checks and the units -/

theorem faults_badOperandIf (h : ∀ n, P .badOperand n) {bad : Bool} {v : Nat} : FaultsOnly P (badOperandIf bad v) :=
  .ite (fun _ => .raise (h v)) fun _ => trivial

theorem faults_dim (h : ∀ n, P .badOperand n) {f : ParamCsrs} : FaultsOnly P (dim f) :=
  .ite (fun _ => .raise (h _)) fun _ => trivial

theorem faults_checkCentres (h : ∀ n, P .badOperand n) {d : Nat} {cs : List Nat} :
    FaultsOnly P (checkCentres d cs) := by
  induction cs with
  | nil => trivial
  | cons c cs ih => exact .bind (faults_badOperandIf h) fun _ _ => ih

theorem faults_checkLayout (h : ∀ n, P .badOperand n) {f : ParamCsrs} : FaultsOnly P (checkLayout f) :=
  .bind (faults_badOperandIf h) fun _ _ => .bind (faults_badOperandIf h) fun _ _ => .bind (faults_badOperandIf h)
    fun _ _ => .bind (faults_badOperandIf h) fun _ _ => faults_badOperandIf h

theorem faults_fieldElement (h : P .domainError 3) {v : Word} : FaultsOnly P (fieldElement v) :=
  .ite (fun _ => .raise h) fun _ => trivial

theorem faults_fieldElements (h : P .domainError 3) {v w : Word} : FaultsOnly P (fieldElements v w) :=
  .bind (faults_fieldElement h) fun _ _ => .bind (faults_fieldElement h) fun _ _ => trivial

theorem faults_gfInv (h : P .domainError 2) {a : Byte} : FaultsOnly P (gfInv a) :=
  .ite (fun _ => .raise h) fun _ => trivial

theorem faults_gfLog (h : P .domainError 1) {a : Byte} : FaultsOnly P (gfLog a) :=
  .ite (fun _ => .raise h) fun _ => trivial

theorem faults_poly (h : P .domainError 4) {f : List Byte} : FaultsOnly P (poly f) :=
  .ite (fun _ => .raise h) fun _ => trivial

theorem faults_polyMul (h : P .domainError 5) {f g : List Byte} : FaultsOnly P (polyMul f g) :=
  .ite (fun _ => trivial) fun _ => .ite (fun _ => .raise h) fun _ => trivial

theorem faults_polyMulm (h : P .domainError 5) {f : List Byte} {d : Nat} {c : Byte} : FaultsOnly P (polyMulm f d c) :=
  .ite (fun _ => trivial) fun _ => .ite (fun _ => .raise h) fun _ => trivial

theorem faults_polyMono (h : P .domainError 5) {d : Nat} {c : Byte} : FaultsOnly P (polyMono d c) :=
  .ite (fun _ => trivial) fun _ => .ite (fun _ => .raise h) fun _ => trivial

theorem normal_of_poly {f g : List Byte} (h : poly f = .ok g) : Normal g := by
  obtain ⟨hf, rfl⟩ := poly_ok h
  exact stripZeros_eq_normalForm hf ▸ normal_normalForm hf

/-- Division of normal forms that fit p registers faults on the zero divisor only (44_polynomial R198). -/
theorem faults_polyMod (h : P .domainError 2) {f g : List Byte} (hf : Normal f) (hlen : f.length ≤ 256)
    (hg : Normal g) : FaultsOnly P (polyMod f g) := by
  by_cases hg0 : g = [0]
  · subst hg0
    exact polyMod_zero f ▸ .raise h
  · obtain ⟨-, r, hr, -⟩ := polyMod_spec hf hlen hg hg0
    exact .of_ok ⟨r, hr⟩

theorem faults_forneyFrom (h : P .domainError 2) {omega locs : List Byte} {i n : Nat} :
    FaultsOnly P (forneyFrom omega locs i n) := by
  induction n generalizing i with
  | zero => trivial
  | succ n ih =>
    exact .bind (faults_gfInv h) fun _ _ => .bind (faults_gfInv h) fun _ _ => .bind ih fun _ _ => trivial

theorem faults_positions (h : P .domainError 1) {n : Nat} {locs : List Byte} : FaultsOnly P (positions n locs) := by
  induction locs with
  | nil => trivial
  | cons loc locs ih =>
    refine .bind (faults_gfLog h) fun _ _ => .ite (fun _ => trivial) fun _ => .bind ih fun ps _ => ?_
    cases ps <;> trivial

theorem faults_rsCorrect (h : P .domainError 1) {c locs mags : List Byte} : FaultsOnly P (rsCorrect c locs mags) :=
  .bind (faults_positions h) fun ps _ => by cases ps <;> trivial

/-! ## Memories -/

theorem faults_checkRange (h : ∀ n, P .memRange n) {a n : Nat} : FaultsOnly P (checkRange a n) :=
  .ite (fun _ => .raise (h _)) fun _ => trivial

theorem faults_checkStream (h : ∀ n, P .memRange n) {base q n : Nat} : FaultsOnly P (checkStream base q n) :=
  .ite (fun _ => .raise (h _)) fun _ => trivial

theorem faults_writtenByte {dm : Memory Byte} {a : Nat} : FaultsOnly P (writtenByte dm a) := by
  unfold writtenByte
  split <;> trivial

theorem faults_writtenBytes {dm : Memory Byte} {a n : Nat} : FaultsOnly P (writtenBytes dm a n) := by
  induction n generalizing a with
  | zero => trivial
  | succ n ih => exact .bind faults_writtenByte fun _ _ => .bind ih fun _ _ => trivial

theorem faults_memRead (h : ∀ n, P .memRange n) {dm : Memory Byte} {a : Nat} : FaultsOnly P (memRead dm a) :=
  .ite (fun _ => faults_writtenByte) fun _ => .raise (h a)

theorem faults_memReadSeq (h : ∀ n, P .memRange n) {dm : Memory Byte} {a n : Nat} : FaultsOnly P (memReadSeq dm a n) :=
  .bind (faults_checkRange h) fun _ _ => faults_writtenBytes

theorem faults_memWrite (h : ∀ n, P .memRange n) {dm : Memory Byte} {a : Nat} {v : Byte} :
    FaultsOnly P (memWrite dm a v) :=
  .ite (fun _ => trivial) fun _ => .raise (h a)

theorem faults_memWriteSeq (h : ∀ n, P .memRange n) {dm : Memory Byte} {a : Nat} {bytes : List Byte} :
    FaultsOnly P (memWriteSeq dm a bytes) :=
  .bind (faults_checkRange h) fun _ _ => trivial

theorem faults_putBits {value : Word} {base n q : Nat} {dm : Memory Byte} :
    FaultsOnly P (putBits value base n q dm) := by
  induction n generalizing q dm with
  | zero => trivial
  | succ n ih => exact .bind (.ite (fun _ => trivial) fun _ => faults_writtenByte) fun _ _ => ih

theorem faults_bbPut (h : ∀ n, P .memRange n) {value : Word} {n : Nat} {s : State} : FaultsOnly P (bbPut value n s) :=
  .bind (faults_checkStream h) fun _ _ => .bind faults_putBits fun _ _ => trivial

theorem faults_padBytes (h : ∀ n, P .memRange n) {count k : Nat} {s : State} : FaultsOnly P (padBytes count k s) := by
  induction count generalizing k s with
  | zero => trivial
  | succ count ih => exact .bind (faults_bbPut h) fun _ _ => ih

theorem faults_bbPad (h : ∀ n, P .memRange n) (hover : ∀ n, P .dataOverflow n) {m : Nat} {s : State} :
    FaultsOnly P (bbPad m s) :=
  .ite (fun _ => .raise (hover _)) fun _ => .ite (fun _ => .raise (h _)) fun _ => .bind (faults_bbPut h) fun _ _ =>
    .bind (faults_bbPut h) fun _ _ => faults_padBytes h

theorem faults_readBits {dm : Memory Byte} {base n q : Nat} {v : Word} : FaultsOnly P (readBits dm base n q v) := by
  induction n generalizing q v with
  | zero => trivial
  | succ n ih => exact .bind faults_writtenByte fun _ _ => ih

section
variable {mm : Memory ModuleCell} {d r c : Nat}

theorem faults_writtenCell : FaultsOnly P (writtenCell mm r c) := by
  unfold writtenCell
  split <;> trivial

theorem faults_isDark (h : ∀ n, P .unsetModule n) : FaultsOnly P (isDark mm r c) :=
  .bind faults_writtenCell fun m _ => by
    cases m
    · exact .raise (h _)
    · trivial
    · trivial

theorem faults_readColours (h : ∀ n, P .unsetModule n) {cs : List (Nat × Nat)} : FaultsOnly P (readColours mm cs) := by
  induction cs with
  | nil => trivial
  | cons t ts ih => exact .bind (faults_isDark h) fun _ _ => .bind ih fun _ _ => trivial

theorem faults_readMatrix (h : ∀ n, P .unsetModule n) : FaultsOnly P (readMatrix d mm) := by
  have hrows : ∀ n r, FaultsOnly P (readRows d mm r n) := fun n => by
    induction n with
    | zero => exact fun _ => trivial
    | succ n ih => exact fun r => .bind (faults_readColours h) fun _ _ => .bind (ih (r + 1)) fun _ _ => trivial
  exact hrows d 0

theorem faults_setWhereUnset {stamps : List Stamp} : FaultsOnly P (setWhereUnset mm stamps) := by
  induction stamps generalizing mm with
  | nil => trivial
  | cons t ts ih => exact .bind faults_writtenCell fun _ _ => ih

theorem faults_placeAlignAt {cs : List (Nat × Nat)} : FaultsOnly P (placeAlignAt mm cs) := by
  induction cs generalizing mm with
  | nil => trivial
  | cons t ts ih => exact .bind faults_writtenCell fun _ _ => ih

theorem faults_placeFrom {bytes : List Byte} {m j : Nat} {cs : List (Nat × Nat)} :
    FaultsOnly P (placeFrom bytes m mm j cs) := by
  induction cs generalizing mm j with
  | nil => trivial
  | cons t ts ih => exact .bind faults_writtenCell fun _ _ => .ite (fun _ => ih) fun _ => ih

/-- The trials of MXBLD raise nothing: every pass leaves the symbol coloured. -/
theorem faults_trialFrom {f : ParamCsrs} {bytes : List Byte} (hd : 21 ≤ d ∧ d ≤ Config.mmDim ∧ d % 2 = 1)
    (hcentres : centresOk f d) {m n : Nat} {best : Option (Nat × Nat)} :
    FaultsOnly P (trialFrom d f bytes m n best mm) := by
  induction n generalizing m best mm with
  | zero => trivial
  | succ n ih =>
    obtain ⟨mm', hmm', hcoloured⟩ := exists_buildPass (bytes := bytes) (m := BitVec.ofNat 3 m) (test := true) (mm := mm)
      hd.1 hd.2.1 hd.2.2 hcentres
    rw [trialFrom, hmm', ok_bind, readMatrix_of_coloured hcoloured, ok_bind]
    exact ih

end

/-! ## The tables -/

/-- The tables give the command this cause, and a DomainError this sub-code (R350, R351). -/
def tabled (i : Instr) (c : Cause) (n : Nat) : Bool :=
  (raisable i).contains c && (c != .domainError || (subCodes i).contains n)

/-- A fault that the outcome records is one of the tables. -/
def FaultsAsTabled (i : Instr) (s : State) (o : Host.Outcome State Fault Refusal) : Prop :=
  ∀ t, o = .next t → t.status.fault = s.status.fault ∨ ∃ c n, tabled i c n = true ∧ t = s.enterFault c n

variable {i : Instr} {s : State}

theorem FaultsAsTabled.next {t : State} (h : t.status.fault = s.status.fault) : FaultsAsTabled i s (.next t) := by
  intro u hu
  injection hu with hu
  exact .inl (hu ▸ h)

theorem FaultsAsTabled.finish {r : Except Stop State}
    (h : Faults (fun c n => tabled i c n = true) (fun t => t.status.fault = s.status.fault) r) :
    FaultsAsTabled i s (finish s r) := by
  intro t ht
  obtain rfl | ⟨c, n, rfl, rfl⟩ := finish_next ht
  · exact .inl h
  · exact .inr ⟨c, n, h, rfl⟩

theorem status_branch (taken : Bool) (target : BitVec 10) : (s.branch taken target).status = s.status := by
  obtain h | h := s.branch_cases taken target <;> rw [h] <;> rfl

/-! ## The commands that do more than check -/

theorem faultsAsTabled_pmod {a b c : PReg} (hfit : VectorsFit s) :
    FaultsAsTabled (.pmod a b c) s (exec (.pmod a b c) s) := by
  refine .finish <| .bind (faults_poly rfl) fun f hf => .bind (faults_poly rfl) fun g hg =>
    .bind (faults_polyMod rfl (normal_of_poly hf) ((poly_length_le hf).trans (hfit b)) (normal_of_poly hg)) fun _ _ =>
    .pure rfl

theorem faultsAsTabled_rsgen {a : PReg} {b : XReg} : FaultsAsTabled (.rsgen a b) s (exec (.rsgen a b) s) := by
  refine .finish <| .bind (faults_badOperandIf fun _ => rfl) fun _ ht => .bind (.of_ok ?_) fun _ _ => .pure rfl
  obtain ⟨F, _, φ, hφ⟩ := exists_byteField
  obtain ⟨g, hg, -⟩ := rsGen_spec hφ (not_lt.mp (of_decide_eq_false (badOperandIf_ok ht)))
  exact ⟨g, hg⟩

theorem faultsAsTabled_rsenc {a b : PReg} {c : XReg} : FaultsAsTabled (.rsenc a b c) s (exec (.rsenc a b c) s) := by
  refine .finish <| .bind (faults_badOperandIf fun _ => rfl) fun _ ht => .bind (faults_badOperandIf fun _ => rfl)
    fun _ hk => .bind (faults_badOperandIf fun _ => rfl) fun _ hn => .bind (.of_ok ?_) fun _ _ => .pure rfl
  have ht := of_decide_eq_false (badOperandIf_ok ht)
  have hk := of_decide_eq_false (badOperandIf_ok hk)
  have hn := of_decide_eq_false (badOperandIf_ok hn)
  obtain ⟨F, _, φ, hφ⟩ := exists_byteField
  obtain ⟨ecc, hword, -⟩ := rsEncode_spec hφ (d := s.getP b) (t := (s.getX c).toNat)
    (fun h => hk (List.length_eq_zero_iff.mpr h)) (by omega) (not_lt.mp hn)
  exact ⟨_, hword⟩

theorem faultsAsTabled_rssyn {a : XReg} {b c : PReg} {d : XReg} :
    FaultsAsTabled (.rssyn a b c d) s (exec (.rssyn a b c d) s) := by
  refine .finish <| .bind (faults_badOperandIf fun _ => rfl) fun _ ht => .bind (faults_badOperandIf fun _ => rfl)
    fun _ hn => .bind (.of_ok ?_) fun _ _ => .pure rfl
  have ht := of_decide_eq_false (badOperandIf_ok ht)
  have hn := of_decide_eq_false (badOperandIf_ok hn)
  exact ⟨_, rsSyndromes_eq (fun h => hn (.inl (List.length_eq_zero_iff.mpr h))) (by omega)⟩

theorem faultsAsTabled_rseuc {a : XReg} {b c d : PReg} {e : XReg} (hbc : b ≠ c) :
    FaultsAsTabled (.rseuc a b c d e) s (exec (.rseuc a b c d e) s) := by
  refine .finish <| .ite (fun h => absurd h hbc) fun _ => .bind (faults_poly rfl) fun sx hsx =>
    .bind (faults_badOperandIf fun _ => rfl) fun _ ht => .bind (faults_badOperandIf fun _ => rfl) fun _ hdeg =>
    .bind (.of_ok ?_) fun r _ => by
      match r with
      | .error _ | .ok _ => exact .pure rfl
  have ht := of_decide_eq_false (badOperandIf_ok ht)
  have hdeg := of_decide_eq_false (badOperandIf_ok hdeg)
  obtain ⟨hne, rfl⟩ := poly_ok hsx
  rw [stripZeros_eq_normalForm hne] at hdeg ⊢
  simp only [degree] at hdeg
  obtain ⟨res, -, -, -, -, hres, -⟩ := rsEuclid_spec hne (t := (s.getX e).toNat) (by omega) (by omega) (by omega)
  exact ⟨res, hres⟩

theorem faultsAsTabled_rsdec {a b : XReg} {c d : PReg} {e : XReg} (hab : a ≠ b) :
    FaultsAsTabled (.rsdec a b c d e) s (exec (.rsdec a b c d e) s) := by
  refine .finish <| .ite (fun h => absurd h hab) fun _ => .bind (faults_badOperandIf fun _ => rfl) fun _ ht =>
    .bind (faults_badOperandIf fun _ => rfl) fun _ hn => .bind (.of_ok ?_) fun r _ => by
      match r with
      | .error _ | .ok _ => exact .pure rfl
  have ht := of_decide_eq_false (badOperandIf_ok ht)
  have hn := of_decide_eq_false (badOperandIf_ok hn)
  obtain ⟨res, hres, -⟩ := rsDecode_ends (word := s.getP d) (t := (s.getX e).toNat)
    (fun h => hn (.inl (List.length_eq_zero_iff.mpr h))) (by omega) (by omega)
  exact ⟨res, hres⟩

theorem faultsAsTabled_rschn {a : XReg} {b c : PReg} : FaultsAsTabled (.rschn a b c) s (exec (.rschn a b c) s) :=
  .finish <| .bind (faults_poly rfl) fun sigma _ => .bind (.of_ok ⟨_, rsChien_eq sigma⟩) fun r _ => by
    match r with
    | .error _ | .ok _ => exact .pure rfl

theorem faultsAsTabled_rscor {a : XReg} {b c d e : PReg} :
    FaultsAsTabled (.rscor a b c d e) s (exec (.rscor a b c d e) s) :=
  .finish <| .bind (faults_badOperandIf fun _ => rfl) fun _ _ => .bind (faults_rsCorrect rfl) fun r _ => by
    match r with
    | .error _ | .ok _ => exact .pure rfl

/-- The layouts that pass the checks are those CWENC accepts (47_codeword_bch R281). -/
theorem layoutOk_of_checkLayout {f : ParamCsrs} {u : Unit} (h : checkLayout f = .ok u) : layoutOk f := by
  obtain ⟨_, hc1, h⟩ := bind_ok h
  obtain ⟨_, hk1, h⟩ := bind_ok h
  obtain ⟨_, hn1, h⟩ := bind_ok h
  obtain ⟨_, hk2, hn2⟩ := bind_ok h
  have hc1 := of_decide_eq_false (badOperandIf_ok hc1)
  have hk1 := of_decide_eq_false (badOperandIf_ok hk1)
  have hn1 := of_decide_eq_false (badOperandIf_ok hn1)
  have hk2 := of_decide_eq_false (badOperandIf_ok hk2)
  have hn2 := of_decide_eq_false (badOperandIf_ok hn2)
  unfold layoutOk
  omega

theorem faultsAsTabled_cwenc {a b : XReg} : FaultsAsTabled (.cwenc a b) s (exec (.cwenc a b) s) := by
  refine .finish <| .bind (faults_checkLayout fun _ => rfl) fun _ hlayout => .bind (faults_checkRange fun _ => rfl)
    fun _ _ => .bind (faults_checkRange fun _ => rfl) fun _ _ => .bind (faults_badOperandIf fun _ => rfl) fun _ _ =>
    .bind (faults_memReadSeq fun _ => rfl) fun data hdata => .bind (.of_ok ?_) fun _ _ =>
    .bind (faults_memWriteSeq fun _ => rfl) fun _ _ => .pure rfl
  obtain ⟨pairs, hout, -⟩ := cwSequence_of_layoutOk (layoutOk_of_checkLayout hlayout) (memReadSeq_ok hdata).2
  exact ⟨_, hout⟩

theorem faultsAsTabled_bput {a b : XReg} : FaultsAsTabled (.bput a b) s (exec (.bput a b) s) :=
  .finish <| .bind (faults_badOperandIf fun _ => rfl) fun _ _ => .bind (faults_bbPut fun _ => rfl) fun _ hu =>
    .pure (congrArg Status.fault (bbPut_extends hu).registers.status)

theorem faultsAsTabled_bpad {a : XReg} : FaultsAsTabled (.bpad a) s (exec (.bpad a) s) := by
  refine .finish <| .bind (faults_badOperandIf fun _ => rfl) fun _ hm =>
    .bind (faults_bbPad (fun _ => rfl) fun _ => rfl) fun _ hu => .pure ?_
  have hm := not_not.mp (of_decide_eq_false (badOperandIf_ok hm))
  exact congrArg Status.fault (bbPad_extends (s.getX a).isLt hm hu).1.registers.status

theorem faultsAsTabled_mxbld {a b c e : XReg} (hab : a ≠ b) :
    FaultsAsTabled (.mxbld a b c e) s (exec (.mxbld a b c e) s) := by
  refine .finish <| .ite (fun h => absurd h hab) fun _ => .bind (faults_dim fun _ => rfl) fun d hdim =>
    .bind (faults_checkCentres fun _ => rfl) fun _ hcentres => .bind (faults_memReadSeq fun _ => rfl) fun bytes _ =>
    .bind (faults_trialFrom (dim_bounds hdim) (checkCentres_ok hcentres)) fun _ _ => .bind (.of_ok ?_) fun _ _ =>
    .pure rfl
  obtain ⟨h21, hle, hodd⟩ := dim_bounds hdim
  obtain ⟨mm, hmm, -⟩ := exists_buildPass h21 hle hodd (checkCentres_ok hcentres)
  exact ⟨mm, hmm⟩

/-! ## All commands -/

/-- Every well-formed command on p registers that fit raises what the tables give it. -/
theorem exec_faultsAsTabled (i : Instr) (hwf : i.wf = true) (hfit : VectorsFit s) : FaultsAsTabled i s (exec i s) :=
  match i, hwf with
  | .nop, _ | .halt, _ | .jmp _, _ | .li _ _, _ | .lih _ _, _ | .addi _ _ _, _ | .add _ _ _, _ | .sub _ _ _, _
  | .and _ _ _, _ | .or _ _ _, _ | .xor _ _ _, _ | .slli _ _ _, _ | .srli _ _ _, _ | .plen _ _, _ | .pmov _ _, _
  | .gfexp _ _, _ | .blen _, _ | .bavl _, _ => .next rfl
  | .bz _ _, _ | .bnz _ _, _ | .bltu _ _ _, _ => .next (congrArg Status.fault (status_branch ..))
  | .csrr _ _, hwf | .csrw _ _, hwf => .finish (.ite (fun _ => .pure rfl) fun h => absurd hwf h)
  | .lb _ _ _, _ => .finish (.bind (faults_memRead fun _ => rfl) fun _ _ => .pure rfl)
  | .sb _ _ _, _ => .finish (.bind (faults_memWrite fun _ => rfl) fun _ _ => .pure rfl)
  | .pld _ _ _, _ => .finish (.bind (faults_badOperandIf fun _ => rfl) fun _ _ =>
      .bind (faults_memReadSeq fun _ => rfl) fun _ _ => .pure rfl)
  | .pst _ _, _ => .finish (.bind (faults_memWriteSeq fun _ => rfl) fun _ _ => .pure rfl)
  | .gfadd _ _ _, _ | .gfmul _ _ _, _ => .finish (.bind (faults_fieldElements rfl) fun _ _ => .pure rfl)
  | .gfinv _ _, _ => .finish (.bind (faults_fieldElement rfl) fun _ _ => .bind (faults_gfInv rfl) fun _ _ => .pure rfl)
  | .gflog _ _, _ => .finish (.bind (faults_fieldElement rfl) fun _ _ => .bind (faults_gfLog rfl) fun _ _ => .pure rfl)
  | .pnorm _ _, _ | .pdeg _ _, _ | .pcoef _ _ _, _ => .finish (.bind (faults_poly rfl) fun _ _ => .pure rfl)
  | .peval _ _ _, _ => .finish (.bind (faults_fieldElement rfl) fun _ _ => .bind (faults_poly rfl) fun _ _ => .pure rfl)
  | .pmul _ _ _, _ => .finish (.bind (faults_poly rfl) fun _ _ => .bind (faults_poly rfl) fun _ _ =>
      .bind (faults_polyMul rfl) fun _ _ => .pure rfl)
  | .pmulm _ _ _ _, _ => .finish (.bind (faults_fieldElement rfl) fun _ _ => .bind (faults_poly rfl) fun _ _ =>
      .bind (faults_polyMulm rfl) fun _ _ => .pure rfl)
  | .padd _ _ _, _ => .finish (.bind (faults_poly rfl) fun _ _ => .bind (faults_poly rfl) fun _ _ => .pure rfl)
  | .pmod _ _ _, _ => faultsAsTabled_pmod hfit
  | .pmono _ _ _, _ => .finish (.bind (faults_fieldElement rfl) fun _ _ => .bind (faults_polyMono rfl) fun _ _ =>
      .pure rfl)
  | .rsgen _ _, _ => faultsAsTabled_rsgen
  | .rsenc _ _ _, _ => faultsAsTabled_rsenc
  | .rssyn _ _ _ _, _ => faultsAsTabled_rssyn
  | .rseuc _ _ _ _ _, hwf => faultsAsTabled_rseuc (bne_iff_ne.mp hwf)
  | .rschn _ _ _, _ => faultsAsTabled_rschn
  | .rsfrn _ _ _, _ => .finish (.bind (faults_poly rfl) fun _ _ => .bind (faults_forneyFrom rfl) fun _ _ => .pure rfl)
  | .rscor _ _ _ _ _, _ => faultsAsTabled_rscor
  | .rsdec _ _ _ _ _, hwf => faultsAsTabled_rsdec (bne_iff_ne.mp hwf)
  | .bput _ _, _ => faultsAsTabled_bput
  | .bpad _, _ => faultsAsTabled_bpad
  | .bread _ _, _ => .finish (.bind (faults_badOperandIf fun _ => rfl) fun _ _ => .ite (fun _ => .raise rfl) fun _ =>
      .bind (faults_checkStream fun _ => rfl) fun _ _ => .bind faults_readBits fun _ _ => .pure rfl)
  | .cwenc _ _, _ => faultsAsTabled_cwenc
  | .bchf _ _, _ | .bchv _ _, _ => .finish (.bind (faults_badOperandIf fun _ => rfl) fun _ _ => .pure rfl)
  | .mxclr, _ | .mxfnd, _ | .mxfmt _, _ | .mxver _, _ => .finish (.bind (faults_dim fun _ => rfl) fun _ _ => .pure rfl)
  | .mxaln, _ => .finish (.bind (faults_dim fun _ => rfl) fun _ _ => .bind (faults_checkCentres fun _ => rfl) fun _ _ =>
      .bind faults_placeAlignAt fun _ _ => .pure rfl)
  | .mxtim, _ => .finish (.bind (faults_dim fun _ => rfl) fun _ _ => .bind faults_setWhereUnset fun _ _ => .pure rfl)
  | .mxdat _ _, _ => .finish (.bind (faults_dim fun _ => rfl) fun _ _ => .bind (faults_memReadSeq fun _ => rfl)
      fun _ _ => .bind faults_placeFrom fun _ _ => .pure rfl)
  | .mxpen _, _ => .finish (.bind (faults_dim fun _ => rfl) fun _ _ => .bind (faults_readMatrix fun _ => rfl) fun _ _ =>
      .pure rfl)
  | .mxbld _ _ _ _, hwf => faultsAsTabled_mxbld (bne_iff_ne.mp hwf)
  | .mxget _ _ _, _ => .finish (.bind (faults_dim fun _ => rfl) fun _ _ => .bind (faults_badOperandIf fun _ => rfl)
      fun _ _ => .bind (faults_badOperandIf fun _ => rfl) fun _ _ => .bind (faults_isDark fun _ => rfl) fun _ _ =>
      .pure rfl)
  | .mxmsk _ _ _ _, _ => .finish (.bind (faults_badOperandIf fun _ => rfl) fun _ _ => .bind (faults_badOperandIf
      fun _ => rfl) fun _ _ => .bind (faults_badOperandIf fun _ => rfl) fun _ _ => .pure rfl)
  | .mxout _, _ => .finish (.bind (faults_dim fun _ => rfl) fun _ _ => .bind (faults_readMatrix fun _ => rfl) fun _ _ =>
      .bind (faults_checkRange fun _ => rfl) fun _ _ => .bind (faults_memWriteSeq fun _ => rfl) fun _ _ => .pure rfl)

theorem subCodes_le (i : Instr) : ∀ n ∈ subCodes i, n ≤ 5 := by
  cases i <;> simp [subCodes]

theorem Cause.eq_domainError_of_code {c : Cause} (h : c.code = 3) : c = .domainError := by
  revert h
  cases c <;> decide

/-- Settles O16: a command that enters a fault enters one of its tables. -/
theorem faultCausesAsTabled : Obligations.FaultCausesAsTabled := by
  intro i s t hwf hfit hf ht hfault
  obtain hkept | ⟨c, n, htabled, rfl⟩ := exec_faultsAsTabled i hwf hfit t ht
  · rw [hkept, hf] at hfault
    cases hfault
  rw [tabled, Bool.and_eq_true, List.contains_iff_mem] at htabled
  obtain ⟨hcause, hcode⟩ := htabled
  refine ⟨⟨c, hcause, rfl⟩, fun h3 => ?_⟩
  obtain rfl := Cause.eq_domainError_of_code h3
  have hmem : n ∈ subCodes i := by simpa using hcode
  have hn := subCodes_le i n hmem
  rwa [State.enterFault_tval, BitVec.toNat_ofNat, Nat.mod_eq_of_lt (by omega)]

end Sys2Proof.Machine
end
